-- ==== Sys2Proof/Word.lean ====
section
/-! DEFINITION. The word types and their plainest arithmetic (spec 00_scope.md R11, R12). -/

namespace Sys2Proof

/-- A 32-bit word: registers, addresses, CSRs (R6: XLEN = 32). -/
abbrev Word := BitVec 32

/-- A 16-bit parcel or half-word (R11). -/
abbrev Half := BitVec 16

/-- A byte of memory. -/
abbrev Byte := BitVec 8

/-- A register number x0..x31 (R20). -/
abbrev Reg := BitVec 5

/-- A compressed register field: x8..x15 (R232). -/
abbrev CReg := BitVec 3

/-- The register a 3-bit compressed field names: number 8 + field (R232). -/
def CReg.full (r : CReg) : Reg := 1#2 ++ r

/-- The length of an instruction: 16 or 32 bits (R220). -/
inductive Len
  | half
  | word
deriving DecidableEq, Repr

/-- Bytes of an instruction, what a pc that is not assigned advances by (R24). -/
def Len.bytes : Len → Word
  | .half => 2#32
  | .word => 4#32

/-- The width of a data access: 1, 2 or 4 bytes (R149). -/
inductive Size
  | byte
  | half
  | word
deriving DecidableEq, Repr

/-- Bytes of a data access. -/
def Size.bytes : Size → Nat
  | .byte => 1
  | .half => 2
  | .word => 4

end Sys2Proof
end

