-- ==== Sys2Proof/WellFormed.lean ====
section
/-! DEFINITION. Which terms of Instr are instructions: the reserved and the overlapping compressed encodings are ruled out
(R231, R234). -/

namespace Sys2Proof

/-- An instruction whose encoding is neither reserved nor another instruction's (R234 and the conditions of R231). Every field
of a 32-bit row has only legal values, so those rows are always well formed. -/
def Instr.wf : Instr → Bool
  | .cAddi4spn _ imm => imm != 0#8
  | .cAddi rd _ => rd != 0#5
  | .cAddi16sp imm => imm != 0#6
  | .cLui rd imm => rd != 2#5 && imm != 0#6
  | .cLwsp rd _ => rd != 0#5
  | .cJr rs1 => rs1 != 0#5
  | .cJalr rs1 => rs1 != 0#5
  | .cMv _ rs2 => rs2 != 0#5
  | .cAdd _ rs2 => rs2 != 0#5
  | .ecall | .ebreak | .mret | .wfi => true
  | .lui _ _ | .auipc _ _ => true
  | .addi _ _ _ | .slti _ _ _ | .sltiu _ _ _ | .xori _ _ _ | .ori _ _ _ | .andi _ _ _ => true
  | .slli _ _ _ | .srli _ _ _ | .srai _ _ _ => true
  | .add _ _ _ | .sub _ _ _ | .sll _ _ _ | .slt _ _ _ | .sltu _ _ _ => true
  | .xor _ _ _ | .srl _ _ _ | .sra _ _ _ | .or _ _ _ | .and _ _ _ => true
  | .jal _ _ | .jalr _ _ _ => true
  | .beq _ _ _ | .bne _ _ _ | .blt _ _ _ | .bge _ _ _ | .bltu _ _ _ | .bgeu _ _ _ => true
  | .lb _ _ _ | .lh _ _ _ | .lw _ _ _ | .lbu _ _ _ | .lhu _ _ _ => true
  | .sb _ _ _ | .sh _ _ _ | .sw _ _ _ => true
  | .mul _ _ _ | .mulh _ _ _ | .mulhsu _ _ _ | .mulhu _ _ _ => true
  | .div _ _ _ | .divu _ _ _ | .rem _ _ _ | .remu _ _ _ => true
  | .fence _ _ _ _ _ | .fenceI _ _ _ => true
  | .csrrw _ _ _ | .csrrs _ _ _ | .csrrc _ _ _ | .csrrwi _ _ _ | .csrrsi _ _ _ | .csrrci _ _ _ => true
  | .cLw _ _ _ | .cSw _ _ _ | .cNop _ | .cJal _ | .cLi _ _ => true
  | .cSrli _ _ | .cSrai _ _ | .cAndi _ _ | .cSub _ _ | .cXor _ _ | .cOr _ _ | .cAnd _ _ => true
  | .cJ _ | .cBeqz _ _ | .cBnez _ _ | .cSlli _ _ | .cEbreak | .cSwsp _ _ => true

end Sys2Proof
end

