-- ==== Sys2Proof/Decode.lean ====
section
/-! DEFINITION. Decoding of the instruction bits, total and rejecting by name, and the encoder beside it (R220-R236). -/

namespace Sys2Proof

/-- The bits of one fetched instruction: a 16-bit parcel or a 32-bit word (R221). -/
inductive Enc
  | half (c : BitVec 16)
  | word (w : BitVec 32)
deriving DecidableEq, Repr

/-- The instruction bits as mtval holds them: a parcel is zero-extended (R431). -/
def Enc.bits : Enc → Word
  | .half c => c.setWidth 32
  | .word w => w

/-- The length of the encoding. -/
def Enc.len : Enc → Len
  | .half _ => .half
  | .word _ => .word

/-- The bytes in memory, lowest address first (R148, R220). -/
def Enc.bytes : Enc → List Byte
  | .half c => [c.extractLsb' 0 8, c.extractLsb' 8 8]
  | .word w => [w.extractLsb' 0 8, w.extractLsb' 8 8, w.extractLsb' 16 8, w.extractLsb' 24 8]

/-- Why bits are no instruction (R229); each raises Illegal instruction. -/
inductive Reject
  /-- A 32-bit word that matches no row of R225. -/
  | noRow32
  /-- A parcel that matches no row of R231, or the all-zero parcel. -/
  | noRow16
  /-- A reserved compressed encoding (R234). -/
  | reserved16
  /-- A length code above 32 bits (R221). -/
  | longEncoding
  /-- Fewer bytes than the instruction's length needs. -/
  | truncated
deriving DecidableEq, Repr

/-! ## 32-bit words (R222-R228) -/

/-- Immediate field of the S format: inst[31:25], inst[11:7] (R223). -/
def immS (w : BitVec 32) : BitVec 12 := w.extractLsb' 25 7 ++ w.extractLsb' 7 5

/-- Immediate bits 12:1 of the B format (R223). -/
def immB (w : BitVec 32) : BitVec 12 :=
  w.extractLsb' 31 1 ++ w.extractLsb' 7 1 ++ w.extractLsb' 25 6 ++ w.extractLsb' 8 4

/-- Immediate bits 20:1 of the J format (R223). -/
def immJ (w : BitVec 32) : BitVec 20 :=
  w.extractLsb' 31 1 ++ w.extractLsb' 12 8 ++ w.extractLsb' 20 1 ++ w.extractLsb' 21 10

/-- OP: funct7 and funct3 select the instruction (R225). -/
def decodeOp (f7 : BitVec 7) (f3 : BitVec 3) (rd rs1 rs2 : Reg) : Except Reject Instr :=
  if f7 = 0x00#7 then
    .ok (if f3 = 0#3 then .add rd rs1 rs2 else if f3 = 1#3 then .sll rd rs1 rs2
      else if f3 = 2#3 then .slt rd rs1 rs2 else if f3 = 3#3 then .sltu rd rs1 rs2
      else if f3 = 4#3 then .xor rd rs1 rs2 else if f3 = 5#3 then .srl rd rs1 rs2
      else if f3 = 6#3 then .or rd rs1 rs2 else .and rd rs1 rs2)
  else if f7 = 0x20#7 then
    if f3 = 0#3 then .ok (.sub rd rs1 rs2) else if f3 = 5#3 then .ok (.sra rd rs1 rs2) else .error .noRow32
  else if f7 = 0x01#7 then
    .ok (if f3 = 0#3 then .mul rd rs1 rs2 else if f3 = 1#3 then .mulh rd rs1 rs2
      else if f3 = 2#3 then .mulhsu rd rs1 rs2 else if f3 = 3#3 then .mulhu rd rs1 rs2
      else if f3 = 4#3 then .div rd rs1 rs2 else if f3 = 5#3 then .divu rd rs1 rs2
      else if f3 = 6#3 then .rem rd rs1 rs2 else .remu rd rs1 rs2)
  else .error .noRow32

/-- OP-IMM; the shifts check inst[31:25] (R225, R226). -/
def decodeOpImm (f7 : BitVec 7) (f3 : BitVec 3) (rd rs1 : Reg) (imm : BitVec 12) (shamt : BitVec 5) :
    Except Reject Instr :=
  if f3 = 0#3 then .ok (.addi rd rs1 imm)
  else if f3 = 2#3 then .ok (.slti rd rs1 imm)
  else if f3 = 3#3 then .ok (.sltiu rd rs1 imm)
  else if f3 = 4#3 then .ok (.xori rd rs1 imm)
  else if f3 = 6#3 then .ok (.ori rd rs1 imm)
  else if f3 = 7#3 then .ok (.andi rd rs1 imm)
  else if f3 = 1#3 then (if f7 = 0x00#7 then .ok (.slli rd rs1 shamt) else .error .noRow32)
  else if f7 = 0x00#7 then .ok (.srli rd rs1 shamt)
  else if f7 = 0x20#7 then .ok (.srai rd rs1 shamt)
  else .error .noRow32

/-- LOAD (R225). -/
def decodeLoad (f3 : BitVec 3) (rd rs1 : Reg) (imm : BitVec 12) : Except Reject Instr :=
  if f3 = 0#3 then .ok (.lb rd rs1 imm) else if f3 = 1#3 then .ok (.lh rd rs1 imm)
  else if f3 = 2#3 then .ok (.lw rd rs1 imm) else if f3 = 4#3 then .ok (.lbu rd rs1 imm)
  else if f3 = 5#3 then .ok (.lhu rd rs1 imm) else .error .noRow32

/-- STORE (R225). -/
def decodeStore (f3 : BitVec 3) (rs1 rs2 : Reg) (imm : BitVec 12) : Except Reject Instr :=
  if f3 = 0#3 then .ok (.sb rs1 rs2 imm) else if f3 = 1#3 then .ok (.sh rs1 rs2 imm)
  else if f3 = 2#3 then .ok (.sw rs1 rs2 imm) else .error .noRow32

/-- BRANCH (R225). -/
def decodeBranch (f3 : BitVec 3) (rs1 rs2 : Reg) (imm : BitVec 12) : Except Reject Instr :=
  if f3 = 0#3 then .ok (.beq rs1 rs2 imm) else if f3 = 1#3 then .ok (.bne rs1 rs2 imm)
  else if f3 = 4#3 then .ok (.blt rs1 rs2 imm) else if f3 = 5#3 then .ok (.bge rs1 rs2 imm)
  else if f3 = 6#3 then .ok (.bltu rs1 rs2 imm) else if f3 = 7#3 then .ok (.bgeu rs1 rs2 imm)
  else .error .noRow32

/-- SYSTEM (R227): the funct3 = 0 rows are whole words, the others are the CSR instructions. -/
def decodeSystem (w : BitVec 32) (f3 : BitVec 3) (rd rs1 : Reg) (csr : BitVec 12) : Except Reject Instr :=
  if f3 = 1#3 then .ok (.csrrw rd csr rs1) else if f3 = 2#3 then .ok (.csrrs rd csr rs1)
  else if f3 = 3#3 then .ok (.csrrc rd csr rs1) else if f3 = 5#3 then .ok (.csrrwi rd csr rs1)
  else if f3 = 6#3 then .ok (.csrrsi rd csr rs1) else if f3 = 7#3 then .ok (.csrrci rd csr rs1)
  else if w = 0x00000073#32 then .ok .ecall
  else if w = 0x00100073#32 then .ok .ebreak
  else if w = 0x30200073#32 then .ok .mret
  else if w = 0x10500073#32 then .ok .wfi
  else .error .noRow32

/-- A 32-bit word (R224, R225). -/
def decode32 (w : BitVec 32) : Except Reject Instr :=
  let op : BitVec 7 := w.extractLsb' 0 7
  let rd : Reg := w.extractLsb' 7 5
  let f3 : BitVec 3 := w.extractLsb' 12 3
  let rs1 : Reg := w.extractLsb' 15 5
  let rs2 : Reg := w.extractLsb' 20 5
  let f7 : BitVec 7 := w.extractLsb' 25 7
  let immI : BitVec 12 := w.extractLsb' 20 12
  let immU : BitVec 20 := w.extractLsb' 12 20
  if op = 0x37#7 then .ok (.lui rd immU)
  else if op = 0x17#7 then .ok (.auipc rd immU)
  else if op = 0x6F#7 then .ok (.jal rd (immJ w))
  else if op = 0x67#7 then (if f3 = 0#3 then .ok (.jalr rd rs1 immI) else .error .noRow32)
  else if op = 0x63#7 then decodeBranch f3 rs1 rs2 (immB w)
  else if op = 0x03#7 then decodeLoad f3 rd rs1 immI
  else if op = 0x23#7 then decodeStore f3 rs1 rs2 (immS w)
  else if op = 0x13#7 then decodeOpImm f7 f3 rd rs1 immI rs2
  else if op = 0x33#7 then decodeOp f7 f3 rd rs1 rs2
  else if op = 0x0F#7 then
    if f3 = 0#3 then .ok (.fence (w.extractLsb' 28 4) (w.extractLsb' 24 4) (w.extractLsb' 20 4) rs1 rd)
    else if f3 = 1#3 then .ok (.fenceI immI rs1 rd)
    else .error .noRow32
  else if op = 0x73#7 then decodeSystem w f3 rd rs1 immI
  else if w.extractLsb' 2 3 = 7#3 then .error .longEncoding
  else .error .noRow32

/-! ## 16-bit parcels (R230-R234) -/

/-- nzuimm[9:2] of c.addi4spn (R233). -/
def immCiw (c : BitVec 16) : BitVec 8 :=
  c.extractLsb' 7 4 ++ c.extractLsb' 11 2 ++ c.extractLsb' 5 1 ++ c.extractLsb' 6 1

/-- uimm[6:2] of c.lw and c.sw (R233). -/
def immCl (c : BitVec 16) : BitVec 5 := c.extractLsb' 5 1 ++ c.extractLsb' 10 3 ++ c.extractLsb' 6 1

/-- imm[5:0] of the CI format (R233). -/
def immCi (c : BitVec 16) : BitVec 6 := c.extractLsb' 12 1 ++ c.extractLsb' 2 5

/-- imm[11:1] of c.j and c.jal (R233). -/
def immCj (c : BitVec 16) : BitVec 11 :=
  c.extractLsb' 12 1 ++ c.extractLsb' 8 1 ++ c.extractLsb' 9 2 ++ c.extractLsb' 6 1 ++ c.extractLsb' 7 1 ++
    c.extractLsb' 2 1 ++ c.extractLsb' 11 1 ++ c.extractLsb' 3 3

/-- nzimm[9:4] of c.addi16sp (R233). -/
def immC16sp (c : BitVec 16) : BitVec 6 :=
  c.extractLsb' 12 1 ++ c.extractLsb' 3 2 ++ c.extractLsb' 5 1 ++ c.extractLsb' 2 1 ++ c.extractLsb' 6 1

/-- offset[8:1] of c.beqz and c.bnez (R233). -/
def immCb (c : BitVec 16) : BitVec 8 :=
  c.extractLsb' 12 1 ++ c.extractLsb' 5 2 ++ c.extractLsb' 2 1 ++ c.extractLsb' 10 2 ++ c.extractLsb' 3 2

/-- uimm[7:2] of c.lwsp (R233). -/
def immCLwsp (c : BitVec 16) : BitVec 6 := c.extractLsb' 2 2 ++ c.extractLsb' 12 1 ++ c.extractLsb' 4 3

/-- uimm[7:2] of c.swsp (R233). -/
def immCSwsp (c : BitVec 16) : BitVec 6 := c.extractLsb' 7 2 ++ c.extractLsb' 9 4

/-- Refuse a reserved value of a compressed row (R234). -/
def unlessReserved (reserved : Bool) (i : Instr) : Except Reject Instr :=
  if reserved then .error .reserved16 else .ok i

/-- Quadrant 0 (R231). -/
def decodeQ0 (c : BitVec 16) (f3 : BitVec 3) : Except Reject Instr :=
  let r2 : CReg := c.extractLsb' 2 3
  let r1 : CReg := c.extractLsb' 7 3
  if f3 = 0#3 then
    if c = 0#16 then .error .noRow16 else unlessReserved (immCiw c == 0#8) (.cAddi4spn r2 (immCiw c))
  else if f3 = 2#3 then .ok (.cLw r2 r1 (immCl c))
  else if f3 = 6#3 then .ok (.cSw r1 r2 (immCl c))
  else .error .noRow16

/-- Quadrant 1, funct3 100: the shifts, c.andi and the CA rows (R231). -/
def decodeCA (c : BitVec 16) : Except Reject Instr :=
  let r1 : CReg := c.extractLsb' 7 3
  let r2 : CReg := c.extractLsb' 2 3
  let b12 : BitVec 1 := c.extractLsb' 12 1
  let f2 : BitVec 2 := c.extractLsb' 10 2
  let g2 : BitVec 2 := c.extractLsb' 5 2
  if f2 = 0#2 then unlessReserved (b12 == 1#1) (.cSrli r1 (c.extractLsb' 2 5))
  else if f2 = 1#2 then unlessReserved (b12 == 1#1) (.cSrai r1 (c.extractLsb' 2 5))
  else if f2 = 2#2 then .ok (.cAndi r1 (immCi c))
  else if b12 = 1#1 then .error .noRow16
  else if g2 = 0#2 then .ok (.cSub r1 r2)
  else if g2 = 1#2 then .ok (.cXor r1 r2)
  else if g2 = 2#2 then .ok (.cOr r1 r2)
  else .ok (.cAnd r1 r2)

/-- Quadrant 1 (R231). -/
def decodeQ1 (c : BitVec 16) (f3 : BitVec 3) : Except Reject Instr :=
  let rd : Reg := c.extractLsb' 7 5
  if f3 = 0#3 then (if rd = 0#5 then .ok (.cNop (immCi c)) else .ok (.cAddi rd (immCi c)))
  else if f3 = 1#3 then .ok (.cJal (immCj c))
  else if f3 = 2#3 then .ok (.cLi rd (immCi c))
  else if f3 = 3#3 then
    if rd = 2#5 then unlessReserved (immC16sp c == 0#6) (.cAddi16sp (immC16sp c))
    else unlessReserved (immCi c == 0#6) (.cLui rd (immCi c))
  else if f3 = 4#3 then decodeCA c
  else if f3 = 5#3 then .ok (.cJ (immCj c))
  else if f3 = 6#3 then .ok (.cBeqz (c.extractLsb' 7 3) (immCb c))
  else .ok (.cBnez (c.extractLsb' 7 3) (immCb c))

/-- Quadrant 2 (R231). -/
def decodeQ2 (c : BitVec 16) (f3 : BitVec 3) : Except Reject Instr :=
  let rd : Reg := c.extractLsb' 7 5
  let rs2 : Reg := c.extractLsb' 2 5
  let b12 : BitVec 1 := c.extractLsb' 12 1
  if f3 = 0#3 then unlessReserved (b12 == 1#1) (.cSlli rd rs2)
  else if f3 = 2#3 then unlessReserved (rd == 0#5) (.cLwsp rd (immCLwsp c))
  else if f3 = 4#3 then
    if b12 = 0#1 then
      if rs2 = 0#5 then unlessReserved (rd == 0#5) (.cJr rd) else .ok (.cMv rd rs2)
    else if rs2 = 0#5 then (if rd = 0#5 then .ok .cEbreak else .ok (.cJalr rd))
    else .ok (.cAdd rd rs2)
  else if f3 = 6#3 then .ok (.cSwsp rs2 (immCSwsp c))
  else .error .noRow16

/-- A 16-bit parcel (R231); a parcel of quadrant 3 is no 16-bit instruction. -/
def decode16 (c : BitVec 16) : Except Reject Instr :=
  let f3 : BitVec 3 := c.extractLsb' 13 3
  let q : BitVec 2 := c.extractLsb' 0 2
  if q = 0#2 then decodeQ0 c f3
  else if q = 1#2 then decodeQ1 c f3
  else if q = 2#2 then decodeQ2 c f3
  else .error .noRow16

/-- Decode fetched bits (R236 step 3). -/
def decode : Enc → Except Reject Instr
  | .half c => decode16 c
  | .word w => decode32 w

/-- Decode a byte string: the length from the two low bits of the first parcel (R221), the rest is returned. -/
def decodeBytes : List Byte → Except Reject (Instr × List Byte)
  | b0 :: b1 :: rest =>
    if b0.extractLsb' 0 2 = 3#2 then
      match rest with
      | b2 :: b3 :: rest' => (decode32 (b3 ++ b2 ++ b1 ++ b0)).map (·, rest')
      | _ => .error .truncated
    else (decode16 (b1 ++ b0)).map (·, rest)
  | _ => .error .truncated

/-! ## Encoder -/

/-- R format (R222). -/
def encR (f7 : BitVec 7) (rs2 rs1 : Reg) (f3 : BitVec 3) (rd : Reg) (op : BitVec 7) : Enc :=
  .word (f7 ++ rs2 ++ rs1 ++ f3 ++ rd ++ op)

/-- I format (R222). -/
def encI (imm : BitVec 12) (rs1 : Reg) (f3 : BitVec 3) (rd : Reg) (op : BitVec 7) : Enc :=
  .word (imm ++ rs1 ++ f3 ++ rd ++ op)

/-- S format (R222). -/
def encS (imm : BitVec 12) (rs2 rs1 : Reg) (f3 : BitVec 3) (op : BitVec 7) : Enc :=
  .word (imm.extractLsb' 5 7 ++ rs2 ++ rs1 ++ f3 ++ imm.extractLsb' 0 5 ++ op)

/-- B format: imm holds offset bits 12:1 (R222, R223). -/
def encB (imm : BitVec 12) (rs2 rs1 : Reg) (f3 : BitVec 3) : Enc :=
  .word (imm.extractLsb' 11 1 ++ imm.extractLsb' 4 6 ++ rs2 ++ rs1 ++ f3 ++ imm.extractLsb' 0 4 ++
    imm.extractLsb' 10 1 ++ 0x63#7)

/-- U format (R222). -/
def encU (imm : BitVec 20) (rd : Reg) (op : BitVec 7) : Enc := .word (imm ++ rd ++ op)

/-- J format: imm holds offset bits 20:1 (R222, R223). -/
def encJ (imm : BitVec 20) (rd : Reg) (op : BitVec 7) : Enc :=
  .word (imm.extractLsb' 19 1 ++ imm.extractLsb' 0 10 ++ imm.extractLsb' 10 1 ++ imm.extractLsb' 11 8 ++ rd ++ op)

/-- CI and CR formats (R230). -/
def encCI (f3 : BitVec 3) (b12 : BitVec 1) (rd lo : BitVec 5) (q : BitVec 2) : Enc :=
  .half (f3 ++ b12 ++ rd ++ lo ++ q)

/-- CL and CS formats: imm holds uimm[6:2] (R230, R233). -/
def encCL (f3 : BitVec 3) (imm : BitVec 5) (r1 r2 : CReg) : Enc :=
  .half (f3 ++ imm.extractLsb' 1 3 ++ r1 ++ imm.extractLsb' 0 1 ++ imm.extractLsb' 4 1 ++ r2 ++ 0#2)

/-- CA format (R230). -/
def encCA (g2 : BitVec 2) (r1 r2 : CReg) : Enc := .half (0x23#6 ++ r1 ++ g2 ++ r2 ++ 1#2)

/-- CB shifts and c.andi (R230, R231). -/
def encCBS (b12 : BitVec 1) (f2 : BitVec 2) (r1 : CReg) (lo : BitVec 5) : Enc :=
  .half (4#3 ++ b12 ++ f2 ++ r1 ++ lo ++ 1#2)

/-- CB branches: imm holds offset[8:1] (R230, R233). -/
def encCB (f3 : BitVec 3) (r1 : CReg) (imm : BitVec 8) : Enc :=
  .half (f3 ++ imm.extractLsb' 7 1 ++ imm.extractLsb' 2 2 ++ r1 ++ imm.extractLsb' 5 2 ++ imm.extractLsb' 0 2 ++
    imm.extractLsb' 4 1 ++ 1#2)

/-- CJ format: imm holds bits 11:1 (R230, R233). -/
def encCJ (f3 : BitVec 3) (imm : BitVec 11) : Enc :=
  .half (f3 ++ imm.extractLsb' 10 1 ++ imm.extractLsb' 3 1 ++ imm.extractLsb' 7 2 ++ imm.extractLsb' 9 1 ++
    imm.extractLsb' 5 1 ++ imm.extractLsb' 6 1 ++ imm.extractLsb' 0 3 ++ imm.extractLsb' 4 1 ++ 1#2)

/-- The bits of an instruction, from the encoding tables R225, R231 and R233. -/
def encode : Instr → Enc
  | .ecall => .word 0x00000073#32
  | .ebreak => .word 0x00100073#32
  | .mret => .word 0x30200073#32
  | .wfi => .word 0x10500073#32
  | .lui rd imm => encU imm rd 0x37#7
  | .auipc rd imm => encU imm rd 0x17#7
  | .addi rd rs1 imm => encI imm rs1 0#3 rd 0x13#7
  | .slti rd rs1 imm => encI imm rs1 2#3 rd 0x13#7
  | .sltiu rd rs1 imm => encI imm rs1 3#3 rd 0x13#7
  | .xori rd rs1 imm => encI imm rs1 4#3 rd 0x13#7
  | .ori rd rs1 imm => encI imm rs1 6#3 rd 0x13#7
  | .andi rd rs1 imm => encI imm rs1 7#3 rd 0x13#7
  | .slli rd rs1 sh => encR 0x00#7 sh rs1 1#3 rd 0x13#7
  | .srli rd rs1 sh => encR 0x00#7 sh rs1 5#3 rd 0x13#7
  | .srai rd rs1 sh => encR 0x20#7 sh rs1 5#3 rd 0x13#7
  | .add rd rs1 rs2 => encR 0x00#7 rs2 rs1 0#3 rd 0x33#7
  | .sub rd rs1 rs2 => encR 0x20#7 rs2 rs1 0#3 rd 0x33#7
  | .sll rd rs1 rs2 => encR 0x00#7 rs2 rs1 1#3 rd 0x33#7
  | .slt rd rs1 rs2 => encR 0x00#7 rs2 rs1 2#3 rd 0x33#7
  | .sltu rd rs1 rs2 => encR 0x00#7 rs2 rs1 3#3 rd 0x33#7
  | .xor rd rs1 rs2 => encR 0x00#7 rs2 rs1 4#3 rd 0x33#7
  | .srl rd rs1 rs2 => encR 0x00#7 rs2 rs1 5#3 rd 0x33#7
  | .sra rd rs1 rs2 => encR 0x20#7 rs2 rs1 5#3 rd 0x33#7
  | .or rd rs1 rs2 => encR 0x00#7 rs2 rs1 6#3 rd 0x33#7
  | .and rd rs1 rs2 => encR 0x00#7 rs2 rs1 7#3 rd 0x33#7
  | .jal rd imm => encJ imm rd 0x6F#7
  | .jalr rd rs1 imm => encI imm rs1 0#3 rd 0x67#7
  | .beq rs1 rs2 imm => encB imm rs2 rs1 0#3
  | .bne rs1 rs2 imm => encB imm rs2 rs1 1#3
  | .blt rs1 rs2 imm => encB imm rs2 rs1 4#3
  | .bge rs1 rs2 imm => encB imm rs2 rs1 5#3
  | .bltu rs1 rs2 imm => encB imm rs2 rs1 6#3
  | .bgeu rs1 rs2 imm => encB imm rs2 rs1 7#3
  | .lb rd rs1 imm => encI imm rs1 0#3 rd 0x03#7
  | .lh rd rs1 imm => encI imm rs1 1#3 rd 0x03#7
  | .lw rd rs1 imm => encI imm rs1 2#3 rd 0x03#7
  | .lbu rd rs1 imm => encI imm rs1 4#3 rd 0x03#7
  | .lhu rd rs1 imm => encI imm rs1 5#3 rd 0x03#7
  | .sb rs1 rs2 imm => encS imm rs2 rs1 0#3 0x23#7
  | .sh rs1 rs2 imm => encS imm rs2 rs1 1#3 0x23#7
  | .sw rs1 rs2 imm => encS imm rs2 rs1 2#3 0x23#7
  | .mul rd rs1 rs2 => encR 0x01#7 rs2 rs1 0#3 rd 0x33#7
  | .mulh rd rs1 rs2 => encR 0x01#7 rs2 rs1 1#3 rd 0x33#7
  | .mulhsu rd rs1 rs2 => encR 0x01#7 rs2 rs1 2#3 rd 0x33#7
  | .mulhu rd rs1 rs2 => encR 0x01#7 rs2 rs1 3#3 rd 0x33#7
  | .div rd rs1 rs2 => encR 0x01#7 rs2 rs1 4#3 rd 0x33#7
  | .divu rd rs1 rs2 => encR 0x01#7 rs2 rs1 5#3 rd 0x33#7
  | .rem rd rs1 rs2 => encR 0x01#7 rs2 rs1 6#3 rd 0x33#7
  | .remu rd rs1 rs2 => encR 0x01#7 rs2 rs1 7#3 rd 0x33#7
  | .fence fm pred succ rs1 rd => encI (fm ++ pred ++ succ) rs1 0#3 rd 0x0F#7
  | .fenceI imm rs1 rd => encI imm rs1 1#3 rd 0x0F#7
  | .csrrw rd csr rs1 => encI csr rs1 1#3 rd 0x73#7
  | .csrrs rd csr rs1 => encI csr rs1 2#3 rd 0x73#7
  | .csrrc rd csr rs1 => encI csr rs1 3#3 rd 0x73#7
  | .csrrwi rd csr uimm => encI csr uimm 5#3 rd 0x73#7
  | .csrrsi rd csr uimm => encI csr uimm 6#3 rd 0x73#7
  | .csrrci rd csr uimm => encI csr uimm 7#3 rd 0x73#7
  | .cAddi4spn rd imm =>
    .half (0#3 ++ imm.extractLsb' 2 2 ++ imm.extractLsb' 4 4 ++ imm.extractLsb' 0 1 ++ imm.extractLsb' 1 1 ++ rd ++ 0#2)
  | .cLw rd rs1 imm => encCL 2#3 imm rs1 rd
  | .cSw rs1 rs2 imm => encCL 6#3 imm rs1 rs2
  | .cNop imm => encCI 0#3 (imm.extractLsb' 5 1) 0#5 (imm.extractLsb' 0 5) 1#2
  | .cAddi rd imm => encCI 0#3 (imm.extractLsb' 5 1) rd (imm.extractLsb' 0 5) 1#2
  | .cJal imm => encCJ 1#3 imm
  | .cLi rd imm => encCI 2#3 (imm.extractLsb' 5 1) rd (imm.extractLsb' 0 5) 1#2
  | .cAddi16sp imm =>
    .half (3#3 ++ imm.extractLsb' 5 1 ++ 2#5 ++ imm.extractLsb' 0 1 ++ imm.extractLsb' 2 1 ++ imm.extractLsb' 3 2 ++
      imm.extractLsb' 1 1 ++ 1#2)
  | .cLui rd imm => encCI 3#3 (imm.extractLsb' 5 1) rd (imm.extractLsb' 0 5) 1#2
  | .cSrli rd sh => encCBS 0#1 0#2 rd sh
  | .cSrai rd sh => encCBS 0#1 1#2 rd sh
  | .cAndi rd imm => encCBS (imm.extractLsb' 5 1) 2#2 rd (imm.extractLsb' 0 5)
  | .cSub rd rs2 => encCA 0#2 rd rs2
  | .cXor rd rs2 => encCA 1#2 rd rs2
  | .cOr rd rs2 => encCA 2#2 rd rs2
  | .cAnd rd rs2 => encCA 3#2 rd rs2
  | .cJ imm => encCJ 5#3 imm
  | .cBeqz rs1 imm => encCB 6#3 rs1 imm
  | .cBnez rs1 imm => encCB 7#3 rs1 imm
  | .cSlli rd sh => encCI 0#3 0#1 rd sh 2#2
  | .cLwsp rd imm => encCI 2#3 (imm.extractLsb' 3 1) rd (imm.extractLsb' 0 3 ++ imm.extractLsb' 4 2) 2#2
  | .cEbreak => .half 0x9002#16
  | .cJr rs1 => encCI 4#3 0#1 rs1 0#5 2#2
  | .cJalr rs1 => encCI 4#3 1#1 rs1 0#5 2#2
  | .cMv rd rs2 => encCI 4#3 0#1 rd rs2 2#2
  | .cAdd rd rs2 => encCI 4#3 1#1 rd rs2 2#2
  | .cSwsp rs2 imm => .half (6#3 ++ imm.extractLsb' 0 4 ++ imm.extractLsb' 4 2 ++ rs2 ++ 2#2)

/-- The instruction the decoder reads from an instruction of the opcode table whose bits are w, the first byte in the low bits;
the bits above nbits are zero. -/
def decodeTableWord (nbits w : Nat) : Option Instr :=
  let v : BitVec 32 := BitVec.ofNat 32 (w % 2 ^ nbits)
  match decodeBytes (Enc.bytes (.word v)) with
  | .ok (i, _) => some i
  | .error _ => none

end Sys2Proof
end

