-- ==== Sys2Proof/Config.lean ====
section
/-! DEFINITION. What an implementation fixes: the build arguments (spec 00_scope.md R7-R9) and the free values, which are
opaque so that nothing can be proved of them. -/

namespace Sys2Proof

/-! ## Free values (log 44): no body, applied to a counter of State or to what they depend on -/

/-- Byte `addr` where the spec leaves its value open, at the event numbered `draw`: an ICCM or DCCM word that nothing has
initialised (R199, R656, D35), corrupt data (R197), a failed store (U42) or write of the debugger (R605). -/
opaque Config.freeByte (draw addr : Nat) : Byte

/-- Byte `addr` of the SoC as it stood before anything this model knows of wrote it (P17). -/
opaque Config.socByte (addr : Nat) : Byte

/-- A 32-bit value the spec leaves open: a failed load's register (R183), an illegal mcause (U6), `command` as read (R683),
`dicago` without an I-cache (U25), the trap value traced for an interrupt (N22), `data0` and `data1` after a failed
command (R602). -/
opaque Config.freeWord (draw : Nat) : Word

/-- A yes or no the spec leaves open (U14, U17, U19, U26, an NMI out of reset, events 15, 24 and 26 of R580, the
exception flag traced for an interrupt, R645). -/
opaque Config.freeBit (draw : Nat) : Bool

/-- A number the spec leaves open (what is left of a PAUSE after a debug halt, U18). -/
opaque Config.freeNat (draw : Nat) : Nat

/-- How often microarchitectural event `event` (class U of R580) occurred in the step numbered `draw`. -/
opaque Config.microEvents (draw event : Nat) : Nat

/-- The 5-bit ECC code of a 16-bit I-cache chunk; the equations are not in the source (R196, 91 N12). -/
opaque Config.chunkEcc (chunk : BitVec 16) : BitVec 5

/-- The 5-bit ECC code of an I-cache tag (R196). -/
opaque Config.tagEcc (tag : BitVec 20) : BitVec 5

/-! ## Build arguments (R7) -/

/-- A bus interface is AXI4 or AHB-Lite (R7, P14). -/
inductive BusType
  | axi4
  | ahbLite
deriving DecidableEq, Repr

/-- A core-local block: its region, byte offset in the region and size in KB (R7, R142). -/
structure Block where
  region : Nat
  offset : Nat
  sizeKB : Nat
deriving DecidableEq, Repr

/-- First address of a block: B(region, offset) (R142). -/
def Block.base (b : Block) : Nat := 0x10000000 * b.region + b.offset

/-- First address after a block. -/
def Block.top (b : Block) : Nat := b.base + 1024 * b.sizeKB

/-- Address `a` lies in the block (R142). -/
def Block.has (b : Block) (a : Nat) : Bool := decide (b.base ≤ a) && decide (a < b.top)

/-- A memory-protection window: base address and mask (R9, R174, R695); only enabled windows are listed. -/
structure Window where
  addr : Word
  mask : Word
deriving DecidableEq, Repr

/-- Window x contains p iff (p & ~MASKx) = ADDRx (R174). -/
def Window.has (w : Window) (p : Word) : Bool := (p &&& ~~~w.mask) == w.addr

/-- The build arguments (R7, P4-P16 of 93_implementation_defined.md). -/
structure Build where
  /-- RV_ICCM_ENABLE, _REGION, _OFFSET, _SIZE (P4). -/
  iccm : Option Block
  /-- RV_DCCM_*; none is the further option of D2 (P5). -/
  dccm : Option Block
  /-- RV_PIC_REGION, _OFFSET, _SIZE (P6). -/
  pic : Block
  /-- RV_PIC_TOTAL_INT (P7). -/
  totalInt : Nat
  /-- RV_ICACHE_ENABLE with RV_ICACHE_SIZE in KB (P8). -/
  icacheKB : Option Nat
  /-- RV_ICACHE_ECC: true = ECC, false = parity (P8). -/
  icacheEcc : Bool
  /-- Enabled INST_ACCESS windows (P9). -/
  instWindows : List Window
  /-- Enabled DATA_ACCESS windows (P10). -/
  dataWindows : List Window
  /-- Bus types of the IFU, LSU, debug and DMA ports (P14). -/
  ifuBus : BusType
  lsuBus : BusType
  sbBus : BusType
  dmaBus : BusType
  /-- RV_IFU_BUS_TAG, RV_LSU_BUS_TAG, RV_SB_BUS_TAG, RV_DMA_BUS_TAG: no architectural effect (P12). -/
  busTags : List Nat
  /-- pic_cfg_gateway(S): bit S (P15, D20). -/
  cfgGateway : BitVec 256
  /-- reset_mscratch, reset_mepc, reset_mtval (P16, D6). -/
  resetMscratch : Word
  resetMepc : Word
  resetMtval : Word
deriving DecidableEq, Repr

/-- Next power of two of a block size in KB: what its start must be aligned to (R8, R696). -/
def Block.alignKB (b : Block) : Nat := if b.sizeKB = 48 then 64 else b.sizeKB

/-- A block of a legal size, aligned, inside its region (R8). -/
def Block.valid (sizes : List Nat) (b : Block) : Bool :=
  sizes.contains b.sizeKB && decide (b.region < 16) && decide (b.offset % (1024 * b.alignKB) = 0) &&
    decide (b.offset + 1024 * b.sizeKB ≤ 0x10000000)

/-- Two blocks do not overlap (R8). -/
def Block.apart (b c : Block) : Bool := decide (b.top ≤ c.base) || decide (c.top ≤ b.base)

/-- A mask 0...01...1 whose six low bits are 1 and a base clear under it (R9, R695). -/
def Window.valid (w : Window) : Bool :=
  (w.mask &&& 0x3F#32) == 0x3F#32 && (w.mask &&& (w.mask + 1#32)) == 0#32 && (w.addr &&& w.mask) == 0#32

/-- The ICCM, if present, is a legal block (R7, R8). -/
def Build.iccmValid (c : Build) : Bool := c.iccm.all (Block.valid [4, 8, 16, 32, 64, 128, 256, 512])

/-- The DCCM, if present, is a legal block (R7, R8). -/
def Build.dccmValid (c : Build) : Bool := c.dccm.all (Block.valid [4, 8, 16, 32, 48, 64, 128, 256, 512])

/-- The PIC is a legal block (R7, R8). -/
def Build.picValid (c : Build) : Bool := c.pic.valid [32, 64, 128, 256]

/-- The core-local blocks. -/
def Build.blocks (c : Build) : List Block := c.iccm.toList ++ c.dccm.toList ++ [c.pic]

/-- No two blocks overlap (R8). -/
def Build.disjoint (c : Build) : Bool := decide (c.blocks.Pairwise (fun a b => a.apart b = true))

/-- The other arguments are in range (R7, R9). -/
def Build.argsValid (c : Build) : Bool :=
  decide (2 ≤ c.totalInt) && decide (c.totalInt ≤ 255) && c.icacheKB.all ([16, 32, 64, 128, 256].contains ·) &&
    (c.instWindows ++ c.dataWindows).all Window.valid && decide (c.instWindows.length ≤ 8) &&
    decide (c.dataWindows.length ≤ 8) && c.resetMepc.getLsbD 0 == false

/-- The rules the integrator must obey (R7, R8, R9, R696). -/
def Build.valid (c : Build) : Bool := c.iccmValid && c.dccmValid && c.picValid && c.disjoint && c.argsValid

/-- The build this model's reset state has: map T of 95_test_vectors.md, the ICCM and DCCM of Table 2-10, AXI4 ports
(log 1: DESIGN CHOICE, the spec fixes no build). -/
def Build.mapT : Build where
  iccm := some { region := 0, offset := 0x40000, sizeKB := 128 }
  dccm := some { region := 0, offset := 0x80000, sizeKB := 128 }
  pic := { region := 0, offset := 0xC0000, sizeKB := 32 }
  totalInt := 8
  icacheKB := some 16
  icacheEcc := false
  instWindows := []
  dataWindows := []
  ifuBus := .axi4
  lsuBus := .axi4
  sbBus := .axi4
  dmaBus := .axi4
  busTags := [3, 3, 1, 1]
  cfgGateway := BitVec.allOnes 256
  resetMscratch := 0#32
  resetMepc := 0#32
  resetMtval := 0#32

end Sys2Proof
end

