-- ==== Sys2Proof/Machine/State.lean ====
section
/-! DEFINITION. The state of the machine, all of it plain data, and the state after reset (spec 10_state.md, 61, 62, 63, 70).
INVENTORY.md lists every field with its rule. -/

namespace Sys2Proof.Machine

/-- Why the machine stops with a fault. -/
inductive Fault
  /-- Raised by `step` while scan_mode or mbist_mode is 1: test modes are not described (R690). Safe. -/
  | testMode
deriving DecidableEq, Repr

/-- Why the model has no next state. -/
inductive Refusal
  /-- Raised by a dispatch arm whose instruction has no meaning yet. Safe. -/
  | notModelled (mnemonic : String)
  /-- Raised by `step` on a PMU or MPC protocol violation, whose behaviour is unspecified (U16; R554, R557, R558, R655). Safe. -/
  | protocolViolation
deriving DecidableEq, Repr

/-! ## Memories and buffers -/

/-- Byte memory: addresses strictly rising, an unlisted address holds no value this model knows (R110, R199; logs 7, 8). -/
abbrev Memory := List Host.Cell

/-- A write transaction of the write buffer (R155, R157): the address it is reported under, the bytes it writes, oldest first, and
whether its region has side effects. -/
structure PendStore where
  addr : Word
  bytes : List (Word × Byte)
  side : Bool
deriving DecidableEq, Repr

/-- A D-bus transaction that has been sent and not answered (R156, R164). `err` is the answer a load will get. -/
inductive Txn
  | load (addr : Word) (err : Bool)
  | store (p : PendStore)
deriving DecidableEq, Repr

/-- The LSU's buffers (R155, R156). The 8-bit outstanding-transaction counter of R164 is the length of `busOut`. -/
structure Lsu where
  wbuf : List PendStore
  busOut : List Txn
deriving DecidableEq, Repr

/-- One line's tag entry: tag, its check bits, valid (R89, R175). -/
structure TagEntry where
  tag : BitVec 20
  check : BitVec 5
  valid : Bool
deriving DecidableEq, Repr

/-- The I-cache arrays (R112, R175, R634), keyed by position; an unlisted entry is all zero. -/
structure ICache where
  /-- 32-bit chunk pairs with their check bits: key = (way * sets + set) * 16 + chunk. -/
  data : List (Nat × (BitVec 32 × BitVec 10))
  /-- Tags and valid bits: key = way * sets + set. -/
  tags : List (Nat × TagEntry)
  /-- Pseudo-LRU bits: key = set. -/
  lru : List (Nat × BitVec 3)
deriving DecidableEq, Repr

/-- A DMA slave request (R190, R191): `bytes` is the access width. -/
structure DmaReq where
  write : Bool
  addr : Word
  bytes : Nat
  data : BitVec 64
deriving DecidableEq, Repr

/-- The answer to a DMA request (R190, R192). -/
structure DmaResp where
  err : Bool
  data : BitVec 64
deriving DecidableEq, Repr

/-- The DMA FIFO, the first word of a double-word request whose second word is still to come (R194: a write leaves 0 there), and
the answer to the request served last (R190). -/
structure Dma where
  fifo : List DmaReq
  half : Option (BitVec 32)
  resp : Option DmaResp
deriving DecidableEq, Repr

/-! ## What the world does in a step (R475, R585, R646; log 2) -/

/-- The input pins (R10, R690). -/
structure Pins where
  rstL : Bool
  dbgRstL : Bool
  rstVec : BitVec 31
  nmiVec : BitVec 31
  jtagId : BitVec 31
  nmiInt : Bool
  timerInt : Bool
  /-- extintsrc_req[S] is bit S. -/
  extint : BitVec 256
  cpuHaltReq : Bool
  cpuRunReq : Bool
  mpcHaltReq : Bool
  mpcRunReq : Bool
  mpcResetRunReq : Bool
  scanMode : Bool
  mbistMode : Bool
deriving DecidableEq, Repr

/-- What a memory-error check reports (R197). -/
inductive Ecc
  | none
  | single
  | double
deriving DecidableEq, Repr

/-- The SoC's answer to one bus transaction (R167, P17). -/
inductive Reply
  /-- The SoC behaves as memory. -/
  | mem
  /-- A read returns this aligned double-word; the access takes its own byte lanes (R149). -/
  | data (d : BitVec 64)
  /-- An error response. -/
  | error
deriving DecidableEq, Repr

/-- Something an agent other than the hart does (R14). -/
inductive Event
  /-- The pins take new levels (R10). -/
  | pins (p : Pins)
  /-- The LSU sends the oldest store of the write buffer to the bus (R155). -/
  | busSend
  /-- The write buffer combines its stores number `i` and `i + 1` into one transaction (R157). -/
  | busMerge (i : Nat)
  /-- Answers that arrive in one cycle: positions in `busOut`, with the error bit of a store (R164, R186). -/
  | busResp (answers : List (Nat × Bool))
  /-- Another bus master or a device changes a byte of the SoC (R14 (5)). -/
  | socWrite (addr : Nat) (b : Byte)
  /-- A request arrives at the DMA slave port (R190). -/
  | dmaReq (r : DmaReq)
  /-- The DMA controller serves one word of the head of its FIFO (R193, R194). -/
  | dmaServe
  /-- jtag_trst_n (R653). -/
  | jtagReset
  /-- A scan of the JTAG instruction register (R590). -/
  | jtagIr (ir : BitVec 5)
  /-- A scan of the JTAG data register, up to Update-DR (R593). -/
  | jtagDr (bits : BitVec 41)
  /-- A speculative fetch fills the I-cache line holding `addr` into `way`, leaving `lru` (R166, R175). -/
  | icacheFill (addr : Word) (way : BitVec 2) (lru : BitVec 3)
  /-- An upset flips bits of an I-cache data entry (R196, R197). -/
  | icacheUpset (key : Nat) (data : BitVec 32) (check : BitVec 10)
  /-- An upset flips bits of an I-cache tag and of its check bits (R196, R197). -/
  | icacheTagUpset (key : Nat) (tag : BitVec 20) (check : BitVec 5)
  /-- A speculative fetch meets a correctable error of the ICCM: it is counted (R198). -/
  | iccmFetchError
  /-- A speculative fetch of `addr` meets an I-cache error: the set is invalidated and the error counted (R198). -/
  | icacheFetchError (addr : Word)
deriving DecidableEq, Repr

/-- All that the environment decides in one step (P18, P19, P20 and the choices the spec leaves open). -/
structure Env where
  events : List Event := []
  /-- The step takes `extraCycles + 1` core clocks (R540, D24). -/
  extraCycles : Nat := 0
  /-- The cycle of the step in which a write to a mitcnt or mitb commits (R542). -/
  commitAt : Nat := 0
  /-- Answers of the ECC oracle, one per ICCM or DCCM word read, none when exhausted (R197). -/
  ecc : List Ecc := []
  /-- Answers of the SoC, one per bus transaction, `mem` when exhausted (R167). -/
  replies : List Reply := []
  /-- A parity or ECC error is detected in this step's I-cache access, on the chunk or on a tag of the set (R197, R198). -/
  icErr : Bool := false
  /-- Words the DMA port serves at each of the points inside this step where a fetch or a split DCCM access lets it in (R194). -/
  dmaMid : List Nat := []
  /-- Victim way and new LRU bits of a line fill (R175). -/
  icWay : BitVec 2 := 0
  icLru : BitVec 3 := 0
  /-- A pending enabled interrupt is not yet taken (D18). -/
  deferInt : Bool := false
  /-- Which setting is in force while no fence has followed a write: 0 is the present one, `k + 1` the one `k` writes before it
  (D36). For mrac, data accesses and fetches choose each for themselves. -/
  oldMracD : Nat := 0
  oldMracI : Nat := 0
  oldMfdc : Nat := 0
  /-- The same for the PIC registers as the evaluation sees them (R660). -/
  lagPic : Nat := 0
  /-- Extra cycles of a PAUSE that starts in this step (U18). -/
  skid : Nat := 0
deriving DecidableEq, Repr

/-- A quiet world: nothing happens, every answer is the plain one. -/
def Env.quiet : Env := {}

/-- One trace-port record: the instruction slot and the interrupt or exception slot (R645). -/
structure Trace where
  valid : Bool := false
  insn : Word := 0
  addr : Word := 0
  exception : Bool := false
  interrupt : Bool := false
  ecause : BitVec 5 := 0
  tval : Word := 0
deriving DecidableEq, Repr

/-- A transaction the LSU sends to the system bus: a read of `bytes` bytes, or a write (R149). -/
inductive BusReq
  | read (addr : Word) (bytes : Nat)
  | write (p : PendStore)
deriving DecidableEq, Repr

/-- The output pins that are not views of the state (R585, R645), and the LSU's bus requests of the step (R149). The views are
`State.cpuHaltStatus` and `State.debugModeStatus`. -/
structure Outs where
  cpuHaltAck : Bool := false
  cpuRunAck : Bool := false
  mpcHaltAck : Bool := false
  mpcRunAck : Bool := false
  brkpt : Bool := false
  trace : Trace := {}
  bus : List BusReq := []
deriving DecidableEq, Repr

/-! ## Registers -/

/-- The CSRs that hold state (R28-R104). -/
structure Csrs where
  mstatus : Word
  mie : Word
  mtvec : Word
  mscratch : Word
  mepc : Word
  mcause : Word
  mtval : Word
  mhpmevent : Vector (BitVec 6) 4
  tselect : BitVec 2
  tdata1 : Vector Word 4
  tdata2 : Vector Word 4
  dcsr : Word
  dpc : Word
  mrac : Word
  mpmc : BitVec 2
  dicawics : Word
  dicad0 : Word
  dicad1 : Word
  mgpmc : BitVec 1
  mitcnt0 : Word
  mitb0 : Word
  mitctl0 : BitVec 3
  mitcnt1 : Word
  mitb1 : Word
  mitctl1 : BitVec 3
  micect : Word
  miccmect : Word
  mdccmect : Word
  mcgc : BitVec 9
  mfdc : Word
  mcycle : BitVec 64
  minstret : BitVec 64
  mhpm : Vector (BitVec 64) 4
  meivt : BitVec 22
  meipt : BitVec 4
  meicidpl : BitVec 4
  meicurpl : BitVec 4
  claimid : BitVec 8
  mdseac : Word
  mdseacLocked : Bool
deriving DecidableEq, Repr

/-- mfdc after reset: dqc = 7, sespd = 1 for an AXI4 LSU bus (R95; log 36). -/
def Build.mfdcReset (c : Build) : Word :=
  match c.lsuBus with
  | .axi4 => 0x00070040#32
  | .ahbLite => 0x00070000#32

/-- The CSRs after reset (R120, R652). mscratch, mepc, mtval: log 4. -/
def Csrs.reset (c : Build) : Csrs where
  mstatus := 0x1800#32
  mie := 0#32
  mtvec := 0#32
  mscratch := c.resetMscratch
  mepc := c.resetMepc
  mcause := 0#32
  mtval := c.resetMtval
  mhpmevent := Vector.replicate 4 0#6
  tselect := 0#2
  tdata1 := Vector.replicate 4 0x23E00000#32
  tdata2 := Vector.replicate 4 0#32
  dcsr := 0x40000003#32
  dpc := 0#32
  mrac := 0#32
  mpmc := 2#2
  dicawics := 0#32
  dicad0 := 0#32
  dicad1 := 0#32
  mgpmc := 1#1
  mitcnt0 := 0#32
  mitb0 := 0xFFFFFFFF#32
  mitctl0 := 1#3
  mitcnt1 := 0#32
  mitb1 := 0xFFFFFFFF#32
  mitctl1 := 1#3
  micect := 0#32
  miccmect := 0#32
  mdccmect := 0#32
  mcgc := 0#9
  mfdc := Build.mfdcReset c
  mcycle := 0#64
  minstret := 0#64
  mhpm := Vector.replicate 4 0#64
  meivt := 0#22
  meipt := 0#4
  meicidpl := 0#4
  meicurpl := 0#4
  claimid := 0#8
  mdseac := 0#32
  mdseacLocked := false

/-- The memory-mapped PIC registers and the gateways' IP bits (R493-R501): entry or bit S is source S. -/
structure Pic where
  priord : Bool
  meipl : Vector (BitVec 4) 256
  meie : BitVec 256
  gwType : BitVec 256
  gwPol : BitVec 256
  gwIp : BitVec 256
deriving DecidableEq, Repr

/-- The PIC after reset: all 0 (R525). -/
def Pic.reset : Pic where
  priord := false
  meipl := Vector.replicate 256 0#4
  meie := 0
  gwType := 0
  gwPol := 0
  gwIp := 0

/-! ## Hidden state of the hart (R112) -/

/-- The activity states (R550). -/
inductive Activity
  | running
  | dbHalt
  | pmuHalt
deriving DecidableEq, Repr

/-- The requests of the MPC interface (R558). -/
inductive MpcReq
  | halt
  | run
deriving DecidableEq, Repr

/-- Hidden state of the hart. -/
structure Hart where
  activity : Activity
  /-- Cycles of PAUSE left, skid included (R565, U18). -/
  pause : Nat
  dbgHalt : Bool
  mpcHalt : Bool
  dbgResume : Bool
  mpcRun : Bool
  mitHold0 : Bool
  mitHold1 : Bool
  /-- An NMI requested by the pin is pending (R460 (a)). -/
  nmiPin : Bool
  /-- An NMI requested by a bus error is pending, with its mcause (R460 (b), (c)). -/
  nmiBus : Option Word
  /-- The instruction about to execute is single-stepped (R615). -/
  stepping : Bool
  /-- Firmware wrote mpmc.halt and the core is quiescing (R556). -/
  fwHalt : Bool
  /-- The hart has been held in reset and has not started yet (R655). -/
  held : Bool
  /-- A PMU halt request has been honoured while an MPC run request waited for its acknowledgement, which now waits for the PMU's
  run request (R555). -/
  runHold : Bool
  /-- The MPC's last request since reset and since the hart last left Debug Mode (R554; log 23). -/
  mpcLast : Option MpcReq
deriving DecidableEq, Repr

/-- The hidden state after reset in the Running state (R652, R655). -/
def Hart.reset : Hart where
  activity := .running
  pause := 0
  dbgHalt := false
  mpcHalt := false
  dbgResume := false
  mpcRun := false
  mitHold0 := false
  mitHold1 := false
  nmiPin := false
  nmiBus := none
  stepping := false
  fwHalt := false
  held := false
  runHold := false
  mpcLast := none

/-- A write of this step to one half of mcycle (`event` = none) or of an event counter: it leaves `v` in that half, over the value
`old` that the step's increments go on to give the counter (R417; log 11). -/
structure CounterWrite where
  event : Option (Fin 4)
  high : Bool
  v : Word
  old : BitVec 64
deriving DecidableEq, Repr

/-- Settings that accesses may still use because no fence has followed their last write (R660-R663, D36; log 17), and what this
step has written. The settings are listed newest first. -/
structure Sync where
  /-- The values of mrac before each write since the last fence, for data accesses. -/
  mracD : List Word
  /-- The values of mrac before each write since the last fence.i, for fetches. -/
  mracI : List Word
  /-- The values of mfdc before each write since the last fence.i. -/
  mfdcOld : List Word
  /-- The PIC before each of its recent writes, and the cycles its evaluation may still lag there. -/
  picOld : List (Pic × Nat)
  /-- Gateways whose IP bit a store cleared in this cycle (R501). -/
  gwCleared : BitVec 256
  /-- The counter half a CSR instruction has written in this step. -/
  wrote : Option CounterWrite
  /-- PAUSE has been started in this step, whose cycles do not count it down (R565). -/
  pauseNew : Bool
  /-- mgpmc as it stood when this step began, if the step has written it: the step's cycles count by it (R577). -/
  mgpmcOld : Option (BitVec 1)
  /-- A write to mitcnt0 or mitcnt1 that commits in this step (R542). -/
  mitWr0 : Option Word
  mitWr1 : Option Word
  /-- mitb0 or mitb1 before a write of this step, compared with until the write's cycle is over (R542). -/
  mitbOld0 : Option Word
  mitbOld1 : Option Word
deriving DecidableEq, Repr

/-- After reset nothing is out of date. -/
def Sync.reset : Sync where
  mracD := []
  mracI := []
  mfdcOld := []
  picOld := []
  gwCleared := 0
  wrote := none
  pauseNew := false
  mgpmcOld := none
  mitWr0 := none
  mitWr1 := none
  mitbOld0 := none
  mitbOld1 := none

/-! ## Debug module and JTAG DTM (R590-R605) -/

/-- The debug module's registers (R596-R605). -/
structure Dm where
  dmactive : Bool
  ndmreset : Bool
  haltreq : Bool
  havereset : Bool
  resumeack : Bool
  data0 : Word
  data1 : Word
  cmderr : BitVec 3
  command : Word
  autoexec : BitVec 2
  sbBusyError : Bool
  sbReadOnAddr : Bool
  sbAccess : BitVec 3
  sbAutoIncr : Bool
  sbReadOnData : Bool
  sbError : BitVec 3
  sbAddress0 : Word
  sbData0 : Word
  sbData1 : Word
deriving DecidableEq, Repr

/-- The debug module after its reset; `havereset` is not stated and is handed in (R653, U26). -/
def Dm.reset (havereset : Bool) : Dm where
  dmactive := false
  ndmreset := false
  haltreq := false
  havereset := havereset
  resumeack := false
  data0 := 0#32
  data1 := 0#32
  cmderr := 0#3
  command := 0#32
  autoexec := 0#2
  sbBusyError := false
  sbReadOnAddr := false
  sbAccess := 2#3
  sbAutoIncr := false
  sbReadOnData := false
  sbError := 0#3
  sbAddress0 := 0#32
  sbData0 := 0#32
  sbData1 := 0#32

/-- The JTAG DTM: instruction register, dmi register, and the bits the last data scan shifted out (R591-R595). -/
structure Dtm where
  ir : BitVec 5
  dmiAddr : BitVec 7
  dmiData : Word
  tdo : BitVec 41
deriving DecidableEq, Repr

/-- The DTM after its reset: IDCODE selected (R591, R653). -/
def Dtm.reset : Dtm where
  ir := 1#5
  dmiAddr := 0#7
  dmiData := 0#32
  tdo := 0#41

/-! ## The whole state -/

/-- The state of the core complex and of what it is connected to. -/
structure State where
  /-- The build arguments (R7); fixed for a machine, no step changes them. -/
  cfg : Build
  /-- What the world will do, one entry per step; quiet when exhausted (log 2). -/
  inputs : List Env
  /-- What the world does in this step. -/
  env : Env
  /-- How many free values have been taken (log 44). -/
  draws : Nat
  pins : Pins
  outs : Outs
  /-- The integer registers; entry 0 is never read (R20). -/
  x : Vector Word 32
  pc : Word
  csr : Csrs
  pic : Pic
  iccm : Memory
  dccm : Memory
  soc : Memory
  lsu : Lsu
  icache : ICache
  dma : Dma
  hart : Hart
  dm : Dm
  dtm : Dtm
  sync : Sync
deriving DecidableEq, Repr

/-- Pin levels of a quiet SoC that has released reset: no request, run after reset, reset vector at the ICCM of map T, NMI
vector and JTAG id 0 (log 5: DESIGN CHOICE, the spec fixes none). -/
def Pins.quiet : Pins where
  rstL := true
  dbgRstL := true
  rstVec := 0x20000#31
  nmiVec := 0#31
  jtagId := 0#31
  nmiInt := false
  timerInt := false
  extint := 0
  cpuHaltReq := false
  cpuRunReq := false
  mpcHaltReq := false
  mpcRunReq := false
  mpcResetRunReq := true
  scanMode := false
  mbistMode := false

/-- The address a 31-bit vector bus names: bit 0 is 0 (R651, R461). -/
def vecAddr (v : BitVec 31) : Word := v ++ 0#1

/-- The machine right after reset (R120, R652, R655), in the build of map T and a quiet world. -/
def State.reset : State where
  cfg := Build.mapT
  inputs := []
  env := Env.quiet
  draws := 0
  pins := Pins.quiet
  outs := {}
  x := Vector.replicate 32 0#32
  pc := vecAddr Pins.quiet.rstVec
  csr := Csrs.reset Build.mapT
  pic := Pic.reset
  iccm := []
  dccm := []
  soc := []
  lsu := { wbuf := [], busOut := [] }
  icache := { data := [], tags := [], lru := [] }
  dma := { fifo := [], half := none, resp := none }
  hart := Hart.reset
  dm := Dm.reset true
  dtm := Dtm.reset
  sync := Sync.reset

end Sys2Proof.Machine
end

