-- ==== Sys2Proof/Machine/Memory.lean ====
section
/-! DEFINITION. Sparse maps in canonical form, byte memories over them, and the byte order (R148). -/

namespace Sys2Proof.Machine

/-! ## Sparse maps: keys strictly rising -/

/-- The entry at key `k`, if one is listed. -/
def Sparse.get? {α : Type} : List (Nat × α) → Nat → Option α
  | [], _ => none
  | (a, v) :: rest, k => if a = k then some v else if k < a then none else Sparse.get? rest k

/-- Set the entry at key `k`, keeping the keys strictly rising. -/
def Sparse.put {α : Type} : List (Nat × α) → Nat → α → List (Nat × α)
  | [], k, w => [(k, w)]
  | (a, v) :: rest, k, w =>
    if a = k then (k, w) :: rest
    else if k < a then (k, w) :: (a, v) :: rest
    else (a, v) :: Sparse.put rest k w

/-- Every key of the map is above `lo`, and the keys rise strictly. -/
def Sparse.above {α : Type} (lo : Nat) : List (Nat × α) → Bool
  | [] => true
  | (a, _) :: rest => decide (lo < a) && Sparse.above a rest

/-- The keys rise strictly. -/
def Sparse.wf {α : Type} : List (Nat × α) → Bool
  | [] => true
  | (a, _) :: rest => Sparse.above a rest

/-! ## Byte memories -/

/-- The canonical form: addresses strictly rising. An unlisted address has no value, so no entry repeats one. -/
def Memory.wf (m : Memory) : Bool := Sparse.wf m

/-- The byte at an address, if one is known. -/
def Memory.get? (m : Memory) (a : Nat) : Option Byte := Sparse.get? m a

/-- Write one byte. -/
def Memory.put (m : Memory) (a : Nat) (b : Byte) : Memory := Sparse.put m a b

/-- Write bytes at rising addresses; addresses are modulo 2^32 (R24, R140). -/
def Memory.putBytes (m : Memory) (a : Word) : List Byte → Memory
  | [] => m
  | b :: bs => Memory.putBytes (m.put a.toNat b) (a + 1#32) bs

/-- Write bytes at the addresses they name, in order. -/
def Memory.putAll (m : Memory) : List (Word × Byte) → Memory
  | [] => m
  | b :: bs => Memory.putAll (m.put b.1.toNat b.2) bs

/-- The byte a list of byte writes leaves at an address: the last one to it. -/
def lastAt : List (Word × Byte) → Word → Option Byte
  | [], _ => none
  | b :: bs, a => (lastAt bs a).or (if b.1 = a then some b.2 else none)

/-! ## Byte order: little-endian (R148, D9) -/

/-- The value whose bytes these are, lowest address first. -/
def ofBytes : List Byte → BitVec 64
  | [] => 0#64
  | b :: bs => (ofBytes bs <<< 8) ||| b.setWidth 64

/-- The low `n` bytes of a value, lowest first. -/
def toBytes (v : BitVec 64) : Nat → List Byte
  | 0 => []
  | n + 1 => v.setWidth 8 :: toBytes (v >>> 8) n

/-- The addresses of `n` consecutive bytes, modulo 2^32. -/
def addrs (a : Word) : Nat → List Word
  | 0 => []
  | n + 1 => a :: addrs (a + 1#32) n

/-- The word-aligned address of the word holding `a`. -/
def wordAddr (a : Word) : Word := a &&& 0xFFFFFFFC#32

end Sys2Proof.Machine
end

