-- ==== Sys2Proof/Machine/Ops.lean ====
section
/-! DEFINITION. The named operations over registers and counters, and taking and leaving a trap (R12, R445-R460, R574-R577). -/

namespace Sys2Proof.Machine

/-! ## Integer registers and pc (R20, R24) -/

/-- Read x[r]; x0 reads 0 (R20). -/
def State.getReg (s : State) (r : Reg) : Word :=
  if r = 0#5 then 0#32 else s.x[r.toNat]'r.isLt

/-- Write x[r]; a write to x0 is discarded (R20). -/
def State.setReg (r : Reg) (v : Word) (s : State) : State :=
  if r = 0#5 then s else { s with x := s.x.set r.toNat v r.isLt }

/-- Set the address of the next instruction (R12). -/
def State.setPc (t : Word) (s : State) : State := { s with pc := t }

/-- pc <- pc + ilen, modulo 2^32 (R24). -/
def State.advance (len : Len) (s : State) : State := s.setPc (s.pc + len.bytes)

/-- Take one more free value (log 44): `Config.free…` is applied to the old count. -/
def State.draw (s : State) : State := { s with draws := s.draws + 1 }

/-! ## Modes and status fields -/

/-- mstatus.mie, bit 3 (R40). -/
def State.mieOn (s : State) : Bool := s.csr.mstatus.getLsbD 3

/-- dcsr.step, bit 2 (R103). -/
def State.dcsrStep (s : State) : Bool := s.csr.dcsr.getLsbD 2

/-- dcsr.stopcount, bit 10 (R103). -/
def State.stopcount (s : State) : Bool := s.csr.dcsr.getLsbD 10

/-- dcsr.stepie, bit 11 (R103). -/
def State.stepie (s : State) : Bool := s.csr.dcsr.getLsbD 11

/-- dcsr.ebreakm, bit 15 (R103). -/
def State.ebreakm (s : State) : Bool := s.csr.dcsr.getLsbD 15

/-- The hart is in db-halt (R550). -/
def State.inDebug (s : State) : Bool := s.hart.activity == .dbHalt

/-- Debug Mode is db-halt together with a single-stepped instruction (R550, R555). -/
def State.inDebugMode (s : State) : Bool := s.inDebug || s.hart.stepping

/-- An NMI is pending (R460), the view dcsr.nmip gives. -/
def State.nmiPending (s : State) : Bool := s.hart.nmiPin || s.hart.nmiBus.isSome

/-- mstatus on trap entry: mpie <- mie, mie <- 0 (R445). -/
def mstatusEnter (m : Word) : Word :=
  (m &&& ~~~0x88#32) ||| (if m.getLsbD 3 then 0x80#32 else 0#32)

/-- mstatus on mret: mie <- mpie, mpie <- 1 (R447). -/
def mstatusReturn (m : Word) : Word :=
  (m &&& ~~~0x88#32) ||| 0x80#32 ||| (if m.getLsbD 7 then 0x08#32 else 0#32)

/-! ## Counting (R574-R577) -/

/-- counting_enabled of R576. -/
def State.counting (s : State) : Bool :=
  s.csr.mgpmc == 1#1 &&
    (match s.hart.activity with
     | .running => true
     | .dbHalt => !s.stopcount
     | .pmuHalt => false)

/-- One event counter after `k e` occurrences of each event; selector 0 counts nothing (R575). -/
def hpmOne (sel : BitVec 6) (cnt : BitVec 64) (k : Nat → Nat) : BitVec 64 :=
  if sel = 0#6 then cnt else cnt + BitVec.ofNat 64 (k sel.toNat)

/-- Add `k e` to every event counter whose selector is `e` ≠ 0 (R575). -/
def hpmAdd (sel : Vector (BitVec 6) 4) (cnt : Vector (BitVec 64) 4) (k : Nat → Nat) : Vector (BitVec 64) 4 :=
  #v[hpmOne sel[0] cnt[0] k, hpmOne sel[1] cnt[1] k, hpmOne sel[2] cnt[2] k, hpmOne sel[3] cnt[3] k]

/-- Count the events of the list, whatever the enables say (R575). -/
def State.addEvents (events : List Nat) (s : State) : State :=
  { s with csr := { s.csr with mhpm := hpmAdd s.csr.mhpmevent s.csr.mhpm (fun e => events.count e) } }

/-- Count the events of the list if counting is enabled (R576). -/
def State.countEvents (events : List Nat) (s : State) : State :=
  if s.counting then s.addEvents events else s

/-- Event 5 or 6: a 16-bit or 32-bit instruction committed (R580). -/
def Len.event : Len → Nat
  | .half => 5
  | .word => 6

/-- minstret + 1 (R574). -/
def State.bumpInstret (s : State) : State :=
  { s with csr := { s.csr with minstret := s.csr.minstret + 1#64 } }

/-- An instruction retires (R574): minstret, events 4 and 5 or 6, and the events of its own. -/
def State.retire (len : Len) (events : List Nat) (s : State) : State :=
  s.bumpInstret.countEvents (4 :: Len.event len :: events)

/-- Retire and go on at the next instruction. -/
def State.finish (len : Len) (events : List Nat) (s : State) : State :=
  (s.retire len events).advance len

/-! ## Taking a trap (R445, R446) -/

/-- A synchronous exception: mcause and mtval (R430, R431). -/
structure Exc where
  cause : Word
  tval : Word
deriving DecidableEq, Repr

/-- Where a trap goes (R446). -/
def trapTarget (mtvec cause : Word) : Word :=
  if mtvec.getLsbD 0 && cause.getLsbD 31 then (mtvec &&& 0xFFFFFFFC#32) + (cause <<< 2)
  else mtvec &&& 0xFFFFFFFC#32

/-- Trap entry (R445): save pc and mie, say why, clear mie, go to `target`. -/
def State.enterTrap (cause tval target : Word) (s : State) : State :=
  { s with
    csr := { s.csr with
      mepc := s.pc
      mcause := cause
      mtval := tval
      mstatus := mstatusEnter s.csr.mstatus }
    pc := target }

/-- What the trace port shows of a trap (R645). That the instruction slot of an instruction that traps is not valid is the model's
choice (DESIGN CHOICE, log 40). -/
def State.traceTrap (interrupt : Bool) (cause tval : Word) (s : State) : State :=
  { s with outs := { s.outs with
      trace := { s.outs.trace with
        valid := false, exception := true, interrupt := interrupt, ecause := cause.setWidth 5, tval := tval } } }

/-- What the trace port shows of an interrupt or NMI: the interrupt flag and the cause. Whether the exception flag is high too, and the
trap value, are open (R645, N22; log 40). -/
def State.traceInterrupt (cause : Word) (s : State) : State :=
  let t := s.traceTrap true cause (Config.freeWord s.draws)
  State.draw { t with outs := { t.outs with trace := { t.outs.trace with exception := Config.freeBit s.draws } } }

/-- raise E(info): take the synchronous exception (R445); event 37 (R470). -/
def State.takeException (e : Exc) (s : State) : State :=
  ((s.enterTrap e.cause e.tval (trapTarget s.csr.mtvec e.cause)).countEvents [37]).traceTrap false e.cause e.tval

/-- The interrupts, in the order of Table 13-1 (R452). -/
inductive Interrupt
  | external
  | correctable
  | timer
  | internal0
  | internal1
deriving DecidableEq, Repr

/-- mcause of an interrupt (R430). -/
def Interrupt.cause : Interrupt → Word
  | .external => 0x8000000B#32
  | .correctable => 0x8000001E#32
  | .timer => 0x80000007#32
  | .internal0 => 0x8000001D#32
  | .internal1 => 0x8000001C#32

/-- The events an interrupt is counted by: 39 external, 38 the three timers (R470, R580). -/
def Interrupt.events : Interrupt → List Nat
  | .external => [39]
  | .correctable => []
  | .timer | .internal0 | .internal1 => [38]

/-- Taking an internal-timer interrupt consumes its held request (R544). -/
def Interrupt.release (i : Interrupt) (h : Hart) : Hart :=
  match i with
  | .internal0 => { h with mitHold0 := false }
  | .internal1 => { h with mitHold1 := false }
  | .external | .correctable | .timer => h

/-- Take an interrupt (R452): trap entry with mtval 0; it ends a PAUSE (R565). -/
def State.takeInterrupt (i : Interrupt) (s : State) : State :=
  let s1 := ((s.enterTrap i.cause 0#32 (trapTarget s.csr.mtvec i.cause)).countEvents i.events).traceInterrupt i.cause
  { s1 with hart := { i.release s1.hart with pause := 0 } }

/-- Take the pending NMI (R460): never through mtvec. With both requests pending, which is taken is open (U14). -/
def State.takeNmi (s : State) : State :=
  let target := vecAddr s.pins.nmiVec
  let go (cause : Word) (h : Hart) (s : State) : State :=
    let s1 := (s.enterTrap cause 0#32 target).traceInterrupt cause
    { s1 with hart := { h with pause := 0 } }
  match s.hart.nmiPin, s.hart.nmiBus with
  | true, none => go 0#32 { s.hart with nmiPin := false } s
  | true, some c =>
    if Config.freeBit s.draws then go 0#32 { s.hart with nmiPin := false } s.draw
    else go c { s.hart with nmiBus := none } s.draw
  | false, some c => go c { s.hart with nmiBus := none } s
  | false, none => s

/-- Return from a trap (R447): mie <- mpie, mpie <- 1, pc <- mepc. -/
def State.returnFromTrap (s : State) : State :=
  { s with csr := { s.csr with mstatus := mstatusReturn s.csr.mstatus }, pc := s.csr.mepc }

/-! ## Bus errors (R185, R186) -/

/-- A store (`load` = false) or non-blocking-load bus error is reported: the first one is captured and requests an NMI. -/
def State.reportBusError (load : Bool) (addr : Word) (s : State) : State :=
  if s.csr.mdseacLocked then s
  else
    { s with
      csr := { s.csr with mdseac := addr, mdseacLocked := true }
      hart := { s.hart with nmiBus := some (if load then 0xF0000001#32 else 0xF0000000#32) } }

/-! ## Results of an access -/

/-- What an access or a fetch comes to: a value, or an exception; the state goes on in both cases. -/
inductive Res (α : Type)
  | ok (v : α) (s : State)
  | trap (e : Exc) (s : State)

/-- Go on with the value, or take the exception on the instruction at pc (R445). -/
def Res.bind {α : Type} (r : Res α) (k : α → State → State) : State :=
  match r with
  | .ok v s => k v s
  | .trap e s => s.takeException e

end Sys2Proof.Machine
end

