-- ==== Sys2Proof/Machine/Bus.lean ====
section
/-! DEFINITION. The address map and the LSU's way to the system bus: write buffer, outstanding transactions, answers, draining and
the bus barrier (R140-R174, R183-R186). -/

namespace Sys2Proof.Machine

/-! ## Address map (R140-R147, R174) -/

/-- The region of an address: bits 31:28 (R140). -/
def regionOf (a : Word) : Nat := (a >>> 28).toNat

/-- The ICCM range holds this address (R142). -/
def State.inIccm (s : State) (a : Word) : Bool := s.cfg.iccm.any (·.has a.toNat)

/-- The DCCM range holds this address (R142). -/
def State.inDccm (s : State) (a : Word) : Bool := s.cfg.dccm.any (·.has a.toNat)

/-- The PIC range holds this address (R142). -/
def State.inPic (s : State) (a : Word) : Bool := s.cfg.pic.has a.toNat

/-- The setting in force while no fence has followed its writes: choice 0 is the present one, `k + 1` the one `k` writes before
(D36; log 17). -/
def lagged {α : Type} (old : List α) (now : α) : Nat → α
  | 0 => now
  | k + 1 => old[k]?.getD now

/-- mrac as data accesses see it: until a fence, one of the values it had since the last (R661, D36). -/
def State.mracData (s : State) : Word := lagged s.sync.mracD s.csr.mrac s.env.oldMracD

/-- mrac as fetches see it: until a fence.i, one of the values it had since the last (R661, D36). -/
def State.mracFetch (s : State) : Word := lagged s.sync.mracI s.csr.mrac s.env.oldMracI

/-- mfdc as accesses see it (R663, D36). -/
def State.mfdcNow (s : State) : Word := lagged s.sync.mfdcOld s.csr.mfdc s.env.oldMfdc

/-- SideEffect(a) of R144. -/
def State.sideEffect (s : State) (a : Word) : Bool :=
  s.mracData.getLsbD (2 * regionOf a + 1) && !(s.inIccm a || s.inDccm a || s.inPic a)

/-- DataRegionLocal(Y): the region holds the DCCM or the PIC (R147). -/
def State.dataRegionLocal (s : State) (y : Nat) : Bool :=
  s.cfg.dccm.any (·.region == y) || s.cfg.pic.region == y

/-- FetchRegionLocal(Y): the region holds the ICCM (R147). -/
def State.fetchRegionLocal (s : State) (y : Nat) : Bool := s.cfg.iccm.any (·.region == y)

/-- The access lies in one enabled window, or no window is enabled (R174, D10). -/
def inWindows (ws : List Window) (first last : Word) : Bool :=
  ws.isEmpty || ws.any (fun w => w.has first && w.has last)

/-! ## mfdc fields with an architectural effect (R95) -/

/-- mfdc.cecd: ICCM and DCCM ECC checking disabled. -/
def State.cecd (s : State) : Bool := s.mfdcNow.getLsbD 8

/-- mfdc.sespd: side-effect stores block later transactions until answered (R158). -/
def State.sespd (s : State) : Bool := s.mfdcNow.getLsbD 6

/-- mfdc.ldnbd: loads block (R156, R183). -/
def State.ldnbd (s : State) : Bool := s.mfdcNow.getLsbD 5

/-- mfdc.wbcd: write-buffer coalescing disabled (R159). -/
def State.wbcd (s : State) : Bool := s.mfdcNow.getLsbD 2

/-! ## The SoC -/

/-- A byte of the SoC: what was written there, else the free value of that address (P17; log 7). -/
def State.socByte (s : State) (a : Word) : Byte := (s.soc.get? a.toNat).getD (Config.socByte a.toNat)

/-- The next answer of the SoC (R167). -/
def State.takeReply (s : State) : Reply × State :=
  match s.env.replies with
  | [] => (.mem, s)
  | r :: rest => (r, { s with env := { s.env with replies := rest } })

/-- A byte of an answered read: its lane of the double-word, or what the SoC holds. -/
def Reply.byte (r : Reply) (s : State) (a : Word) : Byte :=
  match r with
  | .data d => (d >>> (8 * (a.toNat % 8))).setWidth 8
  | .mem | .error => s.socByte a

/-- Byte `a` of a store, if it is one of its bytes. -/
def PendStore.byte? (p : PendStore) (a : Word) : Option Byte := lastAt p.bytes a

/-- The newest store in a list (oldest first) that holds byte `a`. -/
def newest (ps : List PendStore) (a : Word) : Option (Byte × PendStore) :=
  ps.foldl (fun acc p => ((p.byte? a).map (fun b => (b, p))).or acc) none

/-- The stores among the outstanding transactions. -/
def sentStores (ts : List Txn) : List PendStore :=
  ts.filterMap (fun t => match t with | .store p => some p | .load _ _ => none)

/-- The hart's own latest store to byte `a` that the SoC has not answered (R154). -/
def State.pendingByte (s : State) (a : Word) : Option Byte :=
  ((newest (sentStores s.lsu.busOut ++ s.lsu.wbuf) a).map (·.1))

/-! ## Sending and answering (R152, R155, R158, R164, R184) -/

/-- What a write to the SoC leaves that was answered with an error: free values in its bytes (U42; log 13). -/
def State.failWrite (ps : List Word) (s : State) : State :=
  State.draw { s with soc := s.soc.putAll (ps.map (fun p => (p, Config.freeByte s.draws p.toNat))) }

/-- One transaction is answered: a good store reaches the SoC; an error is reported (R183-R185). The bytes of a failed store
are free (U42). -/
def State.complete (t : Txn) (err : Bool) (s : State) : State :=
  match t with
  | .load a e => if e then s.reportBusError true a else s
  | .store p =>
    if err then
      (s.failWrite (p.bytes.map (·.1))).reportBusError false p.addr
    else { s with soc := s.soc.putAll p.bytes }

/-- Answer a list of transactions in order, each store by the SoC's next reply. -/
def State.completeList : List Txn → State → State
  | [], s => s
  | .load a e :: ts, s => State.completeList ts (s.complete (.load a e) e)
  | .store p :: ts, s => let (r, s1) := s.takeReply; State.completeList ts (s1.complete (.store p) (r == .error))

/-- Every outstanding transaction is answered: the bus barrier (R163). -/
def State.completeAll (s : State) : State :=
  State.completeList s.lsu.busOut { s with lsu := { s.lsu with busOut := [] } }

/-- The oldest outstanding transaction is answered. -/
def State.completeOldest (s : State) : State :=
  match s.lsu.busOut with
  | [] => s
  | t :: ts => State.completeList [t] { s with lsu := { s.lsu with busOut := ts } }

/-- Before a transaction may be sent: with sespd, an unanswered side-effect store blocks it until answered (R158); with 255
outstanding, it waits for an answer (R164). -/
def State.makeRoom (s : State) : State :=
  let s1 := if s.sespd && (sentStores s.lsu.busOut).any (·.side) then s.completeAll else s
  if 255 ≤ s1.lsu.busOut.length then s1.completeOldest else s1

/-- A request goes out on the LSU's bus port. -/
def State.logBus (r : BusReq) (s : State) : State := { s with outs := { s.outs with bus := s.outs.bus ++ [r] } }

/-- The oldest store of the write buffer is sent to the bus (R155). -/
def State.sendOne (s : State) : State :=
  match s.lsu.wbuf with
  | [] => s
  | p :: ps =>
    let s1 := s.makeRoom.logBus (.write p)
    { s1 with lsu := { wbuf := ps, busOut := s1.lsu.busOut ++ [.store p] } }

/-- Two stores may be one transaction: neither has side effects, and both lie in one double-word (R157; log 12). -/
def PendStore.joins (p q : PendStore) : Bool := !p.side && !q.side && p.addr &&& 0xFFFFFFF8#32 == q.addr &&& 0xFFFFFFF8#32

/-- The stores number `i` and `i + 1` of a buffer as one transaction, where that is allowed. -/
def mergeStores : Nat → List PendStore → List PendStore
  | 0, p :: q :: ps =>
    if p.joins q then { addr := p.addr, bytes := p.bytes ++ q.bytes, side := false } :: ps else p :: q :: ps
  | i + 1, p :: ps => p :: mergeStores i ps
  | _, ps => ps

/-- Stores may be combined: not with mfdc.wbcd = 1 (R159), and not on an AHB-Lite port, where each aligned store is one write and
each unaligned one its byte writes (R168, R680). -/
def State.coalesces (s : State) : Bool := !s.wbcd && s.cfg.lsuBus != .ahbLite

/-- The write buffer combines two neighbouring stores where it may (R157; log 12). -/
def State.busMerge (i : Nat) (s : State) : State :=
  if !s.coalesces then s else { s with lsu := { s.lsu with wbuf := mergeStores i s.lsu.wbuf } }

/-- Send the `n` oldest stores. -/
def State.sendN : Nat → State → State
  | 0, s => s
  | n + 1, s => State.sendN n s.sendOne

/-- The entire write buffer is emptied onto the bus (R153, R154). -/
def State.drain (s : State) : State := State.sendN s.lsu.wbuf.length s

/-- All buffers empty and all transactions answered: what a fence waits for (R161, R401) and "Core Quiesced" (R550). -/
def State.quiesce (s : State) : State := s.drain.completeAll

/-- A transaction without the bytes that the given stores hold. -/
def Txn.without (ps : List PendStore) : Txn → Txn
  | .load a e => .load a e
  | .store p => .store { p with bytes := p.bytes.filter (fun b => (newest ps b.1).isNone) }

/-- The transactions of a list, the first at position `i`, that the answers name, and the others. A store that stays gives up the
bytes of the younger stores answered before it, so that the hart goes on reading its latest store to each byte, and the SoC keeps it
(R154; log 14). -/
def pickTxns (answers : List (Nat × Bool)) : Nat → List Txn → List (Txn × Bool) × List Txn
  | _, [] => ([], [])
  | i, t :: ts =>
    let (hit, rest) := pickTxns answers (i + 1) ts
    match answers.find? (fun a => a.1 == i) with
    | some a => ((t, a.2) :: hit, rest)
    | none => (hit, t.without (sentStores (hit.map (·.1))) :: rest)

/-- A read transaction. -/
def Txn.isLoad : Txn → Bool
  | .load _ _ => true
  | .store _ => false

/-- Answers that arrive in one cycle: of an error on both kinds the load's is reported (R186). -/
def State.busResp (answers : List (Nat × Bool)) (s : State) : State :=
  let (hit, rest) := pickTxns answers 0 s.lsu.busOut
  (hit.filter (·.1.isLoad) ++ hit.filter (!·.1.isLoad)).foldl (fun s t => s.complete t.1 t.2)
    { s with lsu := { s.lsu with busOut := rest } }

/-! ## Loads and stores on the bus (R149, R153-R157, R170 step 5, R183) -/

/-- The accesses a load or store of `n` bytes is made of, by their first byte: one if it is aligned, else two, the second at the
multiple of `n` it reaches into (R168, R170, R172; log 12). -/
def splitAt (a : Word) (n : Nat) : List Word :=
  if a.toNat % n = 0 then [a] else [a, a + BitVec.ofNat 32 (n - a.toNat % n)]

/-- What a load asks the bus for: its exact size if the region has side effects, else the aligned double-word (R149). -/
def readReq (side : Bool) (a : Word) (n : Nat) : BusReq :=
  if side then .read a n else .read (a &&& 0xFFFFFFF8#32) 8

/-- One read transaction per address of the list, each with its answer. A non-blocking one stays outstanding (R156). That a load's
second transaction is sent though the first was answered with an error is the model's choice (R170; DESIGN CHOICE, log 12). -/
def State.readTxns (block side : Bool) (n : Nat) : List Word → State → List (Word × Reply) × State
  | [], s => ([], s)
  | d :: ds, s =>
    let (r, s1) := (s.makeRoom.logBus (readReq side d n)).takeReply
    let s2 :=
      if block then s1
      else { s1 with lsu := { s1.lsu with busOut := s1.lsu.busOut ++ [.load d (r == .error)] } }
    let (rest, s3) := State.readTxns block side n ds s2
    ((d, r) :: rest, s3)

/-- The answer that holds byte `p` of an access at `a`: that of the last transaction at or below it. -/
def replyAt (rs : List (Word × Reply)) (a p : Word) : Reply :=
  (((rs.filter (fun r => decide ((r.1 - a).toNat ≤ (p - a).toNat))).getLast?).map (·.2)).getD .mem

/-- The bytes of a bus read; `own` says whether the hart's own unanswered stores lie over what the SoC answered. -/
def State.readBytes (s : State) (rs : List (Word × Reply)) (own : Bool) (a : Word) (n : Nat) : BitVec 64 :=
  ofBytes ((addrs a n).map (fun p =>
    let r := replyAt rs a p
    let seen := match r with | .data _ => own | .mem | .error => true
    match (if seen then s.pendingByte p else none) with
    | some b => b
    | none => r.byte s p))

/-- Every byte of the access is in the write buffer, in a store that may be forwarded (R154 case 1, R157). -/
def State.fullMatch (s : State) (a : Word) (n : Nat) : Bool :=
  (addrs a n).all (fun p => match newest s.lsu.wbuf p with | some (_, q) => !q.side | none => false)

/-- No byte of the access is in the write buffer (R154 case 3). -/
def State.noMatch (s : State) (a : Word) (n : Nat) : Bool :=
  (addrs a n).all (fun p => (newest s.lsu.wbuf p).isNone)

/-- Load access fault at `a` (cause 5). -/
def loadFault (a : Word) : Exc := { cause := 5#32, tval := a }

/-- What a load gives: the bytes it read, or, of a non-blocking load that will fail, the whole register, which is free (R183,
U42). -/
structure Loaded where
  value : BitVec 64
  free : Bool

/-- A load on the bus. Side-effect loads drain the write buffer and block (R153); idempotent ones forward, drain or pass
(R154). A blocking load's error is precise, a non-blocking load's is reported when it is answered and the register's value is
free (R183). -/
def State.busLoad (a : Word) (n : Nat) (side : Bool) (s : State) : Res Loaded :=
  if !side && s.fullMatch a n then .ok ⟨s.readBytes [] true a n, false⟩ s
  else
    let s1 := if side || !s.noMatch a n then s.drain else s
    let block := side || s1.ldnbd
    let (rs, s2) := State.readTxns block side n (splitAt a n) s1
    if rs.any (fun r => r.2 == .error) then
      if block then .trap (loadFault a) s2
      else .ok ⟨(Config.freeWord s2.draws).setWidth 64, true⟩ s2.draw
    else .ok ⟨s2.readBytes rs (!side) a n, false⟩ s2

/-- A store on the bus enters the write buffer (R155, R170 step 5); a misaligned one as aligned byte writes (R168, R680). -/
def State.busStore (a : Word) (n : Nat) (v : Word) (side : Bool) (s : State) : State :=
  let bytes := (addrs a n).zip (toBytes (v.setWidth 64) n)
  let entries :=
    if a.toNat % n = 0 then [{ addr := a, bytes := bytes, side := side : PendStore }]
    else bytes.map (fun b => { addr := b.1, bytes := [b], side := side : PendStore })
  { s with lsu := { s.lsu with wbuf := s.lsu.wbuf ++ entries } }

end Sys2Proof.Machine
end

