-- ==== Sys2Proof/Machine/Ccm.lean ====
section
/-! DEFINITION. ICCM and DCCM: bytes, the ECC oracle and correctable-error counting
(R149, R192, R196-R199, R656). -/

namespace Sys2Proof.Machine

/-- The two closely-coupled memories (R141). -/
inductive Ccm
  | iccm
  | dccm
deriving DecidableEq, Repr

/-- The bytes of a closely-coupled memory. -/
def State.ccm (s : State) : Ccm → Memory
  | .iccm => s.iccm
  | .dccm => s.dccm

/-- Replace the bytes of a closely-coupled memory. -/
def State.setCcm (k : Ccm) (m : Memory) (s : State) : State :=
  match k with
  | .iccm => { s with iccm := m }
  | .dccm => { s with dccm := m }

/-- A counter/threshold register counts one error: 27-bit count, wrapping (R65). -/
def countError (r : Word) : Word := (r &&& 0xF8000000#32) ||| ((r + 1#32) &&& 0x07FFFFFF#32)

/-- Count a correctable error of a memory: miccmect or mdccmect (R198). -/
def State.countCcmError (k : Ccm) (s : State) : State :=
  match k with
  | .iccm => { s with csr := { s.csr with miccmect := countError s.csr.miccmect } }
  | .dccm => { s with csr := { s.csr with mdccmect := countError s.csr.mdccmect } }

/-- Count an I-cache error: micect (R198). -/
def State.countICacheError (s : State) : State :=
  { s with csr := { s.csr with micect := countError s.csr.micect } }

/-- The word holding `a` has been initialised: its four bytes are known (R656, D35). -/
def State.wordInit (k : Ccm) (s : State) (a : Word) : Bool :=
  (addrs (wordAddr a) 4).all (fun p => ((s.ccm k).get? p.toNat).isSome)

/-- The next answer of the ECC oracle (R197). -/
def State.takeEcc (s : State) : Ecc × State :=
  match s.env.ecc with
  | [] => (.none, s)
  | e :: rest => (e, { s with env := { s.env with ecc := rest } })

/-- The aligned words an access touches. -/
def wordsOf (a : Word) (n : Nat) : List Word :=
  let w1 := wordAddr (a + BitVec.ofNat 32 (n - 1))
  if wordAddr a = w1 then [wordAddr a] else [wordAddr a, w1]

/-- What the check of one word's read says. With cecd = 1 nothing is reported and the data may be corrupt (R197). -/
inductive Check
  | clean
  | corrected
  | fatal
  | corrupt
deriving DecidableEq, Repr

/-- Check one word as it is read. -/
def State.checkWord (s : State) : Check × State :=
  let (e, s1) := s.takeEcc
  (match e with
   | .none => .clean
   | .single => if s.cecd then .corrupt else .corrected
   | .double => if s.cecd then .corrupt else .fatal, s1)

/-- Check the words of an access in order. -/
def State.checkWords : List Word → State → List (Word × Check) × State
  | [], s => ([], s)
  | w :: ws, s =>
    let (c, s1) := s.checkWord
    let (rest, s2) := State.checkWords ws s1
    ((w, c) :: rest, s2)

/-- One more correctable error for each corrected word of the list (R198). -/
def State.countChecks (k : Ccm) (cs : List (Word × Check)) (s : State) : State :=
  cs.foldl (fun s c => if c.2 == .corrected then s.countCcmError k else s) s

/-- The word holding `a` was read corrupt, unreported. -/
def corruptAt (cs : List (Word × Check)) (a : Word) : Bool := cs.any (fun c => c.1 == wordAddr a && c.2 == .corrupt)

/-- The byte at `a` is known: its word was not read corrupt (R197), and it has been initialised (R199, D35). -/
def State.known (k : Ccm) (cs : List (Word × Check)) (s : State) (a : Word) : Bool :=
  !corruptAt cs a && ((s.ccm k).get? a.toNat).isSome

/-- The byte at `a`, a free value if it is not known. -/
def State.ccmByte (k : Ccm) (cs : List (Word × Check)) (s : State) (a : Word) : Byte :=
  if corruptAt cs a then Config.freeByte s.draws a.toNat
  else ((s.ccm k).get? a.toNat).getD (Config.freeByte s.draws a.toNat)

/-- The bytes at the addresses `ps`; a read of an unknown one takes a new free value. -/
def State.ccmBytes (k : Ccm) (cs : List (Word × Check)) (ps : List Word) (s : State) : List Byte × State :=
  (ps.map (s.ccmByte k cs), if ps.all (s.known k cs) then s else s.draw)

/-- The value of `n` bytes at `a`. -/
def State.ccmValue (k : Ccm) (cs : List (Word × Check)) (a : Word) (n : Nat) (s : State) : BitVec 64 × State :=
  let (bs, s1) := State.ccmBytes k cs (addrs a n) s
  (ofBytes bs, s1)

/-- With checking disabled the corrupt contents of a word that is merged become what is stored back (R197); a word that nothing has
initialised stays so (R656, D35). -/
def State.spoil (k : Ccm) (cs : List (Word × Check)) (s : State) : State :=
  cs.foldl (fun s c =>
    if c.2 == .corrupt && s.wordInit k c.1 then
      (s.setCcm k ((s.ccm k).putAll ((addrs c.1 4).map (fun p => (p, Config.freeByte s.draws p.toNat))))).draw
    else s) s

/-- Merge one byte into its word; a narrow write leaves an uninitialised word uninitialised (R656, D35). -/
def State.mergeByte (k : Ccm) (s : State) (p : Word × Byte) : State :=
  if s.wordInit k p.1 then s.setCcm k ((s.ccm k).put p.1.toNat p.2) else s

end Sys2Proof.Machine
end

