-- ==== Sys2Proof/Machine/Dma.lean ====
section
/-! DEFINITION. The DMA slave port (R190-R194, R551; log 32). -/

namespace Sys2Proof.Machine

/-- The last byte's address, modulo 2^32. -/
def lastByte (a : Word) (n : Nat) : Word := a + BitVec.ofNat 32 (n - 1)

/-- The closely-coupled memory a DMA request lies in; the PIC is not reachable (R190). -/
def State.dmaTarget (s : State) (r : DmaReq) : Option Ccm :=
  let last := lastByte r.addr r.bytes
  if s.inIccm r.addr && s.inIccm last then some .iccm
  else if s.inDccm r.addr && s.inDccm last then some .dccm
  else none

/-- Width and alignment: writes 4 or 8 bytes, reads 1, 2, 4 or 8, all aligned (R191). -/
def DmaReq.legal (r : DmaReq) : Bool :=
  (r.bytes == 4 || r.bytes == 8 || (!r.write && (r.bytes == 1 || r.bytes == 2))) && r.addr.toNat % r.bytes == 0

/-- The answer to a request is an error (R190, R191). -/
def dmaError : DmaResp := { err := true, data := 0#64 }

/-- Access at most one word of a memory: a write replaces data and check bits, a read is checked and counted (R192); `none` is a
double-bit error. A write answers 0. -/
def State.dmaWord (k : Ccm) (write : Bool) (a : Word) (n : Nat) (v : BitVec 32) (s : State) : Option (BitVec 32) × State :=
  if write then (some 0#32, s.setCcm k ((s.ccm k).putBytes a (toBytes (v.setWidth 64) n)))
  else
    let (cs, s1) := State.checkWords (wordsOf a n) s
    if cs.any (fun c => c.2 == .fatal) then (none, s1)
    else
      let (d, s2) := State.ccmValue k cs a n (s1.countChecks k cs)
      (some (d.setWidth 32), s2)

/-- The request at the head of the FIFO is answered. -/
def State.dmaAnswer (resp : DmaResp) (s : State) : State :=
  { s with dma := { fifo := s.dma.fifo.tail, half := none, resp := some resp } }

/-- Serve one word of the head of the FIFO, in any activity state (R551); a double-word takes two (R194). -/
def State.dmaServe (s : State) : State :=
  match s.dma.fifo with
  | [] => s
  | r :: _ =>
    if !r.legal then s.dmaAnswer dmaError
    else match s.dmaTarget r, s.dma.half with
      | none, _ => s.dmaAnswer dmaError
      | some k, none =>
        match s.dmaWord k r.write r.addr (min r.bytes 4) (r.data.extractLsb' 0 32) with
        | (none, s1) => s1.dmaAnswer dmaError
        | (some lo, s1) =>
          if r.bytes = 8 then { s1 with dma := { s1.dma with half := some lo } }
          else s1.dmaAnswer { err := false, data := lo.setWidth 64 }
      | some k, some lo =>
        match s.dmaWord k r.write (r.addr + 4#32) 4 (r.data.extractLsb' 32 32) with
        | (none, s1) => s1.dmaAnswer dmaError
        | (some hi, s1) => s1.dmaAnswer { err := false, data := hi ++ lo }

/-- Serve `n` words. -/
def State.dmaServeN : Nat → State → State
  | 0, s => s
  | n + 1, s => State.dmaServeN n s.dmaServe

/-- A point inside a step where the DMA port is let in: between the parcels of a fetch, between fetch and execution, and between the
accesses a misaligned DCCM access is split into (R168, R194). -/
def State.dmaPoint (s : State) : State :=
  match s.env.dmaMid with
  | [] => s
  | n :: rest => State.dmaServeN n { s with env := { s.env with dmaMid := rest } }

end Sys2Proof.Machine
end

