-- ==== Sys2Proof/Machine/Dccm.lean ====
section
/-! DEFINITION. Loads and stores of the DCCM (R149, R168, R170 step 3a, R197-R199, R656). -/

namespace Sys2Proof.Machine

/-- Store/AMO access fault at `a` (cause 7). -/
def storeFault (a : Word) : Exc := { cause := 7#32, tval := a }

/-- The bytes of the accesses at the given places, the DMA port being let in between two of them (R168, R194). -/
def State.dccmBytes (cs : List (Word × Check)) : List (List Word) → State → List Byte × State
  | [], s => ([], s)
  | [ps], s => State.ccmBytes .dccm cs ps s
  | ps :: rest, s =>
    let (bs, s1) := State.ccmBytes .dccm cs ps s
    let (more, s2) := State.dccmBytes cs rest s1.dmaPoint
    (bs ++ more, s2)

/-- Merge bytes into their words, the DMA port being let in between two accesses (R168, R194). -/
def State.dccmMerge : List (List (Word × Byte)) → State → State
  | [], s => s
  | [ps], s => ps.foldl (State.mergeByte .dccm) s
  | ps :: rest, s => State.dccmMerge rest (ps.foldl (State.mergeByte .dccm) s).dmaPoint

/-- A list cut where the access at `a` is split (R168): at the multiple of its size that it reaches into, the part at the lower
addresses first (DESIGN CHOICE, log 12). -/
def cutAt {α : Type} (a : Word) (n : Nat) (l : List α) : List (List α) :=
  if a.toNat % n = 0 then [l] else [l.take (n - a.toNat % n), l.drop (n - a.toNat % n)]

/-- A DCCM load (R170 step 3a, R197): misaligned accesses are split. -/
def State.dccmLoad (a : Word) (n : Nat) (s : State) : Res (BitVec 64) :=
  let (cs, s1) := State.checkWords (wordsOf a n) s
  if cs.any (fun c => c.2 == .fatal) then .trap (loadFault a) s1
  else
    let (bs, s2) := State.dccmBytes cs (cutAt a n (addrs a n)) (s1.countChecks .dccm cs)
    .ok (ofBytes bs) s2

/-- A DCCM store (R170 step 3a): an aligned word store checks nothing and initialises the word (R199); any other reads the
words it merges into, with the ECC outcomes of R197. -/
def State.dccmStore (a : Word) (n : Nat) (v : Word) (s : State) : Res Unit :=
  if n = 4 && a.toNat % 4 = 0 then
    .ok () { s with dccm := s.dccm.putBytes a (toBytes (v.setWidth 64) 4) }
  else
    let (cs, s1) := State.checkWords (wordsOf a n) s
    if cs.any (fun c => c.2 == .fatal) then .trap (storeFault a) s1
    else
      let s2 := (s1.countChecks .dccm cs).spoil .dccm cs
      .ok () (State.dccmMerge (cutAt a n ((addrs a n).zip (toBytes (v.setWidth 64) n))) s2)

end Sys2Proof.Machine
end

