-- ==== Sys2Proof/Machine/Pic.lean ====
section
/-! DEFINITION. The programmable interrupt controller: register block, gateways, evaluation, claim capture (61_pic.md). -/

namespace Sys2Proof.Machine

/-- Bits 1..Smax: the sources that exist (R532). -/
def Build.sources (c : Build) : BitVec 256 := (BitVec.allOnes 256 >>> (255 - c.totalInt)) &&& ~~~1#256

/-- Source S exists and has a configurable gateway (R497, P15). -/
def State.cfgGateways (s : State) : BitVec 256 := s.cfg.cfgGateway &&& Build.sources s.cfg

/-- active(S) of R501: the request at its active level; a simple gateway is active-high (R500). -/
def State.gwActive (s : State) (p : Pic) : BitVec 256 :=
  (s.pins.extint ^^^ (p.gwPol &&& s.cfgGateways)) &&& Build.sources s.cfg

/-- gw_req(S) of R500 and R501. -/
def State.gwReq (s : State) (p : Pic) : BitVec 256 :=
  s.gwActive p ||| (p.gwType &&& p.gwIp &&& s.cfgGateways)

/-- One clock of the gateways: IP is set while the request is active, except in the cycle of its clear (R501; log 35). The states
before recent writes are clocked too, and may be seen for 4 cycles (R660). -/
def State.gwTick (s : State) : State :=
  { s with
    pic := { s.pic with gwIp := s.pic.gwIp ||| (s.gwActive s.pic &&& s.cfgGateways &&& ~~~s.sync.gwCleared) }
    sync := { s.sync with
      gwCleared := 0
      picOld := s.sync.picOld.filterMap (fun p =>
        if p.2 ≤ 1 then none
        else some ({ p.1 with gwIp := p.1.gwIp ||| (s.gwActive p.1 &&& s.cfgGateways) }, p.2 - 1)) } }

/-! ## Register block (R492-R499) -/

/-- The PIC register an offset names (R492); `none` for reserved offsets, which read 0 and drop writes. -/
inductive PicReg
  | meipl (src : Nat)
  | meip (x : Nat)
  | meie (src : Nat)
  | mpiccfg
  | meigwctrl (src : Nat)
  | meigwclr (src : Nat)
deriving DecidableEq, Repr

/-- Source number `i` of the build, if there is one. -/
def Build.source? (c : Build) (i : Nat) : Bool := decide (1 ≤ i) && decide (i ≤ c.totalInt)

/-- The address map of R492. -/
def State.picReg (s : State) (off : Nat) : Option PicReg :=
  let i := (off % 0x1000) / 4
  if off < 0x1000 then (if Build.source? s.cfg i then some (.meipl i) else none)
  else if off < 0x2000 then (if i ≤ s.cfg.totalInt / 32 then some (.meip i) else none)
  else if off < 0x3000 then (if Build.source? s.cfg i then some (.meie i) else none)
  else if off < 0x4000 then (if i = 0 then some .mpiccfg else none)
  else if off < 0x5000 then (if s.cfgGateways.getLsbD i then some (.meigwctrl i) else none)
  else if off < 0x6000 then (if s.cfgGateways.getLsbD i then some (.meigwclr i) else none)
  else none

/-- Set bit `i` of a mask to `b`. -/
def setBit (m : BitVec 256) (i : Nat) (b : Bool) : BitVec 256 :=
  if b then m ||| (1#256 <<< i) else m &&& ~~~(1#256 <<< i)

/-- A one-bit value as a word. -/
def bitWord (b : Bool) : Word := if b then 1#32 else 0#32

/-- Read a PIC register (R493-R499). -/
def State.picRead (s : State) (r : PicReg) : Word :=
  match r with
  | .meipl i => (s.pic.meipl[i]?.getD 0#4).setWidth 32
  | .meip x => ((s.gwReq s.pic) >>> (32 * x)).setWidth 32
  | .meie i => bitWord (s.pic.meie.getLsbD i)
  | .mpiccfg => bitWord s.pic.priord
  | .meigwctrl i => bitWord (s.pic.gwPol.getLsbD i) ||| (bitWord (s.pic.gwType.getLsbD i) <<< 1)
  | .meigwclr _ => 0#32

/-- The PIC registers after a write of `v` (R493-R499); meipX cannot be written. -/
def Pic.write (r : PicReg) (v : Word) (p : Pic) : Pic :=
  match r with
  | .meipl i => { p with meipl := p.meipl.setIfInBounds i (v.setWidth 4) }
  | .meip _ => p
  | .meie i => { p with meie := setBit p.meie i (v.getLsbD 0) }
  | .mpiccfg => { p with priord := v.getLsbD 0 }
  | .meigwctrl i => { p with gwPol := setBit p.gwPol i (v.getLsbD 0), gwType := setBit p.gwType i (v.getLsbD 1) }
  | .meigwclr i => { p with gwIp := setBit p.gwIp i false }

/-- The gateways a write clears (R501). -/
def PicReg.clears : PicReg → BitVec 256
  | .meigwclr i => 1#256 <<< i
  | .meipl _ | .meip _ | .meie _ | .mpiccfg | .meigwctrl _ => 0

/-- Write a PIC register: at once, while the evaluation may lag up to 4 cycles behind this write (R660, D36; log 17). -/
def State.picWrite (r : PicReg) (v : Word) (s : State) : State :=
  { s with
    pic := s.pic.write r v
    sync := { s.sync with
      picOld := (s.pic, 4) :: s.sync.picOld
      gwCleared := s.sync.gwCleared ||| r.clears } }

/-- A word load in the PIC block: unused addresses read 0 (R177, R492). -/
def State.picLoad (s : State) (a : Word) : Word :=
  match s.picReg (a.toNat - s.cfg.pic.base) with
  | some r => s.picRead r
  | none => 0#32

/-- A word store in the PIC block: unused addresses drop it (R177, R492). -/
def State.picStore (a : Word) (v : Word) (s : State) : State :=
  match s.picReg (a.toNat - s.cfg.pic.base) with
  | some r => s.picWrite r v
  | none => s

/-! ## Evaluation and capture (R503, R505, R510) -/

/-- inv(v): reverse order inverts the 4-bit levels (R505). -/
def inv (priord : Bool) (v : BitVec 4) : BitVec 4 := if priord then ~~~v else v

/-- The PIC registers the evaluation sees: those before a recent write while it may lag (R660, D36). -/
def State.picSeen (s : State) : Pic := lagged (s.sync.picOld.map (·.1)) s.pic s.env.lagPic

/-- Sources 1..n compared in rising order: a later source wins only with a higher priority (R503). -/
def picBest (p : Pic) (cand : BitVec 256) : Nat → BitVec 4 × BitVec 8
  | 0 => (0#4, 0#8)
  | n + 1 =>
    let best := picBest p cand n
    let pri := inv p.priord (p.meipl[n + 1]?.getD 0#4)
    if cand.getLsbD (n + 1) && decide (best.1 < pri) then (pri, BitVec.ofNat 8 (n + 1)) else best

/-- maxpri and claim of R503. -/
def State.picEval (s : State) : BitVec 4 × BitVec 8 :=
  let p := s.picSeen
  picBest p (s.gwReq p &&& p.meie) s.cfg.totalInt

/-- mexintirq, that is mip.meip: strictly above both thresholds (R503). -/
def State.mexintirq (s : State) : Bool :=
  let m := s.picEval.1
  let po := s.picSeen.priord
  decide (inv po s.csr.meipt < m) && decide (inv po s.csr.meicurpl < m)

/-- mhwakeup: an enabled source of internal priority 15 is pending (R503, R504). -/
def State.mhwakeup (s : State) : Bool := s.picEval.1 == 15#4

/-- A write to meicpct: capture claim id and priority (R510). -/
def State.capture (s : State) : State :=
  let (m, c) := s.picEval
  { s with csr := { s.csr with claimid := c, meicidpl := inv s.picSeen.priord m } }

end Sys2Proof.Machine
end

