-- ==== Sys2Proof/Machine/ICache.lean ====
section
/-! DEFINITION. The instruction cache: geometry, check bits, lookup, fill, invalidation and the debugger's array accesses
(R165, R175, R196-R198, R634-R637; log 16). -/

namespace Sys2Proof.Machine

/-- Number of sets: size / (4 ways * 64 bytes) (R175). -/
def Build.sets (c : Build) : Nat := (c.icacheKB.getD 16) * 4

/-- The set of an address (R175). -/
def Build.setOf (c : Build) (a : Word) : Nat := (a.toNat / 64) % Build.sets c

/-- The tag of an address, right-justified (R89). -/
def Build.tagOf (c : Build) (a : Word) : BitVec 20 := BitVec.ofNat 20 (a.toNat / (64 * Build.sets c))

/-- The tag bits a cache of this size uses; the higher ones are 0 (R89). -/
def Build.tagMask (c : Build) : BitVec 20 := BitVec.ofNat 20 (0x4000000 / Build.sets c - 1)

/-- The check bits a data entry has: two of parity or ten of ECC (R90, R196). -/
def Build.checkMask (c : Build) : BitVec 10 := if c.icacheEcc then 0x3FF#10 else 3#10

/-- The check bits a tag has: one of parity or five of ECC (R90, R196). -/
def Build.tagCheckMask (c : Build) : BitVec 5 := if c.icacheEcc then 0x1F#5 else 1#5

/-- The bits of dicad1 that are not reserved (R90). -/
def Build.dicad1Mask (c : Build) : Word := (Build.checkMask c).setWidth 32

/-- Key of a line's tag entry. -/
def Build.lineKey (c : Build) (way set : Nat) : Nat := way * Build.sets c + set

/-- Key of a chunk pair: `chunk` is bits 5:2 of its address (R88, R634). -/
def Build.chunkKey (c : Build) (way set chunk : Nat) : Nat := Build.lineKey c way set * 16 + chunk

/-- Even parity of the low `n` bits: the bit that makes the number of ones even (R90, R196). -/
def parity {w : Nat} (v : BitVec w) : Nat → Bool
  | 0 => false
  | n + 1 => (v.getLsbD n) ^^ (parity v n)

/-- Check bits of a 16-bit chunk: one parity bit or five ECC bits (R196). -/
def Build.chunkCheck (c : Build) (h : BitVec 16) : BitVec 5 :=
  if c.icacheEcc then Config.chunkEcc h else (if parity h 16 then 1#5 else 0#5)

/-- Check bits of a tag (R196). -/
def Build.tagCheck (c : Build) (t : BitVec 20) : BitVec 5 :=
  if c.icacheEcc then Config.tagEcc t else (if parity t 20 then 1#5 else 0#5)

/-- The check bits of a chunk pair as dicad1 shows them: ecc1, ecc0 or parity1, parity0 (R90). -/
def Build.pairCheck (c : Build) (d : BitVec 32) : BitVec 10 :=
  let hi := Build.chunkCheck c (d.extractLsb' 16 16)
  let lo := Build.chunkCheck c (d.extractLsb' 0 16)
  if c.icacheEcc then hi ++ lo else ((hi.setWidth 1) ++ (lo.setWidth 1)).setWidth 10

/-- The check bits of the half `hi` of a chunk pair within its ten. -/
def Build.halfCheck (c : Build) (k : BitVec 10) (hi : Bool) : BitVec 5 :=
  if c.icacheEcc then (if hi then k.extractLsb' 5 5 else k.extractLsb' 0 5)
  else ((if hi then k.extractLsb' 1 1 else k.extractLsb' 0 1)).setWidth 5

/-- A tag entry; an unlisted one is invalid. -/
def ICache.tagAt (ic : ICache) (key : Nat) : TagEntry :=
  (Sparse.get? ic.tags key).getD { tag := 0, check := 0, valid := false }

/-- A chunk pair with its check bits; an unlisted one is zero. -/
def ICache.dataAt (ic : ICache) (key : Nat) : BitVec 32 × BitVec 10 := (Sparse.get? ic.data key).getD (0, 0)

/-- The LRU bits of a set. -/
def ICache.lruAt (ic : ICache) (set : Nat) : BitVec 3 := (Sparse.get? ic.lru set).getD 0

/-- Every line invalid (R162, R175). -/
def ICache.invalidate (ic : ICache) : ICache :=
  { ic with tags := ic.tags.map (fun e => (e.1, { e.2 with valid := false })) }

/-- All lines of one set invalid (R198). -/
def ICache.invalidateSet (ic : ICache) (sets set : Nat) : ICache :=
  { ic with tags := ic.tags.map (fun e => if e.1 % sets = set then (e.1, { e.2 with valid := false }) else e) }

/-- The way that holds the line of an address; of two valid ways with the same tag, the lower-numbered (DESIGN CHOICE, log 16). -/
def State.icHit (s : State) (a : Word) : Option Nat :=
  [0, 1, 2, 3].find? (fun w =>
    let t := s.icache.tagAt (Build.lineKey s.cfg w (Build.setOf s.cfg a))
    t.valid && t.tag == Build.tagOf s.cfg a)

/-- A check error on any valid tag of the set (R198). -/
def State.icTagError (s : State) (set : Nat) : Bool :=
  [0, 1, 2, 3].any (fun w =>
    let t := s.icache.tagAt (Build.lineKey s.cfg w set)
    t.valid && t.check != Build.tagCheck s.cfg t.tag)

/-- The 16-bit parcel at `p` in a way, and whether its check bits are right. -/
def State.icParcel (s : State) (way : Nat) (p : Word) : BitVec 16 × Bool :=
  let (d, k) := s.icache.dataAt (Build.chunkKey s.cfg way (Build.setOf s.cfg p) ((p.toNat / 4) % 16))
  let hi := p.getLsbD 1
  let h := if hi then d.extractLsb' 16 16 else d.extractLsb' 0 16
  (h, Build.halfCheck s.cfg k hi == Build.chunkCheck s.cfg h)

/-- Store 16 chunk pairs of a line, the first at `key`. -/
def fillData (c : Build) (m : List (Nat × (BitVec 32 × BitVec 10))) (key : Nat) :
    List (BitVec 32) → List (Nat × (BitVec 32 × BitVec 10))
  | [] => m
  | d :: ds => fillData c (Sparse.put m key (d, Build.pairCheck c d)) (key + 1) ds

/-- The 16 words of the 64-byte line that holds `a`, as the I-bus reads them; `r` answers for the double-word of `a`. -/
def State.lineWords (s : State) (r : Reply) (a : Word) : List (BitVec 32) :=
  let base := a &&& 0xFFFFFFC0#32
  (List.range 16).map (fun i =>
    let w := base + BitVec.ofNat 32 (4 * i)
    let rep := if w &&& 0xFFFFFFF8#32 == a &&& 0xFFFFFFF8#32 then r else .mem
    (ofBytes ((addrs w 4).map (rep.byte s))).setWidth 32)

/-- Fill the line that holds `a` into a way of its set (R175). -/
def State.icFill (a : Word) (way : BitVec 2) (lru : BitVec 3) (r : Reply) (s : State) : State :=
  let set := Build.setOf s.cfg a
  let t := Build.tagOf s.cfg a
  { s with icache := {
      data := fillData s.cfg s.icache.data (Build.chunkKey s.cfg way.toNat set 0) (s.lineWords r a)
      tags := Sparse.put s.icache.tags (Build.lineKey s.cfg way.toNat set)
        { tag := t, check := Build.tagCheck s.cfg t, valid := true }
      lru := Sparse.put s.icache.lru set lru } }

/-- A parity or ECC error: invalidate the set, count one, and fetch again (R198). -/
def State.icRecover (a : Word) (s : State) : State :=
  ({ s with icache := s.icache.invalidateSet (Build.sets s.cfg) (Build.setOf s.cfg a) }).countICacheError

/-- The cache may hold this region's instructions: it is present and the region cacheable (R171 step 3). -/
def State.cacheable (s : State) (a : Word) : Bool :=
  s.cfg.icacheKB.isSome && s.mracFetch.getLsbD (2 * regionOf a)

/-! ## The debugger's array accesses (R635-R637) -/

/-- An upset of a data entry: its bits flip, within the check bits there are (R196, R197). -/
def State.icUpset (key : Nat) (data : BitVec 32) (check : BitVec 10) (s : State) : State :=
  let (d, k) := s.icache.dataAt key
  { s with icache := { s.icache with
      data := Sparse.put s.icache.data key (d ^^^ data, (k ^^^ check) &&& Build.checkMask s.cfg) } }

/-- An upset of a tag: its bits flip, within the bits there are (R196, R197). -/
def State.icTagUpset (key : Nat) (tag : BitVec 20) (check : BitVec 5) (s : State) : State :=
  let t := s.icache.tagAt key
  { s with icache := { s.icache with
      tags := Sparse.put s.icache.tags key
        { t with tag := (t.tag ^^^ tag) &&& Build.tagMask s.cfg, check := (t.check ^^^ check) &&& Build.tagCheckMask s.cfg } } }

/-- The location dicawics names: way, set, chunk (R88). Of an index above the cache's own, the set is taken modulo their number
(DESIGN CHOICE, log 47). -/
def State.icLoc (s : State) : Nat × Nat × Nat :=
  ((s.csr.dicawics.extractLsb' 20 2).toNat, ((s.csr.dicawics.extractLsb' 6 10).toNat) % Build.sets s.cfg,
    (s.csr.dicawics.extractLsb' 2 4).toNat)

/-- What a read of dicago returns: 0 (R635); without an I-cache any value (U25; log 29). -/
def State.dicagoValue (s : State) : Word := if s.cfg.icacheKB.isNone then Config.freeWord s.draws else 0#32

/-- A read of dicago: dicad0 and dicad1 take what the array holds (R635); without an I-cache they are plain storage and stay (U25).
After a read of a tag the check bits of the other half are 0 (DESIGN CHOICE, log 47). -/
def State.dicagoRead (s : State) : State :=
  let (way, set, chunk) := s.icLoc
  if s.cfg.icacheKB.isNone then s.draw
  else if s.csr.dicawics.getLsbD 24 then
    let t := s.icache.tagAt (Build.lineKey s.cfg way set)
    { s with csr := { s.csr with
        dicad0 := t.tag ++ 0#5 ++ s.icache.lruAt set ++ 0#3 ++ (BitVec.ofBool t.valid)
        dicad1 := t.check.setWidth 32 &&& Build.dicad1Mask s.cfg } }
  else
    let (d, k) := s.icache.dataAt (Build.chunkKey s.cfg way set chunk)
    { s with csr := { s.csr with dicad0 := d, dicad1 := k.setWidth 32 &&& Build.dicad1Mask s.cfg } }

/-- A write of 1 to dicago.go: the array takes dicad0 and dicad1 as given (R635). -/
def State.dicagoWrite (s : State) : State :=
  let (way, set, chunk) := s.icLoc
  if s.cfg.icacheKB.isNone then s
  else if s.csr.dicawics.getLsbD 24 then
    let d := s.csr.dicad0
    { s with icache := { s.icache with
        tags := Sparse.put s.icache.tags (Build.lineKey s.cfg way set)
          { tag := d.extractLsb' 12 20 &&& Build.tagMask s.cfg
            check := s.csr.dicad1.extractLsb' 0 5 &&& Build.tagCheckMask s.cfg
            valid := d.getLsbD 0 }
        lru := Sparse.put s.icache.lru set (d.extractLsb' 4 3) } }
  else
    { s with icache := { s.icache with
        data := Sparse.put s.icache.data (Build.chunkKey s.cfg way set chunk)
          (s.csr.dicad0, s.csr.dicad1.extractLsb' 0 10 &&& Build.checkMask s.cfg) } }

end Sys2Proof.Machine
end

