-- ==== Sys2Proof/Machine/Access.lean ====
section
/-! DEFINITION. The three access primitives MemRead, MemWrite and Fetch (R12, R170, R171), and the fences (R161, R162). -/

namespace Sys2Proof.Machine

/-- Where a data access goes (R170). -/
inductive Target
  | dccm
  | pic
  | bus (side : Bool)
deriving DecidableEq, Repr

/-- Load or store address misaligned (cause 4 or 6). -/
def misaligned (store : Bool) (a : Word) : Exc := { cause := if store then 6#32 else 4#32, tval := a }

/-- Load or store/AMO access fault (cause 5 or 7). -/
def accessFault (store : Bool) (a : Word) : Exc := if store then storeFault a else loadFault a

/-- The checks of a data access in the order of R170: where it goes, or the exception. -/
def State.dataTarget (s : State) (store : Bool) (a : Word) (size : Size) : Except Exc Target :=
  let n := size.bytes
  let last := lastByte a n
  let side := s.sideEffect a
  if regionOf a ≠ regionOf last then .error (misaligned store a)
  else if side && decide (a.toNat % n ≠ 0) then .error (misaligned store a)
  else if s.dataRegionLocal (regionOf a) then
    if s.inDccm a && s.inDccm last then .ok .dccm
    else if s.inPic a && s.inPic last then
      if size ≠ .word ∨ a.toNat % 4 ≠ 0 then .error (accessFault store a) else .ok .pic
    else .error (accessFault store a)
  else if !inWindows s.cfg.dataWindows a last then .error (accessFault store a)
  else .ok (.bus side)

/-- MemRead(a, n): the value in the low bytes (R170). -/
def State.memRead (a : Word) (size : Size) (s : State) : Res Loaded :=
  match s.dataTarget false a size with
  | .error e => .trap e s
  | .ok .dccm =>
    match s.dccmLoad a size.bytes with
    | .ok v s1 => .ok ⟨v, false⟩ s1
    | .trap e s1 => .trap e s1
  | .ok .pic => .ok ⟨(s.picLoad a).setWidth 64, false⟩ s
  | .ok (.bus side) => s.busLoad a size.bytes side

/-- MemWrite(a, n, v) (R170). -/
def State.memWrite (a : Word) (size : Size) (v : Word) (s : State) : Res Unit :=
  match s.dataTarget true a size with
  | .error e => .trap e s
  | .ok .dccm => s.dccmStore a size.bytes v
  | .ok .pic => .ok () (s.picStore a v)
  | .ok (.bus side) => .ok () (s.busStore a size.bytes v side)

/-- A byte of data memory as the hart holds it: DCCM, else the hart's newest unanswered store, else what the SoC was written;
none where nothing is known. The ICCM is beside it: only fetches, DMA and the debugger reach it. What statements about memory
read. -/
def State.byte? (s : State) (a : Word) : Option Byte :=
  if s.inDccm a then s.dccm.get? a.toNat
  else match s.pendingByte a with
    | some b => some b
    | none => s.soc.get? a.toNat

/-! ## Fetch (R171) -/

/-- What the fetch of a parcel or an instruction comes to. -/
inductive Fetched (α : Type)
  | ok (v : α) (s : State)
  | fault (e : Exc) (s : State)
  /-- RFPC: an error was corrected, the same instruction is fetched again (R198). -/
  | again (s : State)

/-- Instruction access fault at the parcel that faulted (R431, D11). -/
def fetchFault (p : Word) : Exc := { cause := 1#32, tval := p }

/-- A parcel from the ICCM as it stands (R171 step 1, R197, R198). That no bytes fetched ahead of a write are used is the model's choice
(R662; DESIGN CHOICE, log 50). -/
def State.fetchIccm (p : Word) (s : State) : Fetched (BitVec 16) :=
  let (c, s1) := s.checkWord
  match c with
  | .fatal => .fault (fetchFault p) s1
  | .corrected => .again (s1.countCcmError .iccm)
  | .clean | .corrupt =>
    let (v, s2) := State.ccmValue .iccm [(wordAddr p, c)] p 2 s1
    .ok (v.setWidth 16) s2

/-- A parcel from the I-bus, uncached (R171 step 3): what the SoC answers now (R662; log 50). -/
def State.fetchBus (p : Word) (s : State) : Fetched (BitVec 16) :=
  let (r, s1) := s.takeReply
  if r == .error then .fault (fetchFault p) s1
  else .ok ((ofBytes ((addrs p 2).map (r.byte s1))).setWidth 16) s1

/-- A parcel through the I-cache: hit, recovery from a check error, or a line fill (R175, R197, R198). -/
def State.fetchCached (p : Word) (s : State) : Fetched (BitVec 16) :=
  match s.icHit p with
  | some way =>
    let (h, good) := s.icParcel way p
    if !good || s.icTagError (Build.setOf s.cfg p) || s.env.icErr then .again (s.icRecover p)
    else .ok h s
  | none =>
    if s.icTagError (Build.setOf s.cfg p) || s.env.icErr then .again (s.icRecover p)
    else
      let (r, s1) := s.takeReply
      if r == .error then .fault (fetchFault p) s1
      else
        let s2 := s1.icFill p s.env.icWay s.env.icLru r
        .ok ((ofBytes ((addrs p 2).map (r.byte s1))).setWidth 16) s2

/-- One parcel (R171). -/
def State.fetchParcel (p : Word) (s : State) : Fetched (BitVec 16) :=
  if s.fetchRegionLocal (regionOf p) then
    if s.inIccm p && s.inIccm (lastByte p 2) then s.fetchIccm p else .fault (fetchFault p) s
  else if !inWindows s.cfg.instWindows p (lastByte p 2) then .fault (fetchFault p) s
  else if s.cacheable p then s.fetchCached p
  else s.fetchBus p

/-- Fetch(pc): one or two parcels (R171, R221), the DMA port being let in after each (R194). -/
def State.fetch (s : State) : Fetched Enc :=
  match s.fetchParcel s.pc with
  | .fault e s1 => .fault e s1
  | .again s1 => .again s1
  | .ok p0 s1 =>
    if p0.extractLsb' 0 2 = 3#2 then
      match s1.dmaPoint.fetchParcel (s.pc + 2#32) with
      | .fault e s2 => .fault e s2
      | .again s2 => .again s2
      | .ok p1 s2 => .ok (.word (p1 ++ p0)) s2.dmaPoint
    else .ok (.half p0) s1.dmaPoint

/-! ## Fences (R161-R163, R401, R402) -/

/-- `fence`: buffers drained, every transaction answered; data accesses and the PIC see the newest settings (R160, R661). -/
def State.fenceOp (s : State) : State :=
  let s1 := s.quiesce
  { s1 with sync := { s1.sync with mracD := [], picOld := [] } }

/-- `fence.i`: a fence, the I-cache emptied, fetches and mfdc see the newest settings (R162, R661, R663). -/
def State.fenceIOp (s : State) : State :=
  let s1 := s.fenceOp
  { s1 with
    icache := s1.icache.invalidate
    sync := { s1.sync with mracI := [], mfdcOld := [] } }

end Sys2Proof.Machine
end

