-- ==== Sys2Proof/Machine/Csr.lean ====
section
/-! DEFINITION. The CSR address space: the map, the value a read returns and the effect of a write (R27-R104, R412-R417, R621). -/

namespace Sys2Proof.Machine

/-- The CSRs of R28. `zero` stands for the hardwired-zero counters and selectors (R54). -/
inductive CsrName
  | mstatus | misa | mie | mtvec
  | mhpmevent (n : Fin 4)
  | mscratch | mepc | mcause | mtval | mip
  | tselect | tdata1 | tdata2
  | dcsr | dpc
  | mrac | mcpc | dmst | mpmc
  | dicawics | dicad0 | dicad1 | dicago
  | mgpmc | mitcnt0 | mitb0 | mitctl0 | mitcnt1 | mitb1 | mitctl1
  | micect | miccmect | mdccmect | mcgc | mfdc
  | mcycle | minstret | mhpmcounter (n : Fin 4)
  | mcycleh | minstreth | mhpmcounterh (n : Fin 4)
  | mdeau | meivt | meipt | meicpct | meicidpl | meicurpl
  | mvendorid | marchid | mimpid | mhartid | mdseac | meihap
  | zero
deriving DecidableEq, Repr

/-- The rows of R28 that name one CSR each. -/
def csrTable : List (BitVec 12 × CsrName) :=
  [(0x300, .mstatus), (0x301, .misa), (0x304, .mie), (0x305, .mtvec),
   (0x323, .mhpmevent 0), (0x324, .mhpmevent 1), (0x325, .mhpmevent 2), (0x326, .mhpmevent 3),
   (0x340, .mscratch), (0x341, .mepc), (0x342, .mcause), (0x343, .mtval), (0x344, .mip),
   (0x7A0, .tselect), (0x7A1, .tdata1), (0x7A2, .tdata2), (0x7B0, .dcsr), (0x7B1, .dpc),
   (0x7C0, .mrac), (0x7C2, .mcpc), (0x7C4, .dmst), (0x7C6, .mpmc)] ++
  [(0x7C8, .dicawics), (0x7C9, .dicad0), (0x7CA, .dicad1), (0x7CB, .dicago),
   (0x7D0, .mgpmc), (0x7D2, .mitcnt0), (0x7D3, .mitb0), (0x7D4, .mitctl0),
   (0x7D5, .mitcnt1), (0x7D6, .mitb1), (0x7D7, .mitctl1),
   (0x7F0, .micect), (0x7F1, .miccmect), (0x7F2, .mdccmect), (0x7F8, .mcgc), (0x7F9, .mfdc)] ++
  [(0xB00, .mcycle), (0xB02, .minstret),
   (0xB03, .mhpmcounter 0), (0xB04, .mhpmcounter 1), (0xB05, .mhpmcounter 2), (0xB06, .mhpmcounter 3),
   (0xB80, .mcycleh), (0xB82, .minstreth),
   (0xB83, .mhpmcounterh 0), (0xB84, .mhpmcounterh 1), (0xB85, .mhpmcounterh 2), (0xB86, .mhpmcounterh 3),
   (0xBC0, .mdeau), (0xBC8, .meivt), (0xBC9, .meipt), (0xBCA, .meicpct), (0xBCB, .meicidpl), (0xBCC, .meicurpl),
   (0xF11, .mvendorid), (0xF12, .marchid), (0xF13, .mimpid), (0xF14, .mhartid), (0xFC0, .mdseac), (0xFC8, .meihap)]

/-- Address `a` is in one of the hardwired-zero rows of R28 (R54). -/
def csrZero (a : BitVec 12) : Bool :=
  (decide (0x327#12 ≤ a) && decide (a ≤ 0x33F#12)) || (decide (0xB07#12 ≤ a) && decide (a ≤ 0xB1F#12)) ||
    (decide (0xB87#12 ≤ a) && decide (a ≤ 0xB9F#12))

/-- The CSR at an address, if it is implemented (R28, R29). -/
def csrAt (a : BitVec 12) : Option CsrName := if csrZero a then some .zero else csrTable.lookup a

/-- The seven CSRs of privilege DRW (R30, R416). -/
def CsrName.debugOnly : CsrName → Bool
  | .dcsr | .dpc | .dmst | .dicawics | .dicad0 | .dicad1 | .dicago => true
  | _ => false

/-- The CSR a CSR instruction may access: implemented, not DRW, and not read-only if it writes (R412, R413, R416). -/
def csrLegal (a : BitVec 12) (write : Bool) : Option CsrName :=
  match csrAt a with
  | none => none
  | some n => if n.debugOnly || (write && a.extractLsb' 10 2 == 3#2) then none else some n

/-! ## Interrupt sources (R450-R455) -/

/-- count[thresh] of a correctable-error register (R455). -/
def overThreshold (r : Word) : Bool := r.getLsbD (r >>> 27).toNat

/-- hit(0), hit(1): the timer is at or above its bound (R543), the old one until a write to it has committed (R542). -/
def State.hit0 (s : State) : Bool := decide (s.sync.mitbOld0.getD s.csr.mitb0 ≤ s.csr.mitcnt0)
def State.hit1 (s : State) : Bool := decide (s.sync.mitbOld1.getD s.csr.mitb1 ≤ s.csr.mitcnt1)

/-- mip.mceip (R455). -/
def State.mceip (s : State) : Bool :=
  overThreshold s.csr.micect || overThreshold s.csr.miccmect || overThreshold s.csr.mdccmect

/-- mip as a read returns it: each bit the level of its source (R47). -/
def State.mip (s : State) : Word :=
  (bitWord s.mceip <<< 30) ||| (bitWord s.hit0 <<< 29) ||| (bitWord s.hit1 <<< 28) |||
    (bitWord s.mexintirq <<< 11) ||| (bitWord s.pins.timerInt <<< 7)

/-! ## Reading (R31-R104) -/

/-- The values of Table 11-3 (R430): the legal ones of mcause (R45). -/
def legalCause (v : Word) : Bool :=
  [0x0#32, 0x1#32, 0x2#32, 0x3#32, 0x4#32, 0x5#32, 0x6#32, 0x7#32, 0xB#32, 0x80000007#32, 0x8000000B#32,
    0x8000001C#32, 0x8000001D#32, 0x8000001E#32, 0xF0000000#32, 0xF0000001#32].contains v

/-- The value a read of a CSR returns. -/
def State.csrRead (s : State) (n : CsrName) : Word :=
  let c := s.csr
  match n with
  | .mstatus => c.mstatus
  | .misa => 0x40001104#32
  | .mie => c.mie
  | .mtvec => c.mtvec
  | .mhpmevent i => (c.mhpmevent[i]).setWidth 32
  | .mscratch => c.mscratch
  | .mepc => c.mepc
  | .mcause => if legalCause c.mcause then c.mcause else Config.freeWord s.draws
  | .mtval => c.mtval
  | .mip => s.mip
  | .tselect => c.tselect.setWidth 32
  | .tdata1 => c.tdata1[c.tselect.toNat]'c.tselect.isLt
  | .tdata2 => c.tdata2[c.tselect.toNat]'c.tselect.isLt
  | .dcsr => (c.dcsr &&& 0xFFFFFFF7#32) ||| (bitWord s.nmiPending <<< 3)
  | .dpc => c.dpc
  | .mrac => c.mrac
  | .mpmc => c.mpmc.setWidth 32
  | .dicawics => c.dicawics
  | .dicad0 => c.dicad0
  | .dicad1 => c.dicad1
  | .mgpmc => c.mgpmc.setWidth 32
  | .mitcnt0 => c.mitcnt0
  | .mitb0 => c.mitb0
  | .mitctl0 => c.mitctl0.setWidth 32
  | .mitcnt1 => c.mitcnt1
  | .mitb1 => c.mitb1
  | .mitctl1 => c.mitctl1.setWidth 32
  | .micect => c.micect
  | .miccmect => c.miccmect
  | .mdccmect => c.mdccmect
  | .mcgc => c.mcgc.setWidth 32
  | .mfdc => c.mfdc
  | .mcycle => c.mcycle.setWidth 32
  | .minstret => c.minstret.setWidth 32
  | .mhpmcounter i => (c.mhpm[i]).setWidth 32
  | .mcycleh => c.mcycle.extractLsb' 32 32
  | .minstreth => c.minstret.extractLsb' 32 32
  | .mhpmcounterh i => (c.mhpm[i]).extractLsb' 32 32
  | .meivt => c.meivt ++ 0#10
  | .meipt => c.meipt.setWidth 32
  | .meicidpl => c.meicidpl.setWidth 32
  | .meicurpl => c.meicurpl.setWidth 32
  | .mvendorid => 0x45#32
  | .marchid => 0x0B#32
  | .mimpid => 0x05#32
  | .mhartid => 0#32
  | .mdseac => c.mdseac
  | .meihap => c.meivt ++ c.claimid ++ 0#2
  | .mcpc | .dmst | .dicago | .mdeau | .meicpct | .zero => 0#32

/-- A read of mcause that found a reserved value takes a free value: the next read takes a new one (U6). -/
def State.csrReadDone (s : State) (n : CsrName) : State :=
  if n = .mcause ∧ legalCause s.csr.mcause = false then s.draw else s

/-! ## Writing -/

/-- mrac pairs: '11' is stored as '10' (R60). -/
def legalMrac (v : Word) : Word := v &&& ~~~((v &&& 0xAAAAAAAA#32) >>> 1)

/-- Thresholds 27..31 are stored as 26 (R65). -/
def legalThresh (v : Word) : Word :=
  if 26#5 < v.extractLsb' 27 5 then 26#5 ++ v.extractLsb' 0 27 else v

/-- Event numbers above 50 are stored as 50 (R53). -/
def legalEvent (v : Word) : BitVec 6 := if 50#32 < v then 50#6 else v.setWidth 6

/-- A bit of a trigger word. -/
def tbit (b : Bool) (i : Nat) : Word := bitWord b <<< i

/-- tdata1 as R621 stores the written word `w` in trigger `t` of the four `o`; `none` if the write is ignored. -/
def legalTdata1 (dbg : Bool) (o : Vector Word 4) (t : BitVec 2) (w : Word) : Option Word :=
  let old := o[t.toNat]'t.isLt
  let prev := o[(t - 1#2).toNat]'(t - 1#2).isLt
  let next := o[(t + 1#2).toNat]'(t + 1#2).isLt
  let odd := t.getLsbD 0
  if !dbg && old.getLsbD 27 then none
  else if dbg && w.getLsbD 27 && odd && !prev.getLsbD 27 && prev.getLsbD 11 then none
  else
    let dmode := dbg && w.getLsbD 27
    let chain := w.getLsbD 11 && !odd && !(!dmode && next.getLsbD 27)
    some (0x23E00000#32 ||| tbit dmode 27 ||| tbit (w.getLsbD 20) 20 ||| tbit (w.getLsbD 19) 19 |||
      tbit (w.getLsbD 12 && dmode) 12 ||| tbit chain 11 ||| tbit (w.getLsbD 7) 7 ||| tbit (w.getLsbD 6) 6 |||
      tbit (w.getLsbD 2 && !w.getLsbD 19) 2 ||| tbit (w.getLsbD 1) 1 ||| tbit (w.getLsbD 0 && !w.getLsbD 19) 0)

/-- Replace the low half of a 64-bit counter (R50). -/
def setLow (c : BitVec 64) (v : Word) : BitVec 64 := c.extractLsb' 32 32 ++ v

/-- Replace the high half of a 64-bit counter (R50). -/
def setHigh (c : BitVec 64) (v : Word) : BitVec 64 := v ++ c.extractLsb' 0 32

/-- Apply a change to the CSRs. -/
def State.withCsr (s : State) (c : Csrs) : State := { s with csr := c }

/-- `c` with one half replaced by `v` (R50). -/
def setHalf (high : Bool) (v : Word) (c : BitVec 64) : BitVec 64 := if high then setHigh c v else setLow c v

/-- A CSR instruction writes one half of mcycle (R417): the value stands over this step's increments; the other half takes them. -/
def State.writeCycle (dbg high : Bool) (v : Word) (s : State) : State :=
  { s with
    csr := { s.csr with mcycle := setHalf high v s.csr.mcycle }
    sync := if dbg then s.sync else
      { s.sync with wrote := some { event := none, high := high, v := v, old := s.csr.mcycle } } }

/-- The same for an event counter. -/
def State.writeHpm (dbg high : Bool) (i : Fin 4) (v : Word) (s : State) : State :=
  { s with
    csr := { s.csr with mhpm := s.csr.mhpm.set i (setHalf high v s.csr.mhpm[i]) }
    sync := if dbg then s.sync else
      { s.sync with wrote := some { event := some i, high := high, v := v, old := s.csr.mhpm[i] } } }

/-- A write to mgpmc; a CSR instruction's takes effect for the cycles after it (R577). -/
def State.writeMgpmc (dbg : Bool) (v : Word) (s : State) : State :=
  { s with
    csr := { s.csr with mgpmc := v.setWidth 1 }
    sync := if dbg then s.sync else { s.sync with mgpmcOld := some (s.sync.mgpmcOld.getD s.csr.mgpmc) } }

/-- A write to mrac: until a fence, accesses may still use the values before it (R661). -/
def State.writeMrac (v : Word) (s : State) : State :=
  { s with
    csr := { s.csr with mrac := legalMrac v }
    sync := { s.sync with mracD := s.csr.mrac :: s.sync.mracD, mracI := s.csr.mrac :: s.sync.mracI } }

/-- A write to mfdc: until a fence.i, accesses may still use the values before it (R663). -/
def State.writeMfdc (v : Word) (s : State) : State :=
  { s with
    csr := { s.csr with mfdc := v &&& 0x000705FD#32 }
    sync := { s.sync with mfdcOld := s.csr.mfdc :: s.sync.mfdcOld } }

/-- A write to mitcnt0: an instruction's commits in a cycle of its step (R542), the debugger's at once. -/
def State.writeMitcnt0 (dbg : Bool) (v : Word) (s : State) : State :=
  if dbg then s.withCsr { s.csr with mitcnt0 := v } else { s with sync := { s.sync with mitWr0 := some v } }

/-- A write to mitcnt1. -/
def State.writeMitcnt1 (dbg : Bool) (v : Word) (s : State) : State :=
  if dbg then s.withCsr { s.csr with mitcnt1 := v } else { s with sync := { s.sync with mitWr1 := some v } }

/-- A write to mitb0: the compare uses it from the cycle after the one it commits in (R542). -/
def State.writeMitb0 (dbg : Bool) (v : Word) (s : State) : State :=
  { s with
    csr := { s.csr with mitb0 := v }
    sync := if dbg then s.sync else { s.sync with mitbOld0 := some (s.sync.mitbOld0.getD s.csr.mitb0) } }

/-- A write to mitb1. -/
def State.writeMitb1 (dbg : Bool) (v : Word) (s : State) : State :=
  { s with
    csr := { s.csr with mitb1 := v }
    sync := if dbg then s.sync else { s.sync with mitbOld1 := some (s.sync.mitbOld1.getD s.csr.mitb1) } }

/-- The firmware halt of a write to mpmc (R556): not in Debug Mode, a single-stepped instruction included. -/
def State.writeMpmc (dbg : Bool) (v : Word) (s : State) : State :=
  let c := { s.csr with mpmc := BitVec.ofBool (v.getLsbD 1) ++ 0#1 }
  if v.getLsbD 0 && !(dbg || s.inDebugMode) then
    { s with
      csr := if v.getLsbD 1 then { c with mstatus := c.mstatus ||| 8#32 } else c
      hart := { s.hart with fwHalt := true } }
  else s.withCsr c

/-- Start PAUSE for `v` cycles and the skid (R565, U18); the debugger's write is ignored (U36). -/
def State.writeMcpc (dbg : Bool) (v : Word) (s : State) : State :=
  if dbg then s
  else
    { s with
      hart := { s.hart with pause := if v = 0#32 then 0 else v.toNat + s.env.skid }
      sync := { s.sync with pauseNew := true } }

/-- The effect of writing `v` to a CSR; `dbg` says that the debugger writes (R31-R104, R415, R607). -/
def State.csrWrite (dbg : Bool) (n : CsrName) (v : Word) (s : State) : State :=
  let c := s.csr
  match n with
  | .mstatus => s.withCsr { c with mstatus := (v &&& 0x88#32) ||| 0x1800#32 }
  | .mie => s.withCsr { c with mie := v &&& 0x70000888#32 }
  | .mtvec => s.withCsr { c with mtvec := v &&& 0xFFFFFFFD#32 }
  | .mhpmevent i => s.withCsr { c with mhpmevent := c.mhpmevent.set i (legalEvent v) }
  | .mscratch => s.withCsr { c with mscratch := v }
  | .mepc => s.withCsr { c with mepc := v &&& 0xFFFFFFFE#32 }
  | .mcause => s.withCsr { c with mcause := v }
  | .mtval => s.withCsr { c with mtval := v }
  | .tselect => s.withCsr { c with tselect := v.setWidth 2 }
  | .tdata1 =>
    match legalTdata1 dbg c.tdata1 c.tselect v with
    | some w => s.withCsr { c with tdata1 := c.tdata1.set c.tselect.toNat w c.tselect.isLt }
    | none => s
  | .tdata2 =>
    if !dbg && (c.tdata1[c.tselect.toNat]'c.tselect.isLt).getLsbD 27 then s
    else s.withCsr { c with tdata2 := c.tdata2.set c.tselect.toNat v c.tselect.isLt }
  | .dcsr => s.withCsr { c with dcsr := (c.dcsr &&& ~~~0x8C04#32) ||| (v &&& 0x8C04#32) }
  | .dpc => s.withCsr { c with dpc := v &&& 0xFFFFFFFE#32 }
  | .mrac => s.writeMrac v
  | .mcpc => s.writeMcpc dbg v
  | .dmst => if v.getLsbD 0 then s.fenceIOp else if v.getLsbD 1 then s.fenceOp else s
  | .mpmc => s.writeMpmc dbg v
  | .dicawics => s.withCsr { c with dicawics := v &&& 0x0130FFFC#32 }
  | .dicad0 => s.withCsr { c with dicad0 := v }
  | .dicad1 => s.withCsr { c with dicad1 := v &&& Build.dicad1Mask s.cfg }
  | .dicago => if v.getLsbD 0 then s.dicagoWrite else s
  | .mgpmc => s.writeMgpmc dbg v
  | .mitcnt0 => s.writeMitcnt0 dbg v
  | .mitb0 => s.writeMitb0 dbg v
  | .mitctl0 => s.withCsr { c with mitctl0 := v.setWidth 3 }
  | .mitcnt1 => s.writeMitcnt1 dbg v
  | .mitb1 => s.writeMitb1 dbg v
  | .mitctl1 => s.withCsr { c with mitctl1 := v.setWidth 3 }
  | .micect => s.withCsr { c with micect := legalThresh v }
  | .miccmect => s.withCsr { c with miccmect := legalThresh v }
  | .mdccmect => s.withCsr { c with mdccmect := legalThresh v }
  | .mcgc => s.withCsr { c with mcgc := v.setWidth 9 }
  | .mfdc => s.writeMfdc v
  | .mcycle => s.writeCycle dbg false v
  | .mcycleh => s.writeCycle dbg true v
  | .minstret => s.withCsr { c with minstret := if dbg then setLow c.minstret v + 1#64 else setLow c.minstret v }
  | .minstreth => s.withCsr { c with minstret := setHigh c.minstret v }
  | .mhpmcounter i => s.writeHpm dbg false i v
  | .mhpmcounterh i => s.writeHpm dbg true i v
  | .mdeau => s.withCsr { c with mdseacLocked := false }
  | .meivt => s.withCsr { c with meivt := v.extractLsb' 10 22 }
  | .meipt => s.withCsr { c with meipt := v.setWidth 4 }
  | .meicpct => s.capture
  | .meicidpl => s.withCsr { c with meicidpl := v.setWidth 4 }
  | .meicurpl => s.withCsr { c with meicurpl := v.setWidth 4 }
  | .misa | .mip | .mvendorid | .marchid | .mimpid | .mhartid | .mdseac | .meihap | .zero => s

/-! ## The CSR instructions (R403-R408, R417) -/

/-- Illegal instruction: mtval holds the instruction's bits (R431, R432). -/
def illegal (bits : Word) : Exc := { cause := 2#32, tval := bits }

/-- Events 16, 17 and 18 (R580, D28). -/
def csrEvent (rd : Reg) (write : Bool) : Nat := if !write then 16 else if rd = 0#5 then 18 else 17

/-- Event `e` if this step happens to count it: an open choice (events 15 and 24 of R580; log 33). -/
def State.openEvent (s : State) (e : Nat) : List Nat := if Config.freeBit s.draws then [e] else []

/-- Retirement of a CSR instruction, before its write (R417). Whether a write of mgpmc, of whatever value, is itself counted is open
(R577, U19; log 26). -/
def State.retireCsr (rd : Reg) (write : Bool) (mgpmc : Bool) (s : State) : State :=
  let events := csrEvent rd write :: s.openEvent 15
  if write && mgpmc then
    (if Config.freeBit (s.draws + 1) then s.bumpInstret.addEvents (4 :: 6 :: events) else s.bumpInstret).draw.draw
  else (s.retire .word events).draw

/-- The common operation: check, read, count, write, then rd (R403-R408). `new` gives the value written from the one read. That an
instruction that writes an event selector counts itself by the old one is the model's choice (R417; DESIGN CHOICE, log 33). -/
def State.csrOp (i : Instr) (rd : Reg) (a : BitVec 12) (write : Bool) (new : Word → Word) (s : State) : State :=
  match csrLegal a write with
  | none => s.takeException (illegal (encode i).bits)
  | some n =>
    let v := s.csrRead n
    let s1 := ((s.csrReadDone n).retireCsr rd write (decide (n = .mgpmc))).advance .word
    let s2 := if write then s1.csrWrite false n (new v) else s1
    s2.setReg rd v

end Sys2Proof.Machine
end

