-- ==== Sys2Proof/Machine/Triggers.lean ====
section
/-! DEFINITION. Entering Debug Mode, and the four triggers (R611-R613, R620-R626). -/

namespace Sys2Proof.Machine

/-- Enter Debug Mode (R613) with `dcsr.cause` = c; `dpc` is the pc, the next instruction's or the breakpoint's own address. `core`
says a core debug halt action asks, else the MPC does. What a PAUSE has left after it is open (U18). -/
def State.enterDebug (c : BitVec 3) (core : Bool) (s : State) : State :=
  let q := s.quiesce
  let s1 := if 0 < q.hart.pause then q.draw else q
  { s1 with
    csr := { s1.csr with
      dcsr := (s1.csr.dcsr &&& ~~~0x1C0#32) ||| (c.setWidth 32 <<< 6)
      dpc := s1.pc }
    hart := { s1.hart with
      activity := .dbHalt
      stepping := false
      fwHalt := false
      pause := if 0 < q.hart.pause then Config.freeNat q.draws % (q.hart.pause + 1) else 0
      dbgHalt := s1.hart.dbgHalt || core
      mpcHalt := s1.hart.mpcHalt || !core }
    outs := { s1.outs with brkpt := s1.outs.brkpt || c == 1#3 || c == 2#3 } }

/-- The data access an instruction makes, as the triggers see it (R622): the store data is zero-extended (D33). -/
inductive MemOp
  | none
  | load (ea : Word)
  | store (ea data : Word)
deriving DecidableEq, Repr

/-- cmp of R622: equal, or equal above the lowest 0 bit of tdata2 (R623, U24). -/
def triggerCmp (napot : Bool) (t2 v : Word) : Bool :=
  if napot then (v ||| (t2 ^^^ (t2 + 1#32))) == (t2 ||| (t2 ^^^ (t2 + 1#32))) else v == t2

/-- matches(t) of R622 for tdata1 = t1, tdata2 = t2. Bit 0 of tdata2 is ignored for an instruction address. -/
def triggerMatch (t1 t2 pc : Word) (m : MemOp) : Bool :=
  let napot := t1.getLsbD 7
  let select := t1.getLsbD 19
  let exe := t1.getLsbD 2 && triggerCmp napot (if napot then t2 else t2 &&& 0xFFFFFFFE#32) pc
  let acc := match m with
    | .none => false
    | .load ea => t1.getLsbD 0 && !select && triggerCmp napot t2 ea
    | .store ea d => t1.getLsbD 1 && triggerCmp napot t2 (if select then d else ea)
  t1.getLsbD 6 && (exe || acc)

/-- tdata1.action = 1: enter Debug Mode (R101). -/
def triggerDebug (t1 : Word) : Bool := t1.extractLsb' 12 4 == 1#4

/-- Trigger or pair firing: which of the triggers 2k and 2k+1 fired, and whether each enters Debug Mode (R622, R624). -/
def pairFires (mie : Bool) (t1a t2a t1b t2b pc : Word) (m : MemOp) : (Bool × Bool) × (Bool × Bool) :=
  let ma := triggerMatch t1a t2a pc m
  let mb := triggerMatch t1b t2b pc m
  if t1a.getLsbD 11 then
    let f := ma && mb && (triggerDebug t1b || mie)
    ((f, f), (f && triggerDebug t1b, f && triggerDebug t1b))
  else
    let fa := ma && (triggerDebug t1a || mie)
    let fb := mb && (triggerDebug t1b || mie)
    ((fa, fb), (fa && triggerDebug t1a, fb && triggerDebug t1b))

/-- Set tdata1.hit of the triggers that fired (R625). -/
def setHit (f : Bool) (t1 : Word) : Word := if f then t1 ||| 0x100000#32 else t1

/-- What the triggers do to the instruction at pc: nothing, a breakpoint exception, or Debug Mode (R622). If several fire, Debug
Mode wins. -/
inductive Fired
  | no
  | breakpoint (s : State)
  | debug (s : State)

/-- Breakpoint: cause 3, mtval = pc (R431, R434). -/
def breakpoint (pc : Word) : Exc := { cause := 3#32, tval := pc }

/-- Evaluate the four triggers on the instruction at pc with data access `m` (R622). -/
def State.triggers (s : State) (m : MemOp) : Fired :=
  let a := s.csr.tdata1
  let b := s.csr.tdata2
  let ((f0, f1), (d0, d1)) := pairFires s.mieOn a[0] b[0] a[1] b[1] s.pc m
  let ((f2, f3), (d2, d3)) := pairFires s.mieOn a[2] b[2] a[3] b[3] s.pc m
  if f0 || f1 || f2 || f3 then
    let s1 := s.withCsr { s.csr with
      tdata1 := #v[setHit f0 a[0], setHit f1 a[1], setHit f2 a[2], setHit f3 a[3]] }
    if d0 || d1 || d2 || d3 then .debug (s1.enterDebug 2#3 true)
    else .breakpoint (s1.takeException (breakpoint s1.pc))
  else .no

end Sys2Proof.Machine
end

