-- ==== Sys2Proof/Machine/Operands.lean ====
section
/-! DEFINITION. Every operand form: immediates as values, effective addresses, jump and branch targets (R223, R233, R300, R320). -/

namespace Sys2Proof.Machine

/-- imm_I and imm_S: the 12-bit field sign-extended (R223). -/
def immSext12 (imm : BitVec 12) : Word := imm.signExtend 32

/-- imm_U: the field in bits 31:12 (R223). -/
def immUpper (imm : BitVec 20) : Word := imm ++ 0#12

/-- imm_B: offset bits 12:1, sign-extended (R223). -/
def offBranch (imm : BitVec 12) : Word := (imm ++ 0#1).signExtend 32

/-- imm_J: offset bits 20:1, sign-extended (R223). -/
def offJal (imm : BitVec 20) : Word := (imm ++ 0#1).signExtend 32

/-- The 6-bit immediate of c.addi, c.li, c.andi (R233). -/
def immSext6 (imm : BitVec 6) : Word := imm.signExtend 32

/-- nzimm of c.lui: bits 17:12, sign-extended (R233, R359). -/
def immCLui (imm : BitVec 6) : Word := (imm ++ 0#12).signExtend 32

/-- nzimm of c.addi16sp: bits 9:4, sign-extended (R233). -/
def immCAddi16sp (imm : BitVec 6) : Word := (imm ++ 0#4).signExtend 32

/-- nzuimm of c.addi4spn: bits 9:2, zero-extended (R233). -/
def immCAddi4spn (imm : BitVec 8) : Word := (imm ++ 0#2).setWidth 32

/-- uimm of c.lw and c.sw: bits 6:2, zero-extended (R233). -/
def immCMem (imm : BitVec 5) : Word := (imm ++ 0#2).setWidth 32

/-- uimm of c.lwsp and c.swsp: bits 7:2, zero-extended (R233). -/
def immCSp (imm : BitVec 6) : Word := (imm ++ 0#2).setWidth 32

/-- Offset of c.j and c.jal: bits 11:1, sign-extended (R233). -/
def offCJ (imm : BitVec 11) : Word := (imm ++ 0#1).signExtend 32

/-- Offset of c.beqz and c.bnez: bits 8:1, sign-extended (R233). -/
def offCB (imm : BitVec 8) : Word := (imm ++ 0#1).signExtend 32

/-- Effective address of a load or store: x[rs1] + imm, modulo 2^32 (R320). -/
def State.ea (s : State) (rs1 : Reg) (imm : Word) : Word := s.getReg rs1 + imm

/-- The stack pointer of the sp forms (R21). -/
def sp : Reg := 2#5

/-- The link register of c.jal and c.jalr (R21). -/
def ra : Reg := 1#5

/-- Target of a register jump: bit 0 of the sum cleared (R303, R372, R375). -/
def State.jumpTarget (s : State) (rs1 : Reg) (imm : Word) : Word := (s.getReg rs1 + imm) &&& 0xFFFFFFFE#32

/-- The data access an instruction makes (R320, R622); every instruction not listed makes none. -/
def State.memOp (s : State) (i : Instr) : MemOp :=
  match i with
  | .lb _ rs1 imm | .lh _ rs1 imm | .lw _ rs1 imm | .lbu _ rs1 imm | .lhu _ rs1 imm =>
    .load (s.ea rs1 (immSext12 imm))
  | .cLw _ rs1 imm => .load (s.ea rs1.full (immCMem imm))
  | .cLwsp _ imm => .load (s.ea sp (immCSp imm))
  | .sb rs1 rs2 imm => .store (s.ea rs1 (immSext12 imm)) (((s.getReg rs2).setWidth 8).setWidth 32)
  | .sh rs1 rs2 imm => .store (s.ea rs1 (immSext12 imm)) (((s.getReg rs2).setWidth 16).setWidth 32)
  | .sw rs1 rs2 imm => .store (s.ea rs1 (immSext12 imm)) (s.getReg rs2)
  | .cSw rs1 rs2 imm => .store (s.ea rs1.full (immCMem imm)) (s.getReg rs2.full)
  | .cSwsp rs2 imm => .store (s.ea sp (immCSp imm)) (s.getReg rs2)
  | _ => .none

end Sys2Proof.Machine
end

