-- ==== Sys2Proof/Machine/Flags.lean ====
section
/-! DEFINITION. There are no flags (R25): comparisons give 0 or 1, or steer a branch. Which operations count as which event
(R580). -/

namespace Sys2Proof.Machine

/-- Signed less-than as 0 or 1 (R264). -/
def sltWord (a b : Word) : Word := bitWord (a.slt b)

/-- Unsigned less-than as 0 or 1 (R265). -/
def sltuWord (a b : Word) : Word := bitWord (a.ult b)

/-- The branch conditions (R304-R309). -/
def condEq (a b : Word) : Bool := a == b
def condNe (a b : Word) : Bool := a != b
def condLt (a b : Word) : Bool := a.slt b
def condGe (a b : Word) : Bool := !a.slt b
def condLtu (a b : Word) : Bool := a.ult b
def condGeu (a b : Word) : Bool := !a.ult b

/-- The events of the list that this step happens to count, each an open choice (events 15, 24 and 26 of R580; log 33). -/
def State.opened (s : State) (open_ : List Nat) : List Nat :=
  (open_.zipIdx.filter (fun e => Config.freeBit (s.draws + e.2))).map (·.1)

/-- Retire with events that are counted and events whose counting is open. -/
def State.retireOpen (len : Len) (events open_ : List Nat) (s : State) : State :=
  let s1 := s.retire len (events ++ s.opened open_)
  { s1 with draws := s1.draws + open_.length }

/-! ## The shared shapes of the instructions -/

/-- A computation that writes `rd`: an ALU operation (R260), event 15. -/
def State.aluOp (len : Len) (rd : Reg) (v : Word) (s : State) : State := (s.setReg rd v).finish len [15]

/-- A multiplication or division (R340), event 9 or 10. -/
def State.mulOp (event : Nat) (rd : Reg) (v : Word) (s : State) : State := (s.setReg rd v).finish .word [event]

/-- An unconditional transfer: link the sequential address, then go (R300, R302, R303). Whether it counts as an ALU operation, a
branch or a taken branch is open (log 33). -/
def State.jumpOp (len : Len) (rd : Reg) (target : Word) (s : State) : State :=
  ((s.setReg rd (s.pc + len.bytes)).retireOpen len [] [15, 24, 26]).setPc target

/-- A conditional branch (R304-R309): events 24 and, taken, 26. -/
def State.branchOp (len : Len) (taken : Bool) (off : Word) (s : State) : State :=
  (s.retireOpen len (24 :: (if taken then [26] else [])) [15]).setPc (if taken then s.pc + off else s.pc + len.bytes)

/-- Event 13 or 14 of a misaligned access (R580). That only an access that completes counts is the model's choice (DESIGN CHOICE,
log 33). -/
def misalignedEvent (e : Nat) (a : Word) (size : Size) : List Nat := if a.toNat % size.bytes = 0 then [] else [e]

/-- What a load writes to its register: the extended value, or the free value itself (R320, U42). -/
def Loaded.reg (ext : Word → Word) (l : Loaded) : Word :=
  if l.free then l.value.setWidth 32 else ext (l.value.setWidth 32)

/-- A load (R320): read, extend, write rd; events 11 and 13. -/
def State.loadOp (len : Len) (rd : Reg) (a : Word) (size : Size) (ext : Word → Word) (s : State) : State :=
  (s.memRead a size).bind fun l s1 =>
    (s1.setReg rd (l.reg ext)).finish len (11 :: misalignedEvent 13 a size)

/-- A store (R320): events 12 and 14. -/
def State.storeOp (len : Len) (a : Word) (size : Size) (v : Word) (s : State) : State :=
  (s.memWrite a size v).bind fun _ s1 => s1.finish len (12 :: misalignedEvent 14 a size)

/-- The extensions of R321-R325. -/
def extSByte (v : Word) : Word := (v.setWidth 8).signExtend 32
def extSHalf (v : Word) : Word := (v.setWidth 16).signExtend 32
def extUByte (v : Word) : Word := (v.setWidth 8).setWidth 32
def extUHalf (v : Word) : Word := (v.setWidth 16).setWidth 32
def extWord (v : Word) : Word := v

end Sys2Proof.Machine
end

