-- ==== Sys2Proof/Machine/Integer.lean ====
section
/-! DEFINITION. The integer computational instructions (40_integer_computational.md). -/

namespace Sys2Proof.Machine

/-- `lui` (R261). -/
def execLui (rd : Reg) (imm : BitVec 20) (s : State) : Host.Outcome State Fault Refusal :=
  .next (s.aluOp .word rd (immUpper imm))

/-- `auipc` (R262). -/
def execAuipc (rd : Reg) (imm : BitVec 20) (s : State) : Host.Outcome State Fault Refusal :=
  .next (s.aluOp .word rd (s.pc + immUpper imm))

/-- `addi` (R263). -/
def execAddi (rd rs1 : Reg) (imm : BitVec 12) (s : State) : Host.Outcome State Fault Refusal :=
  .next (s.aluOp .word rd (s.getReg rs1 + immSext12 imm))

/-- `slti` (R264). -/
def execSlti (rd rs1 : Reg) (imm : BitVec 12) (s : State) : Host.Outcome State Fault Refusal :=
  .next (s.aluOp .word rd (sltWord (s.getReg rs1) (immSext12 imm)))

/-- `sltiu` (R265). -/
def execSltiu (rd rs1 : Reg) (imm : BitVec 12) (s : State) : Host.Outcome State Fault Refusal :=
  .next (s.aluOp .word rd (sltuWord (s.getReg rs1) (immSext12 imm)))

/-- `xori` (R266). -/
def execXori (rd rs1 : Reg) (imm : BitVec 12) (s : State) : Host.Outcome State Fault Refusal :=
  .next (s.aluOp .word rd (s.getReg rs1 ^^^ immSext12 imm))

/-- `ori` (R267). -/
def execOri (rd rs1 : Reg) (imm : BitVec 12) (s : State) : Host.Outcome State Fault Refusal :=
  .next (s.aluOp .word rd (s.getReg rs1 ||| immSext12 imm))

/-- `andi` (R268). -/
def execAndi (rd rs1 : Reg) (imm : BitVec 12) (s : State) : Host.Outcome State Fault Refusal :=
  .next (s.aluOp .word rd (s.getReg rs1 &&& immSext12 imm))

/-- `slli` (R269). -/
def execSlli (rd rs1 : Reg) (shamt : BitVec 5) (s : State) : Host.Outcome State Fault Refusal :=
  .next (s.aluOp .word rd (s.getReg rs1 <<< shamt.toNat))

/-- `srli` (R270). -/
def execSrli (rd rs1 : Reg) (shamt : BitVec 5) (s : State) : Host.Outcome State Fault Refusal :=
  .next (s.aluOp .word rd (s.getReg rs1 >>> shamt.toNat))

/-- `srai` (R271). -/
def execSrai (rd rs1 : Reg) (shamt : BitVec 5) (s : State) : Host.Outcome State Fault Refusal :=
  .next (s.aluOp .word rd ((s.getReg rs1).sshiftRight shamt.toNat))

/-- `add` (R272). -/
def execAdd (rd rs1 rs2 : Reg) (s : State) : Host.Outcome State Fault Refusal :=
  .next (s.aluOp .word rd (s.getReg rs1 + s.getReg rs2))

/-- `sub` (R273). -/
def execSub (rd rs1 rs2 : Reg) (s : State) : Host.Outcome State Fault Refusal :=
  .next (s.aluOp .word rd (s.getReg rs1 - s.getReg rs2))

/-- `sll` (R274). -/
def execSll (rd rs1 rs2 : Reg) (s : State) : Host.Outcome State Fault Refusal :=
  .next (s.aluOp .word rd (s.getReg rs1 <<< ((s.getReg rs2).toNat % 32)))

/-- `slt` (R275). -/
def execSlt (rd rs1 rs2 : Reg) (s : State) : Host.Outcome State Fault Refusal :=
  .next (s.aluOp .word rd (sltWord (s.getReg rs1) (s.getReg rs2)))

/-- `sltu` (R276). -/
def execSltu (rd rs1 rs2 : Reg) (s : State) : Host.Outcome State Fault Refusal :=
  .next (s.aluOp .word rd (sltuWord (s.getReg rs1) (s.getReg rs2)))

/-- `xor` (R277). -/
def execXor (rd rs1 rs2 : Reg) (s : State) : Host.Outcome State Fault Refusal :=
  .next (s.aluOp .word rd (s.getReg rs1 ^^^ s.getReg rs2))

/-- `srl` (R278). -/
def execSrl (rd rs1 rs2 : Reg) (s : State) : Host.Outcome State Fault Refusal :=
  .next (s.aluOp .word rd (s.getReg rs1 >>> ((s.getReg rs2).toNat % 32)))

/-- `sra` (R279). -/
def execSra (rd rs1 rs2 : Reg) (s : State) : Host.Outcome State Fault Refusal :=
  .next (s.aluOp .word rd ((s.getReg rs1).sshiftRight ((s.getReg rs2).toNat % 32)))

/-- `or` (R280). -/
def execOr (rd rs1 rs2 : Reg) (s : State) : Host.Outcome State Fault Refusal :=
  .next (s.aluOp .word rd (s.getReg rs1 ||| s.getReg rs2))

/-- `and` (R281). -/
def execAnd (rd rs1 rs2 : Reg) (s : State) : Host.Outcome State Fault Refusal :=
  .next (s.aluOp .word rd (s.getReg rs1 &&& s.getReg rs2))

end Sys2Proof.Machine
end

