-- ==== Sys2Proof/Machine/Control.lean ====
section
/-! DEFINITION. The control transfer instructions (41_control_transfer.md). -/

namespace Sys2Proof.Machine

/-- `jal` (R302). -/
def execJal (rd : Reg) (imm : BitVec 20) (s : State) : Host.Outcome State Fault Refusal :=
  .next (s.jumpOp .word rd (s.pc + offJal imm))

/-- `jalr`: the target from the old x[rs1] (R303). -/
def execJalr (rd rs1 : Reg) (imm : BitVec 12) (s : State) : Host.Outcome State Fault Refusal :=
  .next (s.jumpOp .word rd (s.jumpTarget rs1 (immSext12 imm)))

/-- `beq` (R304). -/
def execBeq (rs1 rs2 : Reg) (imm : BitVec 12) (s : State) : Host.Outcome State Fault Refusal :=
  .next (s.branchOp .word (condEq (s.getReg rs1) (s.getReg rs2)) (offBranch imm))

/-- `bne` (R305). -/
def execBne (rs1 rs2 : Reg) (imm : BitVec 12) (s : State) : Host.Outcome State Fault Refusal :=
  .next (s.branchOp .word (condNe (s.getReg rs1) (s.getReg rs2)) (offBranch imm))

/-- `blt` (R306). -/
def execBlt (rs1 rs2 : Reg) (imm : BitVec 12) (s : State) : Host.Outcome State Fault Refusal :=
  .next (s.branchOp .word (condLt (s.getReg rs1) (s.getReg rs2)) (offBranch imm))

/-- `bge` (R307). -/
def execBge (rs1 rs2 : Reg) (imm : BitVec 12) (s : State) : Host.Outcome State Fault Refusal :=
  .next (s.branchOp .word (condGe (s.getReg rs1) (s.getReg rs2)) (offBranch imm))

/-- `bltu` (R308). -/
def execBltu (rs1 rs2 : Reg) (imm : BitVec 12) (s : State) : Host.Outcome State Fault Refusal :=
  .next (s.branchOp .word (condLtu (s.getReg rs1) (s.getReg rs2)) (offBranch imm))

/-- `bgeu` (R309). -/
def execBgeu (rs1 rs2 : Reg) (imm : BitVec 12) (s : State) : Host.Outcome State Fault Refusal :=
  .next (s.branchOp .word (condGeu (s.getReg rs1) (s.getReg rs2)) (offBranch imm))

end Sys2Proof.Machine
end

