-- ==== Sys2Proof/Machine/LoadStore.lean ====
section
/-! DEFINITION. The load and store instructions (42_load_store.md). -/

namespace Sys2Proof.Machine

/-- `lb` (R321). -/
def execLb (rd rs1 : Reg) (imm : BitVec 12) (s : State) : Host.Outcome State Fault Refusal :=
  .next (s.loadOp .word rd (s.ea rs1 (immSext12 imm)) .byte extSByte)

/-- `lh` (R322). -/
def execLh (rd rs1 : Reg) (imm : BitVec 12) (s : State) : Host.Outcome State Fault Refusal :=
  .next (s.loadOp .word rd (s.ea rs1 (immSext12 imm)) .half extSHalf)

/-- `lw` (R323). -/
def execLw (rd rs1 : Reg) (imm : BitVec 12) (s : State) : Host.Outcome State Fault Refusal :=
  .next (s.loadOp .word rd (s.ea rs1 (immSext12 imm)) .word extWord)

/-- `lbu` (R324). -/
def execLbu (rd rs1 : Reg) (imm : BitVec 12) (s : State) : Host.Outcome State Fault Refusal :=
  .next (s.loadOp .word rd (s.ea rs1 (immSext12 imm)) .byte extUByte)

/-- `lhu` (R325). -/
def execLhu (rd rs1 : Reg) (imm : BitVec 12) (s : State) : Host.Outcome State Fault Refusal :=
  .next (s.loadOp .word rd (s.ea rs1 (immSext12 imm)) .half extUHalf)

/-- `sb` (R326). -/
def execSb (rs1 rs2 : Reg) (imm : BitVec 12) (s : State) : Host.Outcome State Fault Refusal :=
  .next (s.storeOp .word (s.ea rs1 (immSext12 imm)) .byte (s.getReg rs2))

/-- `sh` (R327). -/
def execSh (rs1 rs2 : Reg) (imm : BitVec 12) (s : State) : Host.Outcome State Fault Refusal :=
  .next (s.storeOp .word (s.ea rs1 (immSext12 imm)) .half (s.getReg rs2))

/-- `sw` (R328). -/
def execSw (rs1 rs2 : Reg) (imm : BitVec 12) (s : State) : Host.Outcome State Fault Refusal :=
  .next (s.storeOp .word (s.ea rs1 (immSext12 imm)) .word (s.getReg rs2))

end Sys2Proof.Machine
end

