-- ==== Sys2Proof/Machine/MulDiv.lean ====
section
/-! DEFINITION. The M extension (43_mul_div.md): exact integers, narrowed at the end. -/

namespace Sys2Proof.Machine

/-- Bits 63:32 of an exact product (R342-R344). -/
def highWord (p : Int) : Word := BitVec.ofInt 32 (p / 4294967296)

/-- Signed division: by zero -1, overflow the dividend, else toward zero (R345, R349). -/
def divSigned (a b : Word) : Word :=
  if b = 0#32 then 0xFFFFFFFF#32
  else if a = 0x80000000#32 ∧ b = 0xFFFFFFFF#32 then 0x80000000#32
  else BitVec.ofInt 32 (a.toInt.tdiv b.toInt)

/-- Unsigned division (R346, R349). -/
def divUnsigned (a b : Word) : Word :=
  if b = 0#32 then 0xFFFFFFFF#32 else BitVec.ofNat 32 (a.toNat / b.toNat)

/-- Signed remainder: by zero the dividend, overflow 0, else with the dividend's sign (R347, R349). -/
def remSigned (a b : Word) : Word :=
  if b = 0#32 then a
  else if a = 0x80000000#32 ∧ b = 0xFFFFFFFF#32 then 0#32
  else BitVec.ofInt 32 (a.toInt - b.toInt * a.toInt.tdiv b.toInt)

/-- Unsigned remainder (R348, R349). -/
def remUnsigned (a b : Word) : Word :=
  if b = 0#32 then a else BitVec.ofNat 32 (a.toNat % b.toNat)

/-- `mul` (R341). -/
def execMul (rd rs1 rs2 : Reg) (s : State) : Host.Outcome State Fault Refusal :=
  .next (s.mulOp 9 rd (s.getReg rs1 * s.getReg rs2))

/-- `mulh` (R342). -/
def execMulh (rd rs1 rs2 : Reg) (s : State) : Host.Outcome State Fault Refusal :=
  .next (s.mulOp 9 rd (highWord ((s.getReg rs1).toInt * (s.getReg rs2).toInt)))

/-- `mulhsu` (R343). -/
def execMulhsu (rd rs1 rs2 : Reg) (s : State) : Host.Outcome State Fault Refusal :=
  .next (s.mulOp 9 rd (highWord ((s.getReg rs1).toInt * (s.getReg rs2).toNat)))

/-- `mulhu` (R344). -/
def execMulhu (rd rs1 rs2 : Reg) (s : State) : Host.Outcome State Fault Refusal :=
  .next (s.mulOp 9 rd (highWord ((s.getReg rs1).toNat * (s.getReg rs2).toNat)))

/-- `div` (R345). -/
def execDiv (rd rs1 rs2 : Reg) (s : State) : Host.Outcome State Fault Refusal :=
  .next (s.mulOp 10 rd (divSigned (s.getReg rs1) (s.getReg rs2)))

/-- `divu` (R346). -/
def execDivu (rd rs1 rs2 : Reg) (s : State) : Host.Outcome State Fault Refusal :=
  .next (s.mulOp 10 rd (divUnsigned (s.getReg rs1) (s.getReg rs2)))

/-- `rem` (R347). -/
def execRem (rd rs1 rs2 : Reg) (s : State) : Host.Outcome State Fault Refusal :=
  .next (s.mulOp 10 rd (remSigned (s.getReg rs1) (s.getReg rs2)))

/-- `remu` (R348). -/
def execRemu (rd rs1 rs2 : Reg) (s : State) : Host.Outcome State Fault Refusal :=
  .next (s.mulOp 10 rd (remUnsigned (s.getReg rs1) (s.getReg rs2)))

end Sys2Proof.Machine
end

