-- ==== Sys2Proof/Machine/System.lean ====
section
/-! DEFINITION. The system, CSR and fence instructions (45_system_csr_fence.md). -/

namespace Sys2Proof.Machine

/-- `ebreak` and `c.ebreak` (R410, R374, R612): Breakpoint, or Debug Mode with dcsr.ebreakm = 1. Event 19, except that with
stopcount = 1 the one that enters Debug Mode is not counted (R574). It does not retire. -/
def State.ebreakOp (s : State) : State :=
  if s.ebreakm then (if s.stopcount then s else s.countEvents [19]).enterDebug 1#3 true
  else (s.countEvents [19]).takeException (breakpoint s.pc)

/-- `ecall`: cause 11, mtval 0; not retired, event 20 (R409, R437). -/
def execEcall (s : State) : Host.Outcome State Fault Refusal :=
  .next ((s.countEvents [20]).takeException { cause := 11#32, tval := 0#32 })

/-- `ebreak` (R410). -/
def execEbreak (s : State) : Host.Outcome State Fault Refusal :=
  .next (s.ebreakOp)

/-- `mret` (R411, R447); it retires, event 23. -/
def execMret (s : State) : Host.Outcome State Fault Refusal :=
  .next ((s.retire .word [23]).returnFromTrap)

/-- `wfi` is a NOP, counted as an ALU operation (R414). -/
def execWfi (s : State) : Host.Outcome State Fault Refusal :=
  .next (s.finish .word [15])

/-- `fence`: the full fence whatever its operands (R401, U1; log 34). -/
def execFence (_fm _pred _succ : BitVec 4) (_rs1 _rd : Reg) (s : State) : Host.Outcome State Fault Refusal :=
  .next (s.fenceOp.finish .word [21])

/-- `fence.i` (R402). -/
def execFenceI (_imm : BitVec 12) (_rs1 _rd : Reg) (s : State) : Host.Outcome State Fault Refusal :=
  .next (s.fenceIOp.finish .word [22])

/-- `csrrw` (R403). -/
def execCsrrw (rd : Reg) (csr : BitVec 12) (rs1 : Reg) (s : State) : Host.Outcome State Fault Refusal :=
  .next (s.csrOp (.csrrw rd csr rs1) rd csr true (fun _ => s.getReg rs1))

/-- `csrrs` (R404). -/
def execCsrrs (rd : Reg) (csr : BitVec 12) (rs1 : Reg) (s : State) : Host.Outcome State Fault Refusal :=
  .next (s.csrOp (.csrrs rd csr rs1) rd csr (rs1 != 0#5) (fun v => v ||| s.getReg rs1))

/-- `csrrc` (R405). -/
def execCsrrc (rd : Reg) (csr : BitVec 12) (rs1 : Reg) (s : State) : Host.Outcome State Fault Refusal :=
  .next (s.csrOp (.csrrc rd csr rs1) rd csr (rs1 != 0#5) (fun v => v &&& ~~~s.getReg rs1))

/-- `csrrwi` (R406). -/
def execCsrrwi (rd : Reg) (csr : BitVec 12) (uimm : BitVec 5) (s : State) : Host.Outcome State Fault Refusal :=
  .next (s.csrOp (.csrrwi rd csr uimm) rd csr true (fun _ => uimm.setWidth 32))

/-- `csrrsi` (R407). -/
def execCsrrsi (rd : Reg) (csr : BitVec 12) (uimm : BitVec 5) (s : State) : Host.Outcome State Fault Refusal :=
  .next (s.csrOp (.csrrsi rd csr uimm) rd csr (uimm != 0#5) (fun v => v ||| uimm.setWidth 32))

/-- `csrrci` (R408). -/
def execCsrrci (rd : Reg) (csr : BitVec 12) (uimm : BitVec 5) (s : State) : Host.Outcome State Fault Refusal :=
  .next (s.csrOp (.csrrci rd csr uimm) rd csr (uimm != 0#5) (fun v => v &&& ~~~uimm.setWidth 32))

end Sys2Proof.Machine
end

