-- ==== Sys2Proof/Machine/Compressed.lean ====
section
/-! DEFINITION. The C extension (44_compressed.md): each is its expansion with length 2 (R350). -/

namespace Sys2Proof.Machine

/-- `c.addi4spn` (R351). -/
def execCAddi4spn (rd : CReg) (imm : BitVec 8) (s : State) : Host.Outcome State Fault Refusal :=
  .next (s.aluOp .half rd.full (s.getReg sp + immCAddi4spn imm))

/-- `c.lw` (R352). -/
def execCLw (rd rs1 : CReg) (imm : BitVec 5) (s : State) : Host.Outcome State Fault Refusal :=
  .next (s.loadOp .half rd.full (s.ea rs1.full (immCMem imm)) .word extWord)

/-- `c.sw` (R353). -/
def execCSw (rs1 rs2 : CReg) (imm : BitVec 5) (s : State) : Host.Outcome State Fault Refusal :=
  .next (s.storeOp .half (s.ea rs1.full (immCMem imm)) .word (s.getReg rs2.full))

/-- `c.nop` (R354). -/
def execCNop (_imm : BitVec 6) (s : State) : Host.Outcome State Fault Refusal :=
  .next (s.finish .half [15])

/-- `c.addi` (R355). -/
def execCAddi (rd : Reg) (imm : BitVec 6) (s : State) : Host.Outcome State Fault Refusal :=
  .next (s.aluOp .half rd (s.getReg rd + immSext6 imm))

/-- `c.jal` (R356). -/
def execCJal (imm : BitVec 11) (s : State) : Host.Outcome State Fault Refusal :=
  .next (s.jumpOp .half ra (s.pc + offCJ imm))

/-- `c.li` (R357). -/
def execCLi (rd : Reg) (imm : BitVec 6) (s : State) : Host.Outcome State Fault Refusal :=
  .next (s.aluOp .half rd (immSext6 imm))

/-- `c.addi16sp` (R358). -/
def execCAddi16sp (imm : BitVec 6) (s : State) : Host.Outcome State Fault Refusal :=
  .next (s.aluOp .half sp (s.getReg sp + immCAddi16sp imm))

/-- `c.lui` (R359). -/
def execCLui (rd : Reg) (imm : BitVec 6) (s : State) : Host.Outcome State Fault Refusal :=
  .next (s.aluOp .half rd (immCLui imm))

/-- `c.srli` (R360). -/
def execCSrli (rd : CReg) (shamt : BitVec 5) (s : State) : Host.Outcome State Fault Refusal :=
  .next (s.aluOp .half rd.full (s.getReg rd.full >>> shamt.toNat))

/-- `c.srai` (R361). -/
def execCSrai (rd : CReg) (shamt : BitVec 5) (s : State) : Host.Outcome State Fault Refusal :=
  .next (s.aluOp .half rd.full ((s.getReg rd.full).sshiftRight shamt.toNat))

/-- `c.andi` (R362). -/
def execCAndi (rd : CReg) (imm : BitVec 6) (s : State) : Host.Outcome State Fault Refusal :=
  .next (s.aluOp .half rd.full (s.getReg rd.full &&& immSext6 imm))

/-- `c.sub` (R363). -/
def execCSub (rd rs2 : CReg) (s : State) : Host.Outcome State Fault Refusal :=
  .next (s.aluOp .half rd.full (s.getReg rd.full - s.getReg rs2.full))

/-- `c.xor` (R364). -/
def execCXor (rd rs2 : CReg) (s : State) : Host.Outcome State Fault Refusal :=
  .next (s.aluOp .half rd.full (s.getReg rd.full ^^^ s.getReg rs2.full))

/-- `c.or` (R365). -/
def execCOr (rd rs2 : CReg) (s : State) : Host.Outcome State Fault Refusal :=
  .next (s.aluOp .half rd.full (s.getReg rd.full ||| s.getReg rs2.full))

/-- `c.and` (R366). -/
def execCAnd (rd rs2 : CReg) (s : State) : Host.Outcome State Fault Refusal :=
  .next (s.aluOp .half rd.full (s.getReg rd.full &&& s.getReg rs2.full))

/-- `c.j` (R367). -/
def execCJ (imm : BitVec 11) (s : State) : Host.Outcome State Fault Refusal :=
  .next (s.jumpOp .half 0#5 (s.pc + offCJ imm))

/-- `c.beqz` (R368). -/
def execCBeqz (rs1 : CReg) (imm : BitVec 8) (s : State) : Host.Outcome State Fault Refusal :=
  .next (s.branchOp .half (condEq (s.getReg rs1.full) 0#32) (offCB imm))

/-- `c.bnez` (R369). -/
def execCBnez (rs1 : CReg) (imm : BitVec 8) (s : State) : Host.Outcome State Fault Refusal :=
  .next (s.branchOp .half (condNe (s.getReg rs1.full) 0#32) (offCB imm))

/-- `c.slli` (R370). -/
def execCSlli (rd : Reg) (shamt : BitVec 5) (s : State) : Host.Outcome State Fault Refusal :=
  .next (s.aluOp .half rd (s.getReg rd <<< shamt.toNat))

/-- `c.lwsp` (R371). -/
def execCLwsp (rd : Reg) (imm : BitVec 6) (s : State) : Host.Outcome State Fault Refusal :=
  .next (s.loadOp .half rd (s.ea sp (immCSp imm)) .word extWord)

/-- `c.ebreak` (R374). -/
def execCEbreak (s : State) : Host.Outcome State Fault Refusal :=
  .next (s.ebreakOp)

/-- `c.jr` (R372). -/
def execCJr (rs1 : Reg) (s : State) : Host.Outcome State Fault Refusal :=
  .next (s.jumpOp .half 0#5 (s.jumpTarget rs1 0#32))

/-- `c.jalr` (R375). -/
def execCJalr (rs1 : Reg) (s : State) : Host.Outcome State Fault Refusal :=
  .next (s.jumpOp .half ra (s.jumpTarget rs1 0#32))

/-- `c.mv` (R373). -/
def execCMv (rd rs2 : Reg) (s : State) : Host.Outcome State Fault Refusal :=
  .next (s.aluOp .half rd (s.getReg rs2))

/-- `c.add` (R376). -/
def execCAdd (rd rs2 : Reg) (s : State) : Host.Outcome State Fault Refusal :=
  .next (s.aluOp .half rd (s.getReg rd + s.getReg rs2))

/-- `c.swsp` (R377). -/
def execCSwsp (rs2 : Reg) (imm : BitVec 6) (s : State) : Host.Outcome State Fault Refusal :=
  .next (s.storeOp .half (s.ea sp (immCSp imm)) .word (s.getReg rs2))

end Sys2Proof.Machine
end

