-- ==== Sys2Proof/Machine/Clock.lean ====
section
/-! DEFINITION. One core clock cycle: internal timers, cycle and event counters, PAUSE, gateways (R540-R544, R565, R574-R577,
R501). -/

namespace Sys2Proof.Machine

/-- PAUSE is in progress (R565). -/
def State.paused (s : State) : Bool := decide (0 < s.hart.pause)

/-- inc_ok(N) of R541 for the timer whose control register is `ctl`. That the cycles of the step that starts a PAUSE are PAUSE
cycles here is the model's choice (R565; DESIGN CHOICE, log 25). -/
def State.incOk (s : State) (ctl : BitVec 3) : Bool :=
  ctl.getLsbD 0 && (s.hart.activity != .pmuHalt || ctl.getLsbD 1) && (!s.paused || ctl.getLsbD 2) &&
    s.hart.activity != .dbHalt

/-- The next value of a timer (R543): clear, then a committing write, then increment. -/
def nextTimer (hit : Bool) (write : Option Word) (inc : Bool) (cnt : Word) : Word :=
  if hit then 0#32
  else match write with
    | some v => v
    | none => if inc then cnt + 1#32 else cnt

/-- mit_hold after a cycle (R544). -/
def nextHold (hit enabled hold : Bool) : Bool := enabled && (hit || hold)

/-- The internal-timer interrupt is enabled: its mie bit and mstatus.mie (R544). -/
def State.timerEnabled (s : State) (bit : Nat) : Bool := s.csr.mie.getLsbD bit && s.mieOn

/-- One cycle of both timers; `commit` says that a pending write to a mitcnt or mitb commits in it (R542). -/
def State.tickTimers (commit : Bool) (s : State) : State :=
  { s with
    csr := { s.csr with
      mitcnt0 := nextTimer s.hit0 (if commit then s.sync.mitWr0 else none) (s.incOk s.csr.mitctl0) s.csr.mitcnt0
      mitcnt1 := nextTimer s.hit1 (if commit then s.sync.mitWr1 else none) (s.incOk s.csr.mitctl1) s.csr.mitcnt1 }
    hart := { s.hart with
      mitHold0 := nextHold s.hit0 (s.timerEnabled 29) s.hart.mitHold0
      mitHold1 := nextHold s.hit1 (s.timerEnabled 28) s.hart.mitHold1 }
    sync := { s.sync with
      mitWr0 := if commit then none else s.sync.mitWr0
      mitWr1 := if commit then none else s.sync.mitWr1
      mitbOld0 := if commit then none else s.sync.mitbOld0
      mitbOld1 := if commit then none else s.sync.mitbOld1 } }

/-- mcycle counts: Running, or db-halt with stopcount = 0 (R574). -/
def State.cycleCounts (s : State) : Bool :=
  match s.hart.activity with
  | .running => true
  | .dbHalt => !s.stopcount
  | .pmuHalt => false

/-- A counter written in this step goes on: its increments go to the value before the write, over which the written half stands
(R417). -/
def CounterWrite.add (w : CounterWrite) (f : BitVec 64 → BitVec 64) : CounterWrite := { w with old := f w.old }

/-- What a written counter holds. -/
def CounterWrite.value (w : CounterWrite) : BitVec 64 := setHalf w.high w.v w.old

/-- The event counters after `k e` occurrences of each event; one that this step has written keeps the written half (R417). -/
def State.addHpm (k : Nat → Nat) (s : State) : State :=
  let added := hpmAdd s.csr.mhpmevent s.csr.mhpm k
  match s.sync.wrote with
  | some { event := some i, high, v, old } =>
    let w := CounterWrite.add { event := some i, high := high, v := v, old := old } (fun c => hpmOne s.csr.mhpmevent[i] c k)
    { s with
      csr := { s.csr with mhpm := added.set i w.value }
      sync := { s.sync with wrote := some w } }
  | _ => { s with csr := { s.csr with mhpm := added } }

/-- mcycle counts one clock, in the half that this step has not written (R417). -/
def State.addCycle (s : State) : State :=
  match s.sync.wrote with
  | some { event := none, high, v, old } =>
    let w := CounterWrite.add { event := none, high := high, v := v, old := old } (· + 1#64)
    { s with csr := { s.csr with mcycle := w.value }, sync := { s.sync with wrote := some w } }
  | _ => { s with csr := { s.csr with mcycle := s.csr.mcycle + 1#64 } }

/-- counting_enabled of R576 for the cycles of this step: mgpmc as it stood before the step wrote it (R577). -/
def State.countingCycles (s : State) : Bool :=
  State.counting { s with csr := { s.csr with mgpmc := s.sync.mgpmcOld.getD s.csr.mgpmc } }

/-- Class C events of one cycle: 1, 49, 50 (R580). -/
def State.cycleEvents (s : State) (e : Nat) : Nat :=
  if e = 1 then 1
  else if e = 49 then (if s.mieOn then 0 else 1)
  else if e = 50 then (if s.mieOn || s.mip &&& s.csr.mie == 0#32 then 0 else 1)
  else 0

/-- One cycle of mcycle and of the class C events (R574-R576). -/
def State.tickCounters (s : State) : State :=
  let s1 := if s.cycleCounts then s.addCycle else s
  if s.countingCycles then s1.addHpm s.cycleEvents else s1

/-- One cycle of PAUSE, Running only; not the step that started it (R565). -/
def State.tickPause (s : State) : State :=
  if s.hart.activity == .running && !s.sync.pauseNew then
    { s with hart := { s.hart with pause := s.hart.pause - 1 } }
  else s

/-- One core clock cycle (R540). -/
def State.tick (commit : Bool) (s : State) : State :=
  ((s.tickCounters.tickTimers commit).tickPause).gwTick

/-- `n` cycles, a pending mitcnt write committing in cycle `k` of them, at the latest in the last. -/
def State.ticks : Nat → Nat → State → State
  | 0, _, s => s
  | n + 1, k, s => State.ticks n (k - 1) (s.tick (k == 0 || n == 0))

/-- The events of class U of R580. -/
def microEvent (e : Nat) : Bool :=
  e == 2 || e == 3 || e == 7 || e == 8 || e == 25 || e == 27 || (28 ≤ e && e ≤ 36) || (40 ≤ e && e ≤ 48)

/-- The microarchitectural events of a step: unspecified counts (R580; log 33). -/
def State.microCount (s : State) : State :=
  if s.countingCycles && s.csr.mhpmevent.toList.any (fun e => microEvent e.toNat) then
    (s.addHpm (fun e => if microEvent e then Config.microEvents s.draws e else 0)).draw
  else s

/-- The cycles of a step (R540, D24; log 10). -/
def State.clock (s : State) : State :=
  State.ticks (s.env.extraCycles + 1) s.env.commitAt s.microCount

end Sys2Proof.Machine
end

