-- ==== Sys2Proof/Machine/DebugModule.lean ====
section
/-! DEFINITION. The debug module and the JTAG DTM: DMI registers, abstract commands, system-bus access (R590-R610; logs 27, 39,
42). -/

namespace Sys2Proof.Machine

/-- Change the debug module's registers. -/
def State.withDm (s : State) (d : Dm) : State := { s with dm := d }

/-! ## Status (R597, R598) -/

/-- The core complex is held in reset: rst_l or ndmreset (R650, R654). -/
def State.inReset (s : State) : Bool := !s.pins.rstL || s.dm.ndmreset

/-- dmstatus.halted (R597). -/
def State.dmHalted (s : State) : Bool := !s.inReset && s.inDebug

/-- Both bits of an all/any pair. -/
def pairBits (b : Bool) (lo : Nat) : Word := (bitWord b <<< lo) ||| (bitWord b <<< (lo + 1))

/-- dmstatus (R597). -/
def State.dmstatus (s : State) : Word :=
  0x82#32 ||| pairBits s.dm.havereset 18 ||| pairBits s.dm.resumeack 16 ||| pairBits s.inReset 12 |||
    pairBits (!s.inReset && !s.inDebug) 10 ||| pairBits s.dmHalted 8

/-- sbcs as read; accesses complete at once, so sbbusy reads 0 (R603, D29). -/
def Dm.sbcs (d : Dm) : Word :=
  0x2000040F#32 ||| (bitWord d.sbBusyError <<< 22) ||| (bitWord d.sbReadOnAddr <<< 20) |||
    (d.sbAccess.setWidth 32 <<< 17) ||| (bitWord d.sbAutoIncr <<< 16) ||| (bitWord d.sbReadOnData <<< 15) |||
    (d.sbError.setWidth 32 <<< 12)

/-- sbcs after a write of `v`: sbbusyerror and sberror are write-1-to-clear (R603). -/
def Dm.writeSbcs (v : Word) (d : Dm) : Dm :=
  { d with
    sbBusyError := d.sbBusyError && !v.getLsbD 22
    sbReadOnAddr := v.getLsbD 20
    sbAccess := v.extractLsb' 17 3
    sbAutoIncr := v.getLsbD 16
    sbReadOnData := v.getLsbD 15
    sbError := d.sbError &&& ~~~v.extractLsb' 12 3 }

/-! ## System-bus access (R604, R605) -/

/-- Bytes of a system-bus access: 2^sbaccess. -/
def Dm.sbBytes (d : Dm) : Nat := 2 ^ d.sbAccess.toNat

/-- The checks before a system-bus access, in the order of D30: size, alignment. -/
def Dm.sbCheck (d : Dm) : BitVec 3 :=
  if 3#3 < d.sbAccess then 4#3 else if d.sbAddress0.toNat % d.sbBytes ≠ 0 then 3#3 else 0#3

/-- Accesses may start: no error is recorded (R603, R604). -/
def Dm.sbIdle (d : Dm) : Bool := d.sbError == 0#3 && !d.sbBusyError

/-- The address after a successful access (R603). -/
def Dm.sbNext (d : Dm) : Dm :=
  if d.sbAutoIncr then { d with sbAddress0 := d.sbAddress0 + BitVec.ofNat 32 d.sbBytes } else d

/-- SB_read of R605. The bits above the access width are free values. -/
def State.sbRead (s : State) : State :=
  if s.dm.sbCheck ≠ 0#3 then s.withDm { s.dm with sbError := s.dm.sbCheck }
  else
    let (r, s1) := s.takeReply
    if r == .error then s1.withDm { s1.dm with sbError := 2#3 }
    else
      let n := s1.dm.sbBytes
      let v := ofBytes ((addrs s1.dm.sbAddress0 n).map (r.byte s1))
      let free := Config.freeWord (s1.draws + 1) ++ Config.freeWord s1.draws
      let mask : BitVec 64 := BitVec.allOnes 64 <<< (8 * n)
      let w := if n = 8 then v else v ||| (free &&& mask)
      let s2 := s1.withDm ({ s1.dm with sbData0 := w.extractLsb' 0 32, sbData1 := w.extractLsb' 32 32 }).sbNext
      if n = 8 then s2 else s2.draw.draw

/-- SB_write of R605: past the hart's buffers, to the SoC only. What a failed one leaves there is open (log 13). -/
def State.sbWrite (s : State) : State :=
  if s.dm.sbCheck ≠ 0#3 then s.withDm { s.dm with sbError := s.dm.sbCheck }
  else
    let (r, s1) := s.takeReply
    if r == .error then (s1.failWrite (addrs s1.dm.sbAddress0 s1.dm.sbBytes)).withDm { s1.dm with sbError := 2#3 }
    else
      let bytes := toBytes (s1.dm.sbData1 ++ s1.dm.sbData0) s1.dm.sbBytes
      ({ s1 with soc := s1.soc.putBytes s1.dm.sbAddress0 bytes }).withDm s1.dm.sbNext

/-! ## Abstract commands (R606-R608) -/

/-- What a command comes to: done, or a cmderr value. -/
inductive Cmd
  | ok (s : State)
  | err (code : BitVec 3) (s : State)

/-- The value of an integer register or CSR as the debugger reads it, with the side effects (R607, R635). -/
def State.debugReadReg (regno : BitVec 16) (s : State) : Option (Word × State) :=
  if 0x1000#16 ≤ regno ∧ regno ≤ 0x101F#16 then some (s.getReg (regno.setWidth 5), s)
  else if 0x1000#16 ≤ regno then none
  else match csrAt (regno.setWidth 12) with
    | none => none
    | some .dicago => some (s.dicagoValue, s.dicagoRead)
    | some n => some (s.csrRead n, s.csrReadDone n)

/-- Write an integer register or CSR for the debugger (R607; a read-only CSR is left unchanged, U22). -/
def State.debugWriteReg (regno : BitVec 16) (v : Word) (s : State) : Option State :=
  if 0x1000#16 ≤ regno ∧ regno ≤ 0x101F#16 then some (s.setReg (regno.setWidth 5) v)
  else if 0x1000#16 ≤ regno then none
  else (csrAt (regno.setWidth 12)).map (fun n => s.csrWrite true n v)

/-- Access Register (R607), after the checks that do not need the hart. That a command with transfer = 0 does not increment regno is
the model's choice (R600; DESIGN CHOICE, log 27). -/
def State.accessRegister (cmd : Word) (s : State) : Cmd :=
  if !cmd.getLsbD 17 then .ok s
  else
    let regno := cmd.extractLsb' 0 16
    let done (s : State) : Cmd :=
      if cmd.getLsbD 19 then
        .ok (s.withDm { s.dm with command := cmd.extractLsb' 16 16 ++ (regno + 1#16) })
      else .ok s
    if cmd.getLsbD 16 then
      match s.debugWriteReg regno s.dm.data0 with
      | none => .err 3#3 s
      | some s1 => done s1
    else
      match s.debugReadReg regno with
      | none => .err 3#3 s
      | some (v, s1) => done (s1.withDm { s1.dm with data0 := v })

/-- The width aamsize names; the caller has refused larger ones. -/
def aamSize (cmd : Word) : Size :=
  if cmd.extractLsb' 20 3 = 0#3 then .byte else if cmd.extractLsb' 20 3 = 1#3 then .half else .word

/-- Read memory for the debugger (R608): the value, or a cmderr value. -/
def State.debugRead (a : Word) (size : Size) (s : State) : Except (BitVec 3) Word × State :=
  let n := size.bytes
  if s.inPic a then (.ok (s.picLoad a), s)
  else if s.inIccm a || s.inDccm a then
    let k : Ccm := if s.inIccm a then .iccm else .dccm
    let (cs, s1) := State.checkWords (wordsOf a n) s
    if cs.any (fun c => c.2 == .fatal) then (.error 3#3, s1)
    else
      let (v, s2) := State.ccmValue k cs a n (s1.countChecks k cs)
      (.ok (v.setWidth 32), s2)
  else
    let (r, s1) := (s.logBus (readReq (s.sideEffect a) a n)).takeReply
    if r == .error then (.error 5#3, s1)
    else (.ok ((ofBytes ((addrs a n).map (r.byte s1))).setWidth 32), s1)

/-- Write memory for the debugger (R608). That a correctable error met by a narrow DCCM write counts in mdccmect is the model's choice
(R67; DESIGN CHOICE, log 27); what a failed write leaves in the SoC is open (log 13). -/
def State.debugWrite (a : Word) (size : Size) (v : Word) (s : State) : Cmd :=
  let n := size.bytes
  if s.inPic a then .ok (s.picStore a v)
  else if s.inIccm a then .ok (s.setCcm .iccm (s.iccm.putBytes a (toBytes (v.setWidth 64) 4)))
  else if s.inDccm a then
    match s.dccmStore a n v with
    | .ok _ s1 => .ok s1
    | .trap _ s1 => .err 3#3 s1
  else
    let (r, s1) := (s.logBus (.write { addr := a, bytes := (addrs a n).zip (toBytes (v.setWidth 64) n), side := s.sideEffect a
      })).takeReply
    if r == .error then .err 5#3 (s1.failWrite (addrs a n))
    else .ok { s1 with soc := s1.soc.putBytes a (toBytes (v.setWidth 64) n) }

/-- The address checks of R608 in their order; the windows apply (U23). -/
def State.debugAddrError (s : State) (a : Word) (size : Size) : Option (BitVec 3) :=
  let y := regionOf a
  let last := lastByte a size.bytes
  if s.inIccm a || s.inPic a then
    if size ≠ .word then some 3#3 else if a.toNat % 4 ≠ 0 then some 7#3 else none
  else if !s.inDccm a && (s.dataRegionLocal y || s.fetchRegionLocal y) then some 3#3
  else if a.toNat % size.bytes ≠ 0 then some 7#3
  else if !s.inDccm a && !inWindows s.cfg.dataWindows a last then some 3#3
  else none

/-- Access Memory (R608): address in data1, data in data0. -/
def State.accessMemory (cmd : Word) (s : State) : Cmd :=
  let size := aamSize cmd
  let a := s.dm.data1
  let done (s : State) : Cmd :=
    if cmd.getLsbD 19 then .ok (s.withDm { s.dm with data1 := s.dm.data1 + BitVec.ofNat 32 size.bytes }) else .ok s
  match s.debugAddrError a size with
  | some e => .err e s
  | none =>
    if cmd.getLsbD 16 then
      match s.debugWrite a size s.dm.data0 with
      | .ok s1 => done s1
      | .err e s1 => .err e s1
    else
      match s.debugRead a size with
      | (.ok v, s1) => done (s1.withDm { s1.dm with data0 := v })
      | (.error e, s1) => .err e s1

/-- The command or an option of it is not supported: cmderr 2, whatever the hart does (R600, R606-R608). -/
def unsupported (cmd : Word) : Bool :=
  let ty := cmd.extractLsb' 24 8
  if ty = 0#8 then cmd.getLsbD 18 || (cmd.getLsbD 17 && cmd.extractLsb' 20 3 != 2#3)
  else if ty = 2#8 then decide (2#3 < cmd.extractLsb' 20 3)
  else true

/-- A command fails (R606). What data0 and data1 then hold is open (R602; log 27). -/
def State.failCommand (code : BitVec 3) (s : State) : State :=
  (s.withDm { s.dm with
    cmderr := code, data0 := Config.freeWord s.draws, data1 := Config.freeWord (s.draws + 1) }).draw.draw

/-- Start a command (R606): ignored while cmderr is set; it completes at once (D29). One that succeeds keeps the data registers it is
not said to write (DESIGN CHOICE, log 27). -/
def State.startCommand (cmd : Word) (s : State) : State :=
  if s.dm.cmderr ≠ 0#3 then s
  else
    let s1 := s.withDm { s.dm with command := cmd }
    if unsupported cmd then s1.failCommand 2#3
    else if !s1.dmHalted then s1.failCommand 4#3
    else
      match (if cmd.extractLsb' 24 8 = 0#8 then s1.accessRegister cmd else s1.accessMemory cmd) with
      | .ok s2 => s2
      | .err e s2 => s2.failCommand e

/-- Autoexec after an access to data0 or data1 (R601). -/
def State.autoexec (n : Nat) (s : State) : State :=
  if s.dm.autoexec.getLsbD n then s.startCommand s.dm.command else s

/-! ## DMI (R594-R605, R609, R610) -/

/-- A write to dmcontrol (R596, R609, R610). -/
def State.writeDmcontrol (v : Word) (s : State) : State :=
  let d := s.dm
  if !v.getLsbD 0 then s.withDm (Dm.reset d.havereset)
  else if !d.dmactive then s.withDm { d with dmactive := true }
  else
    let resume := v.getLsbD 30 && !v.getLsbD 31
    { s with
      dm := { d with
        haltreq := v.getLsbD 31
        resumeack := d.resumeack && !resume
        havereset := d.havereset && !v.getLsbD 28
        ndmreset := v.getLsbD 1 }
      hart := { s.hart with dbgResume := s.hart.dbgResume || (resume && s.hart.dbgHalt) } }

/-- DMI_write (R594); an unlisted address ignores it (U20, D29); with dmactive = 0 only dmcontrol is written (R610). -/
def State.dmiWrite (addr : BitVec 7) (v : Word) (s : State) : State :=
  let d := s.dm
  if addr = 0x10#7 then s.writeDmcontrol v
  else if !d.dmactive then s
  else if addr = 0x04#7 then (s.withDm { d with data0 := v }).autoexec 0
  else if addr = 0x05#7 then (s.withDm { d with data1 := v }).autoexec 1
  else if addr = 0x16#7 then s.withDm { d with cmderr := d.cmderr &&& ~~~v.extractLsb' 8 3 }
  else if addr = 0x17#7 then s.startCommand v
  else if addr = 0x18#7 then s.withDm { d with autoexec := v.setWidth 2 }
  else if addr = 0x38#7 then s.withDm (d.writeSbcs v)
  else if addr = 0x39#7 then
    let s1 := s.withDm { d with sbAddress0 := v }
    if d.sbReadOnAddr && d.sbIdle then s1.sbRead else s1
  else if addr = 0x3C#7 then
    let s1 := s.withDm { d with sbData0 := v }
    if d.sbIdle then s1.sbWrite else s1
  else if addr = 0x3D#7 then s.withDm { d with sbData1 := v }
  else s

/-- DMI_read (R594); an unlisted address reads 0 (U20, D29); command reads a free value (R600, R683). -/
def State.dmiRead (addr : BitVec 7) (s : State) : Word × State :=
  let d := s.dm
  if addr = 0x04#7 then (d.data0, s.autoexec 0)
  else if addr = 0x05#7 then (d.data1, s.autoexec 1)
  else if addr = 0x10#7 then ((bitWord d.ndmreset <<< 1) ||| bitWord d.dmactive, s)
  else if addr = 0x11#7 then (s.dmstatus, s)
  else if addr = 0x16#7 then ((d.cmderr.setWidth 32 <<< 8) ||| 2#32, s)
  else if addr = 0x17#7 then (Config.freeWord s.draws, s.draw)
  else if addr = 0x18#7 then (d.autoexec.setWidth 32, s)
  else if addr = 0x38#7 then (d.sbcs, s)
  else if addr = 0x39#7 then (d.sbAddress0, s)
  else if addr = 0x3C#7 then (d.sbData0, if d.sbReadOnData && d.sbIdle then s.sbRead else s)
  else if addr = 0x3D#7 then (d.sbData1, s)
  else if addr = 0x40#7 then (bitWord s.dmHalted, s)
  else (0#32, s)

/-- dbg_rst_l: the debug module and dmi take their reset values; havereset is open (R653, U26). -/
def State.resetDm (s : State) : State :=
  { s with
    dm := Dm.reset (Config.freeBit s.draws)
    dtm := { s.dtm with dmiAddr := 0#7, dmiData := 0#32 }
    draws := s.draws + 1 }

/-! ## JTAG (R590-R595) -/

/-- A data-register scan: shift out what Capture-DR holds, then Update-DR (R591-R595). While dbg_rst_l is low the debug module does
nothing (R653). That op = 3 does nothing, that the next scan after a write returns the data written, and that every bypass scan starts
with the bit at 0 are the model's choices (DESIGN CHOICE, log 39). -/
def State.jtagDr (bits : BitVec 41) (s : State) : State :=
  if s.dtm.ir = 0x01#5 then { s with dtm := { s.dtm with tdo := (s.pins.jtagId ++ 1#1).setWidth 41 } }
  else if s.dtm.ir = 0x10#5 then { s with dtm := { s.dtm with tdo := 0x71#41 } }
  else if s.dtm.ir = 0x11#5 then
    let s1 := { s with dtm := { s.dtm with tdo := s.dtm.dmiAddr ++ s.dtm.dmiData ++ 0#2 } }
    let addr := bits.extractLsb' 34 7
    let data := bits.extractLsb' 2 32
    if !s.pins.dbgRstL then s1
    else if bits.extractLsb' 0 2 = 1#2 then
      let (v, s2) := s1.dmiRead addr
      { s2 with dtm := { s2.dtm with dmiAddr := addr, dmiData := v } }
    else if bits.extractLsb' 0 2 = 2#2 then
      let s2 := s1.dmiWrite addr data
      { s2 with dtm := { s2.dtm with dmiAddr := addr, dmiData := data } }
    else s1
  else { s with dtm := { s.dtm with tdo := bits <<< 1 } }

end Sys2Proof.Machine
end

