-- ==== Sys2Proof/Machine/Power.lean ====
section
/-! DEFINITION. Interrupt selection, activity states, PMU and MPC handshakes, reset and start of execution (R452-R462,
R550-R560, R650-R657). -/

namespace Sys2Proof.Machine

/-! ## Interrupts (R452-R454) -/

/-- mip & mie with the held requests of the internal timers (R452, R544). -/
def State.pend (s : State) : Word :=
  (s.mip ||| (bitWord s.hart.mitHold0 <<< 29) ||| (bitWord s.hart.mitHold1 <<< 28)) &&& s.csr.mie

/-- The interrupt of highest rank among the pending and enabled ones (Table 13-1, R452). -/
def pickInterrupt (pend : Word) : Option Interrupt :=
  if pend.getLsbD 11 then some .external
  else if pend.getLsbD 30 then some .correctable
  else if pend.getLsbD 7 then some .timer
  else if pend.getLsbD 29 then some .internal0
  else if pend.getLsbD 28 then some .internal1
  else none

/-- The interrupt to take before the next instruction (R452): globally enabled, not held off by a single step with stepie = 0
(R454), and not deferred by the environment (D18; log 18). -/
def State.interruptNow (s : State) : Option Interrupt :=
  if s.mieOn && (!s.hart.stepping || s.stepie) && !s.env.deferInt then pickInterrupt s.pend else none

/-- A wake-up event of R560 other than the PMU run request. That a held internal-timer request wakes as its hit does, and an NMI
that a bus error requested as one of the pin does, are the model's choices (DESIGN CHOICE, log 48). -/
def State.wakes (s : State) : Bool :=
  s.nmiPending ||
    (s.mieOn &&
      ((s.mhwakeup && s.csr.mie.getLsbD 11) || (s.pins.timerInt && s.csr.mie.getLsbD 7) ||
        ((s.hit0 || s.hart.mitHold0) && s.csr.mitctl0.getLsbD 1 && s.csr.mie.getLsbD 29) ||
        ((s.hit1 || s.hart.mitHold1) && s.csr.mitctl1.getLsbD 1 && s.csr.mie.getLsbD 28)))

/-! ## Activity states (R550-R558) -/

/-- Put the hart into an activity state. -/
def State.setActivity (a : Activity) (s : State) : State := { s with hart := { s.hart with activity := a } }

/-- A debug halt request: the debugger's, or the MPC's (R552, R609). -/
def State.debugHaltReq (s : State) : Bool := s.dm.haltreq || s.pins.mpcHaltReq

/-- Enter Debug Mode on request, with cause 3; each requester's state bit is set (R553, R558, R613). -/
def State.haltOnRequest (s : State) : State :=
  let s1 := s.enterDebug 3#3 s.dm.haltreq
  { s1 with hart := { s1.hart with mpcHalt := s1.hart.mpcHalt || s.pins.mpcHaltReq } }

/-- leave_db_halt of R553. -/
def Hart.leaves (h : Hart) : Bool :=
  (h.dbgHalt || h.mpcHalt) && (!h.dbgHalt || h.dbgResume) && (!h.mpcHalt || h.mpcRun)

/-- In db-halt, new requests only set their state bits (R553, R613). -/
def State.noteRequests (s : State) : State :=
  let h := s.hart
  let mpcHalt := h.mpcHalt || s.pins.mpcHaltReq
  { s with hart := { h with
      dbgHalt := h.dbgHalt || s.dm.haltreq
      mpcHalt := mpcHalt
      mpcRun := h.mpcRun || (s.pins.mpcRunReq && mpcHalt) } }

/-- Leave Debug Mode (R553, R614): resume at dpc; with dcsr.step = 1 the next instruction is a single step (R615). -/
def State.leaveDebug (s : State) : State :=
  { s with
    pc := s.csr.dpc
    hart := { s.hart with
      activity := .running, dbgHalt := false, mpcHalt := false, dbgResume := false, mpcRun := false, mpcLast := none
      stepping := s.dcsrStep }
    dm := { s.dm with resumeack := s.dm.resumeack || s.hart.dbgResume }
    outs := { s.outs with brkpt := s.outs.brkpt && s.dcsrStep } }

/-- One step in db-halt (R553, R614). -/
def State.dbHaltStep (s : State) : State :=
  let s1 := s.noteRequests
  if s1.hart.leaves then s1.leaveDebug else s1

/-- One step in pmu/fw-halt: a debug halt request first (R555), then the PMU run request and the wake-up events (R557, R560). -/
def State.pmuHaltStep (s : State) : State :=
  if s.debugHaltReq then s.haltOnRequest
  else if s.pins.cpuRunReq then
    let s1 := s.setActivity .running
    { s1 with outs := { s1.outs with cpuRunAck := true } }
  else if s.wakes then s.setActivity .running
  else s

/-- A PMU halt request is honoured: quiesce, then pmu/fw-halt (R557). An MPC run request not yet acknowledged then waits for the
PMU's run request (R555). -/
def State.pmuHaltNow (s : State) : State :=
  let s1 := s.quiesce.setActivity .pmuHalt
  { s1 with
    hart := { s1.hart with runHold := s1.hart.runHold || (s.pins.mpcRunReq && !s.outs.mpcRunAck) }
    outs := { s1.outs with cpuHaltAck := true } }

/-- o_cpu_halt_status (R550, R557). -/
def State.cpuHaltStatus (s : State) : Bool := s.hart.activity == .pmuHalt

/-- o_debug_mode_status: high in db-halt and while a single-stepped instruction runs (R550, R614). -/
def State.debugModeStatus (s : State) : Bool := s.inDebugMode

/-- After the step's cycles: a firmware halt has quiesced (R556). -/
def State.finishFwHalt (s : State) : State :=
  if s.hart.fwHalt then
    let s1 := s.quiesce.setActivity .pmuHalt
    { s1 with hart := { s1.hart with fwHalt := false } }
  else s

/-- The acknowledgements at the end of a step follow their requests (R557, R558); the MPC's run acknowledge comes in the Running
state, and not while a PMU halt request is pending or, once that is honoured, before the PMU's run request (R555). -/
def State.handshakes (s : State) : State :=
  let hold := s.hart.runHold && s.pins.mpcRunReq && !s.pins.cpuRunReq
  let ackRun := s.hart.activity == .running && !s.pins.cpuHaltReq && !hold
  { s with
    outs := { s.outs with
      cpuHaltAck := s.outs.cpuHaltAck && s.pins.cpuHaltReq
      cpuRunAck := s.outs.cpuRunAck && s.pins.cpuRunReq
      mpcHaltAck := s.pins.mpcHaltReq && s.inDebug
      mpcRunAck := s.pins.mpcRunReq && (s.outs.mpcRunAck || ackRun) }
    hart := { s.hart with runHold := hold } }

/-! ## Reset (R650-R657) -/

/-- The core complex in reset: every flop at its reset value, memories and debug module apart (R650, R652, R656). That the LRU bits
are 0 after it (log 16) and that havereset is set for as long as reset lasts (log 30) are the model's choices (DESIGN CHOICE). -/
def State.resetHart (s : State) : State :=
  { s with
    x := Vector.replicate 32 0#32
    pc := vecAddr s.pins.rstVec
    csr := Csrs.reset s.cfg
    pic := Pic.reset
    lsu := { wbuf := [], busOut := [] }
    icache := { s.icache.invalidate with lru := [] }
    dma := { fifo := [], half := none, resp := none }
    hart := { Hart.reset with held := true }
    sync := Sync.reset
    outs := {}
    dm := { s.dm with havereset := true } }

/-- The resets that are asserted act (R650, R653, R654). -/
def State.applyResets (s : State) : State :=
  let s1 := if !s.pins.dbgRstL then s.resetDm else s
  if s1.inReset then s1.resetHart else s1

/-- Halted out of reset: dpc is the reset vector; no instruction has executed (R655). -/
def State.haltFromReset (cause : BitVec 3) (h : Hart) (s : State) : State :=
  { s with
    csr := { s.csr with dcsr := (s.csr.dcsr &&& ~~~0x1C0#32) ||| (cause.setWidth 32 <<< 6), dpc := s.pc }
    hart := { h with activity := .dbHalt, held := false, stepping := false, fwHalt := false } }

/-- An nmi_int that is high when reset is released requests an NMI or does not: its edge detector has been reset, and the spec does
not say what it then sees (R460, R650; log 49). -/
def State.nmiOutOfReset (s : State) : State :=
  if s.pins.nmiInt then { s with hart := { s.hart with nmiPin := Config.freeBit s.draws } }.draw else s

/-- Where the hart starts after reset, by the inputs sampled then (R655). An MPC halt reports cause 3 or 5 (U17). -/
def State.startHart (s : State) : State :=
  if !s.pins.mpcResetRunReq then
    (s.haltFromReset (if Config.freeBit s.draws then 5#3 else 3#3) { s.hart with mpcHalt := true }).draw
  else if s.dm.haltreq then s.haltFromReset 3#3 { s.hart with dbgHalt := true }
  else { s with hart := { s.hart with held := false } }

/-- A hart held in reset starts when it is released, at the reset vector as it then is (R651). -/
def State.leaveReset (s : State) : State :=
  if s.hart.held then (s.setPc (vecAddr s.pins.rstVec)).nmiOutOfReset.startHart else s

/-- The MPC asks for db-halt out of reset and asserts its run request before the core has entered Debug Mode (R558, R655, U16). -/
def State.resetViolates (s : State) : Bool :=
  (s.inReset || s.hart.held) && !s.pins.mpcResetRunReq && s.pins.mpcRunReq

/-- The resets as they stand: asserted ones act, and a hart that is out of reset starts; none on a protocol violation (U16). -/
def State.settleResets (s : State) : Option State :=
  let s1 := s.applyResets
  if s1.resetViolates then none else some (if s1.inReset then s1 else s1.leaveReset)

/-! ## Pins (R10, R460, R461, U16) -/

/-- The request that the MPC makes with these pin levels: the one whose signal rises (R558). -/
def State.mpcAsks (s : State) (p : Pins) : Option MpcReq :=
  if p.mpcHaltReq && !s.pins.mpcHaltReq then some .halt
  else if p.mpcRunReq && !s.pins.mpcRunReq then some .run
  else none

/-- New pin levels; a rising nmi_int requests an NMI (R460), and the MPC's request is noted (R554). -/
def State.setPins (p : Pins) (s : State) : State :=
  { s with
    pins := p
    hart := { s.hart with
      nmiPin := s.hart.nmiPin || (p.nmiInt && !s.pins.nmiInt)
      mpcLast := (s.mpcAsks p).or s.hart.mpcLast } }

/-- New pin levels that violate the PMU or MPC protocol (U16; R554, R557, R558): a halt and a run request together; an MPC request of
one kind twice in succession, a run request outside Debug Mode, a halt request in a db-halt that the MPC asked for (log 23). -/
def State.violates (s : State) (p : Pins) : Bool :=
  (p.cpuHaltReq && p.cpuRunReq) || (p.mpcHaltReq && p.mpcRunReq) ||
    (match s.mpcAsks p with
     | none => false
     | some .halt => s.hart.mpcLast == some .halt || (s.inDebug && s.hart.mpcHalt)
     | some .run => s.hart.mpcLast == some .run || !s.inDebug || s.hart.mpcRun)

end Sys2Proof.Machine
end

