-- ==== Sys2Proof/Machine/Run.lean ====
section
/-! DEFINITION. The pieces of a step: what the world does, one instruction, and the end of the step (R236, R436, R475). -/

namespace Sys2Proof.Machine

/-- A speculative fetch of the line of `a` may go to the I-cache and the I-bus: the region is cacheable and not the ICCM's, and the
line lies in an enabled instruction window if there is one (R166, R171, R174). -/
def State.fillable (s : State) (a : Word) : Bool :=
  let base := a &&& 0xFFFFFFC0#32
  s.cacheable a && !s.fetchRegionLocal (regionOf a) && inWindows s.cfg.instWindows base (base + 63#32)

/-- What one agent does (R14); none on a protocol violation (U16). -/
def State.applyEvent (e : Event) (s : State) : Option State :=
  match e with
  | .pins p => if s.violates p then none else some (s.setPins p)
  | .busSend => some s.sendOne
  | .busResp answers => some (s.busResp answers)
  | .socWrite a b => some { s with soc := s.soc.put (a % 0x100000000) b }
  | .dmaReq r => some { s with dma := { s.dma with fifo := s.dma.fifo ++ [r] } }
  | .dmaServe => some s.dmaServe
  | .busMerge i => some (s.busMerge i)
  | .jtagReset => some { s with dtm := { s.dtm with ir := Dtm.reset.ir } }
  | .jtagIr ir => some { s with dtm := { s.dtm with ir := ir } }
  | .jtagDr bits => some (s.jtagDr bits)
  | .icacheFill a way lru =>
    some (if s.fillable a then s.icFill a way lru .mem else s)
  | .icacheUpset key d k => some (s.icUpset key d k)
  | .icacheTagUpset key t k => some (s.icTagUpset key t k)
  | .iccmFetchError => some (if s.cfg.iccm.isSome && !s.cecd then s.countCcmError .iccm else s)
  | .icacheFetchError a => some (if s.fillable a then s.icRecover a else s)

/-- What the agents do in this step, in order. Before each event and after the last the resets act as they stand: a reset as soon as
it is asserted (R650), the start of the hart as soon as it is released (R655). -/
def State.applyEvents : List Event → State → Option State
  | [], s => s.settleResets
  | e :: es, s => s.settleResets.bind (fun t => (t.applyEvent e).bind (State.applyEvents es))

/-- The step begins: what the world decides for it, and nothing written yet. -/
def State.beginStep (s : State) : State :=
  let s1 := { s with
    outs := { s.outs with trace := {}, bus := [] }
    sync := { s.sync with wrote := none, pauseNew := false, mgpmcOld := none } }
  match s.inputs with
  | [] => { s1 with env := Env.quiet }
  | e :: rest => { s1 with env := e, inputs := rest }

/-- The instruction slot of the trace port (R645). It stays valid for an instruction that enters Debug Mode in place of committing
(DESIGN CHOICE, log 40). -/
def State.traceInsn (bits : Word) (s : State) : State :=
  { s with outs := { s.outs with trace := { s.outs.trace with valid := true, insn := bits, addr := s.pc } } }

/-- An exception found before execution, unless an execute trigger fires first (R436 rank 1, D17). -/
def State.earlyException (e : Exc) (s : State) : State :=
  match s.triggers .none with
  | .no => s.takeException e
  | .breakpoint s1 => s1
  | .debug s1 => s1

/-- A decoded instruction: triggers first (R436, R622), then its meaning. -/
def State.runDecoded (i : Instr) (s : State) : Host.Outcome State Fault Refusal :=
  match s.triggers (s.memOp i) with
  | .no => exec i s
  | .breakpoint s1 => .next s1
  | .debug s1 => .next s1

/-- Fetch, decode and execute one instruction (R236); the flag says whether it was one step, which a refetch is not (R198). -/
def State.runInstr (s : State) : Bool × Host.Outcome State Fault Refusal :=
  match s.fetch with
  | .again s1 => (false, .next s1)
  | .fault e s1 => (true, .next (s1.earlyException e))
  | .ok enc s1 =>
    let s2 := s1.traceInsn enc.bits
    match decode enc with
    | .error _ => (true, .next (s2.earlyException (illegal enc.bits)))
    | .ok i => (true, s2.runDecoded i)

/-- Debug Mode, if a trigger takes the hart there for data access `m` of the instruction at pc. -/
def State.triggerHalt (m : MemOp) (s : State) : Option State :=
  match s.triggers m with
  | .debug t => some t
  | .no | .breakpoint _ => none

/-- Debug Mode entered by the next instruction itself: a trigger with action 1, or `ebreak` with ebreakm = 1 (R611 causes 2, 1). -/
def State.instrHalt (s : State) : Option State :=
  match s.fetch with
  | .again _ => none
  | .fault _ s1 => s1.triggerHalt .none
  | .ok enc s1 =>
    let s2 := s1.traceInsn enc.bits
    match decode enc with
    | .error _ => s2.triggerHalt .none
    | .ok i =>
      match s2.triggers (s2.memOp i) with
      | .debug t => some t
      | .breakpoint _ => none
      | .no => if (i = .ebreak ∨ i = .cEbreak) ∧ s2.ebreakm = true then some s2.ebreakOp else none

/-- Debug Mode entered by the next instruction itself, if that instruction is about to execute: no NMI and no interrupt comes before
it, and the hart is not in PAUSE (log 37). -/
def State.ownHalt (s : State) : Option State :=
  if s.nmiPending || s.interruptNow.isSome || s.paused then none else s.instrHalt

/-- A debug halt request in the Running state: if the next instruction would itself enter Debug Mode, its cause has the higher
priority (R611); every requester's state bit is set (R553). -/
def State.haltNow (s : State) : State :=
  match s.ownHalt with
  | some t => { t with hart := { t.hart with mpcHalt := t.hart.mpcHalt || s.pins.mpcHaltReq } }
  | none => s.haltOnRequest

/-- A PMU halt request in the Running state: if the next instruction would itself enter Debug Mode, that outranks it (R552). -/
def State.pmuHaltOrDebug (s : State) : State := s.ownHalt.getD s.pmuHaltNow

/-- One step in the Running state, in the order of R475 and R552. -/
def State.runningStep (s : State) : Bool × Host.Outcome State Fault Refusal :=
  if s.debugHaltReq then (false, .next s.haltNow)
  else if s.pins.cpuHaltReq && !s.hart.stepping then (false, .next s.pmuHaltOrDebug)
  else if s.nmiPending then (true, .next s.takeNmi)
  else match s.interruptNow with
    | some i => (true, .next (s.takeInterrupt i))
    | none => if s.paused then (false, .next s) else s.runInstr

/-- One step of the hart, by activity state (R550). -/
def State.hartStep (s : State) : Bool × Host.Outcome State Fault Refusal :=
  match s.hart.activity with
  | .dbHalt => (false, .next s.dbHaltStep)
  | .pmuHalt => (false, .next s.pmuHaltStep)
  | .running => s.runningStep

/-- The end of a step: its clock cycles, a firmware halt, the end of a single step (R448, R615), the handshakes. `stepped` says
that a single-stepped instruction, or the trap taken in its place, has been done. -/
def State.endStep (stepped : Bool) (s : State) : State :=
  let s1 := s.clock.finishFwHalt
  (if stepped && s1.hart.stepping then s1.enterDebug 4#3 true else s1).handshakes

/-- Apply the end of the step to what the hart did. -/
def finishStep (r : Bool × Host.Outcome State Fault Refusal) : Host.Outcome State Fault Refusal :=
  match r.2 with
  | .next s => .next (s.endStep r.1)
  | .fault f => .fault f
  | .refused f => .refused f

/-- After the events: the hart's step and its end, unless it is in reset (R475, R650). -/
def State.afterEvents (s : State) : Host.Outcome State Fault Refusal :=
  if s.pins.scanMode || s.pins.mbistMode then .fault .testMode
  else if s.inReset then .next s
  else finishStep s.hartStep

/-- One whole step. -/
def State.stepOnce (s : State) : Host.Outcome State Fault Refusal :=
  let s0 := s.beginStep
  match s0.applyEvents s0.env.events with
  | none => .refused .protocolViolation
  | some s1 => s1.afterEvents

/-- Store the bytes of an instruction where the next fetch reads (R171): the ICCM if its region is the fetch's, else the SoC. -/
def State.placeWord (v : BitVec 32) (s : State) : State :=
  if s.fetchRegionLocal (regionOf s.pc) then { s with iccm := s.iccm.putBytes s.pc (Enc.word v).bytes }
  else { s with soc := s.soc.putBytes s.pc (Enc.word v).bytes }

end Sys2Proof.Machine
end

