-- ==== Sys2Proof/Machine/Step.lean ====
section
/-! DEFINITION. The step of the machine and the place where it fetches its next instruction. -/

namespace Sys2Proof.Machine

/-- One step (R475, R540): see Run.lean. -/
def step (s : State) : Host.Outcome State Fault Refusal := s.stepOnce

/-- `s` with an instruction of `nbits` bits `w` stored where `step` fetches its next instruction; the bits above are zero. -/
def State.withFetchWord (s : State) (nbits w : Nat) : State := s.placeWord (BitVec.ofNat 32 (w % 2 ^ nbits))

end Sys2Proof.Machine
end

