-- ==== Sys2Proof/Safety.lean ====
section
/-! DEFINITION. What counts as a legal state, and the terms in which the statements say what an instruction changes and what it
leaves alone. -/

namespace Sys2Proof.Machine

/-! ## Legal states -/

/-- tdata1 of trigger `t` as R101 and R621 allow it: the fixed bits, chain only in even triggers, action 1 only with dmode, and
with select neither execute nor load. -/
structure LegalTrigger (t : Fin 4) (w : Word) : Prop where
  fixed : w &&& ~~~0x081818C7#32 = 0x23E00000#32
  chain : t.val % 2 = 1 → w.getLsbD 11 = false
  action : w.getLsbD 12 = true → w.getLsbD 27 = true
  select : w.getLsbD 19 = true → w.getLsbD 2 = false ∧ w.getLsbD 0 = false

/-- The CSRs hold only values their rules allow (R40-R104). -/
structure Csrs.Legal (c : Csrs) : Prop where
  mstatus : c.mstatus &&& ~~~0x88#32 = 0x1800#32
  mie : c.mie &&& ~~~0x70000888#32 = 0#32
  mtvec : c.mtvec.getLsbD 1 = false
  mepc : c.mepc.getLsbD 0 = false
  dpc : c.dpc.getLsbD 0 = false
  mhpmevent : ∀ i : Fin 4, c.mhpmevent[i] ≤ 50#6
  mrac : c.mrac &&& (c.mrac >>> 1) &&& 0x55555555#32 = 0#32
  micect : c.micect.extractLsb' 27 5 ≤ 26#5
  miccmect : c.miccmect.extractLsb' 27 5 ≤ 26#5
  mdccmect : c.mdccmect.extractLsb' 27 5 ≤ 26#5
  mfdc : c.mfdc &&& ~~~0x000705FD#32 = 0#32
  dcsr : c.dcsr &&& ~~~0x8DC4#32 = 0x40000003#32
  dicawics : c.dicawics &&& ~~~0x0130FFFC#32 = 0#32
  tdata1 : ∀ t : Fin 4, LegalTrigger t c.tdata1[t]

/-- The hart is halted for the debugger exactly while a halt is recorded (R553); a single step runs in the Running state (R615);
a firmware halt is asked for only outside Debug Mode (R556). -/
structure Hart.Legal (h : Hart) : Prop where
  halted : h.activity = .dbHalt ↔ (h.dbgHalt || h.mpcHalt) = true
  stepping : h.stepping = true → h.activity = .running
  fwHalt : h.fwHalt = true → h.activity ≠ .dbHalt ∧ h.stepping = false

/-- Every byte of a write transaction lies in the aligned double-word of its address (R149, R157). -/
def PendStore.InDoubleWord (p : PendStore) : Prop := ∀ b ∈ p.bytes, b.1 &&& 0xFFFFFFF8#32 = p.addr &&& 0xFFFFFFF8#32

/-- The invariant of the machine: a legal build, an even pc, legal CSRs (of dicad1 the bits that the build has, R90), a legal
activity, memories in canonical form, at most 255 outstanding bus transactions (R164), and every write transaction within one
aligned double-word (R149, R157). -/
structure State.Inv (s : State) : Prop where
  cfg : s.cfg.valid = true
  pc : s.pc.getLsbD 0 = false
  csr : s.csr.Legal
  dicad1 : s.csr.dicad1 &&& ~~~(Build.dicad1Mask s.cfg) = 0#32
  hart : s.hart.Legal
  iccm : s.iccm.wf = true
  dccm : s.dccm.wf = true
  soc : s.soc.wf = true
  icData : Sparse.wf s.icache.data = true
  icTags : Sparse.wf s.icache.tags = true
  icLru : Sparse.wf s.icache.lru = true
  bus : s.lsu.busOut.length ≤ 255
  stores : ∀ p ∈ sentStores s.lsu.busOut ++ s.lsu.wbuf, p.InDoubleWord

/-! ## What a step of an instruction changes -/

/-- `t` has `v` in register `rd`, nothing written if `rd` is x0 (R20), and every other register as `s`. -/
def WritesReg (s t : State) (rd : Reg) (v : Word) : Prop :=
  ∀ r, t.getReg r = if r = rd ∧ rd ≠ 0#5 then v else s.getReg r

/-- The event counters count the listed events if counting is enabled (R575, R576); nothing is said of a counter whose selector is
in `open_`. -/
def Counted (s t : State) (events open_ : List Nat) : Prop :=
  ∀ i : Fin 4, (s.csr.mhpmevent[i]).toNat ∉ open_ →
    t.csr.mhpm[i] =
      if s.counting ∧ s.csr.mhpmevent[i] ≠ 0#6 then
        s.csr.mhpm[i] + BitVec.ofNat 64 (events.count (s.csr.mhpmevent[i]).toNat)
      else s.csr.mhpm[i]

/-- Every byte of memory is as before: data memory through `byte?`, and the ICCM. -/
structure SameMemory (s t : State) : Prop where
  data : ∀ a, t.byte? a = s.byte? a
  iccm : t.iccm = s.iccm

/-- Nothing but the integer registers, the pc, the event counters and the count of free values changes, and minstret counts one
(R574). -/
def OnlyRetires (s t : State) : Prop :=
  t = { s with
    x := t.x
    pc := t.pc
    draws := t.draws
    csr := { s.csr with minstret := s.csr.minstret + 1#64, mhpm := t.csr.mhpm } }

/-- The whole effect of an instruction of length `len` that writes `v` to `rd`, goes to `next` and stores nothing. -/
structure Retires (len : Len) (events open_ : List Nat) (rd : Reg) (v next : Word) (s t : State) : Prop where
  reg : WritesReg s t rd v
  pc : t.pc = next
  counts : Counted s t (4 :: Len.event len :: events) open_
  frame : OnlyRetires s t
  memory : SameMemory s t

/-- An instruction that completes with a computed value: an ALU operation or a multiplication or division (R260, R340). -/
def Computes (o : Host.Outcome State Fault Refusal) (len : Len) (event : Nat) (rd : Reg) (v : Word) (s : State) : Prop :=
  ∃ t, o = .next t ∧ Retires len [event] [] rd v (s.pc + len.bytes) s t

/-- A branch that is taken or not: where it goes and what it counts; it writes no register. -/
def Branches (o : Host.Outcome State Fault Refusal) (len : Len) (taken : Prop) (off : Int) (s : State) : Prop :=
  ∃ t, o = .next t ∧
    (taken → Retires len [24, 26] [15] 0#5 0#32 (s.pc + BitVec.ofInt 32 off) s t) ∧
    (¬ taken → Retires len [24] [15] 0#5 0#32 (s.pc + len.bytes) s t)

/-- Nothing but the pc, the trap CSRs, the event counters and the outputs changes. -/
def OnlyTraps (s t : State) : Prop :=
  t = { s with
    pc := t.pc
    outs := t.outs
    csr := { s.csr with
      mepc := t.csr.mepc, mcause := t.csr.mcause, mtval := t.csr.mtval, mstatus := t.csr.mstatus, mhpm := t.csr.mhpm } }

/-- Trap entry of the instruction at `s.pc` (R445): what is saved, what changes, where it goes. -/
structure Traps (cause tval target : Word) (events : List Nat) (s t : State) : Prop where
  mepc : t.csr.mepc = s.pc
  mcause : t.csr.mcause = cause
  mtval : t.csr.mtval = tval
  mpie : t.csr.mstatus.getLsbD 7 = s.csr.mstatus.getLsbD 3
  mie : t.csr.mstatus.getLsbD 3 = false
  mstatus : t.csr.mstatus &&& ~~~0x88#32 = s.csr.mstatus &&& ~~~0x88#32
  pc : t.pc = target
  counts : Counted s t events []
  frame : OnlyTraps s t
  memory : SameMemory s t

/-- A synchronous exception: event 37 (R470), to the mtvec base (R446). -/
def Raises (cause tval : Word) (s t : State) : Prop := Traps cause tval (s.csr.mtvec &&& 0xFFFFFFFC#32) [37] s t

/-- Memory after a store of the low `n` bytes of `v` at `a`: those bytes, little-endian (R148), and every other as before. -/
structure Stores (a : Word) (n : Nat) (v : Word) (s t : State) : Prop where
  stored : ∀ i, i < n → t.byte? (a + BitVec.ofNat 32 i) = some (v.extractLsb' (8 * i) 8)
  others : ∀ p, p ∉ addrs a n → t.byte? p = s.byte? p
  iccm : t.iccm = s.iccm

/-- The value of `n` bytes of memory at `a`, the byte of lowest address lowest (R148); the SoC's own bytes where nothing is
known. -/
def State.value (s : State) (a : Word) (n : Nat) : Word :=
  (ofBytes ((addrs a n).map (fun p => (s.byte? p).getD (Config.socByte p.toNat)))).setWidth 32

/-! ## Loads, stores and CSR instructions -/

/-- A load: its length, destination, effective address, width, and whether it sign-extends (R320-R325, R352, R371). -/
structure LoadForm where
  len : Len
  rd : Reg
  ea : Word
  size : Size
  signed : Bool

/-- The load an instruction is, if it is one. -/
def State.loadOf (s : State) (i : Instr) : Option LoadForm :=
  match i with
  | .lb rd rs1 imm => some ⟨.word, rd, s.getReg rs1 + imm.signExtend 32, .byte, true⟩
  | .lh rd rs1 imm => some ⟨.word, rd, s.getReg rs1 + imm.signExtend 32, .half, true⟩
  | .lw rd rs1 imm => some ⟨.word, rd, s.getReg rs1 + imm.signExtend 32, .word, true⟩
  | .lbu rd rs1 imm => some ⟨.word, rd, s.getReg rs1 + imm.signExtend 32, .byte, false⟩
  | .lhu rd rs1 imm => some ⟨.word, rd, s.getReg rs1 + imm.signExtend 32, .half, false⟩
  | .cLw rd rs1 imm => some ⟨.half, 1#2 ++ rd, s.getReg (1#2 ++ rs1) + BitVec.ofNat 32 (4 * imm.toNat), .word, true⟩
  | .cLwsp rd imm => some ⟨.half, rd, s.getReg 2#5 + BitVec.ofNat 32 (4 * imm.toNat), .word, true⟩
  | _ => none

/-- What a load writes to its destination when it reads `v` (R321-R325). -/
def LoadForm.extend (f : LoadForm) (v : Word) : Word :=
  match f.size, f.signed with
  | .byte, true => (v.extractLsb' 0 8).signExtend 32
  | .half, true => (v.extractLsb' 0 16).signExtend 32
  | .byte, false => (v.extractLsb' 0 8).setWidth 32
  | .half, false => (v.extractLsb' 0 16).setWidth 32
  | .word, _ => v

/-- The events of a load: 11, and 13 if it is misaligned (R580). -/
def LoadForm.events (f : LoadForm) : List Nat := 11 :: if f.ea.toNat % f.size.bytes = 0 then [] else [13]

/-- A store: its length, effective address, width and data (R326-R328, R353, R377). -/
structure StoreForm where
  len : Len
  ea : Word
  size : Size
  data : Word

/-- The store an instruction is, if it is one. -/
def State.storeOf (s : State) (i : Instr) : Option StoreForm :=
  match i with
  | .sb rs1 rs2 imm => some ⟨.word, s.getReg rs1 + imm.signExtend 32, .byte, s.getReg rs2⟩
  | .sh rs1 rs2 imm => some ⟨.word, s.getReg rs1 + imm.signExtend 32, .half, s.getReg rs2⟩
  | .sw rs1 rs2 imm => some ⟨.word, s.getReg rs1 + imm.signExtend 32, .word, s.getReg rs2⟩
  | .cSw rs1 rs2 imm =>
    some ⟨.half, s.getReg (1#2 ++ rs1) + BitVec.ofNat 32 (4 * imm.toNat), .word, s.getReg (1#2 ++ rs2)⟩
  | .cSwsp rs2 imm => some ⟨.half, s.getReg 2#5 + BitVec.ofNat 32 (4 * imm.toNat), .word, s.getReg rs2⟩
  | _ => none

/-- The events of a store: 12, and 14 if it is misaligned (R580). -/
def StoreForm.events (f : StoreForm) : List Nat := 12 :: if f.ea.toNat % f.size.bytes = 0 then [] else [14]

/-- Nothing but the named memory, the pc, the event counters and minstret changes in a store. -/
def OnlyStores (s t : State) : Prop :=
  t = { s with
    pc := t.pc
    dccm := t.dccm
    lsu := t.lsu
    pic := t.pic
    sync := t.sync
    csr := { s.csr with minstret := s.csr.minstret + 1#64, mhpm := t.csr.mhpm } }

/-- The access lies in the DCCM, and in this step no memory error is reported and no DMA word comes between its parts (R142, R194,
R197). -/
structure State.DccmReady (s : State) (a : Word) (n : Nat) : Prop where
  cfg : s.cfg.valid = true
  first : s.inDccm a = true
  last : s.inDccm (a + BitVec.ofNat 32 (n - 1)) = true
  ecc : s.env.ecc = []
  mid : s.env.dmaMid = []

/-- The access lies in the DCCM, its errors are reported, and no DMA word comes between its parts (R142, R194, R197). -/
structure State.DccmChecked (s : State) (a : Word) (n : Nat) : Prop where
  cfg : s.cfg.valid = true
  first : s.inDccm a = true
  last : s.inDccm (a + BitVec.ofNat 32 (n - 1)) = true
  checked : s.cecd = false
  mid : s.env.dmaMid = []

/-- How many aligned words an access of `n` ≤ 4 bytes at `a` touches. -/
def accessWords (a : Word) (n : Nat) : Nat :=
  if a &&& 0xFFFFFFFC#32 = (a + BitVec.ofNat 32 (n - 1)) &&& 0xFFFFFFFC#32 then 1 else 2

/-- `s` after the memory has answered for `k` words. -/
def State.afterChecks (s : State) (k : Nat) : State := { s with env := { s.env with ecc := s.env.ecc.drop k } }

/-- A correctable-error register after `n` more errors: its 27-bit count wraps (R65). -/
def counted (r : Word) (n : Nat) : Word :=
  (r &&& 0xF8000000#32) ||| ((r + BitVec.ofNat 32 n) &&& 0x07FFFFFF#32)

/-- The address lies in the named closely-coupled memory (R142). -/
def State.inCcm (s : State) (k : Ccm) (a : Word) : Bool :=
  match k with
  | .iccm => s.inIccm a
  | .dccm => s.inDccm a

/-- A DMA request of a width and alignment the port accepts (R191): writes of 4 or 8 bytes, reads of 1, 2, 4 or 8, aligned. -/
def DmaReq.Allowed (r : DmaReq) : Prop :=
  (r.bytes = 4 ∨ r.bytes = 8 ∨ (r.write = false ∧ (r.bytes = 1 ∨ r.bytes = 2))) ∧ r.addr.toNat % r.bytes = 0

/-- An aligned word access in the PIC block (R177, R492). -/
structure State.PicReady (s : State) (a : Word) : Prop where
  cfg : s.cfg.valid = true
  first : s.inPic a = true
  aligned : a.toNat % 4 = 0

/-- An access that passes the checks of R170 to the system bus: one region, none of DCCM and PIC in it, aligned if the region has
side effects, inside the protection windows. -/
structure State.BusReady (s : State) (a : Word) (n : Nat) : Prop where
  region : regionOf (a + BitVec.ofNat 32 (n - 1)) = regionOf a
  external : s.dataRegionLocal (regionOf a) = false
  aligned : s.sideEffect a = true → a.toNat % n = 0
  windows : inWindows s.cfg.dataWindows a (a + BitVec.ofNat 32 (n - 1)) = true

/-- The exception the checks of R170 raise, in their order: (cause of a load, cause of a store). -/
inductive State.Checked (s : State) (a : Word) (size : Size) : Word → Word → Prop
  | crosses : regionOf (a + BitVec.ofNat 32 (size.bytes - 1)) ≠ regionOf a → s.Checked a size 4#32 6#32
  | sideEffect : regionOf (a + BitVec.ofNat 32 (size.bytes - 1)) = regionOf a → s.sideEffect a = true →
      a.toNat % size.bytes ≠ 0 → s.Checked a size 4#32 6#32
  | unmapped : regionOf (a + BitVec.ofNat 32 (size.bytes - 1)) = regionOf a →
      (s.sideEffect a = true → a.toNat % size.bytes = 0) → s.dataRegionLocal (regionOf a) = true →
      (s.inDccm a && s.inDccm (a + BitVec.ofNat 32 (size.bytes - 1))) = false →
      (s.inPic a && s.inPic (a + BitVec.ofNat 32 (size.bytes - 1))) = false → s.Checked a size 5#32 7#32
  | picAccess : regionOf (a + BitVec.ofNat 32 (size.bytes - 1)) = regionOf a → s.dataRegionLocal (regionOf a) = true →
      (s.inDccm a && s.inDccm (a + BitVec.ofNat 32 (size.bytes - 1))) = false →
      s.inPic a = true → s.inPic (a + BitVec.ofNat 32 (size.bytes - 1)) = true →
      (size ≠ .word ∨ a.toNat % 4 ≠ 0) → s.Checked a size 5#32 7#32
  | window : regionOf (a + BitVec.ofNat 32 (size.bytes - 1)) = regionOf a →
      (s.sideEffect a = true → a.toNat % size.bytes = 0) → s.dataRegionLocal (regionOf a) = false →
      inWindows s.cfg.dataWindows a (a + BitVec.ofNat 32 (size.bytes - 1)) = false → s.Checked a size 5#32 7#32

/-- What the bus may change while the hart waits for answers: buffers, the SoC, the requests seen on the bus, the error capture
(R164, R185). -/
def BusSettles (s t : State) : Prop :=
  t = { s with
    outs := { s.outs with bus := t.outs.bus }
    x := t.x
    pc := t.pc
    draws := t.draws
    lsu := t.lsu
    soc := t.soc
    csr := { s.csr with
      minstret := s.csr.minstret + 1#64, mhpm := t.csr.mhpm, mdseac := t.csr.mdseac, mdseacLocked := t.csr.mdseacLocked }
    hart := { s.hart with nmiBus := t.hart.nmiBus } }

/-- A CSR instruction: destination, CSR address, whether it writes, and the value it writes, from the one it reads (R403-R408). -/
structure CsrForm where
  rd : Reg
  csr : BitVec 12
  write : Bool
  new : Word → Word

/-- The CSR instruction an instruction is, if it is one. -/
def State.csrOf (s : State) (i : Instr) : Option CsrForm :=
  match i with
  | .csrrw rd csr rs1 => some ⟨rd, csr, true, fun _ => s.getReg rs1⟩
  | .csrrs rd csr rs1 => some ⟨rd, csr, rs1 != 0#5, fun v => v ||| s.getReg rs1⟩
  | .csrrc rd csr rs1 => some ⟨rd, csr, rs1 != 0#5, fun v => v &&& ~~~s.getReg rs1⟩
  | .csrrwi rd csr u => some ⟨rd, csr, true, fun _ => u.setWidth 32⟩
  | .csrrsi rd csr u => some ⟨rd, csr, u != 0#5, fun v => v ||| u.setWidth 32⟩
  | .csrrci rd csr u => some ⟨rd, csr, u != 0#5, fun v => v &&& ~~~u.setWidth 32⟩
  | _ => none

/-! ## PIC -/

/-- The priority of source `n` as the comparison sees it: inverted in reverse order (R505). -/
def Pic.level (p : Pic) (n : Nat) : BitVec 4 :=
  if p.priord then ~~~(p.meipl[n]?.getD 0#4) else p.meipl[n]?.getD 0#4

/-! ## Triggers -/

/-- tdata2 covers a value: equal to it, or, with match = 1, equal to it above the lowest 0 bit of tdata2 (R623). -/
def Covers (napot : Bool) (t2 v : Word) : Prop :=
  if napot then ∀ i, i < 32 → (∃ j, j < i ∧ t2.getLsbD j = false) → v.getLsbD i = t2.getLsbD i else v = t2

/-- A trigger matches the instruction at `pc` that makes the data access `m` (R622): enabled for M-mode, and one of its execute, load
and store bits finds what tdata2 covers; bit 0 of tdata2 does not count against an instruction's address. -/
def TriggerMatches (t1 t2 pc : Word) (m : MemOp) : Prop :=
  t1.getLsbD 6 = true ∧
    ((t1.getLsbD 2 = true ∧ Covers (t1.getLsbD 7) (if t1.getLsbD 7 then t2 else t2 &&& 0xFFFFFFFE#32) pc) ∨
      (∃ ea, m = .load ea ∧ t1.getLsbD 0 = true ∧ t1.getLsbD 19 = false ∧ Covers (t1.getLsbD 7) t2 ea) ∨
      (∃ ea d, m = .store ea d ∧ t1.getLsbD 1 = true ∧ Covers (t1.getLsbD 7) t2 (if t1.getLsbD 19 then d else ea)))

/-- tdata1 with its hit bit set (R625). -/
def hitSet (t1 : Word) : Word := t1 ||| 0x100000#32

/-! ## Steps -/

/-- The hart is about to execute in this step: out of reset, running, and nothing that comes before an interrupt or an
instruction is asked for (R452, R475, R552). `s` is the state after what the world does. -/
structure State.Ready (s : State) : Prop where
  test : (s.pins.scanMode || s.pins.mbistMode) = false
  debugModule : s.pins.dbgRstL = true
  reset : s.inReset = false
  held : s.hart.held = false
  running : s.hart.activity = .running
  halt : s.debugHaltReq = false
  pmu : (s.pins.cpuHaltReq && !s.hart.stepping) = false
  nmi : s.nmiPending = false

end Sys2Proof.Machine
end

