-- ==== Sys2Proof/Certificates/Slice0/Obligations.lean ====
section
/-! DEFINITION. The statements for the provers. Each docstring names the rules of spec/ it formalises. -/

open Sys2Proof Sys2Proof.Machine

/-! ## Encoding -/

/-- Decoding the encoding of a well-formed instruction gives it back, from the fetched bits and from the bytes in memory, whatever
follows (R221, R225, R231, R233). -/
def Obligations.DecodeEncode : Prop :=
  ∀ i : Instr, i.wf = true →
    decode (encode i) = .ok i ∧ ∀ rest, decodeBytes ((encode i).bytes ++ rest) = .ok (i, rest)

/-- The decoder accepts only encodings of well-formed instructions: what it accepts encodes back to the same bits, so no two
words are read as one instruction (R225, R231, R234). -/
def Obligations.EncodeDecode : Prop :=
  ∀ (e : Enc) (i : Instr), decode e = .ok i → i.wf = true ∧ encode i = e

/-- Words written out from the encoding tables decode to the instructions they stand for: the examples of R263, R272, R302, R304,
R323, R328, R345, R352, R358, R377, R403 and R411; and reserved ones of R221 and R234 are rejected. -/
def Obligations.DecodeWords : Prop :=
  decode (.word 0xFFF30293#32) = .ok (.addi 5#5 6#5 0xFFF#12) ∧
  decode (.word 0x007302B3#32) = .ok (.add 5#5 6#5 7#5) ∧
  decode (.word 0xFE730CE3#32) = .ok (.beq 6#5 7#5 0xFFC#12) ∧
  decode (.word 0xFFDFF06F#32) = .ok (.jal 0#5 0xFFFFE#20) ∧
  decode (.word 0x027342B3#32) = .ok (.div 5#5 6#5 7#5) ∧
  decode (.word 0x00032283#32) = .ok (.lw 5#5 6#5 0#12) ∧
  decode (.word 0xFE732E23#32) = .ok (.sw 6#5 7#5 0xFFC#12) ∧
  decode (.word 0x340312F3#32) = .ok (.csrrw 5#5 0x340#12 6#5) ∧
  decode (.word 0x30200073#32) = .ok .mret ∧
  decode (.half 0x4144#16) = .ok (.cLw 1#3 2#3 1#5) ∧
  decode (.half 0xDF86#16) = .ok (.cSwsp 1#5 63#6) ∧
  decode (.half 0x7101#16) = .ok (.cAddi16sp 0x20#6) ∧
  decode (.half 0x0000#16) = .error .noRow16 ∧
  decode (.half 0x4002#16) = .error .reserved16 ∧
  decode (.word 0xFFFFFFFF#32) = .error .longEncoding

/-! ## Integer instructions -/

/-- The ten register-register instructions (R272-R281): the result, the sequential pc, nothing else; and their words. -/
def Obligations.AluRegister : Prop :=
  ∀ (s : State) (rd rs1 rs2 : Reg),
    let a := s.getReg rs1
    let b := s.getReg rs2
    let k := (b.extractLsb' 0 5).toNat
    (Computes (exec (.add rd rs1 rs2) s) .word 15 rd (a + b) s ∧
      encode (.add rd rs1 rs2) = .word (0x00#7 ++ rs2 ++ rs1 ++ 0#3 ++ rd ++ 0x33#7)) ∧
    (Computes (exec (.sub rd rs1 rs2) s) .word 15 rd (a - b) s ∧
      encode (.sub rd rs1 rs2) = .word (0x20#7 ++ rs2 ++ rs1 ++ 0#3 ++ rd ++ 0x33#7)) ∧
    (Computes (exec (.sll rd rs1 rs2) s) .word 15 rd (BitVec.ofNat 32 (a.toNat * 2 ^ k)) s ∧
      encode (.sll rd rs1 rs2) = .word (0x00#7 ++ rs2 ++ rs1 ++ 1#3 ++ rd ++ 0x33#7)) ∧
    (Computes (exec (.slt rd rs1 rs2) s) .word 15 rd (if a.toInt < b.toInt then 1#32 else 0#32) s ∧
      encode (.slt rd rs1 rs2) = .word (0x00#7 ++ rs2 ++ rs1 ++ 2#3 ++ rd ++ 0x33#7)) ∧
    (Computes (exec (.sltu rd rs1 rs2) s) .word 15 rd (if a.toNat < b.toNat then 1#32 else 0#32) s ∧
      encode (.sltu rd rs1 rs2) = .word (0x00#7 ++ rs2 ++ rs1 ++ 3#3 ++ rd ++ 0x33#7)) ∧
    (Computes (exec (.xor rd rs1 rs2) s) .word 15 rd (a ^^^ b) s ∧
      encode (.xor rd rs1 rs2) = .word (0x00#7 ++ rs2 ++ rs1 ++ 4#3 ++ rd ++ 0x33#7)) ∧
    (Computes (exec (.srl rd rs1 rs2) s) .word 15 rd (BitVec.ofNat 32 (a.toNat / 2 ^ k)) s ∧
      encode (.srl rd rs1 rs2) = .word (0x00#7 ++ rs2 ++ rs1 ++ 5#3 ++ rd ++ 0x33#7)) ∧
    (Computes (exec (.sra rd rs1 rs2) s) .word 15 rd (BitVec.ofInt 32 (a.toInt / 2 ^ k)) s ∧
      encode (.sra rd rs1 rs2) = .word (0x20#7 ++ rs2 ++ rs1 ++ 5#3 ++ rd ++ 0x33#7)) ∧
    (Computes (exec (.or rd rs1 rs2) s) .word 15 rd (a ||| b) s ∧
      encode (.or rd rs1 rs2) = .word (0x00#7 ++ rs2 ++ rs1 ++ 6#3 ++ rd ++ 0x33#7)) ∧
    (Computes (exec (.and rd rs1 rs2) s) .word 15 rd (a &&& b) s ∧
      encode (.and rd rs1 rs2) = .word (0x00#7 ++ rs2 ++ rs1 ++ 7#3 ++ rd ++ 0x33#7))

/-- The eleven instructions with an immediate (R261-R271), imm_I sign-extended, imm_U in the upper 20 bits; and their words. -/
def Obligations.AluImmediate : Prop :=
  ∀ (s : State) (rd rs1 : Reg) (imm : BitVec 12) (sh : BitVec 5) (up : BitVec 20),
    let a := s.getReg rs1
    let b : Word := imm.signExtend 32
    (Computes (exec (.lui rd up) s) .word 15 rd (up ++ 0#12) s ∧
      encode (.lui rd up) = .word (up ++ rd ++ 0x37#7)) ∧
    (Computes (exec (.auipc rd up) s) .word 15 rd (s.pc + (up ++ 0#12)) s ∧
      encode (.auipc rd up) = .word (up ++ rd ++ 0x17#7)) ∧
    (Computes (exec (.addi rd rs1 imm) s) .word 15 rd (a + b) s ∧
      encode (.addi rd rs1 imm) = .word (imm ++ rs1 ++ 0#3 ++ rd ++ 0x13#7)) ∧
    (Computes (exec (.slti rd rs1 imm) s) .word 15 rd (if a.toInt < b.toInt then 1#32 else 0#32) s ∧
      encode (.slti rd rs1 imm) = .word (imm ++ rs1 ++ 2#3 ++ rd ++ 0x13#7)) ∧
    (Computes (exec (.sltiu rd rs1 imm) s) .word 15 rd (if a.toNat < b.toNat then 1#32 else 0#32) s ∧
      encode (.sltiu rd rs1 imm) = .word (imm ++ rs1 ++ 3#3 ++ rd ++ 0x13#7)) ∧
    (Computes (exec (.xori rd rs1 imm) s) .word 15 rd (a ^^^ b) s ∧
      encode (.xori rd rs1 imm) = .word (imm ++ rs1 ++ 4#3 ++ rd ++ 0x13#7)) ∧
    (Computes (exec (.ori rd rs1 imm) s) .word 15 rd (a ||| b) s ∧
      encode (.ori rd rs1 imm) = .word (imm ++ rs1 ++ 6#3 ++ rd ++ 0x13#7)) ∧
    (Computes (exec (.andi rd rs1 imm) s) .word 15 rd (a &&& b) s ∧
      encode (.andi rd rs1 imm) = .word (imm ++ rs1 ++ 7#3 ++ rd ++ 0x13#7)) ∧
    (Computes (exec (.slli rd rs1 sh) s) .word 15 rd (BitVec.ofNat 32 (a.toNat * 2 ^ sh.toNat)) s ∧
      encode (.slli rd rs1 sh) = .word (0x00#7 ++ sh ++ rs1 ++ 1#3 ++ rd ++ 0x13#7)) ∧
    (Computes (exec (.srli rd rs1 sh) s) .word 15 rd (BitVec.ofNat 32 (a.toNat / 2 ^ sh.toNat)) s ∧
      encode (.srli rd rs1 sh) = .word (0x00#7 ++ sh ++ rs1 ++ 5#3 ++ rd ++ 0x13#7)) ∧
    (Computes (exec (.srai rd rs1 sh) s) .word 15 rd (BitVec.ofInt 32 (a.toInt / 2 ^ sh.toNat)) s ∧
      encode (.srai rd rs1 sh) = .word (0x20#7 ++ sh ++ rs1 ++ 5#3 ++ rd ++ 0x13#7))

/-- Multiplication (R341-R344): the low or the high half of the exact product; event 9; and the words. -/
def Obligations.Multiply : Prop :=
  ∀ (s : State) (rd rs1 rs2 : Reg),
    let a := s.getReg rs1
    let b := s.getReg rs2
    (Computes (exec (.mul rd rs1 rs2) s) .word 9 rd (BitVec.ofInt 32 (a.toInt * b.toInt)) s ∧
      encode (.mul rd rs1 rs2) = .word (0x01#7 ++ rs2 ++ rs1 ++ 0#3 ++ rd ++ 0x33#7)) ∧
    (Computes (exec (.mulh rd rs1 rs2) s) .word 9 rd
        ((BitVec.ofInt 64 (a.toInt * b.toInt)).extractLsb' 32 32) s ∧
      encode (.mulh rd rs1 rs2) = .word (0x01#7 ++ rs2 ++ rs1 ++ 1#3 ++ rd ++ 0x33#7)) ∧
    (Computes (exec (.mulhsu rd rs1 rs2) s) .word 9 rd
        ((BitVec.ofInt 64 (a.toInt * (b.toNat : Int))).extractLsb' 32 32) s ∧
      encode (.mulhsu rd rs1 rs2) = .word (0x01#7 ++ rs2 ++ rs1 ++ 2#3 ++ rd ++ 0x33#7)) ∧
    (Computes (exec (.mulhu rd rs1 rs2) s) .word 9 rd
        ((BitVec.ofNat 64 (a.toNat * b.toNat)).extractLsb' 32 32) s ∧
      encode (.mulhu rd rs1 rs2) = .word (0x01#7 ++ rs2 ++ rs1 ++ 3#3 ++ rd ++ 0x33#7))

/-- Division and remainder (R345-R348): by zero, at the signed overflow, and elsewhere by the quotient and remainder that divide
the dividend toward zero; event 10; and the words. -/
def Obligations.Divide : Prop :=
  ∀ (s : State) (rd rs1 rs2 : Reg),
    let a := s.getReg rs1
    let b := s.getReg rs2
    (∃ q, Computes (exec (.div rd rs1 rs2) s) .word 10 rd q s ∧
      (b = 0#32 → q = 0xFFFFFFFF#32) ∧
      (a = 0x80000000#32 → b = 0xFFFFFFFF#32 → q = 0x80000000#32) ∧
      (b ≠ 0#32 → ¬ (a = 0x80000000#32 ∧ b = 0xFFFFFFFF#32) → q.toInt = a.toInt.tdiv b.toInt)) ∧
    (∃ q, Computes (exec (.divu rd rs1 rs2) s) .word 10 rd q s ∧
      (b = 0#32 → q = 0xFFFFFFFF#32) ∧ (b ≠ 0#32 → q.toNat = a.toNat / b.toNat)) ∧
    (∃ r, Computes (exec (.rem rd rs1 rs2) s) .word 10 rd r s ∧
      (b = 0#32 → r = a) ∧
      (a = 0x80000000#32 → b = 0xFFFFFFFF#32 → r = 0#32) ∧
      (b ≠ 0#32 → ¬ (a = 0x80000000#32 ∧ b = 0xFFFFFFFF#32) →
        r.toInt = a.toInt - b.toInt * a.toInt.tdiv b.toInt)) ∧
    (∃ r, Computes (exec (.remu rd rs1 rs2) s) .word 10 rd r s ∧
      (b = 0#32 → r = a) ∧ (b ≠ 0#32 → r.toNat = a.toNat % b.toNat)) ∧
    encode (.div rd rs1 rs2) = .word (0x01#7 ++ rs2 ++ rs1 ++ 4#3 ++ rd ++ 0x33#7) ∧
    encode (.divu rd rs1 rs2) = .word (0x01#7 ++ rs2 ++ rs1 ++ 5#3 ++ rd ++ 0x33#7) ∧
    encode (.rem rd rs1 rs2) = .word (0x01#7 ++ rs2 ++ rs1 ++ 6#3 ++ rd ++ 0x33#7) ∧
    encode (.remu rd rs1 rs2) = .word (0x01#7 ++ rs2 ++ rs1 ++ 7#3 ++ rd ++ 0x33#7)

/-- The compressed computations with an immediate (R351, R354, R355, R357-R362, R370): the immediate scaled and extended, length
2. -/
def Obligations.CompressedImmediate : Prop :=
  ∀ (s : State) (rd : Reg) (c : CReg) (imm : BitVec 6) (nz : BitVec 8) (sh : BitVec 5),
    let r : Reg := 1#2 ++ c
    Computes (exec (.cAddi4spn c nz) s) .half 15 r (s.getReg 2#5 + BitVec.ofNat 32 (4 * nz.toNat)) s ∧
    Computes (exec (.cNop imm) s) .half 15 0#5 0#32 s ∧
    Computes (exec (.cAddi rd imm) s) .half 15 rd (s.getReg rd + imm.signExtend 32) s ∧
    Computes (exec (.cLi rd imm) s) .half 15 rd (imm.signExtend 32) s ∧
    Computes (exec (.cAddi16sp imm) s) .half 15 2#5 (s.getReg 2#5 + BitVec.ofInt 32 (16 * imm.toInt)) s ∧
    Computes (exec (.cLui rd imm) s) .half 15 rd (BitVec.ofInt 32 (4096 * imm.toInt)) s ∧
    Computes (exec (.cSrli c sh) s) .half 15 r (BitVec.ofNat 32 ((s.getReg r).toNat / 2 ^ sh.toNat)) s ∧
    Computes (exec (.cSrai c sh) s) .half 15 r (BitVec.ofInt 32 ((s.getReg r).toInt / 2 ^ sh.toNat)) s ∧
    Computes (exec (.cAndi c imm) s) .half 15 r (s.getReg r &&& imm.signExtend 32) s ∧
    Computes (exec (.cSlli rd sh) s) .half 15 rd (BitVec.ofNat 32 ((s.getReg rd).toNat * 2 ^ sh.toNat)) s

/-- The compressed computations on registers (R363-R366, R373, R376): length 2. -/
def Obligations.CompressedRegister : Prop :=
  ∀ (s : State) (rd rs2 : Reg) (c d : CReg),
    let r : Reg := 1#2 ++ c
    let q : Reg := 1#2 ++ d
    (Computes (exec (.cSub c d) s) .half 15 r (s.getReg r - s.getReg q) s ∧
      encode (.cSub c d) = .half (0x23#6 ++ c ++ 0#2 ++ d ++ 1#2)) ∧
    (Computes (exec (.cXor c d) s) .half 15 r (s.getReg r ^^^ s.getReg q) s ∧
      encode (.cXor c d) = .half (0x23#6 ++ c ++ 1#2 ++ d ++ 1#2)) ∧
    (Computes (exec (.cOr c d) s) .half 15 r (s.getReg r ||| s.getReg q) s ∧
      encode (.cOr c d) = .half (0x23#6 ++ c ++ 2#2 ++ d ++ 1#2)) ∧
    (Computes (exec (.cAnd c d) s) .half 15 r (s.getReg r &&& s.getReg q) s ∧
      encode (.cAnd c d) = .half (0x23#6 ++ c ++ 3#2 ++ d ++ 1#2)) ∧
    (Computes (exec (.cMv rd rs2) s) .half 15 rd (s.getReg rs2) s ∧
      encode (.cMv rd rs2) = .half (8#4 ++ rd ++ rs2 ++ 2#2)) ∧
    (Computes (exec (.cAdd rd rs2) s) .half 15 rd (s.getReg rd + s.getReg rs2) s ∧
      encode (.cAdd rd rs2) = .half (9#4 ++ rd ++ rs2 ++ 2#2))

/-! ## Control transfer -/

/-- The unconditional transfers (R302, R303, R356, R367, R372, R375): the link value is the sequential address, the target is read
from the old register, bit 0 of a register target is cleared, no other state changes. Whether they count as events 15, 24 and 26
is open (log 33). -/
def Obligations.Jumps : Prop :=
  ∀ (s : State) (rd rs1 : Reg) (off : BitVec 20) (imm : BitVec 12) (c : BitVec 11),
    (∃ t, exec (.jal rd off) s = .next t ∧
      Retires .word [] [15, 24, 26] rd (s.pc + 4#32) (s.pc + BitVec.ofInt 32 (2 * off.toInt)) s t) ∧
    (∃ t, exec (.jalr rd rs1 imm) s = .next t ∧
      Retires .word [] [15, 24, 26] rd (s.pc + 4#32) ((s.getReg rs1 + imm.signExtend 32) &&& 0xFFFFFFFE#32) s t) ∧
    (∃ t, exec (.cJ c) s = .next t ∧
      Retires .half [] [15, 24, 26] 0#5 0#32 (s.pc + BitVec.ofInt 32 (2 * c.toInt)) s t) ∧
    (∃ t, exec (.cJal c) s = .next t ∧
      Retires .half [] [15, 24, 26] 1#5 (s.pc + 2#32) (s.pc + BitVec.ofInt 32 (2 * c.toInt)) s t) ∧
    (∃ t, exec (.cJr rs1) s = .next t ∧
      Retires .half [] [15, 24, 26] 0#5 0#32 (s.getReg rs1 &&& 0xFFFFFFFE#32) s t) ∧
    (∃ t, exec (.cJalr rs1) s = .next t ∧
      Retires .half [] [15, 24, 26] 1#5 (s.pc + 2#32) (s.getReg rs1 &&& 0xFFFFFFFE#32) s t)

/-- The six branches (R304-R309) and the two compressed ones (R368, R369), on the signed or unsigned values; and their words. That
a branch may also count as event 15 is open (log 33). -/
def Obligations.ConditionalBranches : Prop :=
  ∀ (s : State) (rs1 rs2 : Reg) (imm : BitVec 12) (c : CReg) (ci : BitVec 8),
    let a := s.getReg rs1
    let b := s.getReg rs2
    let off := 2 * imm.toInt
    let enc : BitVec 3 → Enc := fun f3 =>
      .word (imm.extractLsb' 11 1 ++ imm.extractLsb' 4 6 ++ rs2 ++ rs1 ++ f3 ++ imm.extractLsb' 0 4 ++
        imm.extractLsb' 10 1 ++ 0x63#7)
    let encC : BitVec 3 → Enc := fun f3 =>
      .half (f3 ++ ci.extractLsb' 7 1 ++ ci.extractLsb' 2 2 ++ c ++ ci.extractLsb' 5 2 ++ ci.extractLsb' 0 2 ++
        ci.extractLsb' 4 1 ++ 1#2)
    (Branches (exec (.beq rs1 rs2 imm) s) .word (a = b) off s ∧ encode (.beq rs1 rs2 imm) = enc 0#3) ∧
    (Branches (exec (.bne rs1 rs2 imm) s) .word (a ≠ b) off s ∧ encode (.bne rs1 rs2 imm) = enc 1#3) ∧
    (Branches (exec (.blt rs1 rs2 imm) s) .word (a.toInt < b.toInt) off s ∧ encode (.blt rs1 rs2 imm) = enc 4#3) ∧
    (Branches (exec (.bge rs1 rs2 imm) s) .word (b.toInt ≤ a.toInt) off s ∧ encode (.bge rs1 rs2 imm) = enc 5#3) ∧
    (Branches (exec (.bltu rs1 rs2 imm) s) .word (a.toNat < b.toNat) off s ∧ encode (.bltu rs1 rs2 imm) = enc 6#3) ∧
    (Branches (exec (.bgeu rs1 rs2 imm) s) .word (b.toNat ≤ a.toNat) off s ∧ encode (.bgeu rs1 rs2 imm) = enc 7#3) ∧
    (Branches (exec (.cBeqz c ci) s) .half (s.getReg (1#2 ++ c) = 0#32) (2 * ci.toInt) s ∧
      encode (.cBeqz c ci) = encC 6#3) ∧
    (Branches (exec (.cBnez c ci) s) .half (s.getReg (1#2 ++ c) ≠ 0#32) (2 * ci.toInt) s ∧
      encode (.cBnez c ci) = encC 7#3)

/-! ## Loads and stores -/

/-- Loads from the DCCM (R170 step 3a, R321-R325, R352, R371): the value of the known bytes, little-endian and extended, in the
destination; nothing else changes. -/
def Obligations.LoadsFromDccm : Prop :=
  ∀ (s : State) (i : Instr) (f : LoadForm), s.loadOf i = some f → s.DccmReady f.ea f.size.bytes →
    (∀ p ∈ addrs f.ea f.size.bytes, (s.byte? p).isSome = true) →
    ∃ t, exec i s = .next t ∧
      Retires f.len f.events [] f.rd (f.extend (s.value f.ea f.size.bytes)) (s.pc + f.len.bytes) s t

/-- Loads from the system bus that the SoC answers as memory (R149, R153, R154, R157, R170 step 5): with or without side effects,
blocking or not, forwarded or not, the destination gets the bytes as the hart's own unanswered stores leave them over the SoC's;
only buffers, answered stores, the requests seen on the bus and the bus-error capture may change besides, and no byte of memory as the hart sees it. -/
def Obligations.LoadsFromBus : Prop :=
  ∀ (s : State) (i : Instr) (f : LoadForm), s.loadOf i = some f → s.Inv → s.BusReady f.ea f.size.bytes →
    s.env.replies = [] →
    ∃ t, exec i s = .next t ∧
      WritesReg s t f.rd (f.extend (s.value f.ea f.size.bytes)) ∧ t.pc = s.pc + f.len.bytes ∧
      Counted s t (4 :: Len.event f.len :: f.events) [] ∧ BusSettles s t ∧ SameMemory s t

/-- Word loads from the PIC block (R170 step 3b, R177): the register's value in the destination; nothing else changes. -/
def Obligations.LoadsFromPic : Prop :=
  ∀ (s : State) (i : Instr) (f : LoadForm), s.loadOf i = some f → f.size = .word → s.PicReady f.ea →
    ∃ t, exec i s = .next t ∧
      Retires f.len f.events [] f.rd
        (match s.picReg (f.ea.toNat - s.cfg.pic.base) with
          | some r => s.picRead r
          | none => 0#32) (s.pc + f.len.bytes) s t

/-- Stores to the DCCM (R148, R170 step 3a, R197-R199, R326-R328, R353, R377). Without a memory error: an aligned word, or any
width whose words are initialised, puts its bytes at the effective address and leaves every other byte, every register and every
CSR but the counters alone; of any other store than an aligned word, a byte whose word is not initialised is dropped (R656). A store
that merges checks its words: a double-bit error is a store access fault at the effective address, single-bit errors are corrected
and counted in mdccmect. That a misaligned store which faults so does not count as event 14 is the model's choice (log 33). -/
def Obligations.StoresToDccm : Prop :=
  ∀ (s : State) (i : Instr) (f : StoreForm), s.storeOf i = some f →
    (s.DccmReady f.ea f.size.bytes →
      ((f.size = .word ∧ f.ea.toNat % 4 = 0) ∨ ∀ p ∈ addrs f.ea f.size.bytes, s.wordInit .dccm p = true) →
      ∃ t, exec i s = .next t ∧ t.pc = s.pc + f.len.bytes ∧ Stores f.ea f.size.bytes f.data s t ∧
        Counted s t (4 :: Len.event f.len :: f.events) [] ∧ OnlyStores s t ∧
        t.lsu = s.lsu ∧ t.pic = s.pic ∧ t.sync = s.sync) ∧
    (s.DccmReady f.ea f.size.bytes → ¬ (f.size = .word ∧ f.ea.toNat % 4 = 0) →
      ∃ t, exec i s = .next t ∧ t.pc = s.pc + f.len.bytes ∧
        (∀ k, k < f.size.bytes → t.byte? (f.ea + BitVec.ofNat 32 k) =
          if s.wordInit .dccm (f.ea + BitVec.ofNat 32 k) then some (f.data.extractLsb' (8 * k) 8)
          else s.byte? (f.ea + BitVec.ofNat 32 k)) ∧
        (∀ p, p ∉ addrs f.ea f.size.bytes → t.byte? p = s.byte? p) ∧
        Counted s t (4 :: Len.event f.len :: f.events) [] ∧ OnlyStores s t ∧
        t.lsu = s.lsu ∧ t.pic = s.pic ∧ t.sync = s.sync) ∧
    (s.DccmChecked f.ea f.size.bytes → ¬ (f.size = .word ∧ f.ea.toNat % 4 = 0) →
      let k := accessWords f.ea f.size.bytes
      (Ecc.double ∈ s.env.ecc.take k →
        ∃ t, exec i s = .next t ∧ Raises 7#32 f.ea (s.afterChecks k) t) ∧
      (Ecc.double ∉ s.env.ecc.take k → (∀ p ∈ addrs f.ea f.size.bytes, s.wordInit .dccm p = true) →
        ∃ t, exec i s = .next t ∧ t.pc = s.pc + f.len.bytes ∧ Stores f.ea f.size.bytes f.data s t ∧
          t.csr.mdccmect = counted s.csr.mdccmect ((s.env.ecc.take k).count .single) ∧
          t.csr.miccmect = s.csr.miccmect ∧ t.csr.micect = s.csr.micect ∧ t.x = s.x ∧
          Counted s t (4 :: Len.event f.len :: f.events) []))

/-- Stores to the system bus (R155, R168, R170 step 5): the bytes enter the write buffer, where the hart reads them back; nothing
else changes. The SoC's answers, in whatever order they come and none an error, then change no byte as the hart sees it: it goes on
reading its latest store to each (R154). -/
def Obligations.StoresToBus : Prop :=
  (∀ (s : State) (i : Instr) (f : StoreForm), s.storeOf i = some f → s.cfg.valid = true →
    s.BusReady f.ea f.size.bytes →
    ∃ t, exec i s = .next t ∧ t.pc = s.pc + f.len.bytes ∧ Stores f.ea f.size.bytes f.data s t ∧
      Counted s t (4 :: Len.event f.len :: f.events) [] ∧ OnlyStores s t ∧
      t.dccm = s.dccm ∧ t.pic = s.pic ∧ t.sync = s.sync ∧ t.lsu.busOut = s.lsu.busOut) ∧
  (∀ (s : State) (answers : List (Nat × Bool)), (∀ x ∈ answers, x.2 = false) → SameMemory s (s.busResp answers))

/-- Word stores to the PIC block (R170 step 3b, R177): the addressed register takes the value, an unused address drops it; no
memory changes. -/
def Obligations.StoresToPic : Prop :=
  ∀ (s : State) (i : Instr) (f : StoreForm), s.storeOf i = some f → f.size = .word → s.PicReady f.ea →
    ∃ t, exec i s = .next t ∧ t.pc = s.pc + f.len.bytes ∧
      t.pic = (match s.picReg (f.ea.toNat - s.cfg.pic.base) with
        | some r => s.pic.write r f.data
        | none => s.pic) ∧
      Counted s t (4 :: Len.event f.len :: f.events) [] ∧ OnlyStores s t ∧ SameMemory s t

/-- A load or store that fails a check of R170 raises the exception that check names, with the effective address in mtval: no
access is made, no register is written and nothing retires. That a misaligned access which raises it does not count as event 13 or
14 is the model's choice (log 33). -/
def Obligations.AccessExceptions : Prop :=
  (∀ (s : State) (i : Instr) (f : LoadForm) (cl cs : Word), s.loadOf i = some f → s.Checked f.ea f.size cl cs →
    ∃ t, exec i s = .next t ∧ Raises cl f.ea s t) ∧
  (∀ (s : State) (i : Instr) (f : StoreForm) (cl cs : Word), s.storeOf i = some f → s.Checked f.ea f.size cl cs →
    ∃ t, exec i s = .next t ∧ Raises cs f.ea s t)

/-- A load from a region with side effects that the bus answers with an error, no store being buffered, is precise: a load access
fault at the effective address, the register unwritten (R183). -/
def Obligations.SideEffectLoadError : Prop :=
  ∀ (s : State) (i : Instr) (f : LoadForm) (rest : List Reply), s.loadOf i = some f → s.BusReady f.ea f.size.bytes →
    s.sideEffect f.ea = true → s.lsu.wbuf = [] → s.lsu.busOut = [] → s.env.replies = .error :: rest →
    ∃ t, exec i s = .next t ∧ Raises 5#32 f.ea { s with env := { s.env with replies := rest } } t

/-- Memory errors in a DCCM load (R197, R198), of every width and of one or two words: a double-bit error is a load access fault
at the effective address; single-bit errors are corrected, counted in mdccmect, and the load completes with the known bytes; nothing
else changes. That a misaligned load which faults so does not count as event 13 is the model's choice (log 33). -/
def Obligations.DccmLoadErrors : Prop :=
  ∀ (s : State) (i : Instr) (f : LoadForm), s.loadOf i = some f → s.DccmChecked f.ea f.size.bytes →
    let k := accessWords f.ea f.size.bytes
    (Ecc.double ∈ s.env.ecc.take k → ∃ t, exec i s = .next t ∧ Raises 5#32 f.ea (s.afterChecks k) t) ∧
    (Ecc.double ∉ s.env.ecc.take k → (∀ p ∈ addrs f.ea f.size.bytes, (s.byte? p).isSome = true) →
      ∃ t, exec i s = .next t ∧ WritesReg s t f.rd (f.extend (s.value f.ea f.size.bytes)) ∧ t.pc = s.pc + f.len.bytes ∧
        Counted s t (4 :: Len.event f.len :: f.events) [] ∧ SameMemory s t ∧
        t = { s.afterChecks k with
          x := t.x
          pc := t.pc
          csr := { s.csr with
            minstret := s.csr.minstret + 1#64
            mhpm := t.csr.mhpm
            mdccmect := counted s.csr.mdccmect ((s.env.ecc.take k).count .single) } })

/-- The first bus error of a store or a non-blocking load is captured and requests an NMI with its cause; later ones change nothing (R184,
R185) until a write to mdeau unlocks the capture (R187). -/
def Obligations.BusErrorCapture : Prop :=
  ∀ (s : State) (load : Bool) (a : Word),
    (s.csr.mdseacLocked = false →
      let t := s.reportBusError load a
      t.csr.mdseac = a ∧ t.csr.mdseacLocked = true ∧
        t.hart.nmiBus = some (if load then 0xF0000001#32 else 0xF0000000#32) ∧ SameMemory s t) ∧
    (s.csr.mdseacLocked = true → s.reportBusError load a = s) ∧
    (∀ v, (s.csrWrite false .mdeau v).csr.mdseacLocked = false)

/-! ## System instructions -/

/-- `ecall` (R409): cause 11, mtval 0; events 20 and 37; nothing retires. -/
def Obligations.EcallRaises : Prop :=
  encode .ecall = .word 0x00000073#32 ∧
    ∀ s : State, ∃ t, exec .ecall s = .next t ∧ Traps 11#32 0#32 (s.csr.mtvec &&& 0xFFFFFFFC#32) [20, 37] s t

/-- `ebreak` and `c.ebreak` with dcsr.ebreakm = 0 (R410, R374): a Breakpoint exception whose mtval is the instruction's own
address; events 19 and 37; nothing retires. -/
def Obligations.EbreakRaises : Prop :=
  ∀ (s : State) (i : Instr), i = .ebreak ∨ i = .cEbreak → s.ebreakm = false →
    ∃ t, exec i s = .next t ∧ Traps 3#32 s.pc (s.csr.mtvec &&& 0xFFFFFFFC#32) [19, 37] s t

/-- `ebreak` and `c.ebreak` with dcsr.ebreakm = 1 enter Debug Mode (R612, R613): dpc is the instruction's own address, dcsr.cause
is 1, buffers drain, and no trap register changes. -/
def Obligations.EbreakEntersDebugMode : Prop :=
  ∀ (s : State) (i : Instr), i = .ebreak ∨ i = .cEbreak → s.ebreakm = true →
    ∃ t, exec i s = .next t ∧ t.hart.activity = .dbHalt ∧ t.hart.dbgHalt = true ∧ t.csr.dpc = s.pc ∧
      t.csr.dcsr = (s.csr.dcsr &&& ~~~0x1C0#32) ||| 0x40#32 ∧ t.lsu = { wbuf := [], busOut := [] } ∧
      (∀ r, t.getReg r = s.getReg r) ∧ t.csr.mepc = s.csr.mepc ∧ t.csr.mcause = s.csr.mcause ∧
      t.csr.mtval = s.csr.mtval ∧ t.csr.mstatus = s.csr.mstatus ∧ t.csr.minstret = s.csr.minstret ∧
      t.outs.brkpt = true

/-- `mret` (R411, R447): mie takes mpie, mpie becomes 1, the pc becomes mepc; it retires, and nothing else changes. -/
def Obligations.MretReturns : Prop :=
  encode .mret = .word 0x30200073#32 ∧
  ∀ s : State, ∃ t, exec .mret s = .next t ∧ t.pc = s.csr.mepc ∧
    t.csr.mstatus.getLsbD 3 = s.csr.mstatus.getLsbD 7 ∧ t.csr.mstatus.getLsbD 7 = true ∧
    t.csr.mstatus &&& ~~~0x88#32 = s.csr.mstatus &&& ~~~0x88#32 ∧
    Counted s t [4, 6, 23] [] ∧ SameMemory s t ∧
    t = { s with
      pc := t.pc
      csr := { s.csr with mstatus := t.csr.mstatus, minstret := s.csr.minstret + 1#64, mhpm := t.csr.mhpm } }

/-- `wfi` is a NOP (R414): it retires as an ALU operation and nothing else happens. -/
def Obligations.WfiIsNop : Prop :=
  encode .wfi = .word 0x10500073#32 ∧ ∀ s : State, Computes (exec .wfi s) .word 15 0#5 0#32 s

/-- `fence` and `fence.i` (R161, R162, R401, R402), whatever stands in their operands and unused fields (R228; that they run as the
plain ones is the model's choice, log 34), leave both LSU buffers empty and every transaction
answered; if the SoC answers as memory no byte changes as the hart sees it; `fence.i` also leaves no valid line in the I-cache.
Registers, PIC, CCMs and the CSRs but the counters and the bus-error capture stay. -/
def Obligations.FencesDrain : Prop :=
  ∀ (s : State) (i : Instr),
    ((∃ fm p su rs1 rd, i = .fence fm p su rs1 rd) ∨ (∃ imm rs1 rd, i = .fenceI imm rs1 rd)) →
    ∃ t, exec i s = .next t ∧ t.pc = s.pc + 4#32 ∧ (∀ r, t.getReg r = s.getReg r) ∧
      t.lsu = { wbuf := [], busOut := [] } ∧
      (s.Inv → s.env.replies = [] → SameMemory s t) ∧
      ((∃ imm rs1 rd, i = .fenceI imm rs1 rd) → ∀ key, (t.icache.tagAt key).valid = false) ∧
      t.csr = { s.csr with
        minstret := s.csr.minstret + 1#64, mhpm := t.csr.mhpm, mdseac := t.csr.mdseac,
        mdseacLocked := t.csr.mdseacLocked } ∧
      t.iccm = s.iccm ∧ t.dccm = s.dccm ∧ t.pic = s.pic

/-! ## CSR instructions -/

/-- A CSR instruction that may not access its CSR is illegal (R412, R413, R416): the address is not implemented, the CSR is a
Debug Mode one, or it writes a read-only address; mtval holds the instruction. -/
def Obligations.IllegalCsrAccess : Prop :=
  ∀ (s : State) (i : Instr) (f : CsrForm), s.csrOf i = some f →
    (csrAt f.csr = none ∨ (∃ n, csrAt f.csr = some n ∧ n.debugOnly = true) ∨
      (f.write = true ∧ f.csr.extractLsb' 10 2 = 3#2)) →
    ∃ t, exec i s = .next t ∧ Raises 2#32 (encode i).bits s t

/-- A CSR instruction that only reads (R404, R405, R407, R408 with x0 or 0) completes with the CSR's value in rd and changes
nothing else; read-only CSRs are no exception. -/
def Obligations.CsrReads : Prop :=
  ∀ (s : State) (i : Instr) (f : CsrForm) (n : CsrName), s.csrOf i = some f → csrAt f.csr = some n →
    n.debugOnly = false → f.write = false →
    ∃ t, exec i s = .next t ∧ Retires .word [16] [15] f.rd (s.csrRead n) (s.pc + 4#32) s t

/-- A CSR instruction that writes (R403-R408) retires, reads the old value into rd and then writes the new one computed from it;
`u` is the state between the retirement and the write. -/
def Obligations.CsrWrites : Prop :=
  ∀ (s : State) (i : Instr) (f : CsrForm) (n : CsrName), s.csrOf i = some f → csrAt f.csr = some n →
    n.debugOnly = false → f.write = true → f.csr.extractLsb' 10 2 ≠ 3#2 →
    ∃ t u, exec i s = .next t ∧
      t = (u.csrWrite false n (f.new (s.csrRead n))).setReg f.rd (s.csrRead n) ∧
      u.pc = s.pc + 4#32 ∧ (∀ r, u.getReg r = s.getReg r) ∧ OnlyRetires s u ∧
      (n ≠ .mgpmc → Counted s u [4, 6, if f.rd = 0#5 then 18 else 17] [15])

/-- What a CSR reads after `v` has been written to it (R40-R104): the writable fields take the value, the others keep theirs,
illegal values are stored as the legal ones the rules name. By a CSR instruction: every CSR that one may write, of mitcnt0 and mitcnt1
the write that commits in a cycle of the step (R542; held until then, while the debugger's acts at once: log 10), of tdata1 and tdata2 the rule of R621; by the debugger: the triggers and the
CSRs of Debug Mode that hold a value. -/
def Obligations.CsrWrittenValues : Prop :=
  ∀ (s : State) (v : Word),
    let after := fun n : CsrName => (s.csrWrite false n v).csrRead n
    let debug := fun n : CsrName => (s.csrWrite true n v).csrRead n
    (after .mstatus = (v &&& 0x88#32) ||| 0x1800#32 ∧ after .misa = 0x40001104#32 ∧ after .mie = v &&& 0x70000888#32 ∧
      after .mtvec = v &&& 0xFFFFFFFD#32 ∧ after .mscratch = v ∧ after .mepc = v &&& 0xFFFFFFFE#32 ∧ after .mtval = v ∧
      (legalCause v = true → after .mcause = v) ∧ s.csrWrite false .mip v = s) ∧
    (∀ i, after (.mhpmevent i) = if 50 < v.toNat then 50#32 else v) ∧
    (after .tselect = v &&& 3#32 ∧ after .mpmc = v &&& 2#32 ∧ after .mgpmc = v &&& 1#32 ∧ after .mitb0 = v ∧
      after .mitb1 = v ∧ after .mitctl0 = v &&& 7#32 ∧ after .mitctl1 = v &&& 7#32 ∧ after .mcgc = v &&& 0x1FF#32 ∧
      after .mfdc = v &&& 0x000705FD#32) ∧
    ((s.csrWrite false .mitcnt0 v).sync.mitWr0 = some v ∧ (s.csrWrite false .mitcnt1 v).sync.mitWr1 = some v ∧
      debug .mitcnt0 = v ∧ debug .mitcnt1 = v) ∧
    (∀ n, n = .micect ∨ n = .miccmect ∨ n = .mdccmect →
      after n = if 26 < (v.extractLsb' 27 5).toNat then 26#5 ++ v.extractLsb' 0 27 else v) ∧
    (∀ k : Fin 16, (after .mrac).extractLsb' (2 * k.val) 2 =
      if v.extractLsb' (2 * k.val) 2 = 3#2 then 2#2 else v.extractLsb' (2 * k.val) 2) ∧
    (after .meivt = v &&& 0xFFFFFC00#32 ∧ after .meipt = v &&& 0xF#32 ∧ after .meicidpl = v &&& 0xF#32 ∧
      after .meicurpl = v &&& 0xF#32) ∧
    (after .mcycle = v ∧ after .mcycleh = v ∧ after .minstret = v ∧ after .minstreth = v) ∧
    (∀ i, after (.mhpmcounter i) = v ∧ after (.mhpmcounterh i) = v) ∧
    (after .mdeau = 0#32 ∧ after .mcpc = 0#32 ∧ after .meicpct = 0#32 ∧ after .zero = 0#32 ∧
      after .mvendorid = 0x45#32 ∧ after .marchid = 0x0B#32 ∧ after .mimpid = 5#32 ∧ after .mhartid = 0#32) ∧
    (∀ dbg : Bool,
      let o := s.csrRead .tdata1
      let w := (s.csrWrite dbg .tdata1 v).csrRead .tdata1
      let odd := s.csr.tselect.getLsbD 0
      let prev := s.csr.tdata1[(s.csr.tselect - 1#2).toNat]'(s.csr.tselect - 1#2).isLt
      let next := s.csr.tdata1[(s.csr.tselect + 1#2).toNat]'(s.csr.tselect + 1#2).isLt
      let ignored := (dbg = false ∧ o.getLsbD 27 = true) ∨
        (dbg = true ∧ v.getLsbD 27 = true ∧ odd = true ∧ prev.getLsbD 27 = false ∧ prev.getLsbD 11 = true)
      (ignored → s.csrWrite dbg .tdata1 v = s) ∧
      (dbg = false → o.getLsbD 27 = true → s.csrWrite dbg .tdata2 v = s) ∧
      (dbg = true ∨ o.getLsbD 27 = false → (s.csrWrite dbg .tdata2 v).csrRead .tdata2 = v) ∧
      (¬ ignored → w &&& ~~~0x081818C7#32 = 0x23E00000#32 ∧ w.getLsbD 27 = (dbg && v.getLsbD 27) ∧
        w.getLsbD 20 = v.getLsbD 20 ∧ w.getLsbD 19 = v.getLsbD 19 ∧
        w.getLsbD 12 = (v.getLsbD 12 && w.getLsbD 27) ∧
        w.getLsbD 11 = (v.getLsbD 11 && !odd && (w.getLsbD 27 || !next.getLsbD 27)) ∧
        w.getLsbD 7 = v.getLsbD 7 ∧ w.getLsbD 6 = v.getLsbD 6 ∧ w.getLsbD 2 = (v.getLsbD 2 && !v.getLsbD 19) ∧
        w.getLsbD 1 = v.getLsbD 1 ∧ w.getLsbD 0 = (v.getLsbD 0 && !v.getLsbD 19))) ∧
    (debug .dcsr = (s.csrRead .dcsr &&& ~~~0x8C04#32) ||| (v &&& 0x8C04#32) ∧ debug .dpc = v &&& 0xFFFFFFFE#32 ∧
      debug .dicawics = v &&& 0x0130FFFC#32 ∧ debug .dicad0 = v ∧
      debug .dicad1 = v &&& (if s.cfg.icacheEcc then 0x3FF#32 else 3#32))

/-- Writing a CSR, by an instruction or by the debugger, leaves every other CSR as it reads, the integer registers, the pc, the
memories and the hart's activity alone: every CSR but the five whose write is a command (mcpc, dmst, mpmc, dicago, meicpct). What
follows another register follows it: mip its sources, tdata1 and tdata2 the selected trigger, meihap the base in meivt. The debugger's
write to minstret is left out (R682). -/
def Obligations.CsrWriteFrame : Prop :=
  ∀ (s : State) (v : Word) (n : CsrName) (dbg : Bool),
    n ≠ .mcpc → n ≠ .dmst → n ≠ .mpmc → n ≠ .dicago → n ≠ .meicpct → ¬ (dbg = true ∧ n = .minstret) →
    let t := s.csrWrite dbg n v
    (∀ m, m ≠ n → m ≠ .mip → ¬ (n = .tselect ∧ (m = .tdata1 ∨ m = .tdata2)) → ¬ (n = .meivt ∧ m = .meihap) →
      t.csrRead m = s.csrRead m) ∧
    (∀ r, t.getReg r = s.getReg r) ∧ t.pc = s.pc ∧ t.hart = s.hart ∧
      t.dccm = s.dccm ∧ t.iccm = s.iccm ∧ t.soc = s.soc ∧ t.lsu = s.lsu ∧ t.pic = s.pic ∧ t.icache = s.icache

/-! ## Steps -/

/-- A step runs the decoded instruction: when nothing comes before it, step at `s` is exec of what the fetched bits decode to, with
the trace record of the instruction before and the end of the step (its cycles, halts and handshakes) after (R236, R475). -/
def Obligations.StepRunsDecoded : Prop :=
  ∀ (s s1 : State) (enc : Enc) (i : Instr),
    s.beginStep.env.events = [] → s.beginStep.Ready → s.beginStep.interruptNow = none → s.beginStep.paused = false →
    s.beginStep.fetch = .ok enc s1 → decode enc = .ok i →
    (s1.traceInsn enc.bits).triggers ((s1.traceInsn enc.bits).memOp i) = .no →
    step s = finishStep (true, exec i (s1.traceInsn enc.bits)) ∧
      ∀ t, exec i (s1.traceInsn enc.bits) = .next t → step s = .next (t.endStep true)

/-- Instruction bytes in the ICCM are what is fetched (R171 step 1, R148, R220, R221): the encoding of a well-formed instruction
that lies at the pc, byte by byte, is fetched whole and nothing changes, if no memory error is reported and no DMA word comes between.
A single-bit error in the first parcel is corrected, counted in miccmect, and the instruction is fetched again; a double-bit error
there is an instruction access fault at the pc, unless a trigger fires (R197, R198, D11). -/
def Obligations.FetchesFromIccm : Prop :=
  (∀ (s : State) (i : Instr), i.wf = true → s.cfg.valid = true → s.env.ecc = [] → s.env.dmaMid = [] →
    (∀ k : Nat, (hk : k < (encode i).bytes.length) →
      s.inIccm (s.pc + BitVec.ofNat 32 k) = true ∧
        s.iccm.get? (s.pc + BitVec.ofNat 32 k).toNat = some ((encode i).bytes[k])) →
    s.fetch = .ok (encode i) s) ∧
  (∀ (s : State) (rest : List Ecc), s.cfg.valid = true → s.cecd = false → s.inIccm s.pc = true → s.inIccm (s.pc + 1#32) = true →
    (s.env.ecc = .single :: rest →
      s.runInstr = (false, .next { s.afterChecks 1 with csr := { s.csr with miccmect := counted s.csr.miccmect 1 } })) ∧
    (s.env.ecc = .double :: rest → (s.afterChecks 1).triggers .none = .no →
      ∃ t, s.runInstr = (true, .next t) ∧ Raises 1#32 s.pc (s.afterChecks 1) t))

/-- Bits that are no instruction raise Illegal instruction with the bits in mtval (R229, R236, R431), and a fetch outside the ICCM
in its region raises an instruction access fault at the pc (R171 step 1), unless a trigger fires. -/
def Obligations.RejectedFetches : Prop :=
  (∀ (s s1 : State) (enc : Enc) (r : Reject), s.fetch = .ok enc s1 → decode enc = .error r →
    (s1.traceInsn enc.bits).triggers .none = .no →
    ∃ t, s.runInstr = (true, .next t) ∧ Raises 2#32 enc.bits (s1.traceInsn enc.bits) t) ∧
  (∀ s : State, s.fetchRegionLocal (regionOf s.pc) = true → s.inIccm s.pc = false → s.triggers .none = .no →
    ∃ t, s.runInstr = (true, .next t) ∧ Raises 1#32 s.pc s t)

/-- No instruction ends in a fault or a refusal. A step stops with a fault exactly if a test mode is on after the step's events
(R690), and is refused exactly if among these is a violation of the PMU or MPC protocol (log 23): new pin levels that violate it, or,
while the core is held in reset or is released, an MPC run request with the MPC asking for db-halt out of reset (R558, R655). -/
def Obligations.NoInstructionStops : Prop :=
  (∀ (i : Instr) (s : State), ∃ t, exec i s = .next t) ∧
  (∀ s : State, (∃ f, step s = .fault f) ↔
    ∃ u, s.beginStep.applyEvents s.beginStep.env.events = some u ∧ (u.pins.scanMode || u.pins.mbistMode) = true) ∧
  (∀ s : State, (∃ r, step s = .refused r) ↔ s.beginStep.applyEvents s.beginStep.env.events = none) ∧
  (∀ (s : State) (e : Event), s.applyEvent e = none ↔ ∃ p, e = .pins p ∧ s.violates p = true) ∧
  (∀ s : State, s.settleResets = none ↔
    (s.applyResets.inReset = true ∨ s.applyResets.hart.held = true) ∧ s.pins.mpcResetRunReq = false ∧ s.pins.mpcRunReq = true)

/-! ## Interrupts -/

/-- A pending and enabled interrupt is taken instead of the next instruction (R452). -/
def Obligations.StepTakesInterrupt : Prop :=
  ∀ (s : State) (i : Interrupt), s.beginStep.env.events = [] → s.beginStep.Ready →
    s.beginStep.interruptNow = some i → step s = .next ((s.beginStep.takeInterrupt i).endStep true)

/-- Which interrupt is taken (R452, R454): none while mie is 0 or a single step holds them off; else the first of external (11),
correctable error (30), timer (7), internal timer 0 (29) and 1 (28) that is pending and enabled. Whether a pending one is taken
in this step is the environment's choice (log 18). -/
def Obligations.InterruptSelection : Prop :=
  ∀ s : State,
    (s.mieOn = false → s.interruptNow = none) ∧
    (s.hart.stepping = true → s.stepie = false → s.interruptNow = none) ∧
    (s.mieOn = true → (s.hart.stepping = true → s.stepie = true) → s.env.deferInt = false →
      s.interruptNow = if s.pend.getLsbD 11 then some .external
        else if s.pend.getLsbD 30 then some .correctable
        else if s.pend.getLsbD 7 then some .timer
        else if s.pend.getLsbD 29 then some .internal0
        else if s.pend.getLsbD 28 then some .internal1 else none) ∧
    s.pend = (s.mip ||| (if s.hart.mitHold0 then 0x20000000#32 else 0#32) |||
      (if s.hart.mitHold1 then 0x10000000#32 else 0#32)) &&& s.csr.mie

/-- Interrupt entry (R445, R446, R452, R544, R565): the pc is saved, mtval is 0, mie moves to mpie, the pc goes to the mtvec base
or, in vectored mode, to base + 4 * code; PAUSE ends; a held internal-timer request is consumed; nothing retires, no register and
no byte of memory changes. -/
def Obligations.InterruptEntry : Prop :=
  ∀ (s : State) (i : Interrupt),
    let t := s.takeInterrupt i
    let code : Nat := match i with
      | .external => 11 | .correctable => 30 | .timer => 7 | .internal0 => 29 | .internal1 => 28
    t.csr.mepc = s.pc ∧ t.csr.mcause = 0x80000000#32 ||| BitVec.ofNat 32 code ∧ t.csr.mtval = 0#32 ∧
      t.csr.mstatus.getLsbD 7 = s.csr.mstatus.getLsbD 3 ∧ t.csr.mstatus.getLsbD 3 = false ∧
      t.pc = (s.csr.mtvec &&& 0xFFFFFFFC#32) +
        (if s.csr.mtvec.getLsbD 0 then BitVec.ofNat 32 (4 * code) else 0#32) ∧
      t.hart.pause = 0 ∧ (i = .internal0 → t.hart.mitHold0 = false) ∧ (i = .internal1 → t.hart.mitHold1 = false) ∧
      (∀ r, t.getReg r = s.getReg r) ∧ t.csr.minstret = s.csr.minstret ∧ SameMemory s t

/-- NMI entry (R460): to nmi_vec, never through mtvec, with mcause 0 for the pin and the recorded cause for a bus error; mtval 0,
mie moved to mpie; the request taken is no longer pending. With both pending, which comes first is open (log 22). -/
def Obligations.NmiEntry : Prop :=
  ∀ s : State,
    let t := s.takeNmi
    (s.nmiPending = true → t.pc = s.pins.nmiVec ++ 0#1 ∧ t.csr.mepc = s.pc ∧ t.csr.mtval = 0#32 ∧
      t.csr.mstatus.getLsbD 7 = s.csr.mstatus.getLsbD 3 ∧ t.csr.mstatus.getLsbD 3 = false ∧
      (∀ r, t.getReg r = s.getReg r) ∧ SameMemory s t) ∧
    (s.hart.nmiPin = true → s.hart.nmiBus = none → t.csr.mcause = 0#32 ∧ t.nmiPending = false) ∧
    (∀ c, s.hart.nmiPin = false → s.hart.nmiBus = some c → t.csr.mcause = c ∧ t.nmiPending = false) ∧
    (∀ c, s.hart.nmiPin = true → s.hart.nmiBus = some c →
      (t.csr.mcause = 0#32 ∧ t.hart.nmiPin = false ∧ t.hart.nmiBus = some c) ∨
        (t.csr.mcause = c ∧ t.hart.nmiBus = none ∧ t.hart.nmiPin = true))

/-! ## Programmable interrupt controller -/

/-- The evaluation (R503): no pending enabled source is above the reported priority, and a reported claim is the lowest-numbered
source at that priority; no claim means that every pending enabled source has priority 0. -/
def Obligations.PicEvaluation : Prop :=
  ∀ s : State, s.cfg.valid = true →
    let p := s.picSeen
    let cand := s.gwReq p &&& p.meie
    let m := s.picEval.1
    let id := s.picEval.2.toNat
    (∀ n, 1 ≤ n → n ≤ s.cfg.totalInt → cand.getLsbD n = true → Pic.level p n ≤ m) ∧
    (id = 0 → m = 0#4) ∧
    (id ≠ 0 → 1 ≤ id ∧ id ≤ s.cfg.totalInt ∧ cand.getLsbD id = true ∧ Pic.level p id = m ∧ m ≠ 0#4 ∧
      ∀ n, 1 ≤ n → n < id → cand.getLsbD n = true → Pic.level p n < m)

/-- The external interrupt is requested exactly when the winning priority is above both the threshold and the current level, each
inverted in reverse order; a write to meicpct captures the winning source and its priority level (R503, R505, R510). -/
def Obligations.PicRequestAndCapture : Prop :=
  ∀ (s : State) (v : Word),
    let po := s.picSeen.priord
    let flip : BitVec 4 → BitVec 4 := fun x => if po then ~~~x else x
    (s.mexintirq = true ↔ flip s.csr.meipt < s.picEval.1 ∧ flip s.csr.meicurpl < s.picEval.1) ∧
    (s.csrWrite false .meicpct v).csr.claimid = s.picEval.2 ∧
    (s.csrWrite false .meicpct v).csr.meicidpl = flip s.picEval.1 ∧
    (s.csrWrite false .meicpct v).csrRead .meihap = s.csr.meivt ++ s.picEval.2 ++ 0#2

/-- The memory-mapped PIC registers of an existing source (R492-R497, R499): which register each word offset names, and what it
reads after a write. The gateway registers of a source without a configurable gateway do not exist; meipX shows the gateways' requests
and cannot be written. -/
def Obligations.PicRegisters : Prop :=
  ∀ (s : State) (n : Nat) (v : Word), s.cfg.valid = true → 1 ≤ n → n ≤ s.cfg.totalInt →
    (s.picReg (4 * n) = some (.meipl n) ∧ s.picReg (0x2000 + 4 * n) = some (.meie n) ∧
      s.picReg 0x3000 = some .mpiccfg ∧ s.picReg 0 = none ∧
      (s.picWrite (.meipl n) v).picRead (.meipl n) = v &&& 0xF#32 ∧
      (s.picWrite (.meie n) v).picRead (.meie n) = v &&& 1#32 ∧
      (s.picWrite .mpiccfg v).picRead .mpiccfg = v &&& 1#32 ∧
      (∀ k, k ≠ n → (s.picWrite (.meie n) v).pic.meie.getLsbD k = s.pic.meie.getLsbD k)) ∧
    (s.picReg (0x1000 + 4 * (n / 32)) = some (.meip (n / 32)) ∧
      (s.picRead (.meip (n / 32))).getLsbD (n % 32) = (s.gwReq s.pic).getLsbD n ∧
      (s.picRead (.meip 0)).getLsbD 0 = false ∧ (s.picWrite (.meip (n / 32)) v).pic = s.pic) ∧
    (s.cfg.cfgGateway.getLsbD n = true →
      s.picReg (0x4000 + 4 * n) = some (.meigwctrl n) ∧ s.picReg (0x5000 + 4 * n) = some (.meigwclr n) ∧
      (s.picWrite (.meigwctrl n) v).picRead (.meigwctrl n) = v &&& 3#32 ∧
      (s.picWrite (.meigwclr n) v).pic.gwIp.getLsbD n = false) ∧
    (s.cfg.cfgGateway.getLsbD n = false → s.picReg (0x4000 + 4 * n) = none ∧ s.picReg (0x5000 + 4 * n) = none)

/-- One clock of the gateways (R501): a configurable gateway's pending bit is set while its request is active, kept while not, and
stays clear in the cycle of its clear (the model's choice of log 35, by R501's equations); the request of an edge-triggered one holds
until then. -/
def Obligations.GatewayClock : Prop :=
  ∀ (s : State) (n : Nat), n < 256 →
    (s.gwTick.pic.gwIp.getLsbD n = true ↔
      s.pic.gwIp.getLsbD n = true ∨
        ((s.gwActive s.pic).getLsbD n = true ∧ s.cfgGateways.getLsbD n = true ∧ s.sync.gwCleared.getLsbD n = false)) ∧
    ((s.gwReq s.pic).getLsbD n = true ↔ (s.gwActive s.pic).getLsbD n = true ∨
      (s.pic.gwType.getLsbD n = true ∧ s.pic.gwIp.getLsbD n = true ∧ s.cfgGateways.getLsbD n = true))

/-! ## Timers and counters -/

/-- One clock of the internal timers (R541-R544): at or above its bound a timer clears; else a committing write replaces it; else it
counts if enabled and not held by db-halt, by pmu/fw-halt without its enable, or by PAUSE without its enable. A bound written in this
step is compared with from the clock after the one it commits in. The held request of a timer is set by a hit and lasts, while the
timer's interrupt and mstatus.mie are enabled, and is lost when they are not. -/
def Obligations.TimerCycle : Prop :=
  ∀ (s : State) (commit : Bool),
    let t := s.tickTimers commit
    let b0 := s.sync.mitbOld0.getD s.csr.mitb0
    let b1 := s.sync.mitbOld1.getD s.csr.mitb1
    let clock := fun (ctl : BitVec 3) (bound count : Word) (write : Option Word) (after : Word) =>
      let counts := ctl.getLsbD 0 = true ∧ s.hart.activity ≠ .dbHalt ∧
        (s.hart.activity = .pmuHalt → ctl.getLsbD 1 = true) ∧ (0 < s.hart.pause → ctl.getLsbD 2 = true)
      (bound ≤ count → after = 0#32) ∧
      (∀ v, ¬ bound ≤ count → commit = true → write = some v → after = v) ∧
      (¬ bound ≤ count → (commit = false ∨ write = none) → counts → after = count + 1#32) ∧
      (¬ bound ≤ count → (commit = false ∨ write = none) → ¬ counts → after = count)
    clock s.csr.mitctl0 b0 s.csr.mitcnt0 s.sync.mitWr0 t.csr.mitcnt0 ∧
    clock s.csr.mitctl1 b1 s.csr.mitcnt1 s.sync.mitWr1 t.csr.mitcnt1 ∧
    (t.hart.mitHold0 = true ↔ s.csr.mie.getLsbD 29 = true ∧ s.csr.mstatus.getLsbD 3 = true ∧
      (b0 ≤ s.csr.mitcnt0 ∨ s.hart.mitHold0 = true)) ∧
    (t.hart.mitHold1 = true ↔ s.csr.mie.getLsbD 28 = true ∧ s.csr.mstatus.getLsbD 3 = true ∧
      (b1 ≤ s.csr.mitcnt1 ∨ s.hart.mitHold1 = true)) ∧
    (commit = true → t.sync.mitWr0 = none ∧ t.sync.mitWr1 = none ∧ t.sync.mitbOld0 = none ∧ t.sync.mitbOld1 = none)

/-- mcycle counts every clock of a step of a hart that runs, or is in db-halt with stopcount = 0, and no clock of a hart in
pmu/fw-halt or in db-halt with stopcount = 1 (R574); how many clocks a step takes is log 10. Of a counter half written by the step the
written value stands over all the step's increments, while the other half takes them (R417, log 11). In one clock an event counter
counts one for event 1, one for event 49 with mie = 0, and one for event 50 with mie = 0 and an enabled interrupt pending, if counting
is enabled by mgpmc as the step found it (R576, R577, R580). -/
def Obligations.CycleCounter : Prop :=
  ∀ s : State,
    let n := BitVec.ofNat 64 (s.env.extraCycles + 1)
    let counts := s.hart.activity = .running ∨ (s.hart.activity = .dbHalt ∧ s.stopcount = false)
    (counts → (∀ w, s.sync.wrote = some w → w.event ≠ none) → s.clock.csr.mcycle = s.csr.mcycle + n) ∧
    (counts → ∀ w, s.sync.wrote = some w → w.event = none →
      s.clock.csr.mcycle =
        if w.high then w.v ++ (w.old + n).extractLsb' 0 32 else (w.old + n).extractLsb' 32 32 ++ w.v) ∧
    (¬ counts → s.clock.csr.mcycle = s.csr.mcycle) ∧
    (∀ i : Fin 4, (∀ w, s.sync.wrote = some w → w.event ≠ some i) →
      let e := s.csr.mhpmevent[i]
      s.tickCounters.csr.mhpm[i] = s.csr.mhpm[i] +
        if counts ∧ s.sync.mgpmcOld.getD s.csr.mgpmc = 1#1 ∧
          (e = 1#6 ∨ (e = 49#6 ∧ s.csr.mstatus.getLsbD 3 = false) ∨
            (e = 50#6 ∧ s.csr.mstatus.getLsbD 3 = false ∧ s.csrRead .mip &&& s.csr.mie ≠ 0#32))
        then 1#64 else 0#64)

/-! ## Debug -/

/-- A debug halt request stops a running hart before its next instruction (R552, R613): dpc is that instruction's address,
dcsr.cause is 3, the LSU buffers are empty, and no register or trap CSR changes. But if that instruction is about to execute and would
itself enter Debug Mode, by a trigger or as an `ebreak`, its cause (2 or 1) has the higher priority (R611). -/
def Obligations.DebugHaltRequest : Prop :=
  ∀ s : State, s.debugHaltReq = true →
    let own := s.ownHalt
    let t := s.haltNow
    s.runningStep = (false, .next t) ∧ t.hart.activity = .dbHalt ∧ (t.hart.dbgHalt || t.hart.mpcHalt) = true ∧
      t.csr.dpc = s.pc ∧ t.lsu = { wbuf := [], busOut := [] } ∧ (∀ r, t.getReg r = s.getReg r) ∧
      t.csr.mepc = s.csr.mepc ∧ t.csr.mcause = s.csr.mcause ∧ t.csr.mstatus = s.csr.mstatus ∧
      (own = none → t.csr.dcsr = (s.csr.dcsr &&& ~~~0x1C0#32) ||| 0xC0#32) ∧
      (own ≠ none → t.csr.dcsr = (s.csr.dcsr &&& ~~~0x1C0#32) ||| 0x80#32 ∨
        t.csr.dcsr = (s.csr.dcsr &&& ~~~0x1C0#32) ||| 0x40#32)

/-- A halted hart executes nothing until every requester that halted it has asked it to run; then it resumes at dpc, single-stepping
if dcsr.step is 1 (R553, R614, R615). -/
def Obligations.DebugResume : Prop :=
  ∀ s : State, s.hart.activity = .dbHalt → s.debugHaltReq = false → s.pins.mpcRunReq = false →
    (s.hart.leaves = false →
      s.dbHaltStep.pc = s.pc ∧ s.dbHaltStep.x = s.x ∧ s.dbHaltStep.csr = s.csr ∧
        s.dbHaltStep.hart.activity = .dbHalt) ∧
    (s.hart.leaves = true →
      s.dbHaltStep.pc = s.csr.dpc ∧ s.dbHaltStep.x = s.x ∧ s.dbHaltStep.csr = s.csr ∧
        s.dbHaltStep.hart.activity = .running ∧ s.dbHaltStep.hart.stepping = s.csr.dcsr.getLsbD 2 ∧
        s.dbHaltStep.hart.dbgHalt = false ∧ s.dbHaltStep.hart.mpcHalt = false) ∧
    (s.hart.leaves = true ↔ (s.hart.dbgHalt = true ∨ s.hart.mpcHalt = true) ∧
      (s.hart.dbgHalt = true → s.hart.dbgResume = true) ∧ (s.hart.mpcHalt = true → s.hart.mpcRun = true))

/-- A single-stepped instruction ends in Debug Mode with dcsr.cause 4 and dpc at the next instruction, be it the trap handler's
first (R615, R448). -/
def Obligations.SingleStepEnds : Prop :=
  ∀ s : State, s.hart.stepping = true → s.hart.fwHalt = false →
    let t := s.endStep true
    t.hart.activity = .dbHalt ∧ t.hart.stepping = false ∧ t.hart.dbgHalt = true ∧ t.csr.dpc = s.pc ∧
      t.csr.dcsr = (s.csr.dcsr &&& ~~~0x1C0#32) ||| 0x100#32 ∧ (∀ r, t.getReg r = s.getReg r)

/-- An execute trigger on the address of the next instruction (R622, R623, R625): with action 0 and mie = 1 it raises a breakpoint
before the instruction and sets its hit bit; with mie = 0 it does nothing. The other triggers are off. -/
def Obligations.ExecuteTrigger : Prop :=
  ∀ (s : State) (m : MemOp),
    let w := s.csr.tdata1[0]
    w.getLsbD 6 = true → w.getLsbD 2 = true → w.getLsbD 7 = false → w.getLsbD 11 = false → w.extractLsb' 12 4 = 0#4 →
    s.csr.tdata2[0] &&& 0xFFFFFFFE#32 = s.pc →
    s.csr.tdata1[1].getLsbD 6 = false → s.csr.tdata1[2].getLsbD 6 = false → s.csr.tdata1[3].getLsbD 6 = false →
    (s.mieOn = true → ∃ t, s.triggers m = .breakpoint t ∧
      t.csr.mcause = 3#32 ∧ t.csr.mepc = s.pc ∧ t.csr.mtval = s.pc ∧ t.csr.tdata1[0] = w ||| 0x100000#32 ∧
      t.pc = s.csr.mtvec &&& 0xFFFFFFFC#32 ∧ (∀ r, t.getReg r = s.getReg r) ∧ t.csr.minstret = s.csr.minstret) ∧
    (s.mieOn = false → s.triggers m = .no)

/-- The abstract command Access Register on an integer register (R606, R607): of a halted hart it reads into or writes from data0;
of a running one it sets cmderr to 4 and reads and writes no register (what data0 then holds is open, R602; log 27). -/
def Obligations.AbstractRegisterAccess : Prop :=
  ∀ (s : State) (r : Reg), s.dm.cmderr = 0#3 →
    let read : Word := 0x00221000#32 ||| r.setWidth 32
    let write : Word := 0x00231000#32 ||| r.setWidth 32
    (s.dmHalted = true →
      (s.startCommand read).dm.data0 = s.getReg r ∧ (s.startCommand read).dm.cmderr = 0#3 ∧
      (s.startCommand read).x = s.x ∧ WritesReg s (s.startCommand write) r s.dm.data0 ∧
      (s.startCommand write).dm.cmderr = 0#3) ∧
    (s.dmHalted = false →
      (s.startCommand read).dm.cmderr = 4#3 ∧ (s.startCommand write).dm.cmderr = 4#3 ∧
      (s.startCommand read).x = s.x ∧ (s.startCommand write).x = s.x ∧
      (s.startCommand read).csr = s.csr ∧ (s.startCommand write).csr = s.csr ∧
      SameMemory s (s.startCommand read) ∧ SameMemory s (s.startCommand write))

/-! ## DMA, power, cache, reset -/

/-- The DMA port (R190-R192, R194, R197, R198) and the request at the head of its FIFO. A request that it does not accept, by its
width, its alignment or because it does not lie in the ICCM or in the DCCM, is answered with an error, and no memory changes. A write
of a word or, in two servings, a double-word puts its bytes there, little-endian, and is answered without an error. A read without a
memory error gives the known bytes; a single-bit error of one word is corrected and counted in that memory's register; a double-bit
error is answered with an error. -/
def Obligations.DmaAccesses : Prop :=
  ∀ (s : State) (r : DmaReq) (rest : List DmaReq), s.cfg.valid = true → s.dma.fifo = r :: rest → s.dma.half = none →
    let answered : Bool → BitVec 64 → Dma := fun err d => { fifo := rest, half := none, resp := some { err := err, data := d } }
    let last := r.addr + BitVec.ofNat 32 (r.bytes - 1)
    let inside : Ccm → Prop := fun k => s.inCcm k r.addr = true ∧ s.inCcm k last = true
    (¬ r.Allowed ∨ (¬ inside .iccm ∧ ¬ inside .dccm) → s.dmaServe = { s with dma := answered true 0#64 }) ∧
    (∀ k : Ccm, r.Allowed → inside k →
      let t := State.dmaServeN ((r.bytes + 3) / 4) s
      let held := ofBytes ((addrs r.addr r.bytes).map (fun p => ((s.ccm k).get? p.toNat).getD 0))
      (r.write = true →
        t.dma = answered false 0#64 ∧
        (∀ j, j < r.bytes → (t.ccm k).get? (r.addr + BitVec.ofNat 32 j).toNat = some (r.data.extractLsb' (8 * j) 8)) ∧
        (∀ p, p ∉ addrs r.addr r.bytes → (t.ccm k).get? p.toNat = (s.ccm k).get? p.toNat) ∧
        t = ({ s with dma := t.dma }).setCcm k (t.ccm k)) ∧
      (r.write = false → s.env.ecc = [] → (∀ p ∈ addrs r.addr r.bytes, ((s.ccm k).get? p.toNat).isSome = true) →
        t = { s with dma := answered false held }) ∧
      (∀ more, r.write = false → r.bytes ≤ 4 → s.cecd = false →
        (s.env.ecc = .double :: more → t = { s.afterChecks 1 with dma := answered true 0#64 }) ∧
        (s.env.ecc = .single :: more → (∀ p ∈ addrs r.addr r.bytes, ((s.ccm k).get? p.toNat).isSome = true) →
          t.dma = answered false held ∧
          t.csr.miccmect = counted s.csr.miccmect (if k = .iccm then 1 else 0) ∧
          t.csr.mdccmect = counted s.csr.mdccmect (if k = .dccm then 1 else 0))))

/-- How pmu/fw-halt is entered and left (R552, R555-R557, R560). A firmware halt: a write of 1 to mpmc.halt outside Debug Mode requests
it, setting mie if haltie is 1 as written; at the end of the step the LSU is empty and the hart in pmu/fw-halt. The PMU's request halts
a running hart before its next instruction, unless that one is single-stepped, and is acknowledged; but if that instruction is about
to execute and would itself enter Debug Mode, the hart goes to db-halt, with that cause (R552). In pmu/fw-halt nothing executes
until a request or a wake-up event: an NMI, or with mie = 1 an enabled wake-up level of the PIC, timer interrupt, or hit of an internal
timer that counts in this state (that its held request counts as its hit, and an NMI of a bus error as one of the pin, are the model's
choices, log 48). -/
def Obligations.PowerStates : Prop :=
  ∀ (s : State) (v : Word),
    (v.getLsbD 0 = true → s.inDebugMode = false →
      (s.csrWrite false .mpmc v).hart.fwHalt = true ∧
      (s.csrWrite false .mpmc v).csr.mstatus = if v.getLsbD 1 then s.csr.mstatus ||| 8#32 else s.csr.mstatus) ∧
    (s.hart.fwHalt = true → s.hart.stepping = false →
      (s.endStep true).hart.activity = .pmuHalt ∧ (s.endStep true).hart.fwHalt = false ∧
      (s.endStep true).lsu = { wbuf := [], busOut := [] }) ∧
    (s.hart.activity = .running → s.debugHaltReq = false → s.pins.cpuHaltReq = true → s.hart.stepping = false →
      ∃ t, s.hartStep = (false, .next t) ∧ t.lsu = { wbuf := [], busOut := [] } ∧ (∀ r, t.getReg r = s.getReg r) ∧
        (s.ownHalt = none →
          t.hart.activity = .pmuHalt ∧ t.cpuHaltStatus = true ∧ t.outs.cpuHaltAck = true ∧ t.pc = s.pc ∧ t.x = s.x) ∧
        (s.ownHalt ≠ none →
          t.hart.activity = .dbHalt ∧ t.hart.dbgHalt = true ∧ t.csr.dpc = s.pc ∧
          (t.csr.dcsr = (s.csr.dcsr &&& ~~~0x1C0#32) ||| 0x80#32 ∨
            t.csr.dcsr = (s.csr.dcsr &&& ~~~0x1C0#32) ||| 0x40#32))) ∧
    (s.debugHaltReq = false → s.pins.cpuRunReq = false → s.wakes = false → s.pmuHaltStep = s) ∧
    (s.debugHaltReq = false → (s.pins.cpuRunReq = true ∨ s.wakes = true) →
      s.pmuHaltStep.hart.activity = .running ∧ s.pmuHaltStep.pc = s.pc ∧ s.pmuHaltStep.x = s.x) ∧
    (s.wakes = true ↔ s.hart.nmiPin = true ∨ s.hart.nmiBus ≠ none ∨
      (s.csr.mstatus.getLsbD 3 = true ∧
        ((s.picEval.1 = 15#4 ∧ s.csr.mie.getLsbD 11 = true) ∨ (s.pins.timerInt = true ∧ s.csr.mie.getLsbD 7 = true) ∨
          ((s.hit0 = true ∨ s.hart.mitHold0 = true) ∧ s.csr.mitctl0.getLsbD 1 = true ∧ s.csr.mie.getLsbD 29 = true) ∨
          ((s.hit1 = true ∨ s.hart.mitHold1 = true) ∧ s.csr.mitctl1.getLsbD 1 = true ∧ s.csr.mie.getLsbD 28 = true))))

/-- A line fill serves later fetches of its line in a step without a cache error, in a parity or an ECC build (R175, R196): a fetch
that misses takes the parcel from the SoC, and then a fetch of any parcel of its 64-byte line hits and gives what the SoC held there,
with no bus transaction and no change. -/
def Obligations.ICacheServesFilledLine : Prop :=
  ∀ (s : State) (p : Word), s.cfg.valid = true → p.getLsbD 0 = false →
    s.icHit p = none → s.icTagError (Build.setOf s.cfg p) = false → s.env.replies = [] → s.env.icErr = false →
    ∃ t, s.fetchCached p = .ok (s.socByte (p + 1#32) ++ s.socByte p) t ∧
      (∀ q : Word, q.getLsbD 0 = false → q &&& 0xFFFFFFC0#32 = p &&& 0xFFFFFFC0#32 →
        t.fetchCached q = .ok (s.socByte (q + 1#32) ++ s.socByte q) t) ∧
      t.x = s.x ∧ t.csr = s.csr ∧ t.iccm = s.iccm ∧ t.dccm = s.dccm ∧ t.soc = s.soc

/-- While the core complex is in reset (R650, R652, R656) the registers, the CSRs that R652 gives a value, the PIC, the buffers and
the hidden state are at their reset values, the pc is the reset vector, no cache line is valid, and the memories and the debug module's
registers but havereset (R653) keep their contents. The model's choices in it: the values of mtvec, mcause and the counters and the
invalid lines are decisions of the spec it follows (log 6), mfdc of an AXI4 build follows R95 (log 36), and the buffers and the FIFO
are emptied whatever is outstanding (log 31). -/
def Obligations.ResetOfTheCore : Prop :=
  ∀ s : State,
    let t := s.resetHart
    (∀ r, t.getReg r = 0#32) ∧ t.pc = s.pins.rstVec ++ 0#1 ∧
      (t.csr.mstatus = 0x1800#32 ∧ t.csr.mie = 0#32 ∧ t.csr.mtvec = 0#32 ∧ t.csr.mcause = 0#32 ∧ t.csr.mcycle = 0#64 ∧
        t.csr.minstret = 0#64 ∧ t.csr.mhpm = Vector.replicate 4 0#64 ∧ t.csr.mhpmevent = Vector.replicate 4 0#6 ∧
        t.csr.mgpmc = 1#1 ∧ t.csr.mrac = 0#32 ∧ t.csr.mdseac = 0#32 ∧ t.csr.mdseacLocked = false) ∧
      (t.csr.micect = 0#32 ∧ t.csr.miccmect = 0#32 ∧ t.csr.mdccmect = 0#32 ∧ t.csr.mitcnt0 = 0#32 ∧ t.csr.mitcnt1 = 0#32 ∧
        t.csr.mitb0 = 0xFFFFFFFF#32 ∧ t.csr.mitb1 = 0xFFFFFFFF#32 ∧ t.csr.mitctl0 = 1#3 ∧ t.csr.mitctl1 = 1#3 ∧
        t.csr.mpmc = 2#2 ∧ t.hart.pause = 0) ∧
      (t.csr.meivt = 0#22 ∧ t.csr.meipt = 0#4 ∧ t.csr.meicidpl = 0#4 ∧ t.csr.meicurpl = 0#4 ∧ t.csr.claimid = 0#8 ∧
        t.csr.mfdc = (if s.cfg.lsuBus = .axi4 then 0x00070040#32 else 0x00070000#32) ∧ t.csr.mcgc = 0#9) ∧
      (t.csr.tselect = 0#2 ∧ t.csr.tdata1 = Vector.replicate 4 0x23E00000#32 ∧ t.csr.tdata2 = Vector.replicate 4 0#32 ∧
        t.csr.dcsr = 0x40000003#32 ∧ t.csr.dpc = 0#32 ∧ t.csr.dicawics = 0#32 ∧ t.csr.dicad0 = 0#32 ∧ t.csr.dicad1 = 0#32) ∧
      t.nmiPending = false ∧ t.hart.mitHold0 = false ∧ t.hart.mitHold1 = false ∧
      t.pic = Pic.reset ∧ t.lsu = { wbuf := [], busOut := [] } ∧ t.dma.fifo = [] ∧
      (∀ key, (t.icache.tagAt key).valid = false) ∧ t.iccm = s.iccm ∧ t.dccm = s.dccm ∧ t.soc = s.soc ∧
      t.dm = { s.dm with havereset := true } ∧ t.dtm = s.dtm

/-- The reset state has the reset values the spec gives (R22, R40, R41, R60, R62, R65-R67, R70-R72, R75, R80-R85, R100-R104). That it
is Running is R655 with the reset-run pin at 1, the model's choice of log 5. -/
def Obligations.ResetValues : Prop :=
  (∀ r, State.reset.getReg r = 0#32) ∧
    State.reset.csr.mstatus = 0x1800#32 ∧ State.reset.csr.mie = 0#32 ∧ State.reset.csr.mrac = 0#32 ∧
    State.reset.csr.mdseac = 0#32 ∧ State.reset.csr.micect = 0#32 ∧ State.reset.csr.miccmect = 0#32 ∧
    State.reset.csr.mdccmect = 0#32 ∧ State.reset.csr.mitcnt0 = 0#32 ∧ State.reset.csr.mitcnt1 = 0#32 ∧
    State.reset.csr.mitb0 = 0xFFFFFFFF#32 ∧ State.reset.csr.mitb1 = 0xFFFFFFFF#32 ∧ State.reset.csr.mitctl0 = 1#3 ∧
    State.reset.csr.mitctl1 = 1#3 ∧ State.reset.csr.mpmc = 2#2 ∧ State.reset.csr.meivt = 0#22 ∧
    State.reset.csr.meipt = 0#4 ∧ State.reset.csr.meicidpl = 0#4 ∧ State.reset.csr.meicurpl = 0#4 ∧
    State.reset.csr.claimid = 0#8 ∧ State.reset.csrRead .meihap = 0#32 ∧
    State.reset.csr.tselect = 0#2 ∧ State.reset.csr.tdata1 = Vector.replicate 4 0x23E00000#32 ∧
    State.reset.csr.tdata2 = Vector.replicate 4 0#32 ∧ State.reset.csr.dcsr = 0x40000003#32 ∧
    State.reset.csr.dpc = 0#32 ∧ State.reset.hart.activity = .running

/-- The reset state satisfies the invariant. -/
def Obligations.ResetInvariant : Prop := State.reset.Inv

/-- Every step keeps the invariant, from every state that has it (R40-R104, R110, R164, R220, R553, R615). -/
def Obligations.InvariantKept : Prop :=
  ∀ s t : State, s.Inv → step s = .next t → t.Inv

/-! ## The CSR map, and triggers on data accesses -/

/-- The CSR map (R28, R54): the CSR at each address, and none at any other; the seven CSRs of Debug Mode (R30). -/
def Obligations.CsrMap : Prop :=
  let rows : List (Nat × CsrName) :=
    [(0x300, .mstatus), (0x301, .misa), (0x304, .mie), (0x305, .mtvec), (0x340, .mscratch), (0x341, .mepc), (0x342, .mcause),
      (0x343, .mtval), (0x344, .mip), (0xF11, .mvendorid), (0xF12, .marchid), (0xF13, .mimpid), (0xF14, .mhartid),
      (0xB00, .mcycle), (0xB80, .mcycleh), (0xB02, .minstret), (0xB82, .minstreth), (0x7C0, .mrac), (0xBC0, .mdeau),
      (0xFC0, .mdseac), (0x7F0, .micect), (0x7F1, .miccmect), (0x7F2, .mdccmect), (0x7F8, .mcgc), (0x7F9, .mfdc)] ++
    [(0x7D0, .mgpmc), (0x7D2, .mitcnt0), (0x7D5, .mitcnt1), (0x7D3, .mitb0), (0x7D6, .mitb1), (0x7D4, .mitctl0),
      (0x7D7, .mitctl1), (0x7C6, .mpmc), (0x7C2, .mcpc), (0xBC8, .meivt), (0xBC9, .meipt), (0xBCA, .meicpct),
      (0xBCB, .meicidpl), (0xBCC, .meicurpl), (0xFC8, .meihap), (0x7A0, .tselect), (0x7A1, .tdata1), (0x7A2, .tdata2),
      (0x7B0, .dcsr), (0x7B1, .dpc), (0x7C4, .dmst), (0x7C8, .dicawics), (0x7C9, .dicad0), (0x7CA, .dicad1), (0x7CB, .dicago)]
  ∀ a : BitVec 12,
    (∀ n, (a.toNat, n) ∈ rows → csrAt a = some n) ∧
    (∀ i : Fin 4, (a.toNat = 0x323 + i.val → csrAt a = some (.mhpmevent i)) ∧
      (a.toNat = 0xB03 + i.val → csrAt a = some (.mhpmcounter i)) ∧
      (a.toNat = 0xB83 + i.val → csrAt a = some (.mhpmcounterh i))) ∧
    ((0x327 ≤ a.toNat ∧ a.toNat ≤ 0x33F) ∨ (0xB07 ≤ a.toNat ∧ a.toNat ≤ 0xB1F) ∨ (0xB87 ≤ a.toNat ∧ a.toNat ≤ 0xB9F) →
      csrAt a = some .zero) ∧
    (a.toNat ∉ rows.map (·.1) → ¬ (0x323 ≤ a.toNat ∧ a.toNat ≤ 0x33F) → ¬ (0xB03 ≤ a.toNat ∧ a.toNat ≤ 0xB1F) →
      ¬ (0xB83 ≤ a.toNat ∧ a.toNat ≤ 0xB9F) → csrAt a = none) ∧
    (∀ n, csrAt a = some n → (n.debugOnly = true ↔ a.toNat ∈ [0x7B0, 0x7B1, 0x7C4, 0x7C8, 0x7C9, 0x7CA, 0x7CB]))

/-- Triggers on execution, loads and stores, by address or data, exact or NAPOT, alone or as a chain (R101, R622-R625). One trigger, no
other being on: if it matches it sets its hit bit and, with action 1, enters Debug Mode with cause 2 at the instruction, or, with
action 0 and mie = 1, raises a breakpoint; else nothing happens. Triggers 0 and 1, or 2 and 3, as a chain act, and both show a hit,
only if both match, by the action of the second. -/
def Obligations.TriggersFire : Prop :=
  ∀ (s : State) (m : MemOp),
    let acts : Word → Vector Word 4 → Prop := fun t1 hits =>
      (t1.extractLsb' 12 4 = 1#4 → ∃ t, s.triggers m = .debug t ∧ t.hart.activity = .dbHalt ∧ t.csr.dpc = s.pc ∧
        t.csr.dcsr = (s.csr.dcsr &&& ~~~0x1C0#32) ||| 0x80#32 ∧ t.csr.tdata1 = hits ∧ t.csr.mcause = s.csr.mcause ∧
        (∀ r, t.getReg r = s.getReg r) ∧ t.csr.minstret = s.csr.minstret) ∧
      (t1.extractLsb' 12 4 = 0#4 → s.mieOn = true → ∃ t, s.triggers m = .breakpoint t ∧ t.csr.tdata1 = hits ∧
        t.csr.mcause = 3#32 ∧ t.csr.mepc = s.pc ∧ t.csr.mtval = s.pc ∧ t.pc = s.csr.mtvec &&& 0xFFFFFFFC#32 ∧
        (∀ r, t.getReg r = s.getReg r) ∧ t.csr.minstret = s.csr.minstret) ∧
      (t1.extractLsb' 12 4 = 0#4 → s.mieOn = false → s.triggers m = .no)
    (∀ k : Fin 4, (∀ j : Fin 4, j ≠ k → s.csr.tdata1[j].getLsbD 6 = false) →
      (∀ j : Fin 4, j.val / 2 = k.val / 2 → s.csr.tdata1[j].getLsbD 11 = false) →
      (TriggerMatches s.csr.tdata1[k] s.csr.tdata2[k] s.pc m →
        acts s.csr.tdata1[k] (s.csr.tdata1.set k (hitSet s.csr.tdata1[k]))) ∧
      (¬ TriggerMatches s.csr.tdata1[k] s.csr.tdata2[k] s.pc m → s.triggers m = .no)) ∧
    (∀ a b : Fin 4, (a = 0 ∧ b = 1) ∨ (a = 2 ∧ b = 3) → s.csr.tdata1[a].getLsbD 11 = true →
      (∀ j : Fin 4, j ≠ a → j ≠ b → s.csr.tdata1[j].getLsbD 6 = false) →
      (TriggerMatches s.csr.tdata1[a] s.csr.tdata2[a] s.pc m ∧ TriggerMatches s.csr.tdata1[b] s.csr.tdata2[b] s.pc m →
        acts s.csr.tdata1[b] ((s.csr.tdata1.set a (hitSet s.csr.tdata1[a])).set b (hitSet s.csr.tdata1[b]))) ∧
      (¬ (TriggerMatches s.csr.tdata1[a] s.csr.tdata2[a] s.pc m ∧ TriggerMatches s.csr.tdata1[b] s.csr.tdata2[b] s.pc m) →
        s.triggers m = .no))
end

