-- ==== Sys2Proof/Laws/Memory.lean ====
section
/-! SUPPORT. Sparse maps and memories: reading after writing, and the canonical form is kept by every memory operation. -/

set_option Elab.async false

namespace Sys2Proof.Machine

/-! ### Sparse maps -/

/-- Reading the key just set gives the value set. -/
@[simp] theorem Sparse.get?_put_same {α : Type} (m : List (Nat × α)) (k : Nat) (w : α) :
    Sparse.get? (Sparse.put m k w) k = some w := by
  induction m with
  | nil => simp [Sparse.put, Sparse.get?]
  | cons e m ih =>
    obtain ⟨a, v⟩ := e
    simp only [Sparse.put]
    split
    · simp [Sparse.get?]
    · split
      · simp [Sparse.get?]
      · simp [Sparse.get?, *]

/-- Setting one key leaves every other key alone. -/
theorem Sparse.get?_put_other {α : Type} (m : List (Nat × α)) (k j : Nat) (w : α) (h : j ≠ k) :
    Sparse.get? (Sparse.put m k w) j = Sparse.get? m j := by
  induction m with
  | nil => simp only [Sparse.put, Sparse.get?]; split <;> [omega; (split <;> rfl)]
  | cons e m ih =>
    obtain ⟨a, v⟩ := e
    simp only [Sparse.put]
    split
    · subst a; simp only [Sparse.get?]; rw [if_neg (Ne.symm h), if_neg (Ne.symm h)]
    · split
      · simp only [Sparse.get?]; rw [if_neg (Ne.symm h)]
        by_cases hj : j < k
        · rw [if_pos hj, if_neg (by omega), if_pos (by omega)]
        · rw [if_neg hj]
      · simp only [Sparse.get?]; rw [ih]

/-- `put` keeps every key above a bound that its key is above. -/
theorem Sparse.above_put {α : Type} (m : List (Nat × α)) (lo k : Nat) (w : α) (hm : Sparse.above lo m = true)
    (hk : lo < k) : Sparse.above lo (Sparse.put m k w) = true := by
  induction m generalizing lo with
  | nil => simpa [Sparse.put, Sparse.above] using hk
  | cons e m ih =>
    obtain ⟨a, v⟩ := e
    simp only [Sparse.above, Bool.and_eq_true, decide_eq_true_eq] at hm
    simp only [Sparse.put]
    split
    · subst a; simp [Sparse.above, hm]
    · split
      · simp [Sparse.above, *]
      · have : a < k := by omega
        simp [Sparse.above, hm.1, ih a hm.2 this]

/-- `put` keeps the keys strictly rising. -/
theorem Sparse.wf_put {α : Type} (m : List (Nat × α)) (k : Nat) (w : α) (hm : Sparse.wf m = true) :
    Sparse.wf (Sparse.put m k w) = true := by
  cases m with
  | nil => rfl
  | cons e m =>
    obtain ⟨a, v⟩ := e
    simp only [Sparse.wf] at hm
    simp only [Sparse.put]
    split
    · subst a; exact hm
    · split
      · simp [Sparse.wf, Sparse.above, *]
      · exact Sparse.above_put m a k w hm (by omega)

/-- Changing values but not keys keeps the keys above a bound. -/
theorem Sparse.above_map {α : Type} (f : Nat × α → Nat × α) (hf : ∀ e, (f e).1 = e.1) (m : List (Nat × α)) (lo : Nat) :
    Sparse.above lo (m.map f) = Sparse.above lo m := by
  induction m generalizing lo with
  | nil => rfl
  | cons e m ih => simp [Sparse.above, hf, ih]

/-- Changing values but not keys keeps the canonical form. -/
theorem Sparse.wf_map {α : Type} (f : Nat × α → Nat × α) (hf : ∀ e, (f e).1 = e.1) (m : List (Nat × α)) :
    Sparse.wf (m.map f) = Sparse.wf m := by
  cases m with
  | nil => rfl
  | cons e m => simp [Sparse.wf, hf, Sparse.above_map f hf]

/-! ### Byte memories -/

@[simp] theorem Memory.get?_put_same (m : Memory) (a : Nat) (b : Byte) : (m.put a b).get? a = some b :=
  Sparse.get?_put_same m a b

theorem Memory.get?_put_other (m : Memory) (a p : Nat) (b : Byte) (h : p ≠ a) : (m.put a b).get? p = m.get? p :=
  Sparse.get?_put_other m a p b h

/-- Writing a byte keeps the canonical form. -/
theorem Memory.wf_put (m : Memory) (a : Nat) (b : Byte) (h : m.wf = true) : (m.put a b).wf = true :=
  Sparse.wf_put m a b h

/-- Writing bytes keeps the canonical form. -/
theorem Memory.wf_putBytes (m : Memory) (a : Word) (bs : List Byte) (h : m.wf = true) : (m.putBytes a bs).wf = true := by
  induction bs generalizing m a with
  | nil => exact h
  | cons b bs ih => exact ih _ _ (Memory.wf_put m a.toNat b h)

/-- Writing bytes leaves the bytes outside their range alone. -/
theorem Memory.get?_putBytes_other (m : Memory) (a p : Word) (bs : List Byte) (h : p ∉ addrs a bs.length) :
    (m.putBytes a bs).get? p.toNat = m.get? p.toNat := by
  induction bs generalizing m a with
  | nil => rfl
  | cons b bs ih =>
    simp only [List.length_cons, addrs, List.mem_cons, not_or] at h
    simp only [Memory.putBytes]
    rw [ih _ _ h.2, Memory.get?_put_other]
    intro hp
    exact h.1 (BitVec.eq_of_toNat_eq hp)

/-- The addresses of up to 2^32 bytes do not repeat: the first is not among the later ones. -/
theorem not_mem_addrs_succ (a : Word) (k n : Nat) (hk : 0 < k) (h : k + n ≤ 4294967296) :
    a ∉ addrs (a + BitVec.ofNat 32 k) n := by
  induction n generalizing k with
  | zero => simp [addrs]
  | succ n ih =>
    simp only [addrs, List.mem_cons, not_or]
    refine ⟨?_, ?_⟩
    · intro hc
      have := congrArg BitVec.toNat hc
      simp at this
      have := a.isLt
      omega
    · have := ih (k + 1) (by omega) (by omega)
      rwa [show a + BitVec.ofNat 32 (k + 1) = a + BitVec.ofNat 32 k + 1#32 by
        rw [BitVec.add_assoc]; congr 1; simp [BitVec.ofNat_add]] at this

/-- Writing bytes stores each of them at its address. -/
theorem Memory.get?_putBytes_at (m : Memory) (a : Word) (bs : List Byte) (i : Nat) (hi : i < bs.length)
    (hn : bs.length ≤ 4294967296) :
    (m.putBytes a bs).get? (a + BitVec.ofNat 32 i).toNat = some bs[i] := by
  induction bs generalizing m a i with
  | nil => simp at hi
  | cons b bs ih =>
    simp only [List.length_cons] at hn hi
    simp only [Memory.putBytes]
    cases i with
    | zero =>
      simp only [BitVec.add_zero, List.getElem_cons_zero]
      rw [Memory.get?_putBytes_other, Memory.get?_put_same]
      exact not_mem_addrs_succ a 1 bs.length (by omega) (by omega)
    | succ i =>
      have := ih (m.put a.toNat b) (a + 1#32) i (by omega) (by omega)
      have step : a + BitVec.ofNat 32 (i + 1) = a + 1#32 + BitVec.ofNat 32 i := by
        rw [BitVec.ofNat_add, BitVec.add_assoc, BitVec.add_comm 1#32]
      rw [List.getElem_cons_succ, ← this, step]

/-- Writing bytes where they say keeps the canonical form. -/
theorem Memory.wf_putAll (m : Memory) (bs : List (Word × Byte)) (h : m.wf = true) : (m.putAll bs).wf = true := by
  induction bs generalizing m with
  | nil => exact h
  | cons b bs ih => exact ih _ (Memory.wf_put m b.1.toNat b.2 h)

/-- What a list of byte writes leaves at an address: the last one to it, else what was there. -/
theorem Memory.get?_putAll (m : Memory) (bs : List (Word × Byte)) (a : Word) :
    (m.putAll bs).get? a.toNat = (lastAt bs a).or (m.get? a.toNat) := by
  induction bs generalizing m with
  | nil => rfl
  | cons b bs ih =>
    simp only [Memory.putAll, lastAt, ih]
    by_cases h : b.1 = a
    · subst h; simp
    · rw [Memory.get?_put_other _ _ _ _ (fun e => h (BitVec.eq_of_toNat_eq e.symm))]; simp [h]

/-- The last of two lists of byte writes wins. -/
theorem lastAt_append (bs cs : List (Word × Byte)) (a : Word) : lastAt (bs ++ cs) a = (lastAt cs a).or (lastAt bs a) := by
  induction bs with
  | nil => simp [lastAt]
  | cons b bs ih => simp [lastAt, ih, Option.or_assoc]

/-- A list of byte writes writes nothing elsewhere. -/
theorem lastAt_of_not_mem (bs : List (Word × Byte)) (a : Word) (h : ∀ b ∈ bs, b.1 ≠ a) : lastAt bs a = none := by
  induction bs with
  | nil => rfl
  | cons b bs ih => simp [lastAt, h b (by simp), ih (fun c hc => h c (by simp [hc]))]

/-! ### Bytes of a value -/

@[simp] theorem toBytes_length (v : BitVec 64) (n : Nat) : (toBytes v n).length = n := by
  induction n generalizing v with
  | zero => rfl
  | succ n ih => simp [toBytes, ih]

@[simp] theorem addrs_length (a : Word) (n : Nat) : (addrs a n).length = n := by
  induction n generalizing a with
  | zero => rfl
  | succ n ih => simp [addrs, ih]

/-- Byte `i` of a value. -/
theorem toBytes_getElem (v : BitVec 64) (n i : Nat) (h : i < (toBytes v n).length) :
    (toBytes v n)[i] = v.extractLsb' (8 * i) 8 := by
  induction n generalizing v i with
  | zero => simp at h
  | succ n ih =>
    simp only [toBytes] at h ⊢
    cases i with
    | zero => ext j hj; simp
    | succ i =>
      rw [List.getElem_cons_succ, ih]
      ext j hj
      simp only [BitVec.getElem_extractLsb', BitVec.getLsbD_ushiftRight]
      congr 1; omega

/-- The memories of the reset state are in canonical form. -/
theorem State.reset_memory_wf :
    State.reset.iccm.wf = true ∧ State.reset.dccm.wf = true ∧ State.reset.soc.wf = true := by decide

end Sys2Proof.Machine
end

