-- ==== Sys2Proof/Laws/State.lean ====
section
/-! SUPPORT. One lemma per field per update of State: what each named update changes and leaves alone. -/

set_option Elab.async false

namespace Sys2Proof.Machine

variable (s : State)

/-! ### setPc: Set the pc (R12). -/

@[simp] theorem State.setPc_cfg (t : Word) : (s.setPc t).cfg = s.cfg := rfl
@[simp] theorem State.setPc_inputs (t : Word) : (s.setPc t).inputs = s.inputs := rfl
@[simp] theorem State.setPc_env (t : Word) : (s.setPc t).env = s.env := rfl
@[simp] theorem State.setPc_draws (t : Word) : (s.setPc t).draws = s.draws := rfl
@[simp] theorem State.setPc_pins (t : Word) : (s.setPc t).pins = s.pins := rfl
@[simp] theorem State.setPc_outs (t : Word) : (s.setPc t).outs = s.outs := rfl
@[simp] theorem State.setPc_x (t : Word) : (s.setPc t).x = s.x := rfl
@[simp] theorem State.setPc_pc (t : Word) : (s.setPc t).pc = t := rfl
@[simp] theorem State.setPc_csr (t : Word) : (s.setPc t).csr = s.csr := rfl
@[simp] theorem State.setPc_pic (t : Word) : (s.setPc t).pic = s.pic := rfl
@[simp] theorem State.setPc_iccm (t : Word) : (s.setPc t).iccm = s.iccm := rfl
@[simp] theorem State.setPc_dccm (t : Word) : (s.setPc t).dccm = s.dccm := rfl
@[simp] theorem State.setPc_soc (t : Word) : (s.setPc t).soc = s.soc := rfl
@[simp] theorem State.setPc_lsu (t : Word) : (s.setPc t).lsu = s.lsu := rfl
@[simp] theorem State.setPc_icache (t : Word) : (s.setPc t).icache = s.icache := rfl
@[simp] theorem State.setPc_dma (t : Word) : (s.setPc t).dma = s.dma := rfl
@[simp] theorem State.setPc_hart (t : Word) : (s.setPc t).hart = s.hart := rfl
@[simp] theorem State.setPc_dm (t : Word) : (s.setPc t).dm = s.dm := rfl
@[simp] theorem State.setPc_dtm (t : Word) : (s.setPc t).dtm = s.dtm := rfl
@[simp] theorem State.setPc_sync (t : Word) : (s.setPc t).sync = s.sync := rfl

/-! ### advance: Advance the pc (R24). -/

@[simp] theorem State.advance_cfg (len : Len) : (s.advance len).cfg = s.cfg := rfl
@[simp] theorem State.advance_inputs (len : Len) : (s.advance len).inputs = s.inputs := rfl
@[simp] theorem State.advance_env (len : Len) : (s.advance len).env = s.env := rfl
@[simp] theorem State.advance_draws (len : Len) : (s.advance len).draws = s.draws := rfl
@[simp] theorem State.advance_pins (len : Len) : (s.advance len).pins = s.pins := rfl
@[simp] theorem State.advance_outs (len : Len) : (s.advance len).outs = s.outs := rfl
@[simp] theorem State.advance_x (len : Len) : (s.advance len).x = s.x := rfl
@[simp] theorem State.advance_pc (len : Len) : (s.advance len).pc = s.pc + len.bytes := rfl
@[simp] theorem State.advance_csr (len : Len) : (s.advance len).csr = s.csr := rfl
@[simp] theorem State.advance_pic (len : Len) : (s.advance len).pic = s.pic := rfl
@[simp] theorem State.advance_iccm (len : Len) : (s.advance len).iccm = s.iccm := rfl
@[simp] theorem State.advance_dccm (len : Len) : (s.advance len).dccm = s.dccm := rfl
@[simp] theorem State.advance_soc (len : Len) : (s.advance len).soc = s.soc := rfl
@[simp] theorem State.advance_lsu (len : Len) : (s.advance len).lsu = s.lsu := rfl
@[simp] theorem State.advance_icache (len : Len) : (s.advance len).icache = s.icache := rfl
@[simp] theorem State.advance_dma (len : Len) : (s.advance len).dma = s.dma := rfl
@[simp] theorem State.advance_hart (len : Len) : (s.advance len).hart = s.hart := rfl
@[simp] theorem State.advance_dm (len : Len) : (s.advance len).dm = s.dm := rfl
@[simp] theorem State.advance_dtm (len : Len) : (s.advance len).dtm = s.dtm := rfl
@[simp] theorem State.advance_sync (len : Len) : (s.advance len).sync = s.sync := rfl

/-! ### draw: Take a free value. -/

@[simp] theorem State.draw_cfg : s.draw.cfg = s.cfg := rfl
@[simp] theorem State.draw_inputs : s.draw.inputs = s.inputs := rfl
@[simp] theorem State.draw_env : s.draw.env = s.env := rfl
@[simp] theorem State.draw_draws : s.draw.draws = s.draws + 1 := rfl
@[simp] theorem State.draw_pins : s.draw.pins = s.pins := rfl
@[simp] theorem State.draw_outs : s.draw.outs = s.outs := rfl
@[simp] theorem State.draw_x : s.draw.x = s.x := rfl
@[simp] theorem State.draw_pc : s.draw.pc = s.pc := rfl
@[simp] theorem State.draw_csr : s.draw.csr = s.csr := rfl
@[simp] theorem State.draw_pic : s.draw.pic = s.pic := rfl
@[simp] theorem State.draw_iccm : s.draw.iccm = s.iccm := rfl
@[simp] theorem State.draw_dccm : s.draw.dccm = s.dccm := rfl
@[simp] theorem State.draw_soc : s.draw.soc = s.soc := rfl
@[simp] theorem State.draw_lsu : s.draw.lsu = s.lsu := rfl
@[simp] theorem State.draw_icache : s.draw.icache = s.icache := rfl
@[simp] theorem State.draw_dma : s.draw.dma = s.dma := rfl
@[simp] theorem State.draw_hart : s.draw.hart = s.hart := rfl
@[simp] theorem State.draw_dm : s.draw.dm = s.dm := rfl
@[simp] theorem State.draw_dtm : s.draw.dtm = s.dtm := rfl
@[simp] theorem State.draw_sync : s.draw.sync = s.sync := rfl

/-! ### setReg: Write an integer register (R20). -/

@[simp] theorem State.setReg_cfg (r : Reg) (v : Word) : (s.setReg r v).cfg = s.cfg := by simp only [State.setReg]; split <;> rfl
@[simp] theorem State.setReg_inputs (r : Reg) (v : Word) : (s.setReg r v).inputs = s.inputs := by simp only [State.setReg]; split <;> rfl
@[simp] theorem State.setReg_env (r : Reg) (v : Word) : (s.setReg r v).env = s.env := by simp only [State.setReg]; split <;> rfl
@[simp] theorem State.setReg_draws (r : Reg) (v : Word) : (s.setReg r v).draws = s.draws := by simp only [State.setReg]; split <;> rfl
@[simp] theorem State.setReg_pins (r : Reg) (v : Word) : (s.setReg r v).pins = s.pins := by simp only [State.setReg]; split <;> rfl
@[simp] theorem State.setReg_outs (r : Reg) (v : Word) : (s.setReg r v).outs = s.outs := by simp only [State.setReg]; split <;> rfl
@[simp] theorem State.setReg_pc (r : Reg) (v : Word) : (s.setReg r v).pc = s.pc := by simp only [State.setReg]; split <;> rfl
@[simp] theorem State.setReg_csr (r : Reg) (v : Word) : (s.setReg r v).csr = s.csr := by simp only [State.setReg]; split <;> rfl
@[simp] theorem State.setReg_pic (r : Reg) (v : Word) : (s.setReg r v).pic = s.pic := by simp only [State.setReg]; split <;> rfl
@[simp] theorem State.setReg_iccm (r : Reg) (v : Word) : (s.setReg r v).iccm = s.iccm := by simp only [State.setReg]; split <;> rfl
@[simp] theorem State.setReg_dccm (r : Reg) (v : Word) : (s.setReg r v).dccm = s.dccm := by simp only [State.setReg]; split <;> rfl
@[simp] theorem State.setReg_soc (r : Reg) (v : Word) : (s.setReg r v).soc = s.soc := by simp only [State.setReg]; split <;> rfl
@[simp] theorem State.setReg_lsu (r : Reg) (v : Word) : (s.setReg r v).lsu = s.lsu := by simp only [State.setReg]; split <;> rfl
@[simp] theorem State.setReg_icache (r : Reg) (v : Word) : (s.setReg r v).icache = s.icache := by simp only [State.setReg]; split <;> rfl
@[simp] theorem State.setReg_dma (r : Reg) (v : Word) : (s.setReg r v).dma = s.dma := by simp only [State.setReg]; split <;> rfl
@[simp] theorem State.setReg_hart (r : Reg) (v : Word) : (s.setReg r v).hart = s.hart := by simp only [State.setReg]; split <;> rfl
@[simp] theorem State.setReg_dm (r : Reg) (v : Word) : (s.setReg r v).dm = s.dm := by simp only [State.setReg]; split <;> rfl
@[simp] theorem State.setReg_dtm (r : Reg) (v : Word) : (s.setReg r v).dtm = s.dtm := by simp only [State.setReg]; split <;> rfl
@[simp] theorem State.setReg_sync (r : Reg) (v : Word) : (s.setReg r v).sync = s.sync := by simp only [State.setReg]; split <;> rfl

/-! ### bumpInstret: Count a retirement (R574). -/

@[simp] theorem State.bumpInstret_cfg : s.bumpInstret.cfg = s.cfg := rfl
@[simp] theorem State.bumpInstret_inputs : s.bumpInstret.inputs = s.inputs := rfl
@[simp] theorem State.bumpInstret_env : s.bumpInstret.env = s.env := rfl
@[simp] theorem State.bumpInstret_draws : s.bumpInstret.draws = s.draws := rfl
@[simp] theorem State.bumpInstret_pins : s.bumpInstret.pins = s.pins := rfl
@[simp] theorem State.bumpInstret_outs : s.bumpInstret.outs = s.outs := rfl
@[simp] theorem State.bumpInstret_x : s.bumpInstret.x = s.x := rfl
@[simp] theorem State.bumpInstret_pc : s.bumpInstret.pc = s.pc := rfl
@[simp] theorem State.bumpInstret_csr : s.bumpInstret.csr = { s.csr with minstret := s.csr.minstret + 1#64 } := rfl
@[simp] theorem State.bumpInstret_pic : s.bumpInstret.pic = s.pic := rfl
@[simp] theorem State.bumpInstret_iccm : s.bumpInstret.iccm = s.iccm := rfl
@[simp] theorem State.bumpInstret_dccm : s.bumpInstret.dccm = s.dccm := rfl
@[simp] theorem State.bumpInstret_soc : s.bumpInstret.soc = s.soc := rfl
@[simp] theorem State.bumpInstret_lsu : s.bumpInstret.lsu = s.lsu := rfl
@[simp] theorem State.bumpInstret_icache : s.bumpInstret.icache = s.icache := rfl
@[simp] theorem State.bumpInstret_dma : s.bumpInstret.dma = s.dma := rfl
@[simp] theorem State.bumpInstret_hart : s.bumpInstret.hart = s.hart := rfl
@[simp] theorem State.bumpInstret_dm : s.bumpInstret.dm = s.dm := rfl
@[simp] theorem State.bumpInstret_dtm : s.bumpInstret.dtm = s.dtm := rfl
@[simp] theorem State.bumpInstret_sync : s.bumpInstret.sync = s.sync := rfl

/-! ### addEvents: Count events (R575). -/

@[simp] theorem State.addEvents_cfg (es : List Nat) : (s.addEvents es).cfg = s.cfg := rfl
@[simp] theorem State.addEvents_inputs (es : List Nat) : (s.addEvents es).inputs = s.inputs := rfl
@[simp] theorem State.addEvents_env (es : List Nat) : (s.addEvents es).env = s.env := rfl
@[simp] theorem State.addEvents_draws (es : List Nat) : (s.addEvents es).draws = s.draws := rfl
@[simp] theorem State.addEvents_pins (es : List Nat) : (s.addEvents es).pins = s.pins := rfl
@[simp] theorem State.addEvents_outs (es : List Nat) : (s.addEvents es).outs = s.outs := rfl
@[simp] theorem State.addEvents_x (es : List Nat) : (s.addEvents es).x = s.x := rfl
@[simp] theorem State.addEvents_pc (es : List Nat) : (s.addEvents es).pc = s.pc := rfl
@[simp] theorem State.addEvents_csr (es : List Nat) : (s.addEvents es).csr = { s.csr with mhpm := hpmAdd s.csr.mhpmevent s.csr.mhpm (fun e => es.count e) } := rfl
@[simp] theorem State.addEvents_pic (es : List Nat) : (s.addEvents es).pic = s.pic := rfl
@[simp] theorem State.addEvents_iccm (es : List Nat) : (s.addEvents es).iccm = s.iccm := rfl
@[simp] theorem State.addEvents_dccm (es : List Nat) : (s.addEvents es).dccm = s.dccm := rfl
@[simp] theorem State.addEvents_soc (es : List Nat) : (s.addEvents es).soc = s.soc := rfl
@[simp] theorem State.addEvents_lsu (es : List Nat) : (s.addEvents es).lsu = s.lsu := rfl
@[simp] theorem State.addEvents_icache (es : List Nat) : (s.addEvents es).icache = s.icache := rfl
@[simp] theorem State.addEvents_dma (es : List Nat) : (s.addEvents es).dma = s.dma := rfl
@[simp] theorem State.addEvents_hart (es : List Nat) : (s.addEvents es).hart = s.hart := rfl
@[simp] theorem State.addEvents_dm (es : List Nat) : (s.addEvents es).dm = s.dm := rfl
@[simp] theorem State.addEvents_dtm (es : List Nat) : (s.addEvents es).dtm = s.dtm := rfl
@[simp] theorem State.addEvents_sync (es : List Nat) : (s.addEvents es).sync = s.sync := rfl

/-! ### countEvents: Count events if enabled (R576). -/

@[simp] theorem State.countEvents_cfg (es : List Nat) : (s.countEvents es).cfg = s.cfg := by simp only [State.countEvents]; split <;> rfl
@[simp] theorem State.countEvents_inputs (es : List Nat) : (s.countEvents es).inputs = s.inputs := by simp only [State.countEvents]; split <;> rfl
@[simp] theorem State.countEvents_env (es : List Nat) : (s.countEvents es).env = s.env := by simp only [State.countEvents]; split <;> rfl
@[simp] theorem State.countEvents_draws (es : List Nat) : (s.countEvents es).draws = s.draws := by simp only [State.countEvents]; split <;> rfl
@[simp] theorem State.countEvents_pins (es : List Nat) : (s.countEvents es).pins = s.pins := by simp only [State.countEvents]; split <;> rfl
@[simp] theorem State.countEvents_outs (es : List Nat) : (s.countEvents es).outs = s.outs := by simp only [State.countEvents]; split <;> rfl
@[simp] theorem State.countEvents_x (es : List Nat) : (s.countEvents es).x = s.x := by simp only [State.countEvents]; split <;> rfl
@[simp] theorem State.countEvents_pc (es : List Nat) : (s.countEvents es).pc = s.pc := by simp only [State.countEvents]; split <;> rfl
@[simp] theorem State.countEvents_pic (es : List Nat) : (s.countEvents es).pic = s.pic := by simp only [State.countEvents]; split <;> rfl
@[simp] theorem State.countEvents_iccm (es : List Nat) : (s.countEvents es).iccm = s.iccm := by simp only [State.countEvents]; split <;> rfl
@[simp] theorem State.countEvents_dccm (es : List Nat) : (s.countEvents es).dccm = s.dccm := by simp only [State.countEvents]; split <;> rfl
@[simp] theorem State.countEvents_soc (es : List Nat) : (s.countEvents es).soc = s.soc := by simp only [State.countEvents]; split <;> rfl
@[simp] theorem State.countEvents_lsu (es : List Nat) : (s.countEvents es).lsu = s.lsu := by simp only [State.countEvents]; split <;> rfl
@[simp] theorem State.countEvents_icache (es : List Nat) : (s.countEvents es).icache = s.icache := by simp only [State.countEvents]; split <;> rfl
@[simp] theorem State.countEvents_dma (es : List Nat) : (s.countEvents es).dma = s.dma := by simp only [State.countEvents]; split <;> rfl
@[simp] theorem State.countEvents_hart (es : List Nat) : (s.countEvents es).hart = s.hart := by simp only [State.countEvents]; split <;> rfl
@[simp] theorem State.countEvents_dm (es : List Nat) : (s.countEvents es).dm = s.dm := by simp only [State.countEvents]; split <;> rfl
@[simp] theorem State.countEvents_dtm (es : List Nat) : (s.countEvents es).dtm = s.dtm := by simp only [State.countEvents]; split <;> rfl
@[simp] theorem State.countEvents_sync (es : List Nat) : (s.countEvents es).sync = s.sync := by simp only [State.countEvents]; split <;> rfl

/-! ### retire: Retire (R574). -/

@[simp] theorem State.retire_cfg (len : Len) (es : List Nat) : (s.retire len es).cfg = s.cfg := by simp [State.retire]
@[simp] theorem State.retire_inputs (len : Len) (es : List Nat) : (s.retire len es).inputs = s.inputs := by simp [State.retire]
@[simp] theorem State.retire_env (len : Len) (es : List Nat) : (s.retire len es).env = s.env := by simp [State.retire]
@[simp] theorem State.retire_draws (len : Len) (es : List Nat) : (s.retire len es).draws = s.draws := by simp [State.retire]
@[simp] theorem State.retire_pins (len : Len) (es : List Nat) : (s.retire len es).pins = s.pins := by simp [State.retire]
@[simp] theorem State.retire_outs (len : Len) (es : List Nat) : (s.retire len es).outs = s.outs := by simp [State.retire]
@[simp] theorem State.retire_x (len : Len) (es : List Nat) : (s.retire len es).x = s.x := by simp [State.retire]
@[simp] theorem State.retire_pc (len : Len) (es : List Nat) : (s.retire len es).pc = s.pc := by simp [State.retire]
@[simp] theorem State.retire_pic (len : Len) (es : List Nat) : (s.retire len es).pic = s.pic := by simp [State.retire]
@[simp] theorem State.retire_iccm (len : Len) (es : List Nat) : (s.retire len es).iccm = s.iccm := by simp [State.retire]
@[simp] theorem State.retire_dccm (len : Len) (es : List Nat) : (s.retire len es).dccm = s.dccm := by simp [State.retire]
@[simp] theorem State.retire_soc (len : Len) (es : List Nat) : (s.retire len es).soc = s.soc := by simp [State.retire]
@[simp] theorem State.retire_lsu (len : Len) (es : List Nat) : (s.retire len es).lsu = s.lsu := by simp [State.retire]
@[simp] theorem State.retire_icache (len : Len) (es : List Nat) : (s.retire len es).icache = s.icache := by simp [State.retire]
@[simp] theorem State.retire_dma (len : Len) (es : List Nat) : (s.retire len es).dma = s.dma := by simp [State.retire]
@[simp] theorem State.retire_hart (len : Len) (es : List Nat) : (s.retire len es).hart = s.hart := by simp [State.retire]
@[simp] theorem State.retire_dm (len : Len) (es : List Nat) : (s.retire len es).dm = s.dm := by simp [State.retire]
@[simp] theorem State.retire_dtm (len : Len) (es : List Nat) : (s.retire len es).dtm = s.dtm := by simp [State.retire]
@[simp] theorem State.retire_sync (len : Len) (es : List Nat) : (s.retire len es).sync = s.sync := by simp [State.retire]

/-! ### finish: Retire and go on. -/

@[simp] theorem State.finish_cfg (len : Len) (es : List Nat) : (s.finish len es).cfg = s.cfg := by simp [State.finish]
@[simp] theorem State.finish_inputs (len : Len) (es : List Nat) : (s.finish len es).inputs = s.inputs := by simp [State.finish]
@[simp] theorem State.finish_env (len : Len) (es : List Nat) : (s.finish len es).env = s.env := by simp [State.finish]
@[simp] theorem State.finish_draws (len : Len) (es : List Nat) : (s.finish len es).draws = s.draws := by simp [State.finish]
@[simp] theorem State.finish_pins (len : Len) (es : List Nat) : (s.finish len es).pins = s.pins := by simp [State.finish]
@[simp] theorem State.finish_outs (len : Len) (es : List Nat) : (s.finish len es).outs = s.outs := by simp [State.finish]
@[simp] theorem State.finish_x (len : Len) (es : List Nat) : (s.finish len es).x = s.x := by simp [State.finish]
@[simp] theorem State.finish_pc (len : Len) (es : List Nat) : (s.finish len es).pc = s.pc + len.bytes := by simp [State.finish]
@[simp] theorem State.finish_pic (len : Len) (es : List Nat) : (s.finish len es).pic = s.pic := by simp [State.finish]
@[simp] theorem State.finish_iccm (len : Len) (es : List Nat) : (s.finish len es).iccm = s.iccm := by simp [State.finish]
@[simp] theorem State.finish_dccm (len : Len) (es : List Nat) : (s.finish len es).dccm = s.dccm := by simp [State.finish]
@[simp] theorem State.finish_soc (len : Len) (es : List Nat) : (s.finish len es).soc = s.soc := by simp [State.finish]
@[simp] theorem State.finish_lsu (len : Len) (es : List Nat) : (s.finish len es).lsu = s.lsu := by simp [State.finish]
@[simp] theorem State.finish_icache (len : Len) (es : List Nat) : (s.finish len es).icache = s.icache := by simp [State.finish]
@[simp] theorem State.finish_dma (len : Len) (es : List Nat) : (s.finish len es).dma = s.dma := by simp [State.finish]
@[simp] theorem State.finish_hart (len : Len) (es : List Nat) : (s.finish len es).hart = s.hart := by simp [State.finish]
@[simp] theorem State.finish_dm (len : Len) (es : List Nat) : (s.finish len es).dm = s.dm := by simp [State.finish]
@[simp] theorem State.finish_dtm (len : Len) (es : List Nat) : (s.finish len es).dtm = s.dtm := by simp [State.finish]
@[simp] theorem State.finish_sync (len : Len) (es : List Nat) : (s.finish len es).sync = s.sync := by simp [State.finish]

/-! ### enterTrap: Trap entry (R445). -/

@[simp] theorem State.enterTrap_cfg (c v t : Word) : (s.enterTrap c v t).cfg = s.cfg := rfl
@[simp] theorem State.enterTrap_inputs (c v t : Word) : (s.enterTrap c v t).inputs = s.inputs := rfl
@[simp] theorem State.enterTrap_env (c v t : Word) : (s.enterTrap c v t).env = s.env := rfl
@[simp] theorem State.enterTrap_draws (c v t : Word) : (s.enterTrap c v t).draws = s.draws := rfl
@[simp] theorem State.enterTrap_pins (c v t : Word) : (s.enterTrap c v t).pins = s.pins := rfl
@[simp] theorem State.enterTrap_outs (c v t : Word) : (s.enterTrap c v t).outs = s.outs := rfl
@[simp] theorem State.enterTrap_x (c v t : Word) : (s.enterTrap c v t).x = s.x := rfl
@[simp] theorem State.enterTrap_pc (c v t : Word) : (s.enterTrap c v t).pc = t := rfl
@[simp] theorem State.enterTrap_csr (c v t : Word) : (s.enterTrap c v t).csr = { s.csr with mepc := s.pc, mcause := c, mtval := v, mstatus := mstatusEnter s.csr.mstatus } := rfl
@[simp] theorem State.enterTrap_pic (c v t : Word) : (s.enterTrap c v t).pic = s.pic := rfl
@[simp] theorem State.enterTrap_iccm (c v t : Word) : (s.enterTrap c v t).iccm = s.iccm := rfl
@[simp] theorem State.enterTrap_dccm (c v t : Word) : (s.enterTrap c v t).dccm = s.dccm := rfl
@[simp] theorem State.enterTrap_soc (c v t : Word) : (s.enterTrap c v t).soc = s.soc := rfl
@[simp] theorem State.enterTrap_lsu (c v t : Word) : (s.enterTrap c v t).lsu = s.lsu := rfl
@[simp] theorem State.enterTrap_icache (c v t : Word) : (s.enterTrap c v t).icache = s.icache := rfl
@[simp] theorem State.enterTrap_dma (c v t : Word) : (s.enterTrap c v t).dma = s.dma := rfl
@[simp] theorem State.enterTrap_hart (c v t : Word) : (s.enterTrap c v t).hart = s.hart := rfl
@[simp] theorem State.enterTrap_dm (c v t : Word) : (s.enterTrap c v t).dm = s.dm := rfl
@[simp] theorem State.enterTrap_dtm (c v t : Word) : (s.enterTrap c v t).dtm = s.dtm := rfl
@[simp] theorem State.enterTrap_sync (c v t : Word) : (s.enterTrap c v t).sync = s.sync := rfl

/-! ### traceTrap: The trace record of a trap (R645). -/

@[simp] theorem State.traceTrap_cfg (i : Bool) (c v : Word) : (s.traceTrap i c v).cfg = s.cfg := rfl
@[simp] theorem State.traceTrap_inputs (i : Bool) (c v : Word) : (s.traceTrap i c v).inputs = s.inputs := rfl
@[simp] theorem State.traceTrap_env (i : Bool) (c v : Word) : (s.traceTrap i c v).env = s.env := rfl
@[simp] theorem State.traceTrap_draws (i : Bool) (c v : Word) : (s.traceTrap i c v).draws = s.draws := rfl
@[simp] theorem State.traceTrap_pins (i : Bool) (c v : Word) : (s.traceTrap i c v).pins = s.pins := rfl
@[simp] theorem State.traceTrap_x (i : Bool) (c v : Word) : (s.traceTrap i c v).x = s.x := rfl
@[simp] theorem State.traceTrap_pc (i : Bool) (c v : Word) : (s.traceTrap i c v).pc = s.pc := rfl
@[simp] theorem State.traceTrap_csr (i : Bool) (c v : Word) : (s.traceTrap i c v).csr = s.csr := rfl
@[simp] theorem State.traceTrap_pic (i : Bool) (c v : Word) : (s.traceTrap i c v).pic = s.pic := rfl
@[simp] theorem State.traceTrap_iccm (i : Bool) (c v : Word) : (s.traceTrap i c v).iccm = s.iccm := rfl
@[simp] theorem State.traceTrap_dccm (i : Bool) (c v : Word) : (s.traceTrap i c v).dccm = s.dccm := rfl
@[simp] theorem State.traceTrap_soc (i : Bool) (c v : Word) : (s.traceTrap i c v).soc = s.soc := rfl
@[simp] theorem State.traceTrap_lsu (i : Bool) (c v : Word) : (s.traceTrap i c v).lsu = s.lsu := rfl
@[simp] theorem State.traceTrap_icache (i : Bool) (c v : Word) : (s.traceTrap i c v).icache = s.icache := rfl
@[simp] theorem State.traceTrap_dma (i : Bool) (c v : Word) : (s.traceTrap i c v).dma = s.dma := rfl
@[simp] theorem State.traceTrap_hart (i : Bool) (c v : Word) : (s.traceTrap i c v).hart = s.hart := rfl
@[simp] theorem State.traceTrap_dm (i : Bool) (c v : Word) : (s.traceTrap i c v).dm = s.dm := rfl
@[simp] theorem State.traceTrap_dtm (i : Bool) (c v : Word) : (s.traceTrap i c v).dtm = s.dtm := rfl
@[simp] theorem State.traceTrap_sync (i : Bool) (c v : Word) : (s.traceTrap i c v).sync = s.sync := rfl

/-! ### traceInterrupt: The trace record of an interrupt or NMI (R645). -/

@[simp] theorem State.traceInterrupt_cfg (c : Word) : (s.traceInterrupt c).cfg = s.cfg := rfl
@[simp] theorem State.traceInterrupt_inputs (c : Word) : (s.traceInterrupt c).inputs = s.inputs := rfl
@[simp] theorem State.traceInterrupt_env (c : Word) : (s.traceInterrupt c).env = s.env := rfl
@[simp] theorem State.traceInterrupt_draws (c : Word) : (s.traceInterrupt c).draws = s.draws + 1 := rfl
@[simp] theorem State.traceInterrupt_pins (c : Word) : (s.traceInterrupt c).pins = s.pins := rfl
@[simp] theorem State.traceInterrupt_x (c : Word) : (s.traceInterrupt c).x = s.x := rfl
@[simp] theorem State.traceInterrupt_pc (c : Word) : (s.traceInterrupt c).pc = s.pc := rfl
@[simp] theorem State.traceInterrupt_csr (c : Word) : (s.traceInterrupt c).csr = s.csr := rfl
@[simp] theorem State.traceInterrupt_pic (c : Word) : (s.traceInterrupt c).pic = s.pic := rfl
@[simp] theorem State.traceInterrupt_iccm (c : Word) : (s.traceInterrupt c).iccm = s.iccm := rfl
@[simp] theorem State.traceInterrupt_dccm (c : Word) : (s.traceInterrupt c).dccm = s.dccm := rfl
@[simp] theorem State.traceInterrupt_soc (c : Word) : (s.traceInterrupt c).soc = s.soc := rfl
@[simp] theorem State.traceInterrupt_lsu (c : Word) : (s.traceInterrupt c).lsu = s.lsu := rfl
@[simp] theorem State.traceInterrupt_icache (c : Word) : (s.traceInterrupt c).icache = s.icache := rfl
@[simp] theorem State.traceInterrupt_dma (c : Word) : (s.traceInterrupt c).dma = s.dma := rfl
@[simp] theorem State.traceInterrupt_hart (c : Word) : (s.traceInterrupt c).hart = s.hart := rfl
@[simp] theorem State.traceInterrupt_dm (c : Word) : (s.traceInterrupt c).dm = s.dm := rfl
@[simp] theorem State.traceInterrupt_dtm (c : Word) : (s.traceInterrupt c).dtm = s.dtm := rfl
@[simp] theorem State.traceInterrupt_sync (c : Word) : (s.traceInterrupt c).sync = s.sync := rfl

/-! ### takeException: Take an exception (R445). -/

@[simp] theorem State.takeException_cfg (e : Exc) : (s.takeException e).cfg = s.cfg := by simp [State.takeException]
@[simp] theorem State.takeException_inputs (e : Exc) : (s.takeException e).inputs = s.inputs := by simp [State.takeException]
@[simp] theorem State.takeException_env (e : Exc) : (s.takeException e).env = s.env := by simp [State.takeException]
@[simp] theorem State.takeException_draws (e : Exc) : (s.takeException e).draws = s.draws := by simp [State.takeException]
@[simp] theorem State.takeException_pins (e : Exc) : (s.takeException e).pins = s.pins := by simp [State.takeException]
@[simp] theorem State.takeException_x (e : Exc) : (s.takeException e).x = s.x := by simp [State.takeException]
@[simp] theorem State.takeException_pc (e : Exc) : (s.takeException e).pc = trapTarget s.csr.mtvec e.cause := by simp [State.takeException]
@[simp] theorem State.takeException_pic (e : Exc) : (s.takeException e).pic = s.pic := by simp [State.takeException]
@[simp] theorem State.takeException_iccm (e : Exc) : (s.takeException e).iccm = s.iccm := by simp [State.takeException]
@[simp] theorem State.takeException_dccm (e : Exc) : (s.takeException e).dccm = s.dccm := by simp [State.takeException]
@[simp] theorem State.takeException_soc (e : Exc) : (s.takeException e).soc = s.soc := by simp [State.takeException]
@[simp] theorem State.takeException_lsu (e : Exc) : (s.takeException e).lsu = s.lsu := by simp [State.takeException]
@[simp] theorem State.takeException_icache (e : Exc) : (s.takeException e).icache = s.icache := by simp [State.takeException]
@[simp] theorem State.takeException_dma (e : Exc) : (s.takeException e).dma = s.dma := by simp [State.takeException]
@[simp] theorem State.takeException_hart (e : Exc) : (s.takeException e).hart = s.hart := by simp [State.takeException]
@[simp] theorem State.takeException_dm (e : Exc) : (s.takeException e).dm = s.dm := by simp [State.takeException]
@[simp] theorem State.takeException_dtm (e : Exc) : (s.takeException e).dtm = s.dtm := by simp [State.takeException]
@[simp] theorem State.takeException_sync (e : Exc) : (s.takeException e).sync = s.sync := by simp [State.takeException]

/-! ### returnFromTrap: mret (R447). -/

@[simp] theorem State.returnFromTrap_cfg : s.returnFromTrap.cfg = s.cfg := rfl
@[simp] theorem State.returnFromTrap_inputs : s.returnFromTrap.inputs = s.inputs := rfl
@[simp] theorem State.returnFromTrap_env : s.returnFromTrap.env = s.env := rfl
@[simp] theorem State.returnFromTrap_draws : s.returnFromTrap.draws = s.draws := rfl
@[simp] theorem State.returnFromTrap_pins : s.returnFromTrap.pins = s.pins := rfl
@[simp] theorem State.returnFromTrap_outs : s.returnFromTrap.outs = s.outs := rfl
@[simp] theorem State.returnFromTrap_x : s.returnFromTrap.x = s.x := rfl
@[simp] theorem State.returnFromTrap_pc : s.returnFromTrap.pc = s.csr.mepc := rfl
@[simp] theorem State.returnFromTrap_csr : s.returnFromTrap.csr = { s.csr with mstatus := mstatusReturn s.csr.mstatus } := rfl
@[simp] theorem State.returnFromTrap_pic : s.returnFromTrap.pic = s.pic := rfl
@[simp] theorem State.returnFromTrap_iccm : s.returnFromTrap.iccm = s.iccm := rfl
@[simp] theorem State.returnFromTrap_dccm : s.returnFromTrap.dccm = s.dccm := rfl
@[simp] theorem State.returnFromTrap_soc : s.returnFromTrap.soc = s.soc := rfl
@[simp] theorem State.returnFromTrap_lsu : s.returnFromTrap.lsu = s.lsu := rfl
@[simp] theorem State.returnFromTrap_icache : s.returnFromTrap.icache = s.icache := rfl
@[simp] theorem State.returnFromTrap_dma : s.returnFromTrap.dma = s.dma := rfl
@[simp] theorem State.returnFromTrap_hart : s.returnFromTrap.hart = s.hart := rfl
@[simp] theorem State.returnFromTrap_dm : s.returnFromTrap.dm = s.dm := rfl
@[simp] theorem State.returnFromTrap_dtm : s.returnFromTrap.dtm = s.dtm := rfl
@[simp] theorem State.returnFromTrap_sync : s.returnFromTrap.sync = s.sync := rfl

/-! ### reportBusError: Report a bus error (R185). -/

@[simp] theorem State.reportBusError_cfg (l : Bool) (a : Word) : (s.reportBusError l a).cfg = s.cfg := by simp only [State.reportBusError]; split <;> rfl
@[simp] theorem State.reportBusError_inputs (l : Bool) (a : Word) : (s.reportBusError l a).inputs = s.inputs := by simp only [State.reportBusError]; split <;> rfl
@[simp] theorem State.reportBusError_env (l : Bool) (a : Word) : (s.reportBusError l a).env = s.env := by simp only [State.reportBusError]; split <;> rfl
@[simp] theorem State.reportBusError_draws (l : Bool) (a : Word) : (s.reportBusError l a).draws = s.draws := by simp only [State.reportBusError]; split <;> rfl
@[simp] theorem State.reportBusError_pins (l : Bool) (a : Word) : (s.reportBusError l a).pins = s.pins := by simp only [State.reportBusError]; split <;> rfl
@[simp] theorem State.reportBusError_outs (l : Bool) (a : Word) : (s.reportBusError l a).outs = s.outs := by simp only [State.reportBusError]; split <;> rfl
@[simp] theorem State.reportBusError_x (l : Bool) (a : Word) : (s.reportBusError l a).x = s.x := by simp only [State.reportBusError]; split <;> rfl
@[simp] theorem State.reportBusError_pc (l : Bool) (a : Word) : (s.reportBusError l a).pc = s.pc := by simp only [State.reportBusError]; split <;> rfl
@[simp] theorem State.reportBusError_pic (l : Bool) (a : Word) : (s.reportBusError l a).pic = s.pic := by simp only [State.reportBusError]; split <;> rfl
@[simp] theorem State.reportBusError_iccm (l : Bool) (a : Word) : (s.reportBusError l a).iccm = s.iccm := by simp only [State.reportBusError]; split <;> rfl
@[simp] theorem State.reportBusError_dccm (l : Bool) (a : Word) : (s.reportBusError l a).dccm = s.dccm := by simp only [State.reportBusError]; split <;> rfl
@[simp] theorem State.reportBusError_soc (l : Bool) (a : Word) : (s.reportBusError l a).soc = s.soc := by simp only [State.reportBusError]; split <;> rfl
@[simp] theorem State.reportBusError_lsu (l : Bool) (a : Word) : (s.reportBusError l a).lsu = s.lsu := by simp only [State.reportBusError]; split <;> rfl
@[simp] theorem State.reportBusError_icache (l : Bool) (a : Word) : (s.reportBusError l a).icache = s.icache := by simp only [State.reportBusError]; split <;> rfl
@[simp] theorem State.reportBusError_dma (l : Bool) (a : Word) : (s.reportBusError l a).dma = s.dma := by simp only [State.reportBusError]; split <;> rfl
@[simp] theorem State.reportBusError_dm (l : Bool) (a : Word) : (s.reportBusError l a).dm = s.dm := by simp only [State.reportBusError]; split <;> rfl
@[simp] theorem State.reportBusError_dtm (l : Bool) (a : Word) : (s.reportBusError l a).dtm = s.dtm := by simp only [State.reportBusError]; split <;> rfl
@[simp] theorem State.reportBusError_sync (l : Bool) (a : Word) : (s.reportBusError l a).sync = s.sync := by simp only [State.reportBusError]; split <;> rfl

/-! ### traceInsn: The trace record of an instruction (R645). -/

@[simp] theorem State.traceInsn_cfg (b : Word) : (s.traceInsn b).cfg = s.cfg := rfl
@[simp] theorem State.traceInsn_inputs (b : Word) : (s.traceInsn b).inputs = s.inputs := rfl
@[simp] theorem State.traceInsn_env (b : Word) : (s.traceInsn b).env = s.env := rfl
@[simp] theorem State.traceInsn_draws (b : Word) : (s.traceInsn b).draws = s.draws := rfl
@[simp] theorem State.traceInsn_pins (b : Word) : (s.traceInsn b).pins = s.pins := rfl
@[simp] theorem State.traceInsn_x (b : Word) : (s.traceInsn b).x = s.x := rfl
@[simp] theorem State.traceInsn_pc (b : Word) : (s.traceInsn b).pc = s.pc := rfl
@[simp] theorem State.traceInsn_csr (b : Word) : (s.traceInsn b).csr = s.csr := rfl
@[simp] theorem State.traceInsn_pic (b : Word) : (s.traceInsn b).pic = s.pic := rfl
@[simp] theorem State.traceInsn_iccm (b : Word) : (s.traceInsn b).iccm = s.iccm := rfl
@[simp] theorem State.traceInsn_dccm (b : Word) : (s.traceInsn b).dccm = s.dccm := rfl
@[simp] theorem State.traceInsn_soc (b : Word) : (s.traceInsn b).soc = s.soc := rfl
@[simp] theorem State.traceInsn_lsu (b : Word) : (s.traceInsn b).lsu = s.lsu := rfl
@[simp] theorem State.traceInsn_icache (b : Word) : (s.traceInsn b).icache = s.icache := rfl
@[simp] theorem State.traceInsn_dma (b : Word) : (s.traceInsn b).dma = s.dma := rfl
@[simp] theorem State.traceInsn_hart (b : Word) : (s.traceInsn b).hart = s.hart := rfl
@[simp] theorem State.traceInsn_dm (b : Word) : (s.traceInsn b).dm = s.dm := rfl
@[simp] theorem State.traceInsn_dtm (b : Word) : (s.traceInsn b).dtm = s.dtm := rfl
@[simp] theorem State.traceInsn_sync (b : Word) : (s.traceInsn b).sync = s.sync := rfl

/-! ### withCsr: Replace the CSRs. -/

@[simp] theorem State.withCsr_cfg (c : Csrs) : (s.withCsr c).cfg = s.cfg := rfl
@[simp] theorem State.withCsr_inputs (c : Csrs) : (s.withCsr c).inputs = s.inputs := rfl
@[simp] theorem State.withCsr_env (c : Csrs) : (s.withCsr c).env = s.env := rfl
@[simp] theorem State.withCsr_draws (c : Csrs) : (s.withCsr c).draws = s.draws := rfl
@[simp] theorem State.withCsr_pins (c : Csrs) : (s.withCsr c).pins = s.pins := rfl
@[simp] theorem State.withCsr_outs (c : Csrs) : (s.withCsr c).outs = s.outs := rfl
@[simp] theorem State.withCsr_x (c : Csrs) : (s.withCsr c).x = s.x := rfl
@[simp] theorem State.withCsr_pc (c : Csrs) : (s.withCsr c).pc = s.pc := rfl
@[simp] theorem State.withCsr_csr (c : Csrs) : (s.withCsr c).csr = c := rfl
@[simp] theorem State.withCsr_pic (c : Csrs) : (s.withCsr c).pic = s.pic := rfl
@[simp] theorem State.withCsr_iccm (c : Csrs) : (s.withCsr c).iccm = s.iccm := rfl
@[simp] theorem State.withCsr_dccm (c : Csrs) : (s.withCsr c).dccm = s.dccm := rfl
@[simp] theorem State.withCsr_soc (c : Csrs) : (s.withCsr c).soc = s.soc := rfl
@[simp] theorem State.withCsr_lsu (c : Csrs) : (s.withCsr c).lsu = s.lsu := rfl
@[simp] theorem State.withCsr_icache (c : Csrs) : (s.withCsr c).icache = s.icache := rfl
@[simp] theorem State.withCsr_dma (c : Csrs) : (s.withCsr c).dma = s.dma := rfl
@[simp] theorem State.withCsr_hart (c : Csrs) : (s.withCsr c).hart = s.hart := rfl
@[simp] theorem State.withCsr_dm (c : Csrs) : (s.withCsr c).dm = s.dm := rfl
@[simp] theorem State.withCsr_dtm (c : Csrs) : (s.withCsr c).dtm = s.dtm := rfl
@[simp] theorem State.withCsr_sync (c : Csrs) : (s.withCsr c).sync = s.sync := rfl

/-! ### logBus: A request on the bus (R149). -/

@[simp] theorem State.logBus_cfg (r : BusReq) : (s.logBus r).cfg = s.cfg := rfl
@[simp] theorem State.logBus_inputs (r : BusReq) : (s.logBus r).inputs = s.inputs := rfl
@[simp] theorem State.logBus_env (r : BusReq) : (s.logBus r).env = s.env := rfl
@[simp] theorem State.logBus_draws (r : BusReq) : (s.logBus r).draws = s.draws := rfl
@[simp] theorem State.logBus_pins (r : BusReq) : (s.logBus r).pins = s.pins := rfl
@[simp] theorem State.logBus_outs (r : BusReq) : (s.logBus r).outs = { s.outs with bus := s.outs.bus ++ [r] } := rfl
@[simp] theorem State.logBus_x (r : BusReq) : (s.logBus r).x = s.x := rfl
@[simp] theorem State.logBus_pc (r : BusReq) : (s.logBus r).pc = s.pc := rfl
@[simp] theorem State.logBus_csr (r : BusReq) : (s.logBus r).csr = s.csr := rfl
@[simp] theorem State.logBus_pic (r : BusReq) : (s.logBus r).pic = s.pic := rfl
@[simp] theorem State.logBus_iccm (r : BusReq) : (s.logBus r).iccm = s.iccm := rfl
@[simp] theorem State.logBus_dccm (r : BusReq) : (s.logBus r).dccm = s.dccm := rfl
@[simp] theorem State.logBus_soc (r : BusReq) : (s.logBus r).soc = s.soc := rfl
@[simp] theorem State.logBus_lsu (r : BusReq) : (s.logBus r).lsu = s.lsu := rfl
@[simp] theorem State.logBus_icache (r : BusReq) : (s.logBus r).icache = s.icache := rfl
@[simp] theorem State.logBus_dma (r : BusReq) : (s.logBus r).dma = s.dma := rfl
@[simp] theorem State.logBus_hart (r : BusReq) : (s.logBus r).hart = s.hart := rfl
@[simp] theorem State.logBus_dm (r : BusReq) : (s.logBus r).dm = s.dm := rfl
@[simp] theorem State.logBus_dtm (r : BusReq) : (s.logBus r).dtm = s.dtm := rfl
@[simp] theorem State.logBus_sync (r : BusReq) : (s.logBus r).sync = s.sync := rfl

/-! ### setCcm: Replace a closely-coupled memory. -/

@[simp] theorem State.setCcm_cfg (k : Ccm) (m : Memory) : (s.setCcm k m).cfg = s.cfg := by cases k <;> rfl
@[simp] theorem State.setCcm_inputs (k : Ccm) (m : Memory) : (s.setCcm k m).inputs = s.inputs := by cases k <;> rfl
@[simp] theorem State.setCcm_env (k : Ccm) (m : Memory) : (s.setCcm k m).env = s.env := by cases k <;> rfl
@[simp] theorem State.setCcm_draws (k : Ccm) (m : Memory) : (s.setCcm k m).draws = s.draws := by cases k <;> rfl
@[simp] theorem State.setCcm_pins (k : Ccm) (m : Memory) : (s.setCcm k m).pins = s.pins := by cases k <;> rfl
@[simp] theorem State.setCcm_outs (k : Ccm) (m : Memory) : (s.setCcm k m).outs = s.outs := by cases k <;> rfl
@[simp] theorem State.setCcm_x (k : Ccm) (m : Memory) : (s.setCcm k m).x = s.x := by cases k <;> rfl
@[simp] theorem State.setCcm_pc (k : Ccm) (m : Memory) : (s.setCcm k m).pc = s.pc := by cases k <;> rfl
@[simp] theorem State.setCcm_csr (k : Ccm) (m : Memory) : (s.setCcm k m).csr = s.csr := by cases k <;> rfl
@[simp] theorem State.setCcm_pic (k : Ccm) (m : Memory) : (s.setCcm k m).pic = s.pic := by cases k <;> rfl
@[simp] theorem State.setCcm_iccm (k : Ccm) (m : Memory) : (s.setCcm k m).iccm = if k = .iccm then m else s.iccm := by cases k <;> rfl
@[simp] theorem State.setCcm_dccm (k : Ccm) (m : Memory) : (s.setCcm k m).dccm = if k = .dccm then m else s.dccm := by cases k <;> rfl
@[simp] theorem State.setCcm_soc (k : Ccm) (m : Memory) : (s.setCcm k m).soc = s.soc := by cases k <;> rfl
@[simp] theorem State.setCcm_lsu (k : Ccm) (m : Memory) : (s.setCcm k m).lsu = s.lsu := by cases k <;> rfl
@[simp] theorem State.setCcm_icache (k : Ccm) (m : Memory) : (s.setCcm k m).icache = s.icache := by cases k <;> rfl
@[simp] theorem State.setCcm_dma (k : Ccm) (m : Memory) : (s.setCcm k m).dma = s.dma := by cases k <;> rfl
@[simp] theorem State.setCcm_hart (k : Ccm) (m : Memory) : (s.setCcm k m).hart = s.hart := by cases k <;> rfl
@[simp] theorem State.setCcm_dm (k : Ccm) (m : Memory) : (s.setCcm k m).dm = s.dm := by cases k <;> rfl
@[simp] theorem State.setCcm_dtm (k : Ccm) (m : Memory) : (s.setCcm k m).dtm = s.dtm := by cases k <;> rfl
@[simp] theorem State.setCcm_sync (k : Ccm) (m : Memory) : (s.setCcm k m).sync = s.sync := by cases k <;> rfl

/-! ### dmaAnswer: Answer a DMA request (R190). -/

@[simp] theorem State.dmaAnswer_cfg (r : DmaResp) : (s.dmaAnswer r).cfg = s.cfg := rfl
@[simp] theorem State.dmaAnswer_inputs (r : DmaResp) : (s.dmaAnswer r).inputs = s.inputs := rfl
@[simp] theorem State.dmaAnswer_env (r : DmaResp) : (s.dmaAnswer r).env = s.env := rfl
@[simp] theorem State.dmaAnswer_draws (r : DmaResp) : (s.dmaAnswer r).draws = s.draws := rfl
@[simp] theorem State.dmaAnswer_pins (r : DmaResp) : (s.dmaAnswer r).pins = s.pins := rfl
@[simp] theorem State.dmaAnswer_outs (r : DmaResp) : (s.dmaAnswer r).outs = s.outs := rfl
@[simp] theorem State.dmaAnswer_x (r : DmaResp) : (s.dmaAnswer r).x = s.x := rfl
@[simp] theorem State.dmaAnswer_pc (r : DmaResp) : (s.dmaAnswer r).pc = s.pc := rfl
@[simp] theorem State.dmaAnswer_csr (r : DmaResp) : (s.dmaAnswer r).csr = s.csr := rfl
@[simp] theorem State.dmaAnswer_pic (r : DmaResp) : (s.dmaAnswer r).pic = s.pic := rfl
@[simp] theorem State.dmaAnswer_iccm (r : DmaResp) : (s.dmaAnswer r).iccm = s.iccm := rfl
@[simp] theorem State.dmaAnswer_dccm (r : DmaResp) : (s.dmaAnswer r).dccm = s.dccm := rfl
@[simp] theorem State.dmaAnswer_soc (r : DmaResp) : (s.dmaAnswer r).soc = s.soc := rfl
@[simp] theorem State.dmaAnswer_lsu (r : DmaResp) : (s.dmaAnswer r).lsu = s.lsu := rfl
@[simp] theorem State.dmaAnswer_icache (r : DmaResp) : (s.dmaAnswer r).icache = s.icache := rfl
@[simp] theorem State.dmaAnswer_dma (r : DmaResp) : (s.dmaAnswer r).dma = { fifo := s.dma.fifo.tail, half := none, resp := some r } := rfl
@[simp] theorem State.dmaAnswer_hart (r : DmaResp) : (s.dmaAnswer r).hart = s.hart := rfl
@[simp] theorem State.dmaAnswer_dm (r : DmaResp) : (s.dmaAnswer r).dm = s.dm := rfl
@[simp] theorem State.dmaAnswer_dtm (r : DmaResp) : (s.dmaAnswer r).dtm = s.dtm := rfl
@[simp] theorem State.dmaAnswer_sync (r : DmaResp) : (s.dmaAnswer r).sync = s.sync := rfl

/-! ### busMerge: Combine two stores (R157). -/

@[simp] theorem State.busMerge_cfg (i : Nat) : (s.busMerge i).cfg = s.cfg := by simp only [State.busMerge]; split <;> rfl
@[simp] theorem State.busMerge_inputs (i : Nat) : (s.busMerge i).inputs = s.inputs := by simp only [State.busMerge]; split <;> rfl
@[simp] theorem State.busMerge_env (i : Nat) : (s.busMerge i).env = s.env := by simp only [State.busMerge]; split <;> rfl
@[simp] theorem State.busMerge_draws (i : Nat) : (s.busMerge i).draws = s.draws := by simp only [State.busMerge]; split <;> rfl
@[simp] theorem State.busMerge_pins (i : Nat) : (s.busMerge i).pins = s.pins := by simp only [State.busMerge]; split <;> rfl
@[simp] theorem State.busMerge_outs (i : Nat) : (s.busMerge i).outs = s.outs := by simp only [State.busMerge]; split <;> rfl
@[simp] theorem State.busMerge_x (i : Nat) : (s.busMerge i).x = s.x := by simp only [State.busMerge]; split <;> rfl
@[simp] theorem State.busMerge_pc (i : Nat) : (s.busMerge i).pc = s.pc := by simp only [State.busMerge]; split <;> rfl
@[simp] theorem State.busMerge_csr (i : Nat) : (s.busMerge i).csr = s.csr := by simp only [State.busMerge]; split <;> rfl
@[simp] theorem State.busMerge_pic (i : Nat) : (s.busMerge i).pic = s.pic := by simp only [State.busMerge]; split <;> rfl
@[simp] theorem State.busMerge_iccm (i : Nat) : (s.busMerge i).iccm = s.iccm := by simp only [State.busMerge]; split <;> rfl
@[simp] theorem State.busMerge_dccm (i : Nat) : (s.busMerge i).dccm = s.dccm := by simp only [State.busMerge]; split <;> rfl
@[simp] theorem State.busMerge_soc (i : Nat) : (s.busMerge i).soc = s.soc := by simp only [State.busMerge]; split <;> rfl
@[simp] theorem State.busMerge_lsu (i : Nat) : (s.busMerge i).lsu = if !s.coalesces then s.lsu else { s.lsu with wbuf := mergeStores i s.lsu.wbuf } := by simp only [State.busMerge]; split <;> rfl
@[simp] theorem State.busMerge_icache (i : Nat) : (s.busMerge i).icache = s.icache := by simp only [State.busMerge]; split <;> rfl
@[simp] theorem State.busMerge_dma (i : Nat) : (s.busMerge i).dma = s.dma := by simp only [State.busMerge]; split <;> rfl
@[simp] theorem State.busMerge_hart (i : Nat) : (s.busMerge i).hart = s.hart := by simp only [State.busMerge]; split <;> rfl
@[simp] theorem State.busMerge_dm (i : Nat) : (s.busMerge i).dm = s.dm := by simp only [State.busMerge]; split <;> rfl
@[simp] theorem State.busMerge_dtm (i : Nat) : (s.busMerge i).dtm = s.dtm := by simp only [State.busMerge]; split <;> rfl
@[simp] theorem State.busMerge_sync (i : Nat) : (s.busMerge i).sync = s.sync := by simp only [State.busMerge]; split <;> rfl

/-! ### writeCycle: Write half of mcycle (R417). -/

@[simp] theorem State.writeCycle_cfg (d h : Bool) (v : Word) : (s.writeCycle d h v).cfg = s.cfg := rfl
@[simp] theorem State.writeCycle_inputs (d h : Bool) (v : Word) : (s.writeCycle d h v).inputs = s.inputs := rfl
@[simp] theorem State.writeCycle_env (d h : Bool) (v : Word) : (s.writeCycle d h v).env = s.env := rfl
@[simp] theorem State.writeCycle_draws (d h : Bool) (v : Word) : (s.writeCycle d h v).draws = s.draws := rfl
@[simp] theorem State.writeCycle_pins (d h : Bool) (v : Word) : (s.writeCycle d h v).pins = s.pins := rfl
@[simp] theorem State.writeCycle_outs (d h : Bool) (v : Word) : (s.writeCycle d h v).outs = s.outs := rfl
@[simp] theorem State.writeCycle_x (d h : Bool) (v : Word) : (s.writeCycle d h v).x = s.x := rfl
@[simp] theorem State.writeCycle_pc (d h : Bool) (v : Word) : (s.writeCycle d h v).pc = s.pc := rfl
@[simp] theorem State.writeCycle_csr (d h : Bool) (v : Word) : (s.writeCycle d h v).csr = { s.csr with mcycle := setHalf h v s.csr.mcycle } := rfl
@[simp] theorem State.writeCycle_pic (d h : Bool) (v : Word) : (s.writeCycle d h v).pic = s.pic := rfl
@[simp] theorem State.writeCycle_iccm (d h : Bool) (v : Word) : (s.writeCycle d h v).iccm = s.iccm := rfl
@[simp] theorem State.writeCycle_dccm (d h : Bool) (v : Word) : (s.writeCycle d h v).dccm = s.dccm := rfl
@[simp] theorem State.writeCycle_soc (d h : Bool) (v : Word) : (s.writeCycle d h v).soc = s.soc := rfl
@[simp] theorem State.writeCycle_lsu (d h : Bool) (v : Word) : (s.writeCycle d h v).lsu = s.lsu := rfl
@[simp] theorem State.writeCycle_icache (d h : Bool) (v : Word) : (s.writeCycle d h v).icache = s.icache := rfl
@[simp] theorem State.writeCycle_dma (d h : Bool) (v : Word) : (s.writeCycle d h v).dma = s.dma := rfl
@[simp] theorem State.writeCycle_hart (d h : Bool) (v : Word) : (s.writeCycle d h v).hart = s.hart := rfl
@[simp] theorem State.writeCycle_dm (d h : Bool) (v : Word) : (s.writeCycle d h v).dm = s.dm := rfl
@[simp] theorem State.writeCycle_dtm (d h : Bool) (v : Word) : (s.writeCycle d h v).dtm = s.dtm := rfl

/-! ### writeHpm: Write half of an event counter (R417). -/

@[simp] theorem State.writeHpm_cfg (d h : Bool) (i : Fin 4) (v : Word) : (s.writeHpm d h i v).cfg = s.cfg := rfl
@[simp] theorem State.writeHpm_inputs (d h : Bool) (i : Fin 4) (v : Word) : (s.writeHpm d h i v).inputs = s.inputs := rfl
@[simp] theorem State.writeHpm_env (d h : Bool) (i : Fin 4) (v : Word) : (s.writeHpm d h i v).env = s.env := rfl
@[simp] theorem State.writeHpm_draws (d h : Bool) (i : Fin 4) (v : Word) : (s.writeHpm d h i v).draws = s.draws := rfl
@[simp] theorem State.writeHpm_pins (d h : Bool) (i : Fin 4) (v : Word) : (s.writeHpm d h i v).pins = s.pins := rfl
@[simp] theorem State.writeHpm_outs (d h : Bool) (i : Fin 4) (v : Word) : (s.writeHpm d h i v).outs = s.outs := rfl
@[simp] theorem State.writeHpm_x (d h : Bool) (i : Fin 4) (v : Word) : (s.writeHpm d h i v).x = s.x := rfl
@[simp] theorem State.writeHpm_pc (d h : Bool) (i : Fin 4) (v : Word) : (s.writeHpm d h i v).pc = s.pc := rfl
@[simp] theorem State.writeHpm_csr (d h : Bool) (i : Fin 4) (v : Word) : (s.writeHpm d h i v).csr = { s.csr with mhpm := s.csr.mhpm.set i (setHalf h v s.csr.mhpm[i]) } := rfl
@[simp] theorem State.writeHpm_pic (d h : Bool) (i : Fin 4) (v : Word) : (s.writeHpm d h i v).pic = s.pic := rfl
@[simp] theorem State.writeHpm_iccm (d h : Bool) (i : Fin 4) (v : Word) : (s.writeHpm d h i v).iccm = s.iccm := rfl
@[simp] theorem State.writeHpm_dccm (d h : Bool) (i : Fin 4) (v : Word) : (s.writeHpm d h i v).dccm = s.dccm := rfl
@[simp] theorem State.writeHpm_soc (d h : Bool) (i : Fin 4) (v : Word) : (s.writeHpm d h i v).soc = s.soc := rfl
@[simp] theorem State.writeHpm_lsu (d h : Bool) (i : Fin 4) (v : Word) : (s.writeHpm d h i v).lsu = s.lsu := rfl
@[simp] theorem State.writeHpm_icache (d h : Bool) (i : Fin 4) (v : Word) : (s.writeHpm d h i v).icache = s.icache := rfl
@[simp] theorem State.writeHpm_dma (d h : Bool) (i : Fin 4) (v : Word) : (s.writeHpm d h i v).dma = s.dma := rfl
@[simp] theorem State.writeHpm_hart (d h : Bool) (i : Fin 4) (v : Word) : (s.writeHpm d h i v).hart = s.hart := rfl
@[simp] theorem State.writeHpm_dm (d h : Bool) (i : Fin 4) (v : Word) : (s.writeHpm d h i v).dm = s.dm := rfl
@[simp] theorem State.writeHpm_dtm (d h : Bool) (i : Fin 4) (v : Word) : (s.writeHpm d h i v).dtm = s.dtm := rfl

/-! ### writeMrac: Write mrac (R661). -/

@[simp] theorem State.writeMrac_cfg (v : Word) : (s.writeMrac v).cfg = s.cfg := rfl
@[simp] theorem State.writeMrac_inputs (v : Word) : (s.writeMrac v).inputs = s.inputs := rfl
@[simp] theorem State.writeMrac_env (v : Word) : (s.writeMrac v).env = s.env := rfl
@[simp] theorem State.writeMrac_draws (v : Word) : (s.writeMrac v).draws = s.draws := rfl
@[simp] theorem State.writeMrac_pins (v : Word) : (s.writeMrac v).pins = s.pins := rfl
@[simp] theorem State.writeMrac_outs (v : Word) : (s.writeMrac v).outs = s.outs := rfl
@[simp] theorem State.writeMrac_x (v : Word) : (s.writeMrac v).x = s.x := rfl
@[simp] theorem State.writeMrac_pc (v : Word) : (s.writeMrac v).pc = s.pc := rfl
@[simp] theorem State.writeMrac_csr (v : Word) : (s.writeMrac v).csr = { s.csr with mrac := legalMrac v } := rfl
@[simp] theorem State.writeMrac_pic (v : Word) : (s.writeMrac v).pic = s.pic := rfl
@[simp] theorem State.writeMrac_iccm (v : Word) : (s.writeMrac v).iccm = s.iccm := rfl
@[simp] theorem State.writeMrac_dccm (v : Word) : (s.writeMrac v).dccm = s.dccm := rfl
@[simp] theorem State.writeMrac_soc (v : Word) : (s.writeMrac v).soc = s.soc := rfl
@[simp] theorem State.writeMrac_lsu (v : Word) : (s.writeMrac v).lsu = s.lsu := rfl
@[simp] theorem State.writeMrac_icache (v : Word) : (s.writeMrac v).icache = s.icache := rfl
@[simp] theorem State.writeMrac_dma (v : Word) : (s.writeMrac v).dma = s.dma := rfl
@[simp] theorem State.writeMrac_hart (v : Word) : (s.writeMrac v).hart = s.hart := rfl
@[simp] theorem State.writeMrac_dm (v : Word) : (s.writeMrac v).dm = s.dm := rfl
@[simp] theorem State.writeMrac_dtm (v : Word) : (s.writeMrac v).dtm = s.dtm := rfl
@[simp] theorem State.writeMrac_sync (v : Word) : (s.writeMrac v).sync = { s.sync with mracD := s.csr.mrac :: s.sync.mracD, mracI := s.csr.mrac :: s.sync.mracI } := rfl

/-! ### writeMfdc: Write mfdc (R663). -/

@[simp] theorem State.writeMfdc_cfg (v : Word) : (s.writeMfdc v).cfg = s.cfg := rfl
@[simp] theorem State.writeMfdc_inputs (v : Word) : (s.writeMfdc v).inputs = s.inputs := rfl
@[simp] theorem State.writeMfdc_env (v : Word) : (s.writeMfdc v).env = s.env := rfl
@[simp] theorem State.writeMfdc_draws (v : Word) : (s.writeMfdc v).draws = s.draws := rfl
@[simp] theorem State.writeMfdc_pins (v : Word) : (s.writeMfdc v).pins = s.pins := rfl
@[simp] theorem State.writeMfdc_outs (v : Word) : (s.writeMfdc v).outs = s.outs := rfl
@[simp] theorem State.writeMfdc_x (v : Word) : (s.writeMfdc v).x = s.x := rfl
@[simp] theorem State.writeMfdc_pc (v : Word) : (s.writeMfdc v).pc = s.pc := rfl
@[simp] theorem State.writeMfdc_csr (v : Word) : (s.writeMfdc v).csr = { s.csr with mfdc := v &&& 0x000705FD#32 } := rfl
@[simp] theorem State.writeMfdc_pic (v : Word) : (s.writeMfdc v).pic = s.pic := rfl
@[simp] theorem State.writeMfdc_iccm (v : Word) : (s.writeMfdc v).iccm = s.iccm := rfl
@[simp] theorem State.writeMfdc_dccm (v : Word) : (s.writeMfdc v).dccm = s.dccm := rfl
@[simp] theorem State.writeMfdc_soc (v : Word) : (s.writeMfdc v).soc = s.soc := rfl
@[simp] theorem State.writeMfdc_lsu (v : Word) : (s.writeMfdc v).lsu = s.lsu := rfl
@[simp] theorem State.writeMfdc_icache (v : Word) : (s.writeMfdc v).icache = s.icache := rfl
@[simp] theorem State.writeMfdc_dma (v : Word) : (s.writeMfdc v).dma = s.dma := rfl
@[simp] theorem State.writeMfdc_hart (v : Word) : (s.writeMfdc v).hart = s.hart := rfl
@[simp] theorem State.writeMfdc_dm (v : Word) : (s.writeMfdc v).dm = s.dm := rfl
@[simp] theorem State.writeMfdc_dtm (v : Word) : (s.writeMfdc v).dtm = s.dtm := rfl
@[simp] theorem State.writeMfdc_sync (v : Word) : (s.writeMfdc v).sync = { s.sync with mfdcOld := s.csr.mfdc :: s.sync.mfdcOld } := rfl

/-! ### withDm: Replace the debug module registers. -/

@[simp] theorem State.withDm_cfg (d : Dm) : (s.withDm d).cfg = s.cfg := rfl
@[simp] theorem State.withDm_inputs (d : Dm) : (s.withDm d).inputs = s.inputs := rfl
@[simp] theorem State.withDm_env (d : Dm) : (s.withDm d).env = s.env := rfl
@[simp] theorem State.withDm_draws (d : Dm) : (s.withDm d).draws = s.draws := rfl
@[simp] theorem State.withDm_pins (d : Dm) : (s.withDm d).pins = s.pins := rfl
@[simp] theorem State.withDm_outs (d : Dm) : (s.withDm d).outs = s.outs := rfl
@[simp] theorem State.withDm_x (d : Dm) : (s.withDm d).x = s.x := rfl
@[simp] theorem State.withDm_pc (d : Dm) : (s.withDm d).pc = s.pc := rfl
@[simp] theorem State.withDm_csr (d : Dm) : (s.withDm d).csr = s.csr := rfl
@[simp] theorem State.withDm_pic (d : Dm) : (s.withDm d).pic = s.pic := rfl
@[simp] theorem State.withDm_iccm (d : Dm) : (s.withDm d).iccm = s.iccm := rfl
@[simp] theorem State.withDm_dccm (d : Dm) : (s.withDm d).dccm = s.dccm := rfl
@[simp] theorem State.withDm_soc (d : Dm) : (s.withDm d).soc = s.soc := rfl
@[simp] theorem State.withDm_lsu (d : Dm) : (s.withDm d).lsu = s.lsu := rfl
@[simp] theorem State.withDm_icache (d : Dm) : (s.withDm d).icache = s.icache := rfl
@[simp] theorem State.withDm_dma (d : Dm) : (s.withDm d).dma = s.dma := rfl
@[simp] theorem State.withDm_hart (d : Dm) : (s.withDm d).hart = s.hart := rfl
@[simp] theorem State.withDm_dm (d : Dm) : (s.withDm d).dm = d := rfl
@[simp] theorem State.withDm_dtm (d : Dm) : (s.withDm d).dtm = s.dtm := rfl
@[simp] theorem State.withDm_sync (d : Dm) : (s.withDm d).sync = s.sync := rfl

/-! ### setActivity: Change the activity state (R550). -/

@[simp] theorem State.setActivity_cfg (a : Activity) : (s.setActivity a).cfg = s.cfg := rfl
@[simp] theorem State.setActivity_inputs (a : Activity) : (s.setActivity a).inputs = s.inputs := rfl
@[simp] theorem State.setActivity_env (a : Activity) : (s.setActivity a).env = s.env := rfl
@[simp] theorem State.setActivity_draws (a : Activity) : (s.setActivity a).draws = s.draws := rfl
@[simp] theorem State.setActivity_pins (a : Activity) : (s.setActivity a).pins = s.pins := rfl
@[simp] theorem State.setActivity_outs (a : Activity) : (s.setActivity a).outs = s.outs := rfl
@[simp] theorem State.setActivity_x (a : Activity) : (s.setActivity a).x = s.x := rfl
@[simp] theorem State.setActivity_pc (a : Activity) : (s.setActivity a).pc = s.pc := rfl
@[simp] theorem State.setActivity_csr (a : Activity) : (s.setActivity a).csr = s.csr := rfl
@[simp] theorem State.setActivity_pic (a : Activity) : (s.setActivity a).pic = s.pic := rfl
@[simp] theorem State.setActivity_iccm (a : Activity) : (s.setActivity a).iccm = s.iccm := rfl
@[simp] theorem State.setActivity_dccm (a : Activity) : (s.setActivity a).dccm = s.dccm := rfl
@[simp] theorem State.setActivity_soc (a : Activity) : (s.setActivity a).soc = s.soc := rfl
@[simp] theorem State.setActivity_lsu (a : Activity) : (s.setActivity a).lsu = s.lsu := rfl
@[simp] theorem State.setActivity_icache (a : Activity) : (s.setActivity a).icache = s.icache := rfl
@[simp] theorem State.setActivity_dma (a : Activity) : (s.setActivity a).dma = s.dma := rfl
@[simp] theorem State.setActivity_hart (a : Activity) : (s.setActivity a).hart = { s.hart with activity := a } := rfl
@[simp] theorem State.setActivity_dm (a : Activity) : (s.setActivity a).dm = s.dm := rfl
@[simp] theorem State.setActivity_dtm (a : Activity) : (s.setActivity a).dtm = s.dtm := rfl
@[simp] theorem State.setActivity_sync (a : Activity) : (s.setActivity a).sync = s.sync := rfl

/-! ### picWrite: Write a PIC register (R493). -/

@[simp] theorem State.picWrite_cfg (r : PicReg) (v : Word) : (s.picWrite r v).cfg = s.cfg := rfl
@[simp] theorem State.picWrite_inputs (r : PicReg) (v : Word) : (s.picWrite r v).inputs = s.inputs := rfl
@[simp] theorem State.picWrite_env (r : PicReg) (v : Word) : (s.picWrite r v).env = s.env := rfl
@[simp] theorem State.picWrite_draws (r : PicReg) (v : Word) : (s.picWrite r v).draws = s.draws := rfl
@[simp] theorem State.picWrite_pins (r : PicReg) (v : Word) : (s.picWrite r v).pins = s.pins := rfl
@[simp] theorem State.picWrite_outs (r : PicReg) (v : Word) : (s.picWrite r v).outs = s.outs := rfl
@[simp] theorem State.picWrite_x (r : PicReg) (v : Word) : (s.picWrite r v).x = s.x := rfl
@[simp] theorem State.picWrite_pc (r : PicReg) (v : Word) : (s.picWrite r v).pc = s.pc := rfl
@[simp] theorem State.picWrite_csr (r : PicReg) (v : Word) : (s.picWrite r v).csr = s.csr := rfl
@[simp] theorem State.picWrite_pic (r : PicReg) (v : Word) : (s.picWrite r v).pic = s.pic.write r v := rfl
@[simp] theorem State.picWrite_iccm (r : PicReg) (v : Word) : (s.picWrite r v).iccm = s.iccm := rfl
@[simp] theorem State.picWrite_dccm (r : PicReg) (v : Word) : (s.picWrite r v).dccm = s.dccm := rfl
@[simp] theorem State.picWrite_soc (r : PicReg) (v : Word) : (s.picWrite r v).soc = s.soc := rfl
@[simp] theorem State.picWrite_lsu (r : PicReg) (v : Word) : (s.picWrite r v).lsu = s.lsu := rfl
@[simp] theorem State.picWrite_icache (r : PicReg) (v : Word) : (s.picWrite r v).icache = s.icache := rfl
@[simp] theorem State.picWrite_dma (r : PicReg) (v : Word) : (s.picWrite r v).dma = s.dma := rfl
@[simp] theorem State.picWrite_hart (r : PicReg) (v : Word) : (s.picWrite r v).hart = s.hart := rfl
@[simp] theorem State.picWrite_dm (r : PicReg) (v : Word) : (s.picWrite r v).dm = s.dm := rfl
@[simp] theorem State.picWrite_dtm (r : PicReg) (v : Word) : (s.picWrite r v).dtm = s.dtm := rfl

/-! ### capture: Capture the claim (R510). -/

@[simp] theorem State.capture_cfg : s.capture.cfg = s.cfg := rfl
@[simp] theorem State.capture_inputs : s.capture.inputs = s.inputs := rfl
@[simp] theorem State.capture_env : s.capture.env = s.env := rfl
@[simp] theorem State.capture_draws : s.capture.draws = s.draws := rfl
@[simp] theorem State.capture_pins : s.capture.pins = s.pins := rfl
@[simp] theorem State.capture_outs : s.capture.outs = s.outs := rfl
@[simp] theorem State.capture_x : s.capture.x = s.x := rfl
@[simp] theorem State.capture_pc : s.capture.pc = s.pc := rfl
@[simp] theorem State.capture_csr : s.capture.csr = { s.csr with claimid := s.picEval.2, meicidpl := inv s.picSeen.priord s.picEval.1 } := rfl
@[simp] theorem State.capture_pic : s.capture.pic = s.pic := rfl
@[simp] theorem State.capture_iccm : s.capture.iccm = s.iccm := rfl
@[simp] theorem State.capture_dccm : s.capture.dccm = s.dccm := rfl
@[simp] theorem State.capture_soc : s.capture.soc = s.soc := rfl
@[simp] theorem State.capture_lsu : s.capture.lsu = s.lsu := rfl
@[simp] theorem State.capture_icache : s.capture.icache = s.icache := rfl
@[simp] theorem State.capture_dma : s.capture.dma = s.dma := rfl
@[simp] theorem State.capture_hart : s.capture.hart = s.hart := rfl
@[simp] theorem State.capture_dm : s.capture.dm = s.dm := rfl
@[simp] theorem State.capture_dtm : s.capture.dtm = s.dtm := rfl
@[simp] theorem State.capture_sync : s.capture.sync = s.sync := rfl

/-! ### gwTick: One gateway clock (R501). -/

@[simp] theorem State.gwTick_cfg : s.gwTick.cfg = s.cfg := rfl
@[simp] theorem State.gwTick_inputs : s.gwTick.inputs = s.inputs := rfl
@[simp] theorem State.gwTick_env : s.gwTick.env = s.env := rfl
@[simp] theorem State.gwTick_draws : s.gwTick.draws = s.draws := rfl
@[simp] theorem State.gwTick_pins : s.gwTick.pins = s.pins := rfl
@[simp] theorem State.gwTick_outs : s.gwTick.outs = s.outs := rfl
@[simp] theorem State.gwTick_x : s.gwTick.x = s.x := rfl
@[simp] theorem State.gwTick_pc : s.gwTick.pc = s.pc := rfl
@[simp] theorem State.gwTick_csr : s.gwTick.csr = s.csr := rfl
@[simp] theorem State.gwTick_iccm : s.gwTick.iccm = s.iccm := rfl
@[simp] theorem State.gwTick_dccm : s.gwTick.dccm = s.dccm := rfl
@[simp] theorem State.gwTick_soc : s.gwTick.soc = s.soc := rfl
@[simp] theorem State.gwTick_lsu : s.gwTick.lsu = s.lsu := rfl
@[simp] theorem State.gwTick_icache : s.gwTick.icache = s.icache := rfl
@[simp] theorem State.gwTick_dma : s.gwTick.dma = s.dma := rfl
@[simp] theorem State.gwTick_hart : s.gwTick.hart = s.hart := rfl
@[simp] theorem State.gwTick_dm : s.gwTick.dm = s.dm := rfl
@[simp] theorem State.gwTick_dtm : s.gwTick.dtm = s.dtm := rfl

/-! ### busStore: Enter the write buffer (R155). -/

@[simp] theorem State.busStore_cfg (a : Word) (n : Nat) (v : Word) (side : Bool) : (s.busStore a n v side).cfg = s.cfg := rfl
@[simp] theorem State.busStore_inputs (a : Word) (n : Nat) (v : Word) (side : Bool) : (s.busStore a n v side).inputs = s.inputs := rfl
@[simp] theorem State.busStore_env (a : Word) (n : Nat) (v : Word) (side : Bool) : (s.busStore a n v side).env = s.env := rfl
@[simp] theorem State.busStore_draws (a : Word) (n : Nat) (v : Word) (side : Bool) : (s.busStore a n v side).draws = s.draws := rfl
@[simp] theorem State.busStore_pins (a : Word) (n : Nat) (v : Word) (side : Bool) : (s.busStore a n v side).pins = s.pins := rfl
@[simp] theorem State.busStore_outs (a : Word) (n : Nat) (v : Word) (side : Bool) : (s.busStore a n v side).outs = s.outs := rfl
@[simp] theorem State.busStore_x (a : Word) (n : Nat) (v : Word) (side : Bool) : (s.busStore a n v side).x = s.x := rfl
@[simp] theorem State.busStore_pc (a : Word) (n : Nat) (v : Word) (side : Bool) : (s.busStore a n v side).pc = s.pc := rfl
@[simp] theorem State.busStore_csr (a : Word) (n : Nat) (v : Word) (side : Bool) : (s.busStore a n v side).csr = s.csr := rfl
@[simp] theorem State.busStore_pic (a : Word) (n : Nat) (v : Word) (side : Bool) : (s.busStore a n v side).pic = s.pic := rfl
@[simp] theorem State.busStore_iccm (a : Word) (n : Nat) (v : Word) (side : Bool) : (s.busStore a n v side).iccm = s.iccm := rfl
@[simp] theorem State.busStore_dccm (a : Word) (n : Nat) (v : Word) (side : Bool) : (s.busStore a n v side).dccm = s.dccm := rfl
@[simp] theorem State.busStore_soc (a : Word) (n : Nat) (v : Word) (side : Bool) : (s.busStore a n v side).soc = s.soc := rfl
@[simp] theorem State.busStore_icache (a : Word) (n : Nat) (v : Word) (side : Bool) : (s.busStore a n v side).icache = s.icache := rfl
@[simp] theorem State.busStore_dma (a : Word) (n : Nat) (v : Word) (side : Bool) : (s.busStore a n v side).dma = s.dma := rfl
@[simp] theorem State.busStore_hart (a : Word) (n : Nat) (v : Word) (side : Bool) : (s.busStore a n v side).hart = s.hart := rfl
@[simp] theorem State.busStore_dm (a : Word) (n : Nat) (v : Word) (side : Bool) : (s.busStore a n v side).dm = s.dm := rfl
@[simp] theorem State.busStore_dtm (a : Word) (n : Nat) (v : Word) (side : Bool) : (s.busStore a n v side).dtm = s.dtm := rfl
@[simp] theorem State.busStore_sync (a : Word) (n : Nat) (v : Word) (side : Bool) : (s.busStore a n v side).sync = s.sync := rfl

/-- Two states with equal fields are equal. -/
theorem State.eq_of {s t : State} (h0 : t.cfg = s.cfg) (h1 : t.inputs = s.inputs) (h2 : t.env = s.env) (h3 : t.draws = s.draws) (h4 : t.pins = s.pins) (h5 : t.outs = s.outs) (h6 : t.x = s.x) (h7 : t.pc = s.pc) (h8 : t.csr = s.csr) (h9 : t.pic = s.pic) (h10 : t.iccm = s.iccm) (h11 : t.dccm = s.dccm) (h12 : t.soc = s.soc) (h13 : t.lsu = s.lsu) (h14 : t.icache = s.icache) (h15 : t.dma = s.dma) (h16 : t.hart = s.hart) (h17 : t.dm = s.dm) (h18 : t.dtm = s.dtm) (h19 : t.sync = s.sync) : t = s := by
  cases s; cases t; simp_all

end Sys2Proof.Machine
end

