-- ==== Sys2Proof/Laws/Ops.lean ====
section
/-! SUPPORT. What each shared operation over registers, counters and traps can do, said once. -/

set_option Elab.async false

namespace Sys2Proof.Machine

/-! ### Registers -/

@[simp] theorem State.getReg_zero (s : State) : s.getReg 0#5 = 0#32 := rfl

/-- The registers decide what `getReg` reads. -/
theorem State.getReg_congr {s t : State} (h : t.x = s.x) (r : Reg) : t.getReg r = s.getReg r := by
  simp only [State.getReg, h]

/-- A register write sets its register, unless it is x0, and no other. -/
theorem State.getReg_setReg (s : State) (rd : Reg) (v : Word) (r : Reg) :
    (s.setReg rd v).getReg r = if r = rd ∧ rd ≠ 0#5 then v else s.getReg r := by
  by_cases h0 : rd = 0#5
  · simp [State.setReg, h0]
  · by_cases hr : r = 0#5
    · subst hr
      have : ¬ (0#5 = rd) := fun h => h0 h.symm
      simp [this]
    · simp only [State.getReg, State.setReg, if_neg h0, if_neg hr, Vector.getElem_set]
      by_cases e : r = rd
      · subst e; simp [h0]
      · have : ¬ rd.toNat = r.toNat := fun h => e (BitVec.eq_of_toNat_eq h.symm)
        simp [this, e]

/-- x0 is hard-wired to 0 (R20). -/
@[simp] theorem State.setReg_zero (s : State) (v : Word) : s.setReg 0#5 v = s := rfl

/-! ### Memory as a whole -/

/-- What a byte of memory is depends on these fields only. -/
theorem sameMemory_of {s t : State} (hc : t.cfg = s.cfg) (hd : t.dccm = s.dccm) (hi : t.iccm = s.iccm)
    (hs : t.soc = s.soc) (hl : t.lsu = s.lsu) : SameMemory s t := by
  refine ⟨fun a => ?_, hi⟩
  simp only [State.byte?, State.inDccm, State.pendingByte, hc, hd, hs, hl]
  rfl

/-! ### Counting (R574-R577) -/

/-- One event counter after an addition. -/
theorem hpmAdd_get (sel : Vector (BitVec 6) 4) (cnt : Vector (BitVec 64) 4) (k : Nat → Nat) (i : Fin 4) :
    (hpmAdd sel cnt k)[i] = hpmOne sel[i] cnt[i] k := by
  match i with
  | 0 => rfl
  | 1 => rfl
  | 2 => rfl
  | 3 => rfl

/-- countEvents changes the event counters only. -/
theorem State.countEvents_csr (s : State) (es : List Nat) :
    (s.countEvents es).csr = { s.csr with mhpm := (s.countEvents es).csr.mhpm } := by
  simp only [State.countEvents]; split <;> rfl

/-- countEvents counts each listed event on the counters that select it, if counting is enabled. -/
theorem State.countEvents_get (s : State) (es : List Nat) (i : Fin 4) :
    (s.countEvents es).csr.mhpm[i] =
      if s.counting ∧ s.csr.mhpmevent[i] ≠ 0#6 then
        s.csr.mhpm[i] + BitVec.ofNat 64 (es.count (s.csr.mhpmevent[i]).toNat)
      else s.csr.mhpm[i] := by
  simp only [State.countEvents]
  by_cases h : s.counting = true
  · simp only [if_pos h, State.addEvents_csr, hpmAdd_get, hpmOne]
    by_cases e : s.csr.mhpmevent[i] = 0#6 <;> simp [h, e]
  · simp [h]

/-- Retiring counts in minstret and the event counters, and changes no other CSR. -/
theorem State.retire_csr (s : State) (len : Len) (es : List Nat) :
    (s.retire len es).csr =
      { s.csr with minstret := s.csr.minstret + 1#64, mhpm := (s.retire len es).csr.mhpm } := by
  simp only [State.retire]
  rw [State.countEvents_csr]; simp

/-- The events that a retirement counts. -/
theorem State.retire_counted (s : State) (len : Len) (es open_ : List Nat) :
    Counted s (s.retire len es) (4 :: Len.event len :: es) open_ := by
  intro i _
  exact State.countEvents_get s.bumpInstret (4 :: Len.event len :: es) i

@[simp] theorem State.getReg_retire (s : State) (len : Len) (es : List Nat) (r : Reg) :
    (s.retire len es).getReg r = s.getReg r := State.getReg_congr (by simp) r

@[simp] theorem State.getReg_setPc (s : State) (t : Word) (r : Reg) : (s.setPc t).getReg r = s.getReg r := rfl

@[simp] theorem State.getReg_advance (s : State) (len : Len) (r : Reg) : (s.advance len).getReg r = s.getReg r := rfl

@[simp] theorem State.setReg_counting (s : State) (rd : Reg) (v : Word) :
    (s.setReg rd v).counting = s.counting := by simp [State.counting, State.stopcount]

/-- The counters see the state before a register write. -/
theorem Counted.of_setReg {s t : State} {rd : Reg} {v : Word} {es open_ : List Nat}
    (h : Counted (s.setReg rd v) t es open_) : Counted s t es open_ := by
  intro i hi
  have := h i (by simpa using hi)
  simpa using this

/-! ### The shapes of the computational instructions -/

/-- Everything a computation that writes `rd` and goes on does. -/
theorem State.setReg_finish_spec (s : State) (len : Len) (es : List Nat) (rd : Reg) (v : Word) :
    Retires len es [] rd v (s.pc + len.bytes) s ((s.setReg rd v).finish len es) where
  reg := fun r => by simp [State.finish, State.getReg_setReg]
  pc := by simp
  counts := by
    have := Counted.of_setReg (State.retire_counted (s.setReg rd v) len es [])
    intro i hi
    simpa [State.finish] using this i hi
  frame := by
    have hc := State.retire_csr (s.setReg rd v) len es
    exact State.eq_of (by simp) (by simp) (by simp) rfl (by simp) (by simp) rfl rfl (by simpa [State.finish] using hc)
      (by simp) (by simp) (by simp) (by simp) (by simp) (by simp) (by simp) (by simp) (by simp) (by simp) (by simp)
  memory := sameMemory_of (by simp) (by simp) (by simp) (by simp) (by simp)

/-- Everything an ALU operation does (R260). -/
theorem State.aluOp_spec (s : State) (len : Len) (rd : Reg) (v : Word) :
    Retires len [15] [] rd v (s.pc + len.bytes) s (s.aluOp len rd v) := State.setReg_finish_spec s len [15] rd v

/-- Everything a multiplication or division does (R340). -/
theorem State.mulOp_spec (s : State) (event : Nat) (rd : Reg) (v : Word) :
    Retires .word [event] [] rd v (s.pc + 4#32) s (s.mulOp event rd v) := State.setReg_finish_spec s .word [event] rd v

/-- Counting more events changes nothing on a counter that selects none of them. -/
theorem count_append_of_not_mem {n : Nat} {es more : List Nat} (h : n ∉ more) : (es ++ more).count n = es.count n := by
  rw [List.count_append, List.count_eq_zero_of_not_mem h, Nat.add_zero]

/-- The open events that happened are among those listed. -/
theorem State.mem_opened {s : State} {open_ : List Nat} {n : Nat} (h : n ∉ open_) : n ∉ s.opened open_ := by
  intro hm
  simp only [State.opened, List.mem_map, List.mem_filter] at hm
  obtain ⟨⟨a, i⟩, ⟨hz, _⟩, rfl⟩ := hm
  exact h (List.fst_mem_of_mem_zipIdx hz)

/-- Everything an instruction does that writes `rd`, counts events some of which are open, and goes to `target`. -/
theorem State.retireOpen_spec (s : State) (len : Len) (es open_ : List Nat) (rd : Reg) (v target : Word) :
    Retires len es open_ rd v target s (((s.setReg rd v).retireOpen len es open_).setPc target) where
  reg := fun r => by
    rw [← State.getReg_setReg]
    exact State.getReg_congr (by simp [State.retireOpen]) r
  pc := rfl
  counts := by
    have h := Counted.of_setReg
      (State.retire_counted (s.setReg rd v) len (es ++ (s.setReg rd v).opened open_) open_)
    intro i hi
    have := h i hi
    have hm := State.mem_opened (s := s.setReg rd v) hi
    rw [show 4 :: Len.event len :: (es ++ (s.setReg rd v).opened open_) =
      (4 :: Len.event len :: es) ++ (s.setReg rd v).opened open_ from rfl, count_append_of_not_mem hm] at this
    exact this
  frame := by
    have hc := State.retire_csr (s.setReg rd v) len (es ++ (s.setReg rd v).opened open_)
    exact State.eq_of (by simp [State.retireOpen]) (by simp [State.retireOpen]) (by simp [State.retireOpen]) rfl
      (by simp [State.retireOpen]) (by simp [State.retireOpen]) rfl rfl (by simpa [State.retireOpen] using hc)
      (by simp [State.retireOpen]) (by simp [State.retireOpen]) (by simp [State.retireOpen]) (by simp [State.retireOpen])
      (by simp [State.retireOpen]) (by simp [State.retireOpen]) (by simp [State.retireOpen]) (by simp [State.retireOpen])
      (by simp [State.retireOpen]) (by simp [State.retireOpen]) (by simp [State.retireOpen])
  memory := sameMemory_of (by simp [State.retireOpen]) (by simp [State.retireOpen]) (by simp [State.retireOpen])
    (by simp [State.retireOpen]) (by simp [State.retireOpen])

/-- Everything an unconditional transfer does (R300). -/
theorem State.jumpOp_spec (s : State) (len : Len) (rd : Reg) (target : Word) :
    Retires len [] [15, 24, 26] rd (s.pc + len.bytes) target s (s.jumpOp len rd target) :=
  State.retireOpen_spec s len [] [15, 24, 26] rd _ target

/-- Everything a conditional branch does (R304-R309). -/
theorem State.branchOp_spec (s : State) (len : Len) (taken : Bool) (off : Word) :
    Retires len (24 :: (if taken then [26] else [])) [15] 0#5 0#32 (if taken then s.pc + off else s.pc + len.bytes) s
      (s.branchOp len taken off) :=
  State.retireOpen_spec s len (24 :: (if taken then [26] else [])) [15] 0#5 0#32 _

end Sys2Proof.Machine
end

