-- ==== Sys2Proof/Laws/Bus.lean ====
section
/-! SUPPORT. The LSU's buffers: what sending and answering transactions can change, and that no byte changes as the hart sees it
when the SoC answers as memory. -/

set_option Elab.async false

namespace Sys2Proof.Machine

/-! ### What the bus side changes -/

/-- Only buffers, the SoC, its answers, the requests seen on the bus, free values and the error capture differ. -/
def BusFrame (s t : State) : Prop :=
  t = { s with
    env := { s.env with replies := t.env.replies }
    outs := { s.outs with bus := t.outs.bus }
    draws := t.draws
    lsu := t.lsu
    soc := t.soc
    csr := { s.csr with mdseac := t.csr.mdseac, mdseacLocked := t.csr.mdseacLocked }
    hart := { s.hart with nmiBus := t.hart.nmiBus } }

theorem BusFrame.refl (s : State) : BusFrame s s := rfl

theorem BusFrame.trans {s u t : State} (h1 : BusFrame s u) (h2 : BusFrame u t) : BusFrame s t := by
  unfold BusFrame at *
  calc t = _ := h2
    _ = _ := by rw [h1]

theorem State.reportBusError_frame (s : State) (l : Bool) (a : Word) : BusFrame s (s.reportBusError l a) := by
  unfold State.reportBusError; split <;> rfl

theorem State.takeReply_frame (s : State) : BusFrame s s.takeReply.2 := by
  unfold State.takeReply; split <;> rfl

/-- A failed write changes nothing of the bus frame but the SoC's memory and the counter of free values. -/
theorem State.failWrite_frame (s : State) (ps : List Word) : BusFrame s (s.failWrite ps) := rfl

theorem State.complete_frame (s : State) (t : Txn) (e : Bool) : BusFrame s (s.complete t e) := by
  unfold State.complete
  split
  · split
    · exact State.reportBusError_frame _ _ _
    · rfl
  · split
    · exact (State.failWrite_frame _ _).trans (State.reportBusError_frame _ _ _)
    · rfl

theorem State.completeList_frame (ts : List Txn) (s : State) : BusFrame s (State.completeList ts s) := by
  induction ts generalizing s with
  | nil => rfl
  | cons t ts ih =>
    cases t with
    | load a e => exact (State.complete_frame s _ e).trans (ih _)
    | store p => exact ((State.takeReply_frame s).trans (State.complete_frame _ _ _)).trans (ih _)

theorem State.completeAll_frame (s : State) : BusFrame s s.completeAll :=
  BusFrame.trans (by rfl) (State.completeList_frame _ _)

theorem State.completeOldest_frame (s : State) : BusFrame s s.completeOldest := by
  unfold State.completeOldest
  split
  · rfl
  · exact BusFrame.trans (by rfl) (State.completeList_frame _ _)

theorem State.makeRoom_frame (s : State) : BusFrame s s.makeRoom := by
  have h1 : ∃ u, (if (s.sespd && (sentStores s.lsu.busOut).any (·.side)) = true then s.completeAll else s) = u ∧
      BusFrame s u := by
    refine ⟨_, rfl, ?_⟩
    split
    · exact s.completeAll_frame
    · rfl
  obtain ⟨u, hu, h1⟩ := h1
  simp only [State.makeRoom, hu]
  split
  · exact h1.trans (State.completeOldest_frame u)
  · exact h1

theorem State.sendOne_frame (s : State) : BusFrame s s.sendOne := by
  unfold State.sendOne
  split
  · rfl
  · exact (State.makeRoom_frame s).trans (by rfl)

theorem State.sendN_frame (n : Nat) (s : State) : BusFrame s (State.sendN n s) := by
  induction n generalizing s with
  | zero => rfl
  | succ n ih => exact (State.sendOne_frame s).trans (ih _)

theorem State.drain_frame (s : State) : BusFrame s s.drain := State.sendN_frame _ s

/-- Quiescing changes buffers, the SoC and the error capture only. -/
theorem State.quiesce_frame (s : State) : BusFrame s s.quiesce := (State.drain_frame s).trans (State.completeAll_frame _)

/-! ### Fields that BusFrame keeps -/

section
variable {s t : State} (h : BusFrame s t)
include h

theorem BusFrame.cfg : t.cfg = s.cfg := by rw [h]
theorem BusFrame.x : t.x = s.x := by rw [h]
theorem BusFrame.pc : t.pc = s.pc := by rw [h]
theorem BusFrame.pins : t.pins = s.pins := by rw [h]
theorem BusFrame.pic : t.pic = s.pic := by rw [h]
theorem BusFrame.iccm : t.iccm = s.iccm := by rw [h]
theorem BusFrame.dccm : t.dccm = s.dccm := by rw [h]
theorem BusFrame.icache : t.icache = s.icache := by rw [h]
theorem BusFrame.sync : t.sync = s.sync := by rw [h]
theorem BusFrame.activity : t.hart.activity = s.hart.activity := by rw [h]
end

/-! ### The newest store to a byte -/

/-- The fold of `newest` from any start. -/
theorem newest_foldl (ps : List PendStore) (a : Word) (acc : Option (Byte × PendStore)) :
    ps.foldl (fun acc p => ((p.byte? a).map (fun b => (b, p))).or acc) acc = (newest ps a).or acc := by
  induction ps generalizing acc with
  | nil => simp [newest]
  | cons p ps ih =>
    simp only [newest, List.foldl_cons]
    rw [ih, ih]
    cases h : p.byte? a <;> simp

/-- The newest store of a list: in the tail, else the head. -/
theorem newest_cons (p : PendStore) (ps : List PendStore) (a : Word) :
    newest (p :: ps) a = (newest ps a).or ((p.byte? a).map (·, p)) := by
  rw [newest, List.foldl_cons, newest_foldl]
  cases p.byte? a <;> simp

theorem newest_append (ps qs : List PendStore) (a : Word) : newest (ps ++ qs) a = (newest qs a).or (newest ps a) := by
  rw [newest, List.foldl_append, newest_foldl]; rfl

theorem newest_nil (a : Word) : newest [] a = none := rfl

/-- The byte a list of stores, oldest first, leaves over what lies beneath. -/
def overlay (ps : List PendStore) (m : Memory) (a : Word) : Option Byte :=
  ((newest ps a).map (·.1)).or (m.get? a.toNat)

theorem overlay_cons (p : PendStore) (ps : List PendStore) (m : Memory) (a : Word) :
    overlay (p :: ps) m a = overlay ps (m.putAll p.bytes) a := by
  rw [overlay, overlay, newest_cons, Memory.get?_putAll, PendStore.byte?]
  cases newest ps a <;> cases lastAt p.bytes a <;> simp

/-- Combining two stores of a buffer changes no byte that it leaves (R157). -/
theorem newest_mergeStores (i : Nat) (ps : List PendStore) (a : Word) :
    (newest (mergeStores i ps) a).map (·.1) = (newest ps a).map (·.1) := by
  induction i generalizing ps with
  | zero =>
    match ps with
    | [] => rfl
    | [p] => rfl
    | p :: q :: ps =>
      simp only [mergeStores]
      split
      · simp only [newest_cons, PendStore.byte?, lastAt_append]
        cases newest ps a <;> cases lastAt q.bytes a <;> cases lastAt p.bytes a <;> simp
      · rfl
  | succ i ih =>
    cases ps with
    | nil => rfl
    | cons p ps =>
      have := ih ps
      simp only [mergeStores, newest_cons]
      cases h1 : newest (mergeStores i ps) a <;> cases h2 : newest ps a <;> simp_all

/-! ### No byte changes as the hart sees it -/

/-- The stores the hart has not been answered for, oldest first. -/
def State.unanswered (s : State) : List PendStore := sentStores s.lsu.busOut ++ s.lsu.wbuf

/-- What a byte of data memory is. -/
theorem State.byte?_eq (s : State) (a : Word) :
    s.byte? a = if s.inDccm a then s.dccm.get? a.toNat else overlay s.unanswered s.soc a := by
  unfold State.byte? State.pendingByte overlay State.unanswered
  split
  · rfl
  · cases newest (sentStores s.lsu.busOut ++ s.lsu.wbuf) a <;> rfl

/-- The bus has moved stores on without changing any byte as the hart sees it. -/
structure Settled (s t : State) : Prop where
  frame : BusFrame s t
  env : t.env = s.env
  bytes : ∀ a, overlay t.unanswered t.soc a = overlay s.unanswered s.soc a

theorem Settled.refl (s : State) : Settled s s := ⟨rfl, rfl, fun _ => rfl⟩

theorem Settled.trans {s u t : State} (h1 : Settled s u) (h2 : Settled u t) : Settled s t :=
  ⟨h1.frame.trans h2.frame, h2.env.trans h1.env, fun a => (h2.bytes a).trans (h1.bytes a)⟩

/-- Data memory reads the same. -/
theorem Settled.byte? {s t : State} (h : Settled s t) (a : Word) : t.byte? a = s.byte? a := by
  rw [State.byte?_eq, State.byte?_eq, h.bytes, h.frame.dccm]
  simp only [State.inDccm, h.frame.cfg]
  rfl

theorem sentStores_cons_load (a : Word) (e : Bool) (ts : List Txn) : sentStores (.load a e :: ts) = sentStores ts := rfl

theorem sentStores_cons_store (p : PendStore) (ts : List Txn) : sentStores (.store p :: ts) = p :: sentStores ts := rfl

theorem sentStores_append (ts us : List Txn) : sentStores (ts ++ us) = sentStores ts ++ sentStores us := by
  simp [sentStores]

theorem reportBusError_lsu_soc (s : State) (l : Bool) (a : Word) :
    (s.reportBusError l a).lsu = s.lsu ∧ (s.reportBusError l a).soc = s.soc ∧ (s.reportBusError l a).env = s.env := by
  simp

/-- With plain answers, completing the oldest transactions `ts`, of which `rest` then stay, changes no byte. -/
theorem State.completeList_settled (ts rest : List Txn) (s : State) (hr : s.env.replies = [])
    (hb : s.lsu.busOut = rest) :
    let t := State.completeList ts s
    BusFrame s t ∧ t.env = s.env ∧ t.lsu = s.lsu ∧
      ∀ a, overlay (sentStores rest ++ s.lsu.wbuf) t.soc a = overlay (sentStores ts ++ sentStores rest ++ s.lsu.wbuf) s.soc a := by
  induction ts generalizing s with
  | nil => exact ⟨rfl, rfl, rfl, fun _ => rfl⟩
  | cons t ts ih =>
    cases t with
    | load a e =>
      simp only [State.completeList]
      have hc : (s.complete (.load a e) e).lsu = s.lsu ∧ (s.complete (.load a e) e).soc = s.soc ∧
          (s.complete (.load a e) e).env = s.env := by
        simp only [State.complete]; split <;> simp
      obtain ⟨hl, ho, he⟩ := hc
      have := ih (s.complete (.load a e) e) (by rw [he, hr]) (by rw [hl]; exact hb)
      simp only [hl, ho, he] at this
      exact ⟨(State.complete_frame _ _ _).trans this.1, this.2.1, this.2.2.1, this.2.2.2⟩
    | store p =>
      have hk : s.takeReply = (.mem, s) := by simp [State.takeReply, hr]
      have hc : s.complete (.store p) (Reply.mem == Reply.error) = { s with soc := s.soc.putAll p.bytes } := rfl
      simp only [State.completeList, hk, hc]
      have := ih { s with soc := s.soc.putAll p.bytes } hr hb
      refine ⟨BusFrame.trans (by rfl) this.1, this.2.1, this.2.2.1, fun a => ?_⟩
      rw [this.2.2.2 a, sentStores_cons_store, List.cons_append, List.cons_append, overlay_cons]

theorem State.completeAll_settled (s : State) (hr : s.env.replies = []) :
    Settled s s.completeAll ∧ s.completeAll.lsu = { s.lsu with busOut := [] } := by
  have h := State.completeList_settled s.lsu.busOut [] { s with lsu := { s.lsu with busOut := [] } } hr rfl
  obtain ⟨h1, h2, h3, h4⟩ := h
  have hl : s.completeAll.lsu = { s.lsu with busOut := [] } := h3
  refine ⟨⟨State.completeAll_frame s, h2, fun a => ?_⟩, hl⟩
  have := h4 a
  simp only [State.unanswered, hl]
  simpa [sentStores, State.completeAll] using this

theorem State.completeOldest_settled (s : State) (hr : s.env.replies = []) :
    Settled s s.completeOldest ∧ s.completeOldest.lsu = { s.lsu with busOut := s.lsu.busOut.tail } := by
  cases hb : s.lsu.busOut with
  | nil =>
    have : s.completeOldest = s := by simp [State.completeOldest, hb]
    rw [this]
    refine ⟨Settled.refl s, ?_⟩
    rw [List.tail_nil, ← hb]
  | cons t ts =>
    have he : s.completeOldest = State.completeList [t] { s with lsu := { s.lsu with busOut := ts } } := by
      simp [State.completeOldest, hb]
    have hu : s.unanswered = sentStores [t] ++ sentStores ts ++ s.lsu.wbuf := by
      rw [State.unanswered, hb, ← sentStores_append]; rfl
    have h := State.completeList_settled [t] ts { s with lsu := { s.lsu with busOut := ts } } hr rfl
    obtain ⟨h1, h2, h3, h4⟩ := h
    rw [he]
    refine ⟨⟨BusFrame.trans (by rfl) h1, h2, fun a => ?_⟩, h3⟩
    have := h4 a
    rw [hu]
    simpa only [State.unanswered, h3] using this

theorem State.makeRoom_settled (s : State) (hr : s.env.replies = []) :
    Settled s s.makeRoom ∧ s.makeRoom.lsu.wbuf = s.lsu.wbuf ∧
      (s.lsu.busOut.length ≤ 255 → s.makeRoom.lsu.busOut.length ≤ 254) := by
  have h1 : ∃ u, (if (s.sespd && (sentStores s.lsu.busOut).any (·.side)) = true then s.completeAll else s) = u ∧
      Settled s u ∧ u.lsu.wbuf = s.lsu.wbuf ∧ u.lsu.busOut.length ≤ s.lsu.busOut.length := by
    refine ⟨_, rfl, ?_⟩
    split
    · have := State.completeAll_settled s hr
      exact ⟨this.1, by rw [this.2], by rw [this.2]; simp⟩
    · exact ⟨Settled.refl s, rfl, le_refl _⟩
  obtain ⟨u, hu, h1, hw, hlen⟩ := h1
  unfold State.makeRoom
  simp only [hu]
  split
  · have := State.completeOldest_settled u (by rw [h1.env, hr])
    refine ⟨h1.trans this.1, by rw [this.2]; exact hw, fun h => ?_⟩
    rw [this.2]; simp; omega
  · exact ⟨h1, hw, fun _ => by omega⟩

theorem State.sendOne_settled (s : State) (hr : s.env.replies = []) :
    Settled s s.sendOne ∧ s.sendOne.lsu.wbuf = s.lsu.wbuf.tail := by
  cases hw : s.lsu.wbuf with
  | nil =>
    have : s.sendOne = s := by simp [State.sendOne, hw]
    rw [this]; exact ⟨Settled.refl s, by simp [hw]⟩
  | cons p ps =>
    have h := State.makeRoom_settled s hr
    have hd : s.sendOne = { s.makeRoom.logBus (.write p) with lsu := { wbuf := ps, busOut := s.makeRoom.lsu.busOut ++ [.store p] } } := by
      simp [State.sendOne, hw]
    have hu : s.sendOne.unanswered = s.makeRoom.unanswered := by
      simp only [State.unanswered, h.2.1, hw, hd, sentStores_append]
      simp [sentStores]
    refine ⟨⟨State.sendOne_frame s, ?_, fun a => ?_⟩, by rw [hd]; rfl⟩
    · rw [hd]; exact h.1.env
    · rw [hu, ← h.1.bytes a, hd]; rfl

theorem State.sendN_settled (n : Nat) (s : State) (hr : s.env.replies = []) :
    Settled s (State.sendN n s) ∧ (State.sendN n s).lsu.wbuf = s.lsu.wbuf.drop n := by
  induction n generalizing s with
  | zero => exact ⟨Settled.refl s, rfl⟩
  | succ n ih =>
    have h := State.sendOne_settled s hr
    have h2 := ih s.sendOne (by rw [h.1.env, hr])
    refine ⟨h.1.trans h2.1, ?_⟩
    rw [State.sendN, h2.2, h.2]; simp

/-- Draining empties the write buffer and changes no byte as the hart sees it. -/
theorem State.drain_settled (s : State) (hr : s.env.replies = []) :
    Settled s s.drain ∧ s.drain.lsu.wbuf = [] := by
  have h := State.sendN_settled s.lsu.wbuf.length s hr
  exact ⟨h.1, by rw [State.drain, h.2]; simp⟩

/-- Quiescing empties both buffers and changes no byte as the hart sees it. -/
theorem State.quiesce_settled (s : State) (hr : s.env.replies = []) :
    Settled s s.quiesce ∧ s.quiesce.lsu = { wbuf := [], busOut := [] } := by
  have h := State.drain_settled s hr
  have h2 := State.completeAll_settled s.drain (by rw [h.1.env, hr])
  refine ⟨h.1.trans h2.1, ?_⟩
  rw [State.quiesce, h2.2]
  show Lsu.mk s.drain.lsu.wbuf [] = _
  rw [h.2]

/-- Combining stores changes no byte as the hart sees it. -/
theorem State.busMerge_settled (i : Nat) (s : State) : Settled s (s.busMerge i) := by
  refine ⟨?_, by simp, fun a => ?_⟩
  · unfold State.busMerge; split <;> rfl
  · unfold State.busMerge
    split
    · rfl
    · simp only [State.unanswered, overlay, newest_append]
      have := newest_mergeStores i s.lsu.wbuf a
      cases h1 : newest (mergeStores i s.lsu.wbuf) a <;> cases h2 : newest s.lsu.wbuf a <;> simp_all

/-! ### Answers in any order -/

theorem lastAt_filter (f : Word → Bool) (bs : List (Word × Byte)) (a : Word) :
    lastAt (bs.filter (fun b => f b.1)) a = if f a then lastAt bs a else none := by
  induction bs with
  | nil => simp [lastAt]
  | cons b bs ih =>
    by_cases hb : f b.1 <;> by_cases ha : b.1 = a <;> by_cases hf : f a <;> simp_all [lastAt]

/-- What the transactions that stay and those answered hold of a byte is what all of them held. -/
theorem pickTxns_newest (as : List (Nat × Bool)) (i : Nat) (ts : List Txn) (a : Word) :
    ((newest (sentStores (pickTxns as i ts).2) a).map (·.1)).or
        ((newest (sentStores ((pickTxns as i ts).1.map (·.1))) a).map (·.1)) =
      (newest (sentStores ts) a).map (·.1) := by
  induction ts generalizing i with
  | nil => rfl
  | cons t ts ih =>
    have := ih (i + 1)
    simp only [pickTxns]
    generalize pickTxns as (i + 1) ts = q at this
    obtain ⟨hit, rest⟩ := q
    simp only [] at this
    cases as.find? (fun x => x.1 == i) <;> cases t with
      | load _ _ => simpa [Txn.without, sentStores_cons_load] using this
      | store p =>
        simp only [Txn.without, List.map_cons, sentStores_cons_store, newest_cons, PendStore.byte?,
          lastAt_filter (fun x => (newest (sentStores (hit.map (·.1))) x).isNone)] at this ⊢
        cases h1 : newest (sentStores rest) a <;> cases h2 : newest (sentStores (hit.map (·.1))) a <;>
          cases h3 : newest (sentStores ts) a <;> cases h4 : lastAt p.bytes a <;> simp_all

theorem pickTxns_length_le (as : List (Nat × Bool)) (i : Nat) (ts : List Txn) : (pickTxns as i ts).2.length ≤ ts.length := by
  induction ts generalizing i with
  | nil => exact Nat.le_refl _
  | cons t ts ih =>
    have := ih (i + 1)
    simp only [pickTxns]
    split <;> simp <;> omega

/-- An answered transaction has the error flag of an answer. -/
theorem pickTxns_flag (as : List (Nat × Bool)) (i : Nat) (ts : List Txn) :
    ∀ t ∈ (pickTxns as i ts).1, ∃ x ∈ as, x.2 = t.2 := by
  induction ts generalizing i with
  | nil => simp [pickTxns]
  | cons t ts ih =>
    have := ih (i + 1)
    simp only [pickTxns]
    split
    · rename_i a ha
      intro u hu
      rcases List.mem_cons.mp hu with rfl | hu
      · exact ⟨a, List.mem_of_find?_eq_some ha, rfl⟩
      · exact this u hu
    · exact this

/-- Taking the loads first leaves the stores and their order. -/
theorem sentStores_loads_first (hit : List (Txn × Bool)) :
    sentStores ((hit.filter (·.1.isLoad) ++ hit.filter (!·.1.isLoad)).map (·.1)) = sentStores (hit.map (·.1)) := by
  rw [List.map_append, sentStores_append]
  have h0 : ∀ l : List (Txn × Bool), sentStores ((l.filter (·.1.isLoad)).map (·.1)) = [] := by
    intro l
    induction l with
    | nil => rfl
    | cons u l ih => obtain ⟨u, e⟩ := u; cases u <;> simp_all [Txn.isLoad, sentStores_cons_load]
  rw [h0, List.nil_append]
  induction hit with
  | nil => rfl
  | cons t hit ih => obtain ⟨t, e⟩ := t; cases t <;> simp_all [Txn.isLoad, sentStores_cons_load, sentStores_cons_store]

/-- Completing transactions without a store error: the stores' bytes reach the SoC, and the buffers stay. -/
theorem State.foldl_complete (hit : List (Txn × Bool)) (s : State) (hg : ∀ t ∈ hit, t.2 = false) :
    let t := hit.foldl (fun s t => s.complete t.1 t.2) s
    BusFrame s t ∧ t.env = s.env ∧ t.lsu = s.lsu ∧
      ∀ a, t.soc.get? a.toNat = overlay (sentStores (hit.map (·.1))) s.soc a := by
  induction hit generalizing s with
  | nil => exact ⟨rfl, rfl, rfl, fun _ => rfl⟩
  | cons t hit ih =>
    obtain ⟨t, e⟩ := t
    have he : e = false := hg _ List.mem_cons_self
    subst he
    have h := ih (s.complete t false) (fun x hx => hg x (List.mem_cons_of_mem _ hx))
    simp only [List.foldl_cons, List.map_cons] at h ⊢
    have hc : (s.complete t false).env = s.env ∧ (s.complete t false).lsu = s.lsu := by
      cases t with
      | load _ _ => simp only [State.complete]; split <;> simp
      | store p => exact ⟨rfl, rfl⟩
    refine ⟨(State.complete_frame _ _ _).trans h.1, h.2.1.trans hc.1, h.2.2.1.trans hc.2, fun a => ?_⟩
    rw [h.2.2.2 a]
    cases t with
    | load x e =>
      have : (s.complete (.load x e) false).soc = s.soc := by
        simp only [State.complete]; split <;> simp
      rw [this, sentStores_cons_load]
    | store p => rw [sentStores_cons_store, overlay_cons]; rfl

/-- Answers without an error, in any order, change no byte as the hart sees it (R154). -/
theorem State.busResp_settled (as : List (Nat × Bool)) (s : State) (hg : ∀ x ∈ as, x.2 = false) : Settled s (s.busResp as) := by
  have hn := pickTxns_newest as 0 s.lsu.busOut
  have hf := pickTxns_flag as 0 s.lsu.busOut
  unfold State.busResp
  generalize pickTxns as 0 s.lsu.busOut = q at hn hf
  obtain ⟨hit, rest⟩ := q
  simp only [] at hn hf ⊢
  have hm : ∀ t ∈ hit.filter (·.1.isLoad) ++ hit.filter (!·.1.isLoad), t.2 = false := by
    intro t ht
    obtain ⟨x, hx, he⟩ := hf t (by rcases List.mem_append.mp ht with ht | ht <;> exact List.mem_of_mem_filter ht)
    rw [← he, hg x hx]
  have hc := State.foldl_complete _ { s with lsu := { s.lsu with busOut := rest } } hm
  rw [sentStores_loads_first] at hc
  generalize List.foldl _ _ _ = t at hc ⊢
  obtain ⟨h1, h2, h3, h4⟩ := hc
  refine ⟨BusFrame.trans (by rfl) h1, h2, fun a => ?_⟩
  have := hn a
  simp only [overlay, State.unanswered, h3, h4 a, newest_append]
  cases e1 : newest s.lsu.wbuf a <;> cases e2 : newest (sentStores rest) a <;>
    cases e3 : newest (sentStores (hit.map (·.1))) a <;> cases e4 : newest (sentStores s.lsu.busOut) a <;> simp_all

/-! ### Lengths of the buffers, whatever the SoC answers -/

@[simp] theorem State.failWrite_lsu (s : State) (ps : List Word) : (s.failWrite ps).lsu = s.lsu := rfl

theorem State.complete_lsu (s : State) (t : Txn) (e : Bool) : (s.complete t e).lsu = s.lsu := by
  unfold State.complete
  split
  · split <;> simp
  · split <;> simp

theorem State.takeReply_lsu (s : State) : s.takeReply.2.lsu = s.lsu := by
  unfold State.takeReply; split <;> rfl

theorem State.completeList_lsu (ts : List Txn) (s : State) : (State.completeList ts s).lsu = s.lsu := by
  induction ts generalizing s with
  | nil => rfl
  | cons t ts ih =>
    cases t with
    | load a e => rw [State.completeList, ih, State.complete_lsu]
    | store p =>
      simp only [State.completeList]
      rw [ih, State.complete_lsu, State.takeReply_lsu]

theorem State.completeAll_lsu (s : State) : s.completeAll.lsu = { s.lsu with busOut := [] } := State.completeList_lsu _ _

theorem State.completeOldest_lsu (s : State) : s.completeOldest.lsu = { s.lsu with busOut := s.lsu.busOut.tail } := by
  cases hb : s.lsu.busOut with
  | nil => simp only [State.completeOldest, hb]; rw [List.tail_nil, ← hb]
  | cons t ts => simp only [State.completeOldest, hb]; rw [State.completeList_lsu]; rfl

/-- Room is made without touching the write buffer. -/
theorem State.makeRoom_lsu (s : State) :
    s.makeRoom.lsu.wbuf = s.lsu.wbuf ∧ (∀ t ∈ s.makeRoom.lsu.busOut, t ∈ s.lsu.busOut) ∧
      (s.lsu.busOut.length ≤ 255 → s.makeRoom.lsu.busOut.length ≤ 254) := by
  have h1 : ∃ u, (if (s.sespd && (sentStores s.lsu.busOut).any (·.side)) = true then s.completeAll else s) = u ∧
      u.lsu.wbuf = s.lsu.wbuf ∧ (∀ t ∈ u.lsu.busOut, t ∈ s.lsu.busOut) ∧ u.lsu.busOut.length ≤ s.lsu.busOut.length := by
    refine ⟨_, rfl, ?_⟩
    split
    · rw [State.completeAll_lsu]; simp
    · exact ⟨rfl, fun _ h => h, le_refl _⟩
  obtain ⟨u, hu, hw, hm, hlen⟩ := h1
  simp only [State.makeRoom, hu]
  split
  · rw [State.completeOldest_lsu]
    refine ⟨hw, fun t ht => hm t (List.mem_of_mem_tail ht), fun h => ?_⟩
    simp; omega
  · exact ⟨hw, hm, fun _ => by omega⟩

theorem State.quiesce_lsu (s : State) : s.quiesce.lsu = { wbuf := [], busOut := [] } := by
  have hone : ∀ s : State, s.sendOne.lsu.wbuf = s.lsu.wbuf.tail := by
    intro s
    unfold State.sendOne
    split
    · next h => rw [h]; rfl
    · next h => rw [h]; rfl
  have hn : ∀ n (s : State), (State.sendN n s).lsu.wbuf = s.lsu.wbuf.drop n := by
    intro n
    induction n with
    | zero => intro s; rfl
    | succ n ih => intro s; rw [State.sendN, ih, hone]; simp
  rw [State.quiesce, State.completeAll_lsu]
  show Lsu.mk (State.sendN s.lsu.wbuf.length s).lsu.wbuf [] = _
  rw [hn]; simp

end Sys2Proof.Machine
end

