-- ==== Sys2Proof/Laws/Access.lean ====
section
/-! SUPPORT. Data accesses: where they go, and what they can do there. -/

set_option Elab.async false

namespace Sys2Proof.Machine

/-! ### Addresses and regions -/

theorem regionOf_eq (a : Word) : regionOf a = a.toNat / 268435456 := by
  simp [regionOf, BitVec.toNat_ushiftRight, Nat.shiftRight_eq_div_pow]

/-- The addresses of an access are its first address plus 0 .. n-1. -/
theorem mem_addrs {p a : Word} {n : Nat} : p ∈ addrs a n ↔ ∃ i, i < n ∧ p = a + BitVec.ofNat 32 i := by
  induction n generalizing a with
  | zero => simp [addrs]
  | succ n ih =>
    simp only [addrs, List.mem_cons, ih]
    constructor
    · rintro (rfl | ⟨i, hi, rfl⟩)
      · exact ⟨0, by omega, by simp⟩
      · refine ⟨i + 1, by omega, ?_⟩
        rw [BitVec.ofNat_add, BitVec.add_assoc, BitVec.add_comm 1#32]
    · rintro ⟨i, hi, rfl⟩
      cases i with
      | zero => left; simp
      | succ i =>
        right
        refine ⟨i, by omega, ?_⟩
        rw [BitVec.ofNat_add, BitVec.add_assoc, BitVec.add_comm 1#32]

/-- In an access that stays in one region, address `i` does not wrap. -/
theorem toNat_add_ofNat {a : Word} {n i : Nat} (hn : n ≤ 4) (hi : i < n)
    (hr : regionOf (a + BitVec.ofNat 32 (n - 1)) = regionOf a) :
    (a + BitVec.ofNat 32 i).toNat = a.toNat + i := by
  rw [regionOf_eq, regionOf_eq] at hr
  have ha := a.isLt
  rw [BitVec.toNat_add, BitVec.toNat_ofNat] at *
  have e1 : (n - 1) % 2 ^ 32 = n - 1 := Nat.mod_eq_of_lt (by omega)
  have e2 : i % 2 ^ 32 = i := Nat.mod_eq_of_lt (by omega)
  rw [e1] at hr
  rw [e2]
  apply Nat.mod_eq_of_lt
  by_contra hc
  have : (a.toNat + (n - 1)) % 2 ^ 32 = a.toNat + (n - 1) - 2 ^ 32 := by
    rw [Nat.mod_eq_sub_mod (by omega), Nat.mod_eq_of_lt (by omega)]
  rw [this] at hr
  omega

/-- Every byte of an access that stays in one region is in that region. -/
theorem regionOf_of_mem {a p : Word} {n : Nat} (hn : n ≤ 4)
    (hr : regionOf (a + BitVec.ofNat 32 (n - 1)) = regionOf a) (hp : p ∈ addrs a n) : regionOf p = regionOf a := by
  obtain ⟨i, hi, rfl⟩ := mem_addrs.mp hp
  have h1 := toNat_add_ofNat hn hi hr
  have h2 := toNat_add_ofNat hn (show n - 1 < n by omega) hr
  rw [regionOf_eq, regionOf_eq] at *
  rw [h2] at hr
  rw [h1]
  omega

/-- An address of a valid block lies in the block's region. -/
theorem Block.region_of_has {sizes : List Nat} {b : Block} (hv : b.valid sizes = true) {a : Word} (h : b.has a.toNat = true) :
    regionOf a = b.region := by
  simp only [Block.valid, Bool.and_eq_true, decide_eq_true_eq] at hv
  simp only [Block.has, Bool.and_eq_true, decide_eq_true_eq] at h
  simp only [Block.base, Block.top] at h
  rw [regionOf_eq]
  omega

/-- The parts of a valid build. -/
theorem Build.valid_iff {c : Build} : c.valid = true ↔
    c.iccmValid = true ∧ c.dccmValid = true ∧ c.picValid = true ∧ c.disjoint = true ∧ c.argsValid = true := by
  simp only [Build.valid, Bool.and_eq_true, and_assoc]

theorem Build.valid_dccm {c : Build} (h : c.valid = true) : c.dccmValid = true := (Build.valid_iff.mp h).2.1

theorem Build.valid_pic {c : Build} (h : c.valid = true) : c.picValid = true := (Build.valid_iff.mp h).2.2.1

/-- The region of a DCCM address is local. -/
theorem State.local_of_inDccm {s : State} (hc : s.cfg.valid = true) {a : Word} (h : s.inDccm a = true) :
    s.dataRegionLocal (regionOf a) = true := by
  have hv := Build.valid_dccm hc
  simp only [State.inDccm] at h
  simp only [State.dataRegionLocal]
  cases hd : s.cfg.dccm with
  | none => simp [hd] at h
  | some b =>
    simp only [Build.dccmValid, hd, Option.any_some, Option.all_some] at h hv ⊢
    simp [Block.region_of_has hv h]

/-- The region of a PIC address is local. -/
theorem State.local_of_inPic {s : State} (hc : s.cfg.valid = true) {a : Word} (h : s.inPic a = true) :
    s.dataRegionLocal (regionOf a) = true := by
  have := Block.region_of_has (Build.valid_pic hc) h
  simp [State.dataRegionLocal, this]

/-- Two DCCM addresses are in one region. -/
theorem State.region_inDccm {s : State} (hc : s.cfg.valid = true) {a b : Word} (ha : s.inDccm a = true)
    (hb : s.inDccm b = true) : regionOf a = regionOf b := by
  have hv := Build.valid_dccm hc
  simp only [State.inDccm] at ha hb
  cases hd : s.cfg.dccm with
  | none => simp [hd] at ha
  | some c =>
    simp only [Build.dccmValid, hd, Option.any_some, Option.all_some] at ha hb hv
    rw [Block.region_of_has hv ha, Block.region_of_has hv hb]

/-- The DCCM and the PIC do not overlap. -/
theorem State.not_inDccm_of_inPic {s : State} (hc : s.cfg.valid = true) {a : Word} (h : s.inPic a = true) :
    s.inDccm a = false := by
  have hx := (Build.valid_iff.mp hc).2.2.2.1
  simp only [Build.disjoint, Build.blocks, decide_eq_true_eq, List.pairwise_append] at hx
  cases hd : s.cfg.dccm with
  | none => simp [State.inDccm, hd]
  | some b =>
    have hp : b.apart s.cfg.pic = true := hx.2.2 b (by simp [hd]) s.cfg.pic (by simp)
    simp only [State.inPic, Block.has, Bool.and_eq_true, decide_eq_true_eq] at h
    simp only [Block.apart, Bool.or_eq_true, decide_eq_true_eq] at hp
    simp only [State.inDccm, hd, Option.any_some, Block.has]
    rw [Bool.and_eq_false_iff]
    simp only [decide_eq_false_iff_not]
    omega

/-- The next word boundary is in the PIC block too, for a word-aligned address. -/
theorem State.inPic_last {s : State} (hc : s.cfg.valid = true) {a : Word} (h : s.inPic a = true) (ha : a.toNat % 4 = 0) :
    s.inPic (a + 3#32) = true := by
  have hv := Build.valid_pic hc
  simp only [Build.picValid, Block.valid, Bool.and_eq_true, decide_eq_true_eq] at hv
  simp only [State.inPic, Block.has, Bool.and_eq_true, decide_eq_true_eq] at h ⊢
  simp only [Block.base, Block.top] at h ⊢
  have : (a + 3#32).toNat = a.toNat + 3 := by
    rw [BitVec.toNat_add]; have := a.isLt; simp; omega
  have hs : s.cfg.pic.offset % 4 = 0 := by
    have h2 := hv.1.2
    have : (4 : Nat) ∣ 1024 * s.cfg.pic.alignKB := ⟨256 * s.cfg.pic.alignKB, by omega⟩
    have h3 := Nat.dvd_trans this (Nat.dvd_of_mod_eq_zero h2)
    omega
  omega

/-! ### Where an access goes (R170) -/

theorem State.sideEffect_inDccm {s : State} {a : Word} (h : s.inDccm a = true) : s.sideEffect a = false := by
  simp [State.sideEffect, h]

theorem State.sideEffect_inPic {s : State} {a : Word} (h : s.inPic a = true) : s.sideEffect a = false := by
  simp [State.sideEffect, h]

/-- An access inside the DCCM goes there. -/
theorem State.dataTarget_dccm {s : State} {a : Word} {size : Size} (store : Bool) (h : s.DccmReady a size.bytes) :
    s.dataTarget store a size = .ok .dccm := by
  have h1 := State.region_inDccm h.cfg h.first h.last
  have h2 := State.local_of_inDccm h.cfg h.first
  have h3 := State.sideEffect_inDccm h.first
  simp [State.dataTarget, lastByte, ← h1, h2, h3, h.first, h.last]

/-- An aligned word access inside the PIC block goes there. -/
theorem State.dataTarget_pic {s : State} {a : Word} (store : Bool) (h : s.PicReady a) :
    s.dataTarget store a .word = .ok .pic := by
  have hl := State.inPic_last h.cfg h.first h.aligned
  have h1 : regionOf a = regionOf (a + 3#32) := by
    rw [Block.region_of_has (Build.valid_pic h.cfg) h.first, Block.region_of_has (Build.valid_pic h.cfg) hl]
  have h2 := State.local_of_inPic h.cfg h.first
  have h3 := State.sideEffect_inPic h.first
  have h4 := State.not_inDccm_of_inPic h.cfg h.first
  simp [State.dataTarget, lastByte, Size.bytes, ← h1, h2, h3, h4, h.first, hl, h.aligned]

/-- An access outside the local regions that passes the checks goes to the bus. -/
theorem State.dataTarget_bus {s : State} {a : Word} {size : Size} (store : Bool) (h : s.BusReady a size.bytes) :
    s.dataTarget store a size = .ok (.bus (s.sideEffect a)) := by
  have := h.aligned
  simp only [State.dataTarget, lastByte, h.region, h.external, h.windows]
  cases hs : s.sideEffect a <;> simp_all

/-- The checks of an access that fails them. -/
theorem State.dataTarget_checked {s : State} {a : Word} {size : Size} {cl cs : Word} (h : s.Checked a size cl cs) :
    s.dataTarget false a size = .error { cause := cl, tval := a } ∧
      s.dataTarget true a size = .error { cause := cs, tval := a } := by
  cases h with
  | crosses h => simp [State.dataTarget, lastByte, misaligned, Ne.symm h]
  | sideEffect h hs ha => simp [State.dataTarget, lastByte, misaligned, h, hs, ha]
  | unmapped h hs hl hd hp =>
    simp only [Bool.and_eq_false_iff] at hd hp
    cases hse : s.sideEffect a <;> rcases hd with hd | hd <;> rcases hp with hp | hp <;>
      simp_all [State.dataTarget, lastByte, accessFault, loadFault, storeFault]
  | picAccess h hl hd hp hp2 ha =>
    have h3 := State.sideEffect_inPic hp
    simp only [Bool.and_eq_false_iff] at hd
    rcases hd with hd | hd <;> rcases ha with ha | ha <;> simp_all [State.dataTarget, lastByte, accessFault, loadFault, storeFault]
  | window h hs hl hw =>
    cases hse : s.sideEffect a <;>
      simp_all [State.dataTarget, lastByte, accessFault, loadFault, storeFault]

/-! ### Loads -/

/-- With no word waiting to be served, a point of the DMA port does nothing. -/
@[simp] theorem State.dmaPoint_nil {s : State} (h : s.env.dmaMid = []) : s.dmaPoint = s := by
  simp [State.dmaPoint, h]

/-- Words checked without an error. -/
theorem State.checkWords_clean {s : State} (h : s.env.ecc = []) (ws : List Word) :
    State.checkWords ws s = (ws.map (fun w => (w, .clean)), s) := by
  induction ws with
  | nil => rfl
  | cons w ws ih => simp [State.checkWords, State.checkWord, State.takeEcc, h, ih]

/-- Clean words are not counted. -/
theorem State.countChecks_clean (s : State) (k : Ccm) (ws : List Word) :
    s.countChecks k (ws.map (fun w => (w, .clean))) = s := by
  induction ws with
  | nil => rfl
  | cons w ws ih => simpa [State.countChecks] using ih

/-- Clean words are not spoilt. -/
theorem State.spoil_clean (s : State) (k : Ccm) (ws : List Word) : s.spoil k (ws.map (fun w => (w, .clean))) = s := by
  induction ws with
  | nil => rfl
  | cons w ws ih => simpa [State.spoil] using ih

@[simp] theorem corruptAt_clean (ws : List Word) (a : Word) : corruptAt (ws.map (fun w => (w, .clean))) a = false := by
  simp [corruptAt]

/-- The bytes of known places: what the memory holds, and no free value is taken. -/
theorem State.ccmBytes_known {s : State} {k : Ccm} {cs : List (Word × Check)} {ps : List Word}
    (hc : ∀ p ∈ ps, corruptAt cs p = false) (hb : ∀ p ∈ ps, ((s.ccm k).get? p.toNat).isSome = true) :
    State.ccmBytes k cs ps s = (ps.map (fun p => ((s.ccm k).get? p.toNat).getD 0), s) := by
  have h1 : ps.all (s.known k cs) = true := by
    rw [List.all_eq_true]; intro p hp; simp [State.known, hc p hp, hb p hp]
  have h2 : ps.map (s.ccmByte k cs) = ps.map (fun p => ((s.ccm k).get? p.toNat).getD 0) := by
    apply List.map_congr_left
    intro p hp
    have := hb p hp
    rw [Option.isSome_iff_exists] at this
    obtain ⟨b, hb⟩ := this
    simp [State.ccmByte, hc p hp, hb]
  simp [State.ccmBytes, h1, h2]

theorem cutAt_flatten {α : Type} (a : Word) (n : Nat) (l : List α) : (cutAt a n l).flatten = l := by
  unfold cutAt; split <;> simp

/-- The bytes of known places of the DCCM, however the access is split. -/
theorem State.dccmBytes_known {s : State} {cs : List (Word × Check)} {pss : List (List Word)} (hm : s.env.dmaMid = [])
    (hc : ∀ p ∈ pss.flatten, corruptAt cs p = false) (hb : ∀ p ∈ pss.flatten, (s.dccm.get? p.toNat).isSome = true) :
    State.dccmBytes cs pss s = (pss.flatten.map (fun p => (s.dccm.get? p.toNat).getD 0), s) := by
  induction pss with
  | nil => rfl
  | cons ps rest ih =>
    simp only [List.flatten_cons, List.mem_append] at hc hb
    have h1 := State.ccmBytes_known (k := .dccm) (fun p hp => hc p (Or.inl hp)) (fun p hp => hb p (Or.inl hp))
    have h2 := ih (fun p hp => hc p (Or.inr hp)) (fun p hp => hb p (Or.inr hp))
    cases rest with
    | nil => simpa [State.dccmBytes, State.ccm] using h1
    | cons q rest =>
      simp only [State.dccmBytes, h1, State.dmaPoint_nil hm, h2]
      simp [State.ccm]

/-- Reading a DCCM value without a memory error: its bytes, and nothing changes. -/
theorem State.dccmLoad_spec {s : State} {a : Word} {n : Nat} (h : s.env.ecc = []) (hm : s.env.dmaMid = [])
    (hb : ∀ p ∈ addrs a n, (s.dccm.get? p.toNat).isSome = true) :
    s.dccmLoad a n = .ok (ofBytes ((addrs a n).map (fun p => (s.dccm.get? p.toNat).getD 0))) s := by
  have h1 : ((wordsOf a n).map (fun w => (w, Check.clean))).any (fun c => c.2 == Check.fatal) = false := by
    rw [List.any_eq_false]; intro c hc; obtain ⟨w, _, rfl⟩ := List.mem_map.mp hc; exact Bool.false_ne_true
  have hf := cutAt_flatten a n (addrs a n)
  have h2 := State.dccmBytes_known (cs := (wordsOf a n).map (fun w => (w, .clean))) (pss := cutAt a n (addrs a n)) hm
    (by simp) (by rw [hf]; exact hb)
  rw [hf] at h2
  simp [State.dccmLoad, State.checkWords_clean h, h1, State.countChecks_clean, h2]

/-- Sending read transactions changes no byte, and every answer is plain. -/
theorem State.readTxns_settled (block side : Bool) (n : Nat) (ds : List Word) (s : State) (hr : s.env.replies = []) :
    Settled s (State.readTxns block side n ds s).2 ∧ ∀ r ∈ (State.readTxns block side n ds s).1, r.2 = Reply.mem := by
  induction ds generalizing s with
  | nil => exact ⟨Settled.refl s, by simp [State.readTxns]⟩
  | cons d ds ih =>
    have h := State.makeRoom_settled s hr
    have hl : Settled s (s.makeRoom.logBus (readReq side d n)) := ⟨h.1.frame.trans rfl, h.1.env, h.1.bytes⟩
    simp only [State.readTxns]
    generalize s.makeRoom.logBus (readReq side d n) = m at hl
    have hk : m.takeReply = (.mem, m) := by
      simp [State.takeReply, hl.env, hr]
    have hstep : ∀ u : State, u = (if block = true then m else
        { m with lsu := { m.lsu with
          busOut := m.lsu.busOut ++ [.load d (Reply.mem == Reply.error)] } }) → Settled s u := by
      intro u hu
      by_cases hb : block = true
      · rw [if_pos hb] at hu; rw [hu]; exact hl
      · rw [if_neg hb] at hu
        have hun : u.unanswered = m.unanswered := by
          rw [hu]; simp only [State.unanswered, sentStores_append]; simp [sentStores]
        refine ⟨hl.frame.trans (by rw [hu]; rfl), ?_, fun a => ?_⟩
        · rw [hu]; exact hl.env
        · rw [hun, ← hl.bytes a, hu]
    simp only [hk]
    have hu := hstep _ rfl
    have h2 := ih _ (by rw [hu.env, hr])
    refine ⟨hu.trans h2.1, ?_⟩
    intro r hr2
    rcases List.mem_cons.mp hr2 with rfl | hr2
    · rfl
    · exact h2.2 r hr2

/-- With plain answers a byte that is read is the byte the hart sees. -/
theorem State.readBytes_spec {s : State} {rs : List (Word × Reply)} {own : Bool} {a : Word} {n : Nat}
    (hm : ∀ r ∈ rs, r.2 = Reply.mem) (hd : ∀ p ∈ addrs a n, s.inDccm p = false) :
    s.readBytes rs own a n = ofBytes ((addrs a n).map (fun p => (s.byte? p).getD (Config.socByte p.toNat))) := by
  unfold State.readBytes
  congr 1
  apply List.map_congr_left
  intro p hp
  have hr : replyAt rs a p = .mem := by
    unfold replyAt
    cases hf : (rs.filter (fun r => decide ((r.1 - a).toNat ≤ (p - a).toNat))).getLast? with
    | none => rfl
    | some r => exact hm r (List.mem_of_mem_filter (List.mem_of_getLast? hf))
  simp only [hr, State.byte?, hd p hp]
  cases h : s.pendingByte p with
  | some b => simp
  | none => simp [Reply.byte, State.socByte]

/-- A load on the bus that is answered as memory answers: the bytes the hart sees; buffers move on. -/
theorem State.busLoad_spec {s : State} {a : Word} {n : Nat} {side : Bool} (hr : s.env.replies = [])
    (hd : ∀ p ∈ addrs a n, s.inDccm p = false) :
    ∃ t, s.busLoad a n side =
        .ok ⟨ofBytes ((addrs a n).map (fun p => (s.byte? p).getD (Config.socByte p.toNat))), false⟩ t ∧ Settled s t := by
  have value : ∀ t, Settled s t → ∀ rs own, (∀ r ∈ rs, r.2 = Reply.mem) → t.readBytes rs own a n =
      ofBytes ((addrs a n).map (fun p => (s.byte? p).getD (Config.socByte p.toNat))) := by
    intro t ht rs own hm
    rw [State.readBytes_spec hm]
    · congr 1; apply List.map_congr_left; intro p _; rw [ht.byte?]
    · intro p hp
      have := hd p hp
      simp only [State.inDccm, ht.frame.cfg] at *
      exact this
  unfold State.busLoad
  split
  · exact ⟨s, by rw [value s (Settled.refl s) [] true (by simp)], Settled.refl s⟩
  · have h1 : ∃ u, (if (side || !s.noMatch a n) = true then s.drain else s) = u ∧ Settled s u := by
      refine ⟨_, rfl, ?_⟩
      split
      · exact (State.drain_settled s hr).1
      · exact Settled.refl s
    obtain ⟨u, hu, h1⟩ := h1
    simp only [hu]
    have h2 := State.readTxns_settled (side || u.ldnbd) side n (splitAt a n) u (by rw [h1.env, hr])
    generalize State.readTxns (side || u.ldnbd) side n (splitAt a n) u = r at h2
    obtain ⟨rs, t⟩ := r
    have he : rs.any (fun r => r.2 == Reply.error) = false := by
      rw [List.any_eq_false]; intro r hr; rw [h2.2 r hr]; decide
    simp only [he]
    exact ⟨t, by simp [value t (h1.trans h2.1) rs (!side) h2.2], h1.trans h2.1⟩

/-! ### Stores -/

/-- Bytes written at rising addresses: each at its own. -/
theorem lastAt_zip (a : Word) (bs : List Byte) (hn : bs.length ≤ 4294967296) (i : Nat) (hi : i < bs.length) :
    lastAt ((addrs a bs.length).zip bs) (a + BitVec.ofNat 32 i) = some bs[i] := by
  induction bs generalizing a i with
  | nil => simp at hi
  | cons b bs ih =>
    simp only [List.length_cons] at hn hi
    have hc : (addrs a (b :: bs).length).zip (b :: bs) = (a, b) :: (addrs (a + 1#32) bs.length).zip bs := rfl
    rw [hc, lastAt]
    cases i with
    | zero =>
      rw [lastAt_of_not_mem]
      · simp
      · intro c hc e
        have := (List.of_mem_zip hc).1
        rw [e] at this
        simp at this
        exact not_mem_addrs_succ a 1 bs.length (by omega) (by omega) this
    | succ i =>
      have step : a + BitVec.ofNat 32 (i + 1) = a + 1#32 + BitVec.ofNat 32 i := by
        rw [BitVec.ofNat_add, BitVec.add_assoc, BitVec.add_comm 1#32]
      rw [step, ih (a + 1#32) (by omega) i (by omega), List.getElem_cons_succ]; rfl

/-- Bytes written at rising addresses: none elsewhere. -/
theorem lastAt_zip_other (a p : Word) (n : Nat) (bs : List Byte) (h : p ∉ addrs a n) :
    lastAt ((addrs a n).zip bs) p = none := by
  apply lastAt_of_not_mem
  intro c hc e
  exact h (e ▸ (List.of_mem_zip hc).1)

/-- Stores of one byte each leave what one store of all their bytes would. -/
theorem newest_singles (bs : List (Word × Byte)) (side : Bool) (a : Word) :
    (newest (bs.map (fun b => ({ addr := b.1, bytes := [b], side := side } : PendStore))) a).map (·.1) = lastAt bs a := by
  induction bs with
  | nil => rfl
  | cons b bs ih =>
    rw [List.map_cons, newest_cons, lastAt, ← ih, PendStore.byte?, lastAt, lastAt]
    cases newest (bs.map (fun b => ({ addr := b.1, bytes := [b], side := side } : PendStore))) a <;> by_cases h : b.1 = a <;>
      simp [h]

/-- A store on the bus enters the write buffer: its bytes, and every other byte as before. -/
theorem State.busStore_spec {s : State} {a : Word} {n : Nat} {v : Word} {side : Bool} (hn : n ≤ 4)
    (hd : ∀ p ∈ addrs a n, s.inDccm p = false) : Stores a n v s (s.busStore a n v side) := by
  have key : ∃ es, (s.busStore a n v side).unanswered = s.unanswered ++ es ∧
      ∀ p, (newest es p).map (·.1) = lastAt ((addrs a n).zip (toBytes (v.setWidth 64) n)) p := by
    by_cases ha : a.toNat % n = 0
    · refine ⟨[{ addr := a, bytes := (addrs a n).zip (toBytes (v.setWidth 64) n), side := side : PendStore }], ?_, ?_⟩
      · simp [State.unanswered, State.busStore, ha]
      · intro p
        rw [newest_cons, newest_nil, PendStore.byte?]
        cases lastAt ((addrs a n).zip (toBytes (v.setWidth 64) n)) p <;> simp
    · refine ⟨((addrs a n).zip (toBytes (v.setWidth 64) n)).map
        (fun b => ({ addr := b.1, bytes := [b], side := side } : PendStore)), ?_, newest_singles _ side⟩
      simp [State.unanswered, State.busStore, ha]
  obtain ⟨es, hu, hes⟩ := key
  have hbyte : ∀ p, s.inDccm p = false → (s.busStore a n v side).byte? p =
      (lastAt ((addrs a n).zip (toBytes (v.setWidth 64) n)) p).or (s.byte? p) := by
    intro p hp
    have h1 : (s.busStore a n v side).inDccm p = s.inDccm p := rfl
    rw [State.byte?_eq, State.byte?_eq, h1, hp, hu, ← hes p]
    simp only [overlay, newest_append, Bool.false_eq_true, if_false]
    cases newest es p <;> simp
  refine ⟨fun i hi => ?_, fun p hp => ?_, rfl⟩
  · rw [hbyte _ (hd _ (mem_addrs.mpr ⟨i, hi, rfl⟩))]
    have h2 := lastAt_zip a (toBytes (v.setWidth 64) n) (by simp; omega) i (by simpa using hi)
    simp only [toBytes_length] at h2
    rw [h2, toBytes_getElem]
    simp only [Option.some_or, Option.some.injEq]
    ext j hj
    simp; omega
  · by_cases hdc : s.inDccm p = true
    · have h1 : (s.busStore a n v side).inDccm p = s.inDccm p := rfl
      rw [State.byte?_eq, State.byte?_eq, h1, hdc]; rfl
    · rw [hbyte p (by simpa using hdc), lastAt_zip_other a p n _ hp]; simp

end Sys2Proof.Machine
end

