-- ==== Sys2Proof/Laws/Encoding.lean ====
section
/-! SUPPORT. What each field of each instruction format reads back as: the facts the round-trip lemmas rest on. -/

namespace Sys2Proof.Laws

/-- A field of a concatenation that lies in its low part. -/
theorem extract_append_low {n m : Nat} (a : BitVec n) (b : BitVec m) (i k : Nat) (h : i + k ≤ m) :
    (a ++ b).extractLsb' i k = b.extractLsb' i k := by
  ext j hj
  simp only [BitVec.getElem_extractLsb', BitVec.getLsbD_append]
  rw [if_pos (by omega)]

/-- A field of a concatenation that lies in its high part. -/
theorem extract_append_high {n m : Nat} (a : BitVec n) (b : BitVec m) (i k : Nat) (h : m ≤ i) :
    (a ++ b).extractLsb' i k = a.extractLsb' (i - m) k := by
  ext j hj
  simp only [BitVec.getElem_extractLsb', BitVec.getLsbD_append]
  rw [if_neg (by omega), show i + j - m = i - m + j by omega]

/-- The whole of a value as a field. -/
theorem extract_all {n : Nat} (a : BitVec n) : a.extractLsb' 0 n = a := by
  ext j hj; simp

/-- A field of a field. -/
theorem extract_extract {n : Nat} (a : BitVec n) (i k j l : Nat) (h : j + l ≤ k) :
    (a.extractLsb' i k).extractLsb' j l = a.extractLsb' (i + j) l := by
  ext t ht
  simp only [BitVec.getElem_extractLsb', BitVec.getLsbD_extractLsb', Nat.add_assoc]
  simp; omega

/-- Two neighbouring fields put back together. -/
theorem extract_join {n : Nat} (a : BitVec n) (i k j l : Nat) (h : i = j + l) :
    a.extractLsb' i k ++ a.extractLsb' j l = a.extractLsb' j (k + l) := by
  subst h
  ext t ht
  simp only [BitVec.getElem_append, BitVec.getElem_extractLsb']
  split
  · rfl
  · congr 1; omega

end Sys2Proof.Laws
end

