-- ==== Sys2Proof/Laws/Invariant.lean ====
section
/-! SUPPORT. The operations keep the invariant, one lemma each. -/

set_option Elab.async false

namespace Sys2Proof.Machine

/-! ### Bit masks -/

theorem and_or_mask {w : Nat} (m a b k : BitVec w) : ((m &&& a) ||| b) &&& k = (m &&& (a &&& k)) ||| (b &&& k) := by
  ext i hi; simp only [BitVec.getElem_and, BitVec.getElem_or]
  cases m[i] <;> cases a[i] <;> cases b[i] <;> cases k[i] <;> rfl

/-- mstatus keeps its fixed bits on trap entry. -/
theorem mstatusEnter_legal {m : Word} (h : m &&& ~~~0x88#32 = 0x1800#32) :
    mstatusEnter m &&& ~~~0x88#32 = 0x1800#32 := by
  unfold mstatusEnter
  rw [and_or_mask, show (~~~0x88#32 &&& ~~~0x88#32 : Word) = ~~~0x88#32 from rfl, h]
  split <;> rfl

/-- mstatus keeps its fixed bits on mret. -/
theorem mstatusReturn_legal {m : Word} (h : m &&& ~~~0x88#32 = 0x1800#32) :
    mstatusReturn m &&& ~~~0x88#32 = 0x1800#32 := by
  unfold mstatusReturn
  rw [BitVec.or_assoc, and_or_mask, show (~~~0x88#32 &&& ~~~0x88#32 : Word) = ~~~0x88#32 from rfl, h]
  split <;> rfl

/-- A masked write leaves the other bits 0. -/
theorem masked_legal (v k : Word) : (v &&& k) &&& ~~~k = 0#32 := by
  rw [BitVec.and_assoc]; simp

/-- mrac never holds the pair 11 (R60). -/
theorem legalMrac_legal (v : Word) : legalMrac v &&& (legalMrac v >>> 1) &&& 0x55555555#32 = 0#32 := by
  unfold legalMrac
  ext i hi
  simp only [BitVec.getElem_and, BitVec.getElem_ushiftRight, BitVec.getLsbD_and, BitVec.getLsbD_not, BitVec.getElem_not,
    BitVec.getLsbD_ushiftRight, BitVec.getElem_zero]
  interval_cases i <;> simp

/-- A threshold is at most 26 (R65). -/
theorem legalThresh_legal (v : Word) : (legalThresh v).extractLsb' 27 5 ≤ 26#5 := by
  unfold legalThresh
  split
  · have : (26#5 ++ v.extractLsb' 0 27).extractLsb' 27 5 = 26#5 := by
      ext i hi
      simp only [BitVec.getElem_extractLsb', BitVec.getLsbD_append]
      interval_cases i <;> simp
    rw [this]; exact BitVec.le_refl _
  · exact BitVec.not_lt.mp ‹_›

/-- Counting an error keeps the threshold (R65). -/
theorem countError_threshold (r : Word) : (countError r).extractLsb' 27 5 = r.extractLsb' 27 5 := by
  unfold countError
  ext i hi
  simp only [BitVec.getElem_extractLsb', BitVec.getLsbD_or, BitVec.getLsbD_and]
  interval_cases i <;> simp

/-- Event numbers are at most 50 (R53). -/
theorem legalEvent_legal (v : Word) : legalEvent v ≤ 50#6 := by
  unfold legalEvent
  split
  · exact BitVec.le_refl _
  · rename_i h
    have : v ≤ 50#32 := BitVec.not_lt.mp h
    have h2 : v.toNat ≤ 50 := by simpa [BitVec.le_def] using this
    rw [BitVec.le_def, BitVec.toNat_setWidth]
    simp; omega

/-- A trap target is even if the mtvec base is (R446). -/
theorem trapTarget_even (m c : Word) : (trapTarget m c).getLsbD 0 = false := by
  unfold trapTarget
  split
  · rw [show ((m &&& 0xFFFFFFFC#32) + (c <<< 2)).getLsbD 0 = ((m &&& 0xFFFFFFFC#32).getLsbD 0 ^^ (c <<< 2).getLsbD 0) by
      rw [BitVec.getLsbD_add (by omega)]; simp]
    simp
  · simp

theorem vecAddr_even (v : BitVec 31) : (vecAddr v).getLsbD 0 = false := by
  unfold vecAddr
  rw [BitVec.getLsbD_append]; rfl

/-- The sum of two even addresses is even. -/
theorem add_even {a b : Word} (ha : a.getLsbD 0 = false) (hb : b.getLsbD 0 = false) : (a + b).getLsbD 0 = false := by
  rw [BitVec.getLsbD_add (by omega), ha, hb]; simp

/-- What tdata1 stores of a written word is a legal trigger (R621). -/
theorem legalTdata1_legal {dbg : Bool} {o : Vector Word 4} {t : BitVec 2} {w v : Word}
    (h : legalTdata1 dbg o t w = some v) (i : Fin 4) (hi : i.val = t.toNat) : LegalTrigger i v := by
  unfold legalTdata1 at h
  simp only [] at h
  split at h
  · exact absurd h (by simp)
  · split at h
    · exact absurd h (by simp)
    · have hodd : i.val % 2 = 1 → t.getLsbD 0 = true := by
        intro ho
        rw [hi] at ho
        simpa [BitVec.getLsbD, Nat.testBit_zero] using ho
      generalize (dbg && w.getLsbD 27) = dm at h
      generalize hch : (w.getLsbD 11 && !t.getLsbD 0 && !(!dm && (o[(t + 1#2).toNat]'(t + 1#2).isLt).getLsbD 27)) = ch at h
      have hc : i.val % 2 = 1 → ch = false := by
        intro ho
        rw [← hch, hodd ho]; simp
      generalize w.getLsbD 20 = a1 at h
      generalize w.getLsbD 19 = a2 at h
      generalize w.getLsbD 12 = a3 at h
      generalize w.getLsbD 7 = a4 at h
      generalize w.getLsbD 6 = a5 at h
      generalize w.getLsbD 2 = a6 at h
      generalize w.getLsbD 1 = a7 at h
      generalize w.getLsbD 0 = a8 at h
      simp only [Option.some.injEq] at h
      subst h
      constructor
      · cases dm <;> cases a1 <;> cases a2 <;> cases a3 <;> cases ch <;> cases a4 <;> cases a5 <;> cases a6 <;>
          cases a7 <;> cases a8 <;> rfl
      · intro ho
        rw [hc ho]
        cases dm <;> cases a1 <;> cases a2 <;> cases a3 <;> cases a4 <;> cases a5 <;> cases a6 <;>
          cases a7 <;> cases a8 <;> rfl
      · cases dm <;> cases a1 <;> cases a2 <;> cases a3 <;> cases ch <;> cases a4 <;> cases a5 <;> cases a6 <;>
          cases a7 <;> cases a8 <;> decide
      · cases dm <;> cases a1 <;> cases a2 <;> cases a3 <;> cases ch <;> cases a4 <;> cases a5 <;> cases a6 <;>
          cases a7 <;> cases a8 <;> decide

/-- Setting the hit bit keeps a trigger legal (R625). -/
theorem setHit_legal {f : Bool} {w : Word} {i : Fin 4} (h : LegalTrigger i w) : LegalTrigger i (setHit f w) := by
  unfold setHit
  split
  · refine ⟨?_, ?_, ?_, ?_⟩
    · rw [← h.fixed]
      ext j hj
      simp only [BitVec.getElem_and, BitVec.getElem_or, BitVec.getElem_not]
      interval_cases j <;> simp
    · intro ho; have := h.chain ho; simp only [BitVec.getLsbD_or, this]; rfl
    · intro ho
      have : w.getLsbD 12 = true := by simpa using ho
      have := h.action this
      simp only [BitVec.getLsbD_or, this]; rfl
    · intro ho
      have : w.getLsbD 19 = true := by simpa using ho
      have := h.select this
      simp only [BitVec.getLsbD_or, this.1, this.2]; exact ⟨rfl, rfl⟩
  · exact h

/-! ### Moving the invariant along an update -/

/-- Legality of CSRs that differ only where it does not look. -/
theorem Csrs.Legal.countersOnly {c : Csrs} (h : c.Legal) (i : BitVec 64) (v : Vector (BitVec 64) 4) :
    Csrs.Legal { c with minstret := i, mhpm := v } := { h with }

section
variable {s : State} (h : s.Inv)
include h

theorem State.Inv.setReg (r : Reg) (v : Word) : (s.setReg r v).Inv := by
  unfold State.setReg; split
  · exact h
  · exact { h with }

theorem State.Inv.setPc {t : Word} (ht : t.getLsbD 0 = false) : (s.setPc t).Inv := { h with pc := ht }

theorem State.Inv.advance (len : Len) : (s.advance len).Inv :=
  h.setPc (add_even h.pc (by cases len <;> rfl))

theorem State.Inv.draw : s.draw.Inv := { h with }

theorem State.Inv.withDraws (n : Nat) : ({ s with draws := n } : State).Inv := { h with }

theorem State.Inv.addEvents (es : List Nat) : (s.addEvents es).Inv := { h with csr := { h.csr with } }

theorem State.Inv.countEvents (es : List Nat) : (s.countEvents es).Inv := by
  unfold State.countEvents; split
  · exact h.addEvents es
  · exact h

theorem State.Inv.bumpInstret : s.bumpInstret.Inv := { h with csr := { h.csr with } }

theorem State.Inv.retire (len : Len) (es : List Nat) : (s.retire len es).Inv := h.bumpInstret.countEvents _

theorem State.Inv.finish (len : Len) (es : List Nat) : (s.finish len es).Inv := (h.retire len es).advance len

theorem State.Inv.traceTrap (i : Bool) (c v : Word) : (s.traceTrap i c v).Inv := { h with }

theorem State.Inv.traceInterrupt (c : Word) : (s.traceInterrupt c).Inv := { h with }

theorem State.Inv.traceInsn (b : Word) : (s.traceInsn b).Inv := { h with }

theorem State.Inv.enterTrap (c v : Word) {t : Word} (ht : t.getLsbD 0 = false) : (s.enterTrap c v t).Inv :=
  { h with pc := ht, csr := { h.csr with mepc := h.pc, mstatus := mstatusEnter_legal h.csr.mstatus } }

theorem State.Inv.takeException (e : Exc) : (s.takeException e).Inv :=
  ((h.enterTrap e.cause e.tval (trapTarget_even _ _)).countEvents [37]).traceTrap false e.cause e.tval

theorem State.Inv.returnFromTrap : s.returnFromTrap.Inv :=
  { h with pc := h.csr.mepc, csr := { h.csr with mstatus := mstatusReturn_legal h.csr.mstatus } }

theorem State.Inv.takeInterrupt (i : Interrupt) : (s.takeInterrupt i).Inv := by
  have h1 := ((h.enterTrap i.cause 0#32 (trapTarget_even s.csr.mtvec i.cause)).countEvents i.events).traceInterrupt i.cause
  cases i <;> exact { h1 with hart := { h1.hart with } }

theorem State.Inv.takeNmi : s.takeNmi.Inv := by
  have go : ∀ (u : State), u.Inv → u.pins = s.pins → ∀ (c : Word) (hh : Hart), hh.Legal → u.hart = s.hart →
      State.Inv { ((u.enterTrap c 0#32 (vecAddr s.pins.nmiVec)).traceInterrupt c) with
        hart := { hh with pause := 0 } } := by
    intro u hu _ c hh hl _
    have h1 := (hu.enterTrap c 0#32 (vecAddr_even s.pins.nmiVec)).traceInterrupt c
    exact { h1 with hart := { hl with } }
  have hl1 : Hart.Legal { s.hart with nmiPin := false } := { h.hart with }
  have hl2 : Hart.Legal { s.hart with nmiBus := none } := { h.hart with }
  unfold State.takeNmi
  simp only []
  split
  · exact go s h rfl _ _ hl1 rfl
  · split
    · exact go s.draw h.draw rfl _ _ hl1 rfl
    · exact go s.draw h.draw rfl _ _ hl2 rfl
  · exact go s h rfl _ _ hl2 rfl
  · exact h

theorem State.Inv.withEnv (e : Env) : ({ s with env := e } : State).Inv := { h with }

theorem State.Inv.withOuts (o : Outs) : ({ s with outs := o } : State).Inv := { h with }

theorem State.Inv.withDm (d : Dm) : (s.withDm d).Inv := { h with }

theorem State.Inv.withSync (y : Sync) : ({ s with sync := y } : State).Inv := { h with }

theorem State.Inv.withSoc {m : Memory} (hm : m.wf = true) : ({ s with soc := m } : State).Inv := { h with soc := hm }

theorem State.Inv.logBus (r : BusReq) : (s.logBus r).Inv := { h with }

theorem State.Inv.reportBusError (l : Bool) (a : Word) : (s.reportBusError l a).Inv := by
  unfold State.reportBusError; split
  · exact h
  · exact { h with csr := { h.csr with }, hart := { h.hart with } }

theorem State.Inv.takeReply : s.takeReply.2.Inv := by
  unfold State.takeReply; split
  · exact h
  · exact { h with }

theorem State.Inv.failWrite (ps : List Word) : (s.failWrite ps).Inv := (h.withSoc (Memory.wf_putAll _ _ h.soc)).draw

theorem State.Inv.complete (t : Txn) (e : Bool) : (s.complete t e).Inv := by
  unfold State.complete
  split
  · split
    · exact h.reportBusError _ _
    · exact h
  · split
    · exact (h.failWrite _).reportBusError _ _
    · exact h.withSoc (Memory.wf_putAll _ _ h.soc)

end

theorem State.Inv.completeList (ts : List Txn) {s : State} (h : s.Inv) : (State.completeList ts s).Inv := by
  induction ts generalizing s with
  | nil => exact h
  | cons t ts ih =>
    cases t with
    | load a e => exact ih (h.complete _ _)
    | store p => exact ih (h.takeReply.complete _ _)

theorem mem_sentStores {p : PendStore} {ts : List Txn} : p ∈ sentStores ts ↔ Txn.store p ∈ ts := by
  simp only [sentStores, List.mem_filterMap]
  constructor
  · rintro ⟨t, ht, he⟩
    cases t with
    | load a e => simp at he
    | store q => simp at he; subst he; exact ht
  · intro h; exact ⟨_, h, rfl⟩

/-- A store that stays keeps to its double-word when it gives bytes up. -/
theorem pickTxns_in_double_word (as : List (Nat × Bool)) (i : Nat) (ts : List Txn)
    (h : ∀ p ∈ sentStores ts, p.InDoubleWord) : ∀ p ∈ sentStores (pickTxns as i ts).2, p.InDoubleWord := by
  induction ts generalizing i with
  | nil => exact h
  | cons t ts ih =>
    have hts : ∀ p ∈ sentStores ts, p.InDoubleWord := fun p hp =>
      h p (mem_sentStores.mpr (List.mem_cons_of_mem _ (mem_sentStores.mp hp)))
    have := ih (i + 1) hts
    simp only [pickTxns]
    split
    · exact this
    · intro p hp
      rcases List.mem_cons.mp (mem_sentStores.mp hp) with hp | hp
      · cases t with
        | load _ _ => simp [Txn.without] at hp
        | store q =>
          simp only [Txn.without, Txn.store.injEq] at hp
          subst hp
          intro b hb
          exact h q (mem_sentStores.mpr List.mem_cons_self) b (List.mem_of_mem_filter hb)
      · exact this p (mem_sentStores.mpr hp)

section
variable {s : State} (h : s.Inv)
include h

/-- Buffers that hold no new store and at most 255 transactions. -/
theorem State.Inv.withLsu {l : Lsu} (hb : l.busOut.length ≤ 255) (hs : ∀ t ∈ l.busOut, t ∈ s.lsu.busOut ∨
    (∃ a e, t = .load a e) ∨ (∃ p, t = .store p ∧ p ∈ s.lsu.wbuf)) (hw : ∀ p ∈ l.wbuf, p ∈ s.lsu.wbuf) :
    ({ s with lsu := l } : State).Inv := by
  refine { h with bus := hb, stores := ?_ }
  intro p hp
  rcases List.mem_append.mp hp with hp | hp
  · rcases hs _ (mem_sentStores.mp hp) with h1 | ⟨a, e, h1⟩ | ⟨q, h1, h2⟩
    · exact h.stores p (List.mem_append.mpr (Or.inl (mem_sentStores.mpr h1)))
    · exact absurd h1 (by simp)
    · simp only [Txn.store.injEq] at h1
      subst h1
      exact h.stores p (List.mem_append.mpr (Or.inr h2))
  · exact h.stores p (List.mem_append.mpr (Or.inr (hw p hp)))

theorem State.Inv.completeAll : s.completeAll.Inv :=
  State.Inv.completeList _ (h.withLsu (by simp) (by simp) (by simp))

theorem State.Inv.completeOldest : s.completeOldest.Inv := by
  unfold State.completeOldest
  split
  · exact h
  · rename_i t ts hb
    refine State.Inv.completeList _ (h.withLsu ?_ ?_ (fun _ hp => hp))
    · have := h.bus; rw [hb] at this; simp at this ⊢; omega
    · intro u hu; left; rw [hb]; exact List.mem_cons_of_mem _ hu

theorem State.Inv.makeRoom : s.makeRoom.Inv := by
  have h1 : ∃ u, (if (s.sespd && (sentStores s.lsu.busOut).any (·.side)) = true then s.completeAll else s) = u ∧ u.Inv := by
    refine ⟨_, rfl, ?_⟩
    split
    · exact h.completeAll
    · exact h
  obtain ⟨u, hu, h1⟩ := h1
  simp only [State.makeRoom, hu]
  split
  · exact h1.completeOldest
  · exact h1

theorem State.Inv.sendOne : s.sendOne.Inv := by
  unfold State.sendOne
  split
  · exact h
  · rename_i p ps hw
    have hl := State.makeRoom_lsu s
    refine (h.makeRoom.logBus _).withLsu ?_ ?_ ?_
    · have := hl.2.2 h.bus; simp; omega
    · intro t ht
      rcases List.mem_append.mp ht with ht | ht
      · exact Or.inl ht
      · right; right
        refine ⟨p, by simpa using ht, ?_⟩
        rw [State.logBus_lsu, hl.1, hw]; simp
    · intro q hq; rw [State.logBus_lsu, hl.1, hw]; exact List.mem_cons_of_mem _ hq

end

theorem State.Inv.sendN (n : Nat) {s : State} (h : s.Inv) : (State.sendN n s).Inv := by
  induction n generalizing s with
  | zero => exact h
  | succ n ih => exact ih h.sendOne

theorem State.Inv.drain {s : State} (h : s.Inv) : s.drain.Inv := h.sendN _

theorem State.Inv.quiesce {s : State} (h : s.Inv) : s.quiesce.Inv := h.drain.completeAll

theorem State.Inv.readTxns (block side : Bool) (n : Nat) (ds : List Word) {s : State} (h : s.Inv) :
    (State.readTxns block side n ds s).2.Inv := by
  induction ds generalizing s with
  | nil => exact h
  | cons d ds ih =>
    simp only [State.readTxns]
    apply ih
    have h1 := (h.makeRoom.logBus (readReq side d n)).takeReply
    split
    · exact h1
    · refine h1.withLsu ?_ ?_ (fun _ hp => hp)
      · have := (State.makeRoom_lsu s).2.2 h.bus
        rw [State.takeReply_lsu, State.logBus_lsu]; simp; omega
      · intro t ht
        rcases List.mem_append.mp ht with ht | ht
        · exact Or.inl ht
        · right; left; exact ⟨_, _, by simpa using ht⟩

/-- An access result keeps the invariant in both outcomes. -/
def Res.Keeps {α : Type} : Res α → Prop
  | .ok _ s => s.Inv
  | .trap _ s => s.Inv

theorem Res.Keeps.bind {α : Type} {r : Res α} {k : α → State → State} (h : r.Keeps) (hk : ∀ v s, s.Inv → (k v s).Inv) :
    (r.bind k).Inv := by
  cases r with
  | ok v s => exact hk v s h
  | trap e s => exact State.Inv.takeException h e

theorem State.Inv.busLoad {s : State} (h : s.Inv) (a : Word) (n : Nat) (side : Bool) : (s.busLoad a n side).Keeps := by
  unfold State.busLoad
  split
  · exact h
  · have h1 : ∃ u, (if (side || !s.noMatch a n) = true then s.drain else s) = u ∧ u.Inv := by
      refine ⟨_, rfl, ?_⟩
      split
      · exact h.drain
      · exact h
    obtain ⟨u, hu, h1⟩ := h1
    simp only [hu]
    have h2 := State.Inv.readTxns (side || u.ldnbd) side n (splitAt a n) h1
    generalize State.readTxns (side || u.ldnbd) side n (splitAt a n) u = r at h2
    obtain ⟨rs, t⟩ := r
    simp only []
    split
    · split
      · exact h2
      · exact State.Inv.draw h2
    · exact h2

/-- The bytes of an aligned access lie in one double-word. -/
theorem aligned_in_double_word {a p : Word} {n : Nat} (hn : n = 1 ∨ n = 2 ∨ n = 4) (ha : a.toNat % n = 0)
    (hp : p ∈ addrs a n) : p &&& 0xFFFFFFF8#32 = a &&& 0xFFFFFFF8#32 := by
  obtain ⟨i, hi, rfl⟩ := mem_addrs.mp hp
  have h8 : ∀ x : Word, (x &&& 0xFFFFFFF8#32).toNat = x.toNat / 8 * 8 := by
    intro x
    have : x &&& 0xFFFFFFF8#32 = (x >>> 3) <<< 3 := by
      ext j hj
      simp only [BitVec.getElem_and, BitVec.getElem_shiftLeft]
      interval_cases j <;> simp
    rw [this, BitVec.toNat_shiftLeft, BitVec.toNat_ushiftRight, Nat.shiftLeft_eq, Nat.shiftRight_eq_div_pow]
    have := x.isLt
    omega
  apply BitVec.eq_of_toNat_eq
  rw [h8, h8, BitVec.toNat_add, BitVec.toNat_ofNat]
  have := a.isLt
  rcases hn with rfl | rfl | rfl <;> omega

theorem State.Inv.busStore {s : State} (h : s.Inv) {a : Word} {n : Nat} {v : Word} {side : Bool} (hn : n = 1 ∨ n = 2 ∨ n = 4) :
    (s.busStore a n v side).Inv := by
  unfold State.busStore
  refine { h with stores := ?_ }
  intro p hp
  simp only [List.mem_append] at hp
  rcases hp with hp | hp | hp
  · exact h.stores p (List.mem_append.mpr (Or.inl hp))
  · exact h.stores p (List.mem_append.mpr (Or.inr hp))
  · split at hp
    · rename_i ha
      obtain rfl := List.mem_singleton.mp hp
      intro b hb
      exact aligned_in_double_word hn ha (List.of_mem_zip hb).1
    · simp only [List.mem_map] at hp
      obtain ⟨q, _, rfl⟩ := hp
      intro b hb
      obtain rfl := List.mem_singleton.mp hb
      rfl

/-- Combined stores are those of the buffer, or two of one double-word (R157). -/
theorem mergeStores_in_double_word (i : Nat) (ps : List PendStore) (h : ∀ p ∈ ps, p.InDoubleWord) :
    ∀ p ∈ mergeStores i ps, p.InDoubleWord := by
  induction i generalizing ps with
  | zero =>
    match ps with
    | [] => exact h
    | [p] => exact h
    | p :: q :: ps =>
      simp only [mergeStores]
      split
      · rename_i hj
        simp only [PendStore.joins, Bool.and_eq_true, beq_iff_eq] at hj
        intro r hr
        rcases List.mem_cons.mp hr with rfl | hr
        · intro b hb
          rcases List.mem_append.mp hb with hb | hb
          · exact h p (by simp) b hb
          · exact (h q (by simp) b hb).trans hj.2.symm
        · exact h r (by simp [hr])
      · exact h
  | succ i ih =>
    cases ps with
    | nil => exact h
    | cons p ps =>
      intro r hr
      rcases List.mem_cons.mp hr with rfl | hr
      · exact h _ (by simp)
      · exact ih ps (fun q hq => h q (by simp [hq])) r hr

theorem State.Inv.busMerge {s : State} (h : s.Inv) (i : Nat) : (s.busMerge i).Inv := by
  unfold State.busMerge
  split
  · exact h
  · refine { h with stores := ?_ }
    intro p hp
    rcases List.mem_append.mp hp with hp | hp
    · exact h.stores p (List.mem_append.mpr (Or.inl hp))
    · exact mergeStores_in_double_word i _ (fun q hq => h.stores q (List.mem_append.mpr (Or.inr hq))) p hp

end Sys2Proof.Machine
end

