-- ==== Sys2Proof/Laws/InvariantAccess.lean ====
section
/-! SUPPORT. The memory, cache and CSR operations keep the invariant. -/

set_option Elab.async false

namespace Sys2Proof.Machine

/-! ### Closely-coupled memories -/

section
variable {s : State} (h : s.Inv)
include h

theorem State.Inv.takeEcc : s.takeEcc.2.Inv := by
  unfold State.takeEcc; split
  · exact h
  · exact { h with }

theorem State.Inv.checkWord : s.checkWord.2.Inv := h.takeEcc

theorem State.Inv.ccm (k : Ccm) : (s.ccm k).wf = true := by
  cases k
  · exact h.iccm
  · exact h.dccm

theorem State.Inv.setCcm (k : Ccm) {m : Memory} (hm : m.wf = true) : (s.setCcm k m).Inv := by
  cases k
  · exact { h with iccm := hm }
  · exact { h with dccm := hm }

theorem State.Inv.countCcmError (k : Ccm) : (s.countCcmError k).Inv := by
  cases k
  · exact { h with csr := { h.csr with miccmect := (congrArg (· ≤ 26#5) (countError_threshold _)).mpr h.csr.miccmect } }
  · exact { h with csr := { h.csr with mdccmect := (congrArg (· ≤ 26#5) (countError_threshold _)).mpr h.csr.mdccmect } }

theorem State.Inv.countICacheError : s.countICacheError.Inv :=
  { h with csr := { h.csr with micect := (congrArg (· ≤ 26#5) (countError_threshold _)).mpr h.csr.micect } }

theorem State.Inv.ccmBytes (k : Ccm) (cs : List (Word × Check)) (ps : List Word) : (State.ccmBytes k cs ps s).2.Inv := by
  unfold State.ccmBytes
  simp only []
  split
  · exact h
  · exact h.draw

theorem State.Inv.ccmValue (k : Ccm) (cs : List (Word × Check)) (a : Word) (n : Nat) : (State.ccmValue k cs a n s).2.Inv :=
  h.ccmBytes k cs (addrs a n)

end

theorem State.Inv.checkWords (ws : List Word) {s : State} (h : s.Inv) : (State.checkWords ws s).2.Inv := by
  induction ws generalizing s with
  | nil => exact h
  | cons w ws ih => exact ih h.checkWord

/-- A fold of operations that keep the invariant keeps it. -/
theorem State.Inv.foldl {α : Type} (f : State → α → State) (hf : ∀ s a, s.Inv → (f s a).Inv) (l : List α) {s : State}
    (h : s.Inv) : (l.foldl f s).Inv := by
  induction l generalizing s with
  | nil => exact h
  | cons a l ih => exact ih (hf s a h)

theorem State.Inv.countChecks {s : State} (h : s.Inv) (k : Ccm) (cs : List (Word × Check)) : (s.countChecks k cs).Inv := by
  refine State.Inv.foldl _ ?_ cs h
  intro u c hu
  split
  · exact hu.countCcmError k
  · exact hu

theorem State.Inv.spoil {s : State} (h : s.Inv) (k : Ccm) (cs : List (Word × Check)) : (s.spoil k cs).Inv := by
  refine State.Inv.foldl _ ?_ cs h
  intro u c hu
  split
  · exact (hu.setCcm k (Memory.wf_putAll _ _ (hu.ccm k))).draw
  · exact hu

theorem State.Inv.mergeByte {s : State} (h : s.Inv) (k : Ccm) (p : Word × Byte) : (State.mergeByte k s p).Inv := by
  unfold State.mergeByte; split
  · exact h.setCcm k (Memory.wf_put _ _ _ (h.ccm k))
  · exact h

/-! ### The DMA port -/

theorem State.Inv.dmaWord {s : State} (h : s.Inv) (k : Ccm) (w : Bool) (a : Word) (n : Nat) (v : BitVec 32) :
    (State.dmaWord k w a n v s).2.Inv := by
  unfold State.dmaWord
  split
  · exact h.setCcm k (Memory.wf_putBytes _ _ _ (h.ccm k))
  · have h1 := h.checkWords (wordsOf a n)
    generalize State.checkWords (wordsOf a n) s = q at h1
    obtain ⟨cs, u⟩ := q
    simp only []
    split
    · exact h1
    · exact State.Inv.ccmValue (State.Inv.countChecks h1 k cs) k cs a n

theorem State.Inv.withDma {s : State} (h : s.Inv) (d : Dma) : ({ s with dma := d } : State).Inv := { h with }

theorem State.Inv.dmaServe {s : State} (h : s.Inv) : s.dmaServe.Inv := by
  unfold State.dmaServe
  split
  · exact h
  · have word : ∀ k w a n v o u, State.dmaWord k w a n v s = (o, u) → u.Inv := by
      intro k w a n v o u e
      have := h.dmaWord k w a n v
      rwa [e] at this
    split
    · exact h.withDma _
    · split
      · exact h.withDma _
      · split
        · exact (word _ _ _ _ _ _ _ ‹_›).withDma _
        · split <;> exact (word _ _ _ _ _ _ _ ‹_›).withDma _
      · split <;> exact (word _ _ _ _ _ _ _ ‹_›).withDma _

theorem State.Inv.dmaServeN (n : Nat) {s : State} (h : s.Inv) : (State.dmaServeN n s).Inv := by
  induction n generalizing s with
  | zero => exact h
  | succ n ih => exact ih h.dmaServe

theorem State.Inv.dmaPoint {s : State} (h : s.Inv) : s.dmaPoint.Inv := by
  unfold State.dmaPoint
  split
  · exact h
  · exact (h.withEnv _).dmaServeN _

/-! ### The DCCM -/

theorem State.Inv.dccmBytes (cs : List (Word × Check)) (pss : List (List Word)) {s : State} (h : s.Inv) :
    (State.dccmBytes cs pss s).2.Inv := by
  induction pss generalizing s with
  | nil => exact h
  | cons ps rest ih =>
    cases rest with
    | nil => exact h.ccmBytes .dccm cs ps
    | cons q rest => exact ih (h.ccmBytes .dccm cs ps).dmaPoint

theorem State.Inv.dccmMerge (bss : List (List (Word × Byte))) {s : State} (h : s.Inv) : (State.dccmMerge bss s).Inv := by
  induction bss generalizing s with
  | nil => exact h
  | cons bs rest ih =>
    have h1 := State.Inv.foldl (State.mergeByte .dccm) (fun _ p hu => hu.mergeByte .dccm p) bs h
    cases rest with
    | nil => exact h1
    | cons q rest => exact ih h1.dmaPoint

theorem State.Inv.dccmLoad {s : State} (h : s.Inv) (a : Word) (n : Nat) : (s.dccmLoad a n).Keeps := by
  unfold State.dccmLoad
  have h1 := h.checkWords (wordsOf a n)
  generalize State.checkWords (wordsOf a n) s = r at h1
  obtain ⟨cs, u⟩ := r
  simp only []
  split
  · exact h1
  · exact State.Inv.dccmBytes cs _ (State.Inv.countChecks h1 .dccm cs)

theorem State.Inv.dccmStore {s : State} (h : s.Inv) (a : Word) (n : Nat) (v : Word) : (s.dccmStore a n v).Keeps := by
  unfold State.dccmStore
  split
  · exact { h with dccm := Memory.wf_putBytes _ _ _ h.dccm }
  · have h1 := h.checkWords (wordsOf a n)
    generalize State.checkWords (wordsOf a n) s = r at h1
    obtain ⟨cs, u⟩ := r
    simp only []
    split
    · exact h1
    · exact State.Inv.dccmMerge _ ((State.Inv.countChecks h1 .dccm cs).spoil .dccm cs)

/-! ### PIC -/

theorem State.Inv.withPic {s : State} (h : s.Inv) (p : Pic) (y : Sync) : ({ s with pic := p, sync := y } : State).Inv :=
  { h with }

theorem State.Inv.picStore {s : State} (h : s.Inv) (a v : Word) : (s.picStore a v).Inv := by
  unfold State.picStore; split
  · exact h.withPic _ _
  · exact h

theorem State.Inv.capture {s : State} (h : s.Inv) : s.capture.Inv := { h with csr := { h.csr with } }

/-! ### I-cache -/

theorem fillData_wf (c : Build) (m : List (Nat × (BitVec 32 × BitVec 10))) (key : Nat) (ds : List (BitVec 32))
    (h : Sparse.wf m = true) : Sparse.wf (fillData c m key ds) = true := by
  induction ds generalizing m key with
  | nil => exact h
  | cons d ds ih => exact ih _ _ (Sparse.wf_put _ _ _ h)

section
variable {s : State} (h : s.Inv)
include h

theorem State.Inv.withICache {i : ICache} (hd : Sparse.wf i.data = true) (ht : Sparse.wf i.tags = true)
    (hl : Sparse.wf i.lru = true) : ({ s with icache := i } : State).Inv :=
  { h with icData := hd, icTags := ht, icLru := hl }

theorem State.Inv.icFill (a : Word) (way : BitVec 2) (lru : BitVec 3) (r : Reply) : (s.icFill a way lru r).Inv := by
  unfold State.icFill
  exact h.withICache (fillData_wf _ _ _ _ h.icData) (Sparse.wf_put _ _ _ h.icTags) (Sparse.wf_put _ _ _ h.icLru)

theorem State.Inv.invalidate : ({ s with icache := s.icache.invalidate } : State).Inv := by
  refine h.withICache h.icData ?_ h.icLru
  unfold ICache.invalidate
  refine Eq.trans (Sparse.wf_map _ ?_ _) h.icTags
  intro e; rfl

theorem State.Inv.icRecover (a : Word) : (s.icRecover a).Inv := by
  refine State.Inv.countICacheError ?_
  exact { h with icTags := (Sparse.wf_map _ (fun e => by split <;> rfl) _).trans h.icTags }

theorem State.Inv.icUpset (key : Nat) (d : BitVec 32) (k : BitVec 10) : (s.icUpset key d k).Inv := by
  unfold State.icUpset
  exact h.withICache (Sparse.wf_put _ _ _ h.icData) h.icTags h.icLru

theorem State.Inv.icTagUpset (key : Nat) (t : BitVec 20) (k : BitVec 5) : (s.icTagUpset key t k).Inv := by
  unfold State.icTagUpset
  exact h.withICache h.icData (Sparse.wf_put _ _ _ h.icTags) h.icLru

theorem State.Inv.dicagoRead : s.dicagoRead.Inv := by
  have g : ∀ (a b : Word), State.Inv { s with csr := { s.csr with dicad0 := a, dicad1 := b &&& Build.dicad1Mask s.cfg } } :=
    fun a b => { h with csr := { h.csr with }, dicad1 := masked_legal _ _ }
  unfold State.dicagoRead
  simp only []
  split
  · exact h.draw
  · split <;> exact g _ _

theorem State.Inv.dicagoWrite : s.dicagoWrite.Inv := by
  unfold State.dicagoWrite
  simp only []
  split
  · exact h
  · split
    · exact { h with icTags := Sparse.wf_put _ _ _ h.icTags, icLru := Sparse.wf_put _ _ _ h.icLru }
    · exact { h with icData := Sparse.wf_put _ _ _ h.icData }

/-! ### Accesses and fetches -/

theorem State.Inv.memRead (a : Word) (size : Size) : (s.memRead a size).Keeps := by
  unfold State.memRead
  split
  · exact h
  · have := h.dccmLoad a size.bytes
    split <;> rename_i he <;> rw [he] at this <;> exact this
  · exact h
  · exact h.busLoad a size.bytes _

theorem State.Inv.memWrite (a : Word) (size : Size) (v : Word) : (s.memWrite a size v).Keeps := by
  unfold State.memWrite
  split
  · exact h
  · exact h.dccmStore a size.bytes v
  · exact h.picStore a v
  · exact h.busStore (by cases size <;> simp [Size.bytes])

theorem State.Inv.fenceOp : s.fenceOp.Inv := h.quiesce.withSync _

theorem State.Inv.fenceIOp : s.fenceIOp.Inv := State.Inv.withSync (State.Inv.invalidate h.fenceOp) _

end

/-- A fetch result keeps the invariant in every outcome. -/
def Fetched.Keeps {α : Type} : Fetched α → Prop
  | .ok _ s => s.Inv
  | .fault _ s => s.Inv
  | .again s => s.Inv

section
variable {s : State} (h : s.Inv)
include h

theorem State.Inv.fetchIccm (p : Word) : (s.fetchIccm p).Keeps := by
  unfold State.fetchIccm
  have h1 := h.checkWord
  generalize s.checkWord = r at h1
  obtain ⟨c, u⟩ := r
  simp only []
  split
  · exact h1
  · exact State.Inv.countCcmError h1 .iccm
  all_goals
    exact State.Inv.ccmValue h1 .iccm _ p 2

theorem State.Inv.fetchBus (p : Word) : (s.fetchBus p).Keeps := by
  unfold State.fetchBus
  have h1 := h.takeReply
  generalize s.takeReply = r at h1
  obtain ⟨r, u⟩ := r
  simp only []
  split <;> exact h1

theorem State.Inv.fetchCached (p : Word) : (s.fetchCached p).Keeps := by
  unfold State.fetchCached
  split
  · simp only []
    split
    · exact h.icRecover p
    · exact h
  · simp only []
    split
    · exact h.icRecover p
    · have h1 := h.takeReply
      generalize s.takeReply = r at h1
      obtain ⟨r, u⟩ := r
      simp only []
      split
      · exact h1
      · exact State.Inv.icFill h1 _ _ _ _

theorem State.Inv.fetchParcel (p : Word) : (s.fetchParcel p).Keeps := by
  unfold State.fetchParcel
  split
  · split
    · exact h.fetchIccm p
    · exact h
  · split
    · exact h
    · split
      · exact h.fetchCached p
      · exact h.fetchBus p

theorem State.Inv.fetch : s.fetch.Keeps := by
  unfold State.fetch
  have h1 := h.fetchParcel s.pc
  generalize s.fetchParcel s.pc = r at h1
  cases r with
  | fault e u => exact h1
  | again u => exact h1
  | ok p0 u =>
    simp only []
    split
    · have h2 := State.Inv.fetchParcel (State.Inv.dmaPoint h1) (s.pc + 2#32)
      generalize u.dmaPoint.fetchParcel (s.pc + 2#32) = r at h2
      cases r with
      | ok p1 t => exact State.Inv.dmaPoint h2
      | fault e t => exact h2
      | again t => exact h2
    · exact State.Inv.dmaPoint h1

/-! ### CSRs -/

theorem State.Inv.withCsr {c : Csrs} (hc : c.Legal) (hd : c.dicad1 = s.csr.dicad1 := by rfl) : (s.withCsr c).Inv :=
  { h with csr := hc, dicad1 := by rw [State.withCsr_csr, hd]; exact h.dicad1 }

theorem State.Inv.writeCycle (d hi : Bool) (v : Word) : (s.writeCycle d hi v).Inv := { h with csr := { h.csr with } }

theorem State.Inv.writeHpm (d hi : Bool) (i : Fin 4) (v : Word) : (s.writeHpm d hi i v).Inv :=
  { h with csr := { h.csr with } }

theorem State.Inv.writeMgpmc (d : Bool) (v : Word) : (s.writeMgpmc d v).Inv := { h with csr := { h.csr with } }

theorem State.Inv.writeMrac (v : Word) : (s.writeMrac v).Inv := { h with csr := { h.csr with mrac := legalMrac_legal v } }

theorem State.Inv.writeMfdc (v : Word) : (s.writeMfdc v).Inv := { h with csr := { h.csr with mfdc := masked_legal _ _ } }

theorem State.Inv.writeMitcnt0 (d : Bool) (v : Word) : (s.writeMitcnt0 d v).Inv := by
  unfold State.writeMitcnt0; split
  · exact h.withCsr { h.csr with }
  · exact h.withSync _

theorem State.Inv.writeMitcnt1 (d : Bool) (v : Word) : (s.writeMitcnt1 d v).Inv := by
  unfold State.writeMitcnt1; split
  · exact h.withCsr { h.csr with }
  · exact h.withSync _

theorem State.Inv.writeMitb0 (d : Bool) (v : Word) : (s.writeMitb0 d v).Inv := { h with csr := { h.csr with } }

theorem State.Inv.writeMitb1 (d : Bool) (v : Word) : (s.writeMitb1 d v).Inv := { h with csr := { h.csr with } }

theorem State.Inv.writeMpmc (dbg : Bool) (v : Word) : (s.writeMpmc dbg v).Inv := by
  unfold State.writeMpmc
  simp only []
  split
  · rename_i hc
    have hd : s.hart.activity ≠ .dbHalt ∧ s.hart.stepping = false := by
      simp only [Bool.and_eq_true, Bool.not_eq_true', Bool.or_eq_false_iff, State.inDebugMode, State.inDebug] at hc
      exact ⟨by simpa using hc.2.2.1, hc.2.2.2⟩
    refine { h with csr := ?_, dicad1 := ?_, hart := { h.hart with fwHalt := fun _ => hd } }
    all_goals simp only []
    all_goals split
    · refine { h.csr with mstatus := ?_ }
      have := h.csr.mstatus
      rw [← this]
      ext i hi
      simp only [BitVec.getElem_and, BitVec.getElem_or, BitVec.getElem_not]
      interval_cases i <;> simp
    · exact { h.csr with }
    · exact h.dicad1
    · exact h.dicad1
  · exact h.withCsr { h.csr with }

theorem State.Inv.writeMcpc (d : Bool) (v : Word) : (s.writeMcpc d v).Inv := by
  unfold State.writeMcpc; split
  · exact h
  · exact { h with hart := { h.hart with } }

theorem State.Inv.csrWrite (dbg : Bool) (n : CsrName) (v : Word) : (s.csrWrite dbg n v).Inv := by
  have hl := h.csr
  cases n <;> simp only [State.csrWrite]
  case mstatus =>
    refine h.withCsr { hl with mstatus := ?_ }
    rw [and_or_mask]
    simp
  case mie => exact h.withCsr { hl with mie := masked_legal _ _ }
  case mtvec => exact h.withCsr { hl with mtvec := by rw [BitVec.getLsbD_and]; simp }
  case mhpmevent i =>
    refine h.withCsr { hl with mhpmevent := ?_ }
    intro j
    simp only [Fin.getElem_fin, Vector.getElem_set]
    split
    · exact legalEvent_legal v
    · exact hl.mhpmevent j
  case mepc => exact h.withCsr { hl with mepc := by rw [BitVec.getLsbD_and]; simp }
  case tdata1 =>
    split
    · rename_i w hw
      refine h.withCsr { hl with tdata1 := ?_ }
      intro j
      simp only [Fin.getElem_fin, Vector.getElem_set]
      split
      · rename_i hj; exact legalTdata1_legal hw j hj.symm
      · exact hl.tdata1 j
    · exact h
  case tdata2 =>
    split
    · exact h
    · exact h.withCsr { hl with }
  case dcsr =>
    refine h.withCsr { hl with dcsr := ?_ }
    rw [and_or_mask]
    have e : (~~~0x8C04#32 &&& ~~~0x8DC4#32 : Word) = ~~~0x8DC4#32 := by decide
    rw [e, hl.dcsr, BitVec.and_assoc]
    have e2 : (0x8C04#32 &&& ~~~0x8DC4#32 : Word) = 0#32 := by decide
    rw [e2]; simp
  case dpc => exact h.withCsr { hl with dpc := by rw [BitVec.getLsbD_and]; simp }
  case mrac => exact h.writeMrac v
  case mcpc => exact h.writeMcpc dbg v
  case dmst =>
    split
    · exact h.fenceIOp
    · split
      · exact h.fenceOp
      · exact h
  case mpmc => exact h.writeMpmc dbg v
  case dicawics => exact h.withCsr { hl with dicawics := masked_legal _ _ }
  case dicago =>
    split
    · exact h.dicagoWrite
    · exact h
  case dicad1 => exact { h with csr := { h.csr with }, dicad1 := masked_legal _ _ }
  case mgpmc => exact h.writeMgpmc dbg v
  case mitcnt0 => exact h.writeMitcnt0 dbg v
  case mitcnt1 => exact h.writeMitcnt1 dbg v
  case mitb0 => exact h.writeMitb0 dbg v
  case mitb1 => exact h.writeMitb1 dbg v
  case micect => exact h.withCsr { hl with micect := legalThresh_legal v }
  case miccmect => exact h.withCsr { hl with miccmect := legalThresh_legal v }
  case mdccmect => exact h.withCsr { hl with mdccmect := legalThresh_legal v }
  case mfdc => exact h.writeMfdc v
  case mcycle => exact h.writeCycle dbg false v
  case mcycleh => exact h.writeCycle dbg true v
  case mhpmcounter i => exact h.writeHpm dbg false i v
  case mhpmcounterh i => exact h.writeHpm dbg true i v
  case meicpct => exact h.capture
  case misa | mip | mvendorid | marchid | mimpid | mhartid | mdseac | meihap | zero => exact h
  all_goals exact h.withCsr { hl with }

theorem State.Inv.csrReadDone (n : CsrName) : (s.csrReadDone n).Inv := by
  unfold State.csrReadDone; split
  · exact h.draw
  · exact h

theorem State.Inv.retireCsr (rd : Reg) (write mgpmc : Bool) : (s.retireCsr rd write mgpmc).Inv := by
  unfold State.retireCsr
  simp only []
  split
  · have : ∀ u : State, u.Inv → u.draw.draw.Inv := fun u hu => hu.draw.draw
    apply this
    split
    · exact h.bumpInstret.addEvents _
    · exact h.bumpInstret
  · exact (h.retire _ _).draw

theorem State.Inv.csrOp (i : Instr) (rd : Reg) (a : BitVec 12) (write : Bool) (new : Word → Word) :
    (s.csrOp i rd a write new).Inv := by
  unfold State.csrOp
  split
  · exact h.takeException _
  · simp only []
    apply State.Inv.setReg
    split
    · exact (((h.csrReadDone _).retireCsr _ _ _).advance _).csrWrite _ _ _
    · exact ((h.csrReadDone _).retireCsr _ _ _).advance _

/-! ### Debug Mode and triggers -/

theorem State.Inv.enterDebug (c : BitVec 3) (core : Bool) : (s.enterDebug c core).Inv := by
  have hq := h.quiesce
  unfold State.enterDebug
  simp only []
  have h1 : ∃ u, (if 0 < s.quiesce.hart.pause then s.quiesce.draw else s.quiesce) = u ∧ u.Inv := by
    refine ⟨_, rfl, ?_⟩
    split
    · exact hq.draw
    · exact hq
  obtain ⟨u, hu, h1⟩ := h1
  simp only [hu]
  refine { h1 with csr := { h1.csr with dcsr := ?_, dpc := h1.pc }, hart := ⟨?_, ?_, ?_⟩ }
  · have hl := h1.csr.dcsr
    rw [and_or_mask]
    have e : (~~~0x1C0#32 &&& ~~~0x8DC4#32 : Word) = ~~~0x8DC4#32 := by decide
    rw [e, hl]
    revert c
    decide
  · cases core <;> simp
  · simp
  · simp

/-- What the triggers make of a state. -/
def Fired.Keeps : Fired → Prop
  | .no => True
  | .breakpoint s => s.Inv
  | .debug s => s.Inv

theorem State.Inv.triggers (m : MemOp) : (s.triggers m).Keeps := by
  unfold State.triggers
  simp only []
  split
  · have h1 : ∀ f0 f1 f2 f3, (s.withCsr { s.csr with
        tdata1 := #v[setHit f0 s.csr.tdata1[0], setHit f1 s.csr.tdata1[1], setHit f2 s.csr.tdata1[2],
          setHit f3 s.csr.tdata1[3]] }).Inv := by
      intro f0 f1 f2 f3
      refine h.withCsr { h.csr with tdata1 := ?_ }
      intro j
      match j with
      | 0 => exact setHit_legal (h.csr.tdata1 0)
      | 1 => exact setHit_legal (h.csr.tdata1 1)
      | 2 => exact setHit_legal (h.csr.tdata1 2)
      | 3 => exact setHit_legal (h.csr.tdata1 3)
    split
    · exact State.Inv.enterDebug (h1 _ _ _ _) _ _
    · exact State.Inv.takeException (h1 _ _ _ _) _
  · trivial

end

end Sys2Proof.Machine
end

