-- ==== Sys2Proof/Laws/InvariantRun.lean ====
section
/-! SUPPORT. The instructions, the clock, the debug module and the agents keep the invariant. -/

set_option Elab.async false

namespace Sys2Proof.Machine

theorem even_shift1 {w : Nat} (x : BitVec w) : ((x ++ 0#1).signExtend 32).getLsbD 0 = false := by
  simp [BitVec.getElem_signExtend, BitVec.getElem_append]

theorem even_mask (x : Word) : (x &&& 0xFFFFFFFE#32).getLsbD 0 = false := by
  rw [BitVec.getLsbD_and]; simp

theorem even_len (len : Len) : (len.bytes : Word).getLsbD 0 = false := by cases len <;> decide

theorem resetTrigger_fixed : (0x23E00000#32 : Word) &&& ~~~0x081818C7#32 = 0x23E00000#32 := by decide

theorem resetDcsr_fixed : (0x40000003#32 : Word) &&& ~~~0x8DC4#32 = 0x40000003#32 := by decide

theorem resetTrigger_chain : (0x23E00000#32 : Word).getLsbD 11 = false := by decide

theorem resetTrigger_action : (0x23E00000#32 : Word).getLsbD 12 = true → (0x23E00000#32 : Word).getLsbD 27 = true := by
  decide

theorem resetTrigger_select : (0x23E00000#32 : Word).getLsbD 19 = true →
    (0x23E00000#32 : Word).getLsbD 2 = false ∧ (0x23E00000#32 : Word).getLsbD 0 = false := by decide

theorem resetTrigger_legal (t : Fin 4) : LegalTrigger t 0x23E00000#32 where
  fixed := resetTrigger_fixed
  chain := fun _ => resetTrigger_chain
  action := resetTrigger_action
  select := resetTrigger_select

/-- The CSRs are legal at reset (R40-R104). -/
theorem Csrs.reset_legal {c : Build} (hc : c.valid = true) : (Csrs.reset c).Legal := by
  have hm : c.resetMepc.getLsbD 0 = false := by
    simp only [Build.valid, Build.argsValid, Bool.and_eq_true, beq_iff_eq] at hc
    exact hc.2.2
  constructor
  case mepc => exact hm
  case dcsr => exact resetDcsr_fixed
  case mfdc => cases hb : c.lsuBus <;> simp [Csrs.reset, Build.mfdcReset, hb]
  case tdata1 =>
    intro t
    have : (Csrs.reset c).tdata1[t] = 0x23E00000#32 := by simp [Csrs.reset]
    rw [this]; exact resetTrigger_legal t
  all_goals simp [Csrs.reset]

section
variable {s : State} (h : s.Inv)
include h

/-! ### The shared shapes of the instructions -/

theorem State.Inv.aluOp (len : Len) (rd : Reg) (v : Word) : (s.aluOp len rd v).Inv := (h.setReg rd v).finish len _

theorem State.Inv.mulOp (e : Nat) (rd : Reg) (v : Word) : (s.mulOp e rd v).Inv := (h.setReg rd v).finish .word _

theorem State.Inv.retireOpen (len : Len) (es os : List Nat) : (s.retireOpen len es os).Inv :=
  (h.retire len _).withDraws _

theorem State.Inv.jumpOp (len : Len) (rd : Reg) {t : Word} (ht : t.getLsbD 0 = false) : (s.jumpOp len rd t).Inv :=
  ((h.setReg rd _).retireOpen len _ _).setPc ht

theorem State.Inv.branchOp (len : Len) (taken : Bool) {off : Word} (ht : off.getLsbD 0 = false) :
    (s.branchOp len taken off).Inv := by
  refine (h.retireOpen len _ _).setPc ?_
  split
  · exact add_even h.pc ht
  · exact add_even h.pc (even_len len)

theorem State.Inv.loadOp (len : Len) (rd : Reg) (a : Word) (size : Size) (ext : Word → Word) :
    (s.loadOp len rd a size ext).Inv :=
  (h.memRead a size).bind (fun _ _ hu => (hu.setReg rd _).finish len _)

theorem State.Inv.storeOp (len : Len) (a : Word) (size : Size) (v : Word) : (s.storeOp len a size v).Inv :=
  (h.memWrite a size v).bind (fun _ _ hu => hu.finish len _)

theorem State.Inv.ebreakOp : s.ebreakOp.Inv := by
  unfold State.ebreakOp
  split
  · apply State.Inv.enterDebug
    split
    · exact h
    · exact h.countEvents _
  · exact (h.countEvents _).takeException _

/-! ### The clock -/

theorem State.Inv.tickTimers (c : Bool) : (s.tickTimers c).Inv :=
  { h with csr := { h.csr with }, hart := { h.hart with } }

theorem State.Inv.addHpm (k : Nat → Nat) : (s.addHpm k).Inv := by
  unfold State.addHpm
  simp only []
  split <;> exact { h with csr := { h.csr with } }

theorem State.Inv.addCycle : s.addCycle.Inv := by
  unfold State.addCycle
  split <;> exact { h with csr := { h.csr with } }

theorem State.Inv.tickCounters : s.tickCounters.Inv := by
  unfold State.tickCounters
  simp only []
  split <;> split
  · exact h.addCycle.addHpm _
  · exact h.addHpm _
  · exact h.addCycle
  · exact h

theorem State.Inv.tickPause : s.tickPause.Inv := by
  unfold State.tickPause
  split
  · exact { h with hart := { h.hart with } }
  · exact h

theorem State.Inv.gwTick : s.gwTick.Inv := h.withPic _ _

theorem State.Inv.tick (c : Bool) : (s.tick c).Inv := ((h.tickCounters.tickTimers c).tickPause).gwTick

theorem State.Inv.microCount : s.microCount.Inv := by
  unfold State.microCount
  split
  · exact (h.addHpm _).draw
  · exact h

end

theorem State.Inv.ticks (n k : Nat) {s : State} (h : s.Inv) : (State.ticks n k s).Inv := by
  induction n generalizing k s with
  | zero => exact h
  | succ n ih => exact ih _ (h.tick _)

theorem State.Inv.clock {s : State} (h : s.Inv) : s.clock.Inv := h.microCount.ticks _ _

/-! ### Activity states and reset -/

section
variable {s : State} (h : s.Inv)
include h

theorem State.Inv.withHart {x : Hart} (hx : x.Legal) : ({ s with hart := x } : State).Inv := { h with hart := hx }

theorem State.Inv.haltOnRequest : s.haltOnRequest.Inv := by
  have h1 := h.enterDebug 3#3 s.dm.haltreq
  unfold State.haltOnRequest
  have ha : (s.enterDebug 3#3 s.dm.haltreq).hart.activity = .dbHalt := by
    unfold State.enterDebug; simp only []
  have hl := h1.hart.halted.mp ha
  refine h1.withHart { halted := ?_, stepping := h1.hart.stepping, fwHalt := h1.hart.fwHalt }
  simp only [ha, true_iff, Bool.or_eq_true] at hl ⊢
  rcases hl with hl | hl
  · exact Or.inl hl
  · right; left; exact hl

theorem State.Inv.noteRequests (ha : s.hart.activity = .dbHalt) : s.noteRequests.Inv := by
  have hl := h.hart.halted.mp ha
  refine h.withHart { halted := ?_, stepping := h.hart.stepping, fwHalt := h.hart.fwHalt }
  simp only [ha, true_iff, Bool.or_eq_true] at hl ⊢
  rcases hl with hl | hl
  · exact Or.inl (Or.inl hl)
  · right; left; exact hl

theorem State.Inv.leaveDebug (ha : s.hart.activity = .dbHalt) : s.leaveDebug.Inv := by
  refine { h with pc := h.csr.dpc, hart := ⟨?_, fun _ => rfl, ?_⟩ }
  · simp [State.leaveDebug]
  · intro hf
    exact absurd ha (h.hart.fwHalt hf).1

theorem State.Inv.dbHaltStep (ha : s.hart.activity = .dbHalt) : s.dbHaltStep.Inv := by
  unfold State.dbHaltStep
  simp only []
  split
  · exact (h.noteRequests ha).leaveDebug ha
  · exact h.noteRequests ha

theorem State.Inv.activate (ha : s.hart.activity = .pmuHalt) : (s.setActivity .running).Inv := by
  have := h.hart.halted
  simp only [ha, reduceCtorEq, false_iff] at this
  refine h.withHart ⟨?_, fun _ => rfl, fun hf => ⟨by simp, (h.hart.fwHalt hf).2⟩⟩
  simp only [reduceCtorEq, false_iff]; exact this

theorem State.Inv.pmuHaltStep (ha : s.hart.activity = .pmuHalt) : s.pmuHaltStep.Inv := by
  unfold State.pmuHaltStep
  split
  · exact h.haltOnRequest
  · split
    · exact (h.activate ha).withOuts _
    · split
      · exact h.activate ha
      · exact h

/-- A hart that is not stepping and not in db-halt may enter pmu/fw-halt. -/
theorem State.Inv.sleep (ha : s.hart.activity ≠ .dbHalt) (hs : s.hart.stepping = false) : (s.setActivity .pmuHalt).Inv := by
  have := h.hart.halted
  simp only [ha, false_iff] at this
  refine h.withHart ⟨?_, ?_, fun hf => ⟨by simp, (h.hart.fwHalt hf).2⟩⟩
  · simp only [reduceCtorEq, false_iff]; exact this
  · intro hp; exact absurd (hs.symm.trans hp) (by simp)

theorem State.Inv.resetHart : s.resetHart.Inv where
  cfg := h.cfg
  pc := vecAddr_even _
  csr := Csrs.reset_legal h.cfg
  dicad1 := by simp [State.resetHart, Csrs.reset]
  hart := ⟨by simp [State.resetHart, Hart.reset], by simp [State.resetHart, Hart.reset], by simp [State.resetHart, Hart.reset]⟩
  iccm := h.iccm
  dccm := h.dccm
  soc := h.soc
  icData := h.icData
  icTags := h.invalidate.icTags
  icLru := rfl
  bus := Nat.zero_le _
  stores := by simp [State.resetHart, sentStores]

theorem State.Inv.haltFromReset (c : BitVec 3) {x : Hart} (hx : (x.dbgHalt || x.mpcHalt) = true) :
    (s.haltFromReset c x).Inv := by
  refine { h with csr := { h.csr with dcsr := ?_, dpc := h.pc }, hart := ⟨?_, ?_, ?_⟩ }
  · have hl := h.csr.dcsr
    show ((s.csr.dcsr &&& ~~~0x1C0#32) ||| (c.setWidth 32 <<< 6)) &&& ~~~0x8DC4#32 = 0x40000003#32
    rw [and_or_mask]
    have e : (~~~0x1C0#32 &&& ~~~0x8DC4#32 : Word) = ~~~0x8DC4#32 := by decide
    rw [e, hl]
    revert c
    decide
  · simp only [State.haltFromReset, true_iff]; exact hx
  · simp [State.haltFromReset]
  · simp [State.haltFromReset]

theorem State.Inv.nmiOutOfReset : s.nmiOutOfReset.Inv := by
  unfold State.nmiOutOfReset
  split
  · refine State.Inv.draw ?_
    exact h.withHart { h.hart with }
  · exact h

theorem State.Inv.startHart : s.startHart.Inv := by
  unfold State.startHart
  split
  · exact (h.haltFromReset _ (by simp)).draw
  · split
    · exact h.haltFromReset _ (by simp)
    · exact h.withHart { h.hart with }

theorem State.Inv.leaveReset : s.leaveReset.Inv := by
  unfold State.leaveReset
  split
  · exact (h.setPc (vecAddr_even _)).nmiOutOfReset.startHart
  · exact h

theorem State.Inv.setPins (p : Pins) : (s.setPins p).Inv := { h with hart := { h.hart with } }

theorem State.Inv.handshakes : s.handshakes.Inv := { h with hart := { h.hart with } }

theorem State.Inv.resetDm : s.resetDm.Inv := { h with }

/-! ### The debug module -/

omit h in
theorem State.Inv.ite {c : Prop} [Decidable c] {a b : State} (ha : a.Inv) (hb : b.Inv) : (if c then a else b).Inv := by
  split
  · exact ha
  · exact hb

omit h in
theorem State.Inv.iteSnd {c : Prop} [Decidable c] {a b : Word × State} (ha : a.2.Inv) (hb : b.2.Inv) :
    (if c then a else b).2.Inv := by
  split
  · exact ha
  · exact hb

theorem State.Inv.sbRead : s.sbRead.Inv := by
  unfold State.sbRead
  split
  · exact h.withDm _
  · have h1 := h.takeReply
    generalize s.takeReply = q at h1
    obtain ⟨r, u⟩ := q
    simp only []
    split
    · exact State.Inv.withDm h1 _
    · split
      · exact State.Inv.withDm h1 _
      · exact State.Inv.draw (State.Inv.draw (State.Inv.withDm h1 _))

theorem State.Inv.sbWrite : s.sbWrite.Inv := by
  unfold State.sbWrite
  split
  · exact h.withDm _
  · have h1 := h.takeReply
    generalize s.takeReply = q at h1
    obtain ⟨r, u⟩ := q
    simp only []
    split
    · exact State.Inv.withDm (State.Inv.failWrite h1 _) _
    · exact State.Inv.withDm (State.Inv.withSoc h1 (Memory.wf_putBytes _ _ _ h1.soc)) _

theorem State.Inv.debugReadReg {r : BitVec 16} {v : Word} {t : State} (e : s.debugReadReg r = some (v, t)) : t.Inv := by
  unfold State.debugReadReg at e
  split at e
  · cases e; exact h
  · split at e
    · cases e
    · split at e
      · cases e
      · cases e; exact h.dicagoRead
      · cases e; exact h.csrReadDone _

theorem State.Inv.debugWriteReg {r : BitVec 16} {v : Word} {t : State} (e : s.debugWriteReg r v = some t) : t.Inv := by
  unfold State.debugWriteReg at e
  split at e
  · cases e; exact h.setReg _ _
  · split at e
    · cases e
    · simp only [Option.map_eq_some_iff] at e
      obtain ⟨n, _, rfl⟩ := e
      exact h.csrWrite _ _ _

end

/-- What an abstract command comes to keeps the invariant. -/
def Cmd.Keeps : Cmd → Prop
  | .ok s => s.Inv
  | .err _ s => s.Inv

section
variable {s : State} (h : s.Inv)
include h

theorem State.Inv.accessRegister (cmd : Word) : (s.accessRegister cmd).Keeps := by
  unfold State.accessRegister
  split
  · exact h
  · simp only []
    split
    · split
      · exact h
      · rename_i e
        have h1 := h.debugWriteReg e
        split
        · exact State.Inv.withDm h1 _
        · exact h1
    · split
      · exact h
      · rename_i e
        have h1 := h.debugReadReg e
        split
        · exact State.Inv.withDm (State.Inv.withDm h1 _) _
        · exact State.Inv.withDm h1 _

theorem State.Inv.debugRead (a : Word) (size : Size) : (s.debugRead a size).2.Inv := by
  unfold State.debugRead
  simp only []
  split
  · exact h
  · split
    · have h1 := h.checkWords (wordsOf a size.bytes)
      generalize State.checkWords (wordsOf a size.bytes) s = q at h1
      obtain ⟨cs, u⟩ := q
      simp only []
      split
      · exact h1
      · exact State.Inv.ccmValue (State.Inv.countChecks h1 _ cs) _ cs _ _
    · have h1 := (h.logBus (readReq (s.sideEffect a) a size.bytes)).takeReply
      generalize (s.logBus (readReq (s.sideEffect a) a size.bytes)).takeReply = q at h1
      obtain ⟨r, u⟩ := q
      simp only []
      split <;> exact h1

theorem State.Inv.debugWrite (a : Word) (size : Size) (v : Word) : (s.debugWrite a size v).Keeps := by
  unfold State.debugWrite
  simp only []
  split
  · exact h.picStore a v
  · split
    · exact h.setCcm .iccm (Memory.wf_putBytes _ _ _ h.iccm)
    · split
      · have := h.dccmStore a size.bytes v
        split <;> rename_i e <;> rw [e] at this <;> exact this
      · have h1 := fun r => (h.logBus r).takeReply
        generalize hq : State.takeReply _ = q
        have h1 : q.2.Inv := hq ▸ h1 _
        obtain ⟨r, u⟩ := q
        simp only []
        split
        · exact State.Inv.failWrite h1 _
        · exact State.Inv.withSoc h1 (Memory.wf_putBytes _ _ _ h1.soc)

theorem State.Inv.accessMemory (cmd : Word) : (s.accessMemory cmd).Keeps := by
  unfold State.accessMemory
  simp only []
  split
  · exact h
  · split
    · have h1 := h.debugWrite s.dm.data1 (aamSize cmd) s.dm.data0
      split
      · rename_i e; rw [e] at h1
        split
        · exact State.Inv.withDm h1 _
        · exact h1
      · rename_i e; rw [e] at h1; exact h1
    · have h1 := h.debugRead s.dm.data1 (aamSize cmd)
      split
      · rename_i e; rw [e] at h1
        split
        · exact State.Inv.withDm (State.Inv.withDm h1 _) _
        · exact State.Inv.withDm h1 _
      · rename_i e; rw [e] at h1; exact h1

theorem State.Inv.failCommand (c : BitVec 3) : (s.failCommand c).Inv := ((h.withDm _).draw).draw

theorem State.Inv.startCommand (cmd : Word) : (s.startCommand cmd).Inv := by
  unfold State.startCommand
  split
  · exact h
  · simp only []
    have h1 : (s.withDm { s.dm with command := cmd }).Inv := h.withDm _
    generalize s.withDm { s.dm with command := cmd } = u at h1
    split
    · exact h1.failCommand _
    · split
      · exact h1.failCommand _
      · have h2 : (if cmd.extractLsb' 24 8 = 0#8 then u.accessRegister cmd else u.accessMemory cmd).Keeps := by
          split
          · exact h1.accessRegister cmd
          · exact h1.accessMemory cmd
        split
        · rename_i e; rw [e] at h2; exact h2
        · rename_i e; rw [e] at h2; exact State.Inv.failCommand h2 _

theorem State.Inv.autoexec (n : Nat) : (s.autoexec n).Inv := by
  unfold State.autoexec
  split
  · exact h.startCommand _
  · exact h

theorem State.Inv.writeDmcontrol (v : Word) : (s.writeDmcontrol v).Inv := by
  unfold State.writeDmcontrol
  simp only []
  split
  · exact h.withDm _
  · split
    · exact h.withDm _
    · exact { h with hart := { h.hart with } }

theorem State.Inv.dmiWrite (a : BitVec 7) (v : Word) : (s.dmiWrite a v).Inv := by
  unfold State.dmiWrite
  exact .ite (h.writeDmcontrol v) <| .ite h <| .ite ((h.withDm _).autoexec _) <| .ite ((h.withDm _).autoexec _) <|
    .ite (h.withDm _) <| .ite (h.startCommand v) <| .ite (h.withDm _) <| .ite (h.withDm _) <|
    .ite (.ite (h.withDm _).sbRead (h.withDm _)) <| .ite (.ite (h.withDm _).sbWrite (h.withDm _)) <|
    .ite (h.withDm _) h

theorem State.Inv.dmiRead (a : BitVec 7) : (s.dmiRead a).2.Inv := by
  unfold State.dmiRead
  exact .iteSnd (h.autoexec _) <| .iteSnd (h.autoexec _) <| .iteSnd h <| .iteSnd h <| .iteSnd h <| .iteSnd h.draw <|
    .iteSnd h <| .iteSnd h <| .iteSnd h <| .iteSnd (.ite h.sbRead h) <| .iteSnd h <| .iteSnd h h

theorem State.Inv.withDtm (d : Dtm) : ({ s with dtm := d } : State).Inv := { h with }

theorem State.Inv.jtagDr (b : BitVec 41) : (s.jtagDr b).Inv := by
  unfold State.jtagDr
  split
  · exact h.withDtm _
  · split
    · exact h.withDtm _
    · split
      · simp only []
        split
        · exact h.withDtm _
        · split
          · exact State.Inv.withDtm (State.Inv.dmiRead (h.withDtm _) _) _
          · split
            · exact State.Inv.withDtm (State.Inv.dmiWrite (h.withDtm _) _ _) _
            · exact h.withDtm _
      · exact h.withDtm _

/-! ### Bus answers -/

theorem State.Inv.busResp (as : List (Nat × Bool)) : (s.busResp as).Inv := by
  unfold State.busResp
  have hl := pickTxns_length_le as 0 s.lsu.busOut
  have hd := pickTxns_in_double_word as 0 s.lsu.busOut
    (fun p hp => h.stores p (List.mem_append.mpr (Or.inl hp)))
  generalize pickTxns as 0 s.lsu.busOut = q at hl hd
  obtain ⟨hit, rest⟩ := q
  simp only []
  refine State.Inv.foldl _ (fun u t hu => hu.complete t.1 t.2) _ ?_
  refine { h with bus := Nat.le_trans hl h.bus, stores := fun p hp => ?_ }
  rcases List.mem_append.mp hp with hp | hp
  · exact hd p hp
  · exact h.stores p (List.mem_append.mpr (Or.inr hp))

theorem State.Inv.applyEvent (e : Event) {t : State} (ht : s.applyEvent e = some t) : t.Inv := by
  cases e <;> simp only [State.applyEvent] at ht
  case pins p =>
    split at ht
    · cases ht
    · cases ht; exact h.setPins p
  case busSend => cases ht; exact h.sendOne
  case busResp as => cases ht; exact h.busResp as
  case socWrite a b => cases ht; exact h.withSoc (Memory.wf_put _ _ _ h.soc)
  case dmaReq r => cases ht; exact { h with }
  case dmaServe => cases ht; exact h.dmaServe
  case jtagReset => cases ht; exact h.withDtm _
  case jtagIr => cases ht; exact h.withDtm _
  case jtagDr b => cases ht; exact h.jtagDr b
  case icacheFill a way lru =>
    cases ht
    split
    · exact h.icFill _ _ _ _
    · exact h
  case busMerge i => cases ht; exact h.busMerge i
  case icacheUpset k d c => cases ht; exact h.icUpset k d c
  case icacheTagUpset k t c => cases ht; exact h.icTagUpset k t c
  case iccmFetchError =>
    cases ht
    split
    · exact h.countCcmError .iccm
    · exact h
  case icacheFetchError a =>
    cases ht
    split
    · exact h.icRecover a
    · exact h

end

theorem State.Inv.applyResets {s : State} (h : s.Inv) : s.applyResets.Inv := by
  unfold State.applyResets
  have h1 : ∃ u, (if (!s.pins.dbgRstL) = true then s.resetDm else s) = u ∧ u.Inv := by
    refine ⟨_, rfl, ?_⟩
    split
    · exact h.resetDm
    · exact h
  obtain ⟨u, hu, h1⟩ := h1
  simp only [hu]
  split
  · exact h1.resetHart
  · exact h1

theorem State.applyResets_pins (s : State) : s.applyResets.pins = s.pins := by
  unfold State.applyResets
  simp only []
  split <;> split <;> rfl

/-- What settling the resets can do: it refuses an MPC run request before a db-halt out of reset; else it holds the hart in reset, or
lets it go on or start. -/
theorem State.settleResets_cases {s : State} :
    (s.settleResets = none ∧ s.applyResets.resetViolates = true) ∨
    (s.applyResets.resetViolates = false ∧
      ((s.applyResets.inReset = true ∧ s.settleResets = some s.applyResets) ∨
        (s.applyResets.inReset = false ∧ s.settleResets = some s.applyResets.leaveReset))) := by
  unfold State.settleResets
  simp only []
  split
  · exact Or.inl ⟨rfl, by assumption⟩
  · rename_i h
    refine Or.inr ⟨by simpa using h, ?_⟩
    split
    · exact Or.inl ⟨by assumption, rfl⟩
    · rename_i hr; exact Or.inr ⟨by simpa using hr, rfl⟩

/-- Out of reset and started, the resets change nothing. -/
theorem State.Ready.settleResets {s : State} (h : s.Ready) : s.settleResets = some s := by
  have e : s.applyResets = s := by simp [State.applyResets, h.debugModule, h.reset]
  simp [State.settleResets, e, State.resetViolates, h.reset, h.held, State.leaveReset]

theorem State.Inv.settleResets {s t : State} (h : s.Inv) (ht : s.settleResets = some t) : t.Inv := by
  simp only [State.settleResets] at ht
  split at ht
  · cases ht
  · cases ht
    split
    · exact h.applyResets
    · exact h.applyResets.leaveReset

theorem State.Inv.applyEvents (es : List Event) {s t : State} (h : s.Inv) (ht : s.applyEvents es = some t) : t.Inv := by
  induction es generalizing s with
  | nil => exact h.settleResets ht
  | cons e es ih =>
    simp only [State.applyEvents, Option.bind_eq_some_iff] at ht
    obtain ⟨u, hu, v, hv, ht⟩ := ht
    exact ih ((h.settleResets hu).applyEvent e hv) ht

theorem State.Inv.beginStep {s : State} (h : s.Inv) : s.beginStep.Inv := by
  unfold State.beginStep
  simp only []
  split
  · exact { h with }
  · exact { h with }

theorem State.Inv.earlyException {s : State} (h : s.Inv) (e : Exc) : (s.earlyException e).Inv := by
  unfold State.earlyException
  have := h.triggers .none
  split
  · exact h.takeException e
  · rename_i e; rw [e] at this; exact this
  · rename_i e; rw [e] at this; exact this

theorem State.quiesce_hart (s : State) :
    s.quiesce.hart.activity = s.hart.activity ∧ s.quiesce.hart.stepping = s.hart.stepping := by
  have h := s.quiesce_frame
  exact ⟨congrArg (·.hart.activity) h, congrArg (·.hart.stepping) h⟩

/-! ### The instructions and the hart's step -/

theorem State.Inv.exec (i : Instr) {s t : State} (h : s.Inv) (e : exec i s = .next t) : t.Inv := by
  cases i <;> cases e
  case ecall => exact (h.countEvents _).takeException _
  case ebreak | cEbreak => exact h.ebreakOp
  case mret => exact (h.retire _ _).returnFromTrap
  case wfi | cNop => exact h.finish _ _
  case lui | auipc | addi | slti | sltiu | xori | ori | andi | slli | srli | srai | add | sub | sll | slt | sltu | xor |
    srl | sra | or | and | cAddi4spn | cAddi | cLi | cAddi16sp | cLui | cSrli | cSrai | cAndi | cSub | cXor | cOr | cAnd |
    cSlli | cMv | cAdd => exact h.aluOp _ _ _
  case jal | cJal | cJ => exact h.jumpOp _ _ (add_even h.pc (even_shift1 _))
  case jalr | cJr | cJalr => exact h.jumpOp _ _ (even_mask _)
  case beq | bne | blt | bge | bltu | bgeu | cBeqz | cBnez => exact h.branchOp _ _ (even_shift1 _)
  case lb | lh | lw | lbu | lhu | cLw | cLwsp => exact h.loadOp _ _ _ _ _
  case sb | sh | sw | cSw | cSwsp => exact h.storeOp _ _ _ _
  case mul | mulh | mulhsu | mulhu | div | divu | rem | remu => exact h.mulOp _ _ _
  case fence => exact h.fenceOp.finish _ _
  case fenceI => exact h.fenceIOp.finish _ _
  case csrrw | csrrs | csrrc | csrrwi | csrrsi | csrrci => exact h.csrOp _ _ _ _ _

theorem State.Inv.finishFwHalt {s : State} (h : s.Inv) : s.finishFwHalt.Inv := by
  unfold State.finishFwHalt
  split
  · rename_i hf
    have hq := h.quiesce
    have hh := s.quiesce_hart
    obtain ⟨ha, hs⟩ := h.hart.fwHalt hf
    have h1 := hq.sleep (by rw [hh.1]; exact ha) (by rw [hh.2]; exact hs)
    exact h1.withHart { h1.hart with fwHalt := by simp }
  · exact h

theorem State.Inv.runInstr {s : State} (h : s.Inv) : ∀ t, s.runInstr.2 = .next t → t.Inv := by
  intro t e
  unfold State.runInstr at e
  have h1 := h.fetch
  split at e
  · rename_i e1; rw [e1] at h1; cases e; exact h1
  · rename_i e1; rw [e1] at h1; cases e; exact State.Inv.earlyException h1 _
  · rename_i e1; rw [e1] at h1
    simp only [] at e
    split at e
    · cases e; exact State.Inv.earlyException (State.Inv.traceInsn h1 _) _
    · have h2 := State.Inv.traceInsn h1 (by assumption : Enc).bits
      simp only [State.runDecoded] at e
      generalize hm : State.memOp _ _ = m at e
      have h4 := h2.triggers m
      split at e
      · exact State.Inv.exec _ h2 e
      · rename_i e3; cases e; rw [e3] at h4; exact h4
      · rename_i e3; cases e; rw [e3] at h4; exact h4

/-- A trigger that enters Debug Mode ends in db-halt. -/
theorem State.triggers_debug {s t : State} {m : MemOp} (h : s.Inv) (e : s.triggers m = .debug t) :
    t.Inv ∧ t.hart.activity = .dbHalt := by
  have h1 := h.triggers m
  rw [e] at h1
  refine ⟨h1, ?_⟩
  unfold State.triggers at e
  simp only [] at e
  split at e
  · split at e
    · cases e; rfl
    · cases e
  · cases e

theorem State.triggerHalt_spec {s t : State} {m : MemOp} (h : s.Inv) (e : s.triggerHalt m = some t) :
    t.Inv ∧ t.hart.activity = .dbHalt := by
  unfold State.triggerHalt at e
  split at e
  · rename_i e1; cases e; exact State.triggers_debug h e1
  · cases e
  · cases e

/-- A halt by the next instruction itself ends in db-halt (R611). -/
theorem State.instrHalt_spec {s t : State} (h : s.Inv) (e : s.instrHalt = some t) : t.Inv ∧ t.hart.activity = .dbHalt := by
  unfold State.instrHalt at e
  have h1 := h.fetch
  split at e
  · cases e
  · rename_i e1; rw [e1] at h1; exact State.triggerHalt_spec h1 e
  · rename_i enc u e1
    rw [e1] at h1
    have h2 : (u.traceInsn enc.bits).Inv := State.Inv.traceInsn h1 _
    simp only [] at e
    split at e
    · exact State.triggerHalt_spec h2 e
    · split at e
      · rename_i e3; cases e; exact State.triggers_debug h2 e3
      · cases e
      · split at e
        · rename_i hc
          cases e
          refine ⟨h2.ebreakOp, ?_⟩
          rw [State.ebreakOp, if_pos hc.2]; rfl
        · cases e

theorem State.ownHalt_spec {s t : State} (h : s.Inv) (e : s.ownHalt = some t) : t.Inv ∧ t.hart.activity = .dbHalt := by
  unfold State.ownHalt at e
  split at e
  · cases e
  · exact State.instrHalt_spec h e

theorem State.Inv.pmuHaltNow {s : State} (h : s.Inv) (ha : s.hart.activity = .running) (hc : s.hart.stepping = false) :
    s.pmuHaltNow.Inv := by
  have := s.quiesce_hart
  have h1 := h.quiesce.sleep (by rw [this.1, ha]; simp) (by rw [this.2]; exact hc)
  exact { h1 with hart := { h1.hart with } }

theorem State.Inv.haltNow {s : State} (h : s.Inv) : s.haltNow.Inv := by
  unfold State.haltNow
  split
  · rename_i t e
    have ht := State.ownHalt_spec h e
    refine ht.1.withHart { halted := ?_, stepping := ht.1.hart.stepping, fwHalt := ht.1.hart.fwHalt }
    have hl := ht.1.hart.halted.mp ht.2
    simp only [ht.2, true_iff, Bool.or_eq_true] at hl ⊢
    tauto
  · exact h.haltOnRequest

theorem State.Inv.hartStep {s : State} (h : s.Inv) : ∀ t, s.hartStep.2 = .next t → t.Inv := by
  intro t e
  unfold State.hartStep at e
  split at e
  · cases e; exact h.dbHaltStep ‹_›
  · cases e; exact h.pmuHaltStep ‹_›
  · rename_i ha
    unfold State.runningStep at e
    split at e
    · cases e; exact h.haltNow
    · split at e
      · rename_i hc
        cases e
        simp only [Bool.and_eq_true, Bool.not_eq_true'] at hc
        unfold State.pmuHaltOrDebug
        cases eo : s.ownHalt with
        | none => exact h.pmuHaltNow ha hc.2
        | some u => exact (State.ownHalt_spec h eo).1
      · split at e
        · cases e; exact h.takeNmi
        · split at e
          · cases e; exact h.takeInterrupt _
          · split at e
            · cases e; exact h
            · exact State.Inv.runInstr h t e

end Sys2Proof.Machine
end

