-- ==== Sys2Proof/Laws/PerInstr.lean ====
section
/-! SUPPORT. The per-instruction family RoundTrip: decoding an encoded well-formed instruction gives it back. -/

set_option linter.unusedSimpArgs false
set_option Elab.async false

namespace Sys2Proof.Laws

/-- Decoding what the encoder writes for a well-formed instruction gives the instruction back. -/
def RoundTrip.Statement (i : Instr) : Prop := i.wf = true → decode (encode i) = .ok i

theorem RoundTrip.ecall : RoundTrip.Statement .ecall := by
  intro _; decide

theorem RoundTrip.ebreak : RoundTrip.Statement .ebreak := by
  intro _; decide

theorem RoundTrip.mret : RoundTrip.Statement .mret := by
  intro _; decide

theorem RoundTrip.wfi : RoundTrip.Statement .wfi := by
  intro _; decide

theorem RoundTrip.lui (rd : Reg) (imm : BitVec 20) : RoundTrip.Statement (.lui rd imm) := by
  intro _
  simp (disch := decide) [-Nat.reduceAdd, encode, decode, decode32, encU, unlessReserved,
    extract_append_low, extract_append_high, extract_all, extract_join, extract_extract]

theorem RoundTrip.auipc (rd : Reg) (imm : BitVec 20) : RoundTrip.Statement (.auipc rd imm) := by
  intro _
  simp (disch := decide) [-Nat.reduceAdd, encode, decode, decode32, encU, unlessReserved,
    extract_append_low, extract_append_high, extract_all, extract_join, extract_extract]

theorem RoundTrip.addi (rd : Reg) (rs1 : Reg) (imm : BitVec 12) : RoundTrip.Statement (.addi rd rs1 imm) := by
  intro _
  simp (disch := decide) [-Nat.reduceAdd, encode, decode, decode32, encI, decodeOpImm, unlessReserved,
    extract_append_low, extract_append_high, extract_all, extract_join, extract_extract]

theorem RoundTrip.slti (rd : Reg) (rs1 : Reg) (imm : BitVec 12) : RoundTrip.Statement (.slti rd rs1 imm) := by
  intro _
  simp (disch := decide) [-Nat.reduceAdd, encode, decode, decode32, encI, decodeOpImm, unlessReserved,
    extract_append_low, extract_append_high, extract_all, extract_join, extract_extract]

theorem RoundTrip.sltiu (rd : Reg) (rs1 : Reg) (imm : BitVec 12) : RoundTrip.Statement (.sltiu rd rs1 imm) := by
  intro _
  simp (disch := decide) [-Nat.reduceAdd, encode, decode, decode32, encI, decodeOpImm, unlessReserved,
    extract_append_low, extract_append_high, extract_all, extract_join, extract_extract]

theorem RoundTrip.xori (rd : Reg) (rs1 : Reg) (imm : BitVec 12) : RoundTrip.Statement (.xori rd rs1 imm) := by
  intro _
  simp (disch := decide) [-Nat.reduceAdd, encode, decode, decode32, encI, decodeOpImm, unlessReserved,
    extract_append_low, extract_append_high, extract_all, extract_join, extract_extract]

theorem RoundTrip.ori (rd : Reg) (rs1 : Reg) (imm : BitVec 12) : RoundTrip.Statement (.ori rd rs1 imm) := by
  intro _
  simp (disch := decide) [-Nat.reduceAdd, encode, decode, decode32, encI, decodeOpImm, unlessReserved,
    extract_append_low, extract_append_high, extract_all, extract_join, extract_extract]

theorem RoundTrip.andi (rd : Reg) (rs1 : Reg) (imm : BitVec 12) : RoundTrip.Statement (.andi rd rs1 imm) := by
  intro _
  simp (disch := decide) [-Nat.reduceAdd, encode, decode, decode32, encI, decodeOpImm, unlessReserved,
    extract_append_low, extract_append_high, extract_all, extract_join, extract_extract]

theorem RoundTrip.slli (rd : Reg) (rs1 : Reg) (shamt : BitVec 5) : RoundTrip.Statement (.slli rd rs1 shamt) := by
  intro _
  simp (disch := decide) [-Nat.reduceAdd, encode, decode, decode32, encR, decodeOpImm, unlessReserved,
    extract_append_low, extract_append_high, extract_all, extract_join, extract_extract]

theorem RoundTrip.srli (rd : Reg) (rs1 : Reg) (shamt : BitVec 5) : RoundTrip.Statement (.srli rd rs1 shamt) := by
  intro _
  simp (disch := decide) [-Nat.reduceAdd, encode, decode, decode32, encR, decodeOpImm, unlessReserved,
    extract_append_low, extract_append_high, extract_all, extract_join, extract_extract]

theorem RoundTrip.srai (rd : Reg) (rs1 : Reg) (shamt : BitVec 5) : RoundTrip.Statement (.srai rd rs1 shamt) := by
  intro _
  simp (disch := decide) [-Nat.reduceAdd, encode, decode, decode32, encR, decodeOpImm, unlessReserved,
    extract_append_low, extract_append_high, extract_all, extract_join, extract_extract]

theorem RoundTrip.add (rd : Reg) (rs1 : Reg) (rs2 : Reg) : RoundTrip.Statement (.add rd rs1 rs2) := by
  intro _
  simp (disch := decide) [-Nat.reduceAdd, encode, decode, decode32, encR, decodeOp, unlessReserved,
    extract_append_low, extract_append_high, extract_all, extract_join, extract_extract]

theorem RoundTrip.sub (rd : Reg) (rs1 : Reg) (rs2 : Reg) : RoundTrip.Statement (.sub rd rs1 rs2) := by
  intro _
  simp (disch := decide) [-Nat.reduceAdd, encode, decode, decode32, encR, decodeOp, unlessReserved,
    extract_append_low, extract_append_high, extract_all, extract_join, extract_extract]

theorem RoundTrip.sll (rd : Reg) (rs1 : Reg) (rs2 : Reg) : RoundTrip.Statement (.sll rd rs1 rs2) := by
  intro _
  simp (disch := decide) [-Nat.reduceAdd, encode, decode, decode32, encR, decodeOp, unlessReserved,
    extract_append_low, extract_append_high, extract_all, extract_join, extract_extract]

theorem RoundTrip.slt (rd : Reg) (rs1 : Reg) (rs2 : Reg) : RoundTrip.Statement (.slt rd rs1 rs2) := by
  intro _
  simp (disch := decide) [-Nat.reduceAdd, encode, decode, decode32, encR, decodeOp, unlessReserved,
    extract_append_low, extract_append_high, extract_all, extract_join, extract_extract]

theorem RoundTrip.sltu (rd : Reg) (rs1 : Reg) (rs2 : Reg) : RoundTrip.Statement (.sltu rd rs1 rs2) := by
  intro _
  simp (disch := decide) [-Nat.reduceAdd, encode, decode, decode32, encR, decodeOp, unlessReserved,
    extract_append_low, extract_append_high, extract_all, extract_join, extract_extract]

theorem RoundTrip.xor (rd : Reg) (rs1 : Reg) (rs2 : Reg) : RoundTrip.Statement (.xor rd rs1 rs2) := by
  intro _
  simp (disch := decide) [-Nat.reduceAdd, encode, decode, decode32, encR, decodeOp, unlessReserved,
    extract_append_low, extract_append_high, extract_all, extract_join, extract_extract]

theorem RoundTrip.srl (rd : Reg) (rs1 : Reg) (rs2 : Reg) : RoundTrip.Statement (.srl rd rs1 rs2) := by
  intro _
  simp (disch := decide) [-Nat.reduceAdd, encode, decode, decode32, encR, decodeOp, unlessReserved,
    extract_append_low, extract_append_high, extract_all, extract_join, extract_extract]

theorem RoundTrip.sra (rd : Reg) (rs1 : Reg) (rs2 : Reg) : RoundTrip.Statement (.sra rd rs1 rs2) := by
  intro _
  simp (disch := decide) [-Nat.reduceAdd, encode, decode, decode32, encR, decodeOp, unlessReserved,
    extract_append_low, extract_append_high, extract_all, extract_join, extract_extract]

theorem RoundTrip.or (rd : Reg) (rs1 : Reg) (rs2 : Reg) : RoundTrip.Statement (.or rd rs1 rs2) := by
  intro _
  simp (disch := decide) [-Nat.reduceAdd, encode, decode, decode32, encR, decodeOp, unlessReserved,
    extract_append_low, extract_append_high, extract_all, extract_join, extract_extract]

theorem RoundTrip.and (rd : Reg) (rs1 : Reg) (rs2 : Reg) : RoundTrip.Statement (.and rd rs1 rs2) := by
  intro _
  simp (disch := decide) [-Nat.reduceAdd, encode, decode, decode32, encR, decodeOp, unlessReserved,
    extract_append_low, extract_append_high, extract_all, extract_join, extract_extract]

theorem RoundTrip.jal (rd : Reg) (imm : BitVec 20) : RoundTrip.Statement (.jal rd imm) := by
  intro _
  simp (disch := decide) [-Nat.reduceAdd, encode, decode, decode32, encJ, immJ, unlessReserved,
    extract_append_low, extract_append_high, extract_all, extract_join, extract_extract]

theorem RoundTrip.jalr (rd : Reg) (rs1 : Reg) (imm : BitVec 12) : RoundTrip.Statement (.jalr rd rs1 imm) := by
  intro _
  simp (disch := decide) [-Nat.reduceAdd, encode, decode, decode32, encI, unlessReserved,
    extract_append_low, extract_append_high, extract_all, extract_join, extract_extract]

theorem RoundTrip.beq (rs1 : Reg) (rs2 : Reg) (imm : BitVec 12) : RoundTrip.Statement (.beq rs1 rs2 imm) := by
  intro _
  simp (disch := decide) [-Nat.reduceAdd, encode, decode, decode32, encB, immB, decodeBranch, unlessReserved,
    extract_append_low, extract_append_high, extract_all, extract_join, extract_extract]

theorem RoundTrip.bne (rs1 : Reg) (rs2 : Reg) (imm : BitVec 12) : RoundTrip.Statement (.bne rs1 rs2 imm) := by
  intro _
  simp (disch := decide) [-Nat.reduceAdd, encode, decode, decode32, encB, immB, decodeBranch, unlessReserved,
    extract_append_low, extract_append_high, extract_all, extract_join, extract_extract]

theorem RoundTrip.blt (rs1 : Reg) (rs2 : Reg) (imm : BitVec 12) : RoundTrip.Statement (.blt rs1 rs2 imm) := by
  intro _
  simp (disch := decide) [-Nat.reduceAdd, encode, decode, decode32, encB, immB, decodeBranch, unlessReserved,
    extract_append_low, extract_append_high, extract_all, extract_join, extract_extract]

theorem RoundTrip.bge (rs1 : Reg) (rs2 : Reg) (imm : BitVec 12) : RoundTrip.Statement (.bge rs1 rs2 imm) := by
  intro _
  simp (disch := decide) [-Nat.reduceAdd, encode, decode, decode32, encB, immB, decodeBranch, unlessReserved,
    extract_append_low, extract_append_high, extract_all, extract_join, extract_extract]

theorem RoundTrip.bltu (rs1 : Reg) (rs2 : Reg) (imm : BitVec 12) : RoundTrip.Statement (.bltu rs1 rs2 imm) := by
  intro _
  simp (disch := decide) [-Nat.reduceAdd, encode, decode, decode32, encB, immB, decodeBranch, unlessReserved,
    extract_append_low, extract_append_high, extract_all, extract_join, extract_extract]

theorem RoundTrip.bgeu (rs1 : Reg) (rs2 : Reg) (imm : BitVec 12) : RoundTrip.Statement (.bgeu rs1 rs2 imm) := by
  intro _
  simp (disch := decide) [-Nat.reduceAdd, encode, decode, decode32, encB, immB, decodeBranch, unlessReserved,
    extract_append_low, extract_append_high, extract_all, extract_join, extract_extract]

theorem RoundTrip.lb (rd : Reg) (rs1 : Reg) (imm : BitVec 12) : RoundTrip.Statement (.lb rd rs1 imm) := by
  intro _
  simp (disch := decide) [-Nat.reduceAdd, encode, decode, decode32, encI, decodeLoad, unlessReserved,
    extract_append_low, extract_append_high, extract_all, extract_join, extract_extract]

theorem RoundTrip.lh (rd : Reg) (rs1 : Reg) (imm : BitVec 12) : RoundTrip.Statement (.lh rd rs1 imm) := by
  intro _
  simp (disch := decide) [-Nat.reduceAdd, encode, decode, decode32, encI, decodeLoad, unlessReserved,
    extract_append_low, extract_append_high, extract_all, extract_join, extract_extract]

theorem RoundTrip.lw (rd : Reg) (rs1 : Reg) (imm : BitVec 12) : RoundTrip.Statement (.lw rd rs1 imm) := by
  intro _
  simp (disch := decide) [-Nat.reduceAdd, encode, decode, decode32, encI, decodeLoad, unlessReserved,
    extract_append_low, extract_append_high, extract_all, extract_join, extract_extract]

theorem RoundTrip.lbu (rd : Reg) (rs1 : Reg) (imm : BitVec 12) : RoundTrip.Statement (.lbu rd rs1 imm) := by
  intro _
  simp (disch := decide) [-Nat.reduceAdd, encode, decode, decode32, encI, decodeLoad, unlessReserved,
    extract_append_low, extract_append_high, extract_all, extract_join, extract_extract]

theorem RoundTrip.lhu (rd : Reg) (rs1 : Reg) (imm : BitVec 12) : RoundTrip.Statement (.lhu rd rs1 imm) := by
  intro _
  simp (disch := decide) [-Nat.reduceAdd, encode, decode, decode32, encI, decodeLoad, unlessReserved,
    extract_append_low, extract_append_high, extract_all, extract_join, extract_extract]

theorem RoundTrip.sb (rs1 : Reg) (rs2 : Reg) (imm : BitVec 12) : RoundTrip.Statement (.sb rs1 rs2 imm) := by
  intro _
  simp (disch := decide) [-Nat.reduceAdd, encode, decode, decode32, encS, immS, decodeStore, unlessReserved,
    extract_append_low, extract_append_high, extract_all, extract_join, extract_extract]

theorem RoundTrip.sh (rs1 : Reg) (rs2 : Reg) (imm : BitVec 12) : RoundTrip.Statement (.sh rs1 rs2 imm) := by
  intro _
  simp (disch := decide) [-Nat.reduceAdd, encode, decode, decode32, encS, immS, decodeStore, unlessReserved,
    extract_append_low, extract_append_high, extract_all, extract_join, extract_extract]

theorem RoundTrip.sw (rs1 : Reg) (rs2 : Reg) (imm : BitVec 12) : RoundTrip.Statement (.sw rs1 rs2 imm) := by
  intro _
  simp (disch := decide) [-Nat.reduceAdd, encode, decode, decode32, encS, immS, decodeStore, unlessReserved,
    extract_append_low, extract_append_high, extract_all, extract_join, extract_extract]

theorem RoundTrip.mul (rd : Reg) (rs1 : Reg) (rs2 : Reg) : RoundTrip.Statement (.mul rd rs1 rs2) := by
  intro _
  simp (disch := decide) [-Nat.reduceAdd, encode, decode, decode32, encR, decodeOp, unlessReserved,
    extract_append_low, extract_append_high, extract_all, extract_join, extract_extract]

theorem RoundTrip.mulh (rd : Reg) (rs1 : Reg) (rs2 : Reg) : RoundTrip.Statement (.mulh rd rs1 rs2) := by
  intro _
  simp (disch := decide) [-Nat.reduceAdd, encode, decode, decode32, encR, decodeOp, unlessReserved,
    extract_append_low, extract_append_high, extract_all, extract_join, extract_extract]

theorem RoundTrip.mulhsu (rd : Reg) (rs1 : Reg) (rs2 : Reg) : RoundTrip.Statement (.mulhsu rd rs1 rs2) := by
  intro _
  simp (disch := decide) [-Nat.reduceAdd, encode, decode, decode32, encR, decodeOp, unlessReserved,
    extract_append_low, extract_append_high, extract_all, extract_join, extract_extract]

theorem RoundTrip.mulhu (rd : Reg) (rs1 : Reg) (rs2 : Reg) : RoundTrip.Statement (.mulhu rd rs1 rs2) := by
  intro _
  simp (disch := decide) [-Nat.reduceAdd, encode, decode, decode32, encR, decodeOp, unlessReserved,
    extract_append_low, extract_append_high, extract_all, extract_join, extract_extract]

theorem RoundTrip.div (rd : Reg) (rs1 : Reg) (rs2 : Reg) : RoundTrip.Statement (.div rd rs1 rs2) := by
  intro _
  simp (disch := decide) [-Nat.reduceAdd, encode, decode, decode32, encR, decodeOp, unlessReserved,
    extract_append_low, extract_append_high, extract_all, extract_join, extract_extract]

theorem RoundTrip.divu (rd : Reg) (rs1 : Reg) (rs2 : Reg) : RoundTrip.Statement (.divu rd rs1 rs2) := by
  intro _
  simp (disch := decide) [-Nat.reduceAdd, encode, decode, decode32, encR, decodeOp, unlessReserved,
    extract_append_low, extract_append_high, extract_all, extract_join, extract_extract]

theorem RoundTrip.rem (rd : Reg) (rs1 : Reg) (rs2 : Reg) : RoundTrip.Statement (.rem rd rs1 rs2) := by
  intro _
  simp (disch := decide) [-Nat.reduceAdd, encode, decode, decode32, encR, decodeOp, unlessReserved,
    extract_append_low, extract_append_high, extract_all, extract_join, extract_extract]

theorem RoundTrip.remu (rd : Reg) (rs1 : Reg) (rs2 : Reg) : RoundTrip.Statement (.remu rd rs1 rs2) := by
  intro _
  simp (disch := decide) [-Nat.reduceAdd, encode, decode, decode32, encR, decodeOp, unlessReserved,
    extract_append_low, extract_append_high, extract_all, extract_join, extract_extract]

theorem RoundTrip.fence (fm : BitVec 4) (pred : BitVec 4) (succ : BitVec 4) (rs1 : Reg) (rd : Reg) : RoundTrip.Statement (.fence fm pred succ rs1 rd) := by
  intro _
  simp (disch := decide) [-Nat.reduceAdd, encode, decode, decode32, encI, unlessReserved,
    extract_append_low, extract_append_high, extract_all, extract_join, extract_extract]

theorem RoundTrip.fenceI (imm : BitVec 12) (rs1 : Reg) (rd : Reg) : RoundTrip.Statement (.fenceI imm rs1 rd) := by
  intro _
  simp (disch := decide) [-Nat.reduceAdd, encode, decode, decode32, encI, unlessReserved,
    extract_append_low, extract_append_high, extract_all, extract_join, extract_extract]

theorem RoundTrip.csrrw (rd : Reg) (csr : BitVec 12) (rs1 : Reg) : RoundTrip.Statement (.csrrw rd csr rs1) := by
  intro _
  simp (disch := decide) [-Nat.reduceAdd, encode, decode, decode32, encI, decodeSystem, unlessReserved,
    extract_append_low, extract_append_high, extract_all, extract_join, extract_extract]

theorem RoundTrip.csrrs (rd : Reg) (csr : BitVec 12) (rs1 : Reg) : RoundTrip.Statement (.csrrs rd csr rs1) := by
  intro _
  simp (disch := decide) [-Nat.reduceAdd, encode, decode, decode32, encI, decodeSystem, unlessReserved,
    extract_append_low, extract_append_high, extract_all, extract_join, extract_extract]

theorem RoundTrip.csrrc (rd : Reg) (csr : BitVec 12) (rs1 : Reg) : RoundTrip.Statement (.csrrc rd csr rs1) := by
  intro _
  simp (disch := decide) [-Nat.reduceAdd, encode, decode, decode32, encI, decodeSystem, unlessReserved,
    extract_append_low, extract_append_high, extract_all, extract_join, extract_extract]

theorem RoundTrip.csrrwi (rd : Reg) (csr : BitVec 12) (uimm : BitVec 5) : RoundTrip.Statement (.csrrwi rd csr uimm) := by
  intro _
  simp (disch := decide) [-Nat.reduceAdd, encode, decode, decode32, encI, decodeSystem, unlessReserved,
    extract_append_low, extract_append_high, extract_all, extract_join, extract_extract]

theorem RoundTrip.csrrsi (rd : Reg) (csr : BitVec 12) (uimm : BitVec 5) : RoundTrip.Statement (.csrrsi rd csr uimm) := by
  intro _
  simp (disch := decide) [-Nat.reduceAdd, encode, decode, decode32, encI, decodeSystem, unlessReserved,
    extract_append_low, extract_append_high, extract_all, extract_join, extract_extract]

theorem RoundTrip.csrrci (rd : Reg) (csr : BitVec 12) (uimm : BitVec 5) : RoundTrip.Statement (.csrrci rd csr uimm) := by
  intro _
  simp (disch := decide) [-Nat.reduceAdd, encode, decode, decode32, encI, decodeSystem, unlessReserved,
    extract_append_low, extract_append_high, extract_all, extract_join, extract_extract]

/-- The nzuimm of an encoded c.addi4spn reads back. -/
theorem immCiw_encode (rd : CReg) (imm : BitVec 8) :
    immCiw (0#3 ++ imm.extractLsb' 2 2 ++ imm.extractLsb' 4 4 ++ imm.extractLsb' 0 1 ++ imm.extractLsb' 1 1 ++ rd ++ 0#2) =
      imm := by
  simp (disch := decide) [-Nat.reduceAdd, immCiw,
    extract_append_low, extract_append_high, extract_all, extract_join, extract_extract]

theorem RoundTrip.cAddi4spn (rd : CReg) (imm : BitVec 8) : RoundTrip.Statement (.cAddi4spn rd imm) := by
  intro h
  have key := immCiw_encode rd imm
  simp [Instr.wf] at h
  simp (disch := decide) [-Nat.reduceAdd, encode, decode, decode16, decodeQ0, unlessReserved, immCiw,
    extract_append_low, extract_append_high, extract_all, extract_join, extract_extract, h]
  intro hc
  rw [hc] at key
  exact h (key ▸ rfl)

theorem RoundTrip.cLw (rd : CReg) (rs1 : CReg) (imm : BitVec 5) : RoundTrip.Statement (.cLw rd rs1 imm) := by
  intro _
  simp (disch := decide) [-Nat.reduceAdd, encode, decode, decode16, decodeQ0, encCL, immCl, unlessReserved,
    extract_append_low, extract_append_high, extract_all, extract_join, extract_extract]

theorem RoundTrip.cSw (rs1 : CReg) (rs2 : CReg) (imm : BitVec 5) : RoundTrip.Statement (.cSw rs1 rs2 imm) := by
  intro _
  simp (disch := decide) [-Nat.reduceAdd, encode, decode, decode16, decodeQ0, encCL, immCl, unlessReserved,
    extract_append_low, extract_append_high, extract_all, extract_join, extract_extract]

theorem RoundTrip.cNop (imm : BitVec 6) : RoundTrip.Statement (.cNop imm) := by
  intro _
  simp (disch := decide) [-Nat.reduceAdd, encode, decode, decode16, decodeQ1, encCI, immCi, unlessReserved,
    extract_append_low, extract_append_high, extract_all, extract_join, extract_extract]

theorem RoundTrip.cAddi (rd : Reg) (imm : BitVec 6) : RoundTrip.Statement (.cAddi rd imm) := by
  intro h
  simp [Instr.wf] at h
  simp (disch := decide) [-Nat.reduceAdd, encode, decode, decode16, decodeQ1, encCI, immCi, unlessReserved,
    extract_append_low, extract_append_high, extract_all, extract_join, extract_extract, h]

theorem RoundTrip.cJal (imm : BitVec 11) : RoundTrip.Statement (.cJal imm) := by
  intro _
  simp (disch := decide) [-Nat.reduceAdd, encode, decode, decode16, decodeQ1, encCJ, immCj, unlessReserved,
    extract_append_low, extract_append_high, extract_all, extract_join, extract_extract]

theorem RoundTrip.cLi (rd : Reg) (imm : BitVec 6) : RoundTrip.Statement (.cLi rd imm) := by
  intro _
  simp (disch := decide) [-Nat.reduceAdd, encode, decode, decode16, decodeQ1, encCI, immCi, unlessReserved,
    extract_append_low, extract_append_high, extract_all, extract_join, extract_extract]

theorem RoundTrip.cAddi16sp (imm : BitVec 6) : RoundTrip.Statement (.cAddi16sp imm) := by
  intro h
  simp [Instr.wf] at h
  simp (disch := decide) [-Nat.reduceAdd, encode, decode, decode16, decodeQ1, immC16sp, unlessReserved,
    extract_append_low, extract_append_high, extract_all, extract_join, extract_extract, h]

theorem RoundTrip.cLui (rd : Reg) (imm : BitVec 6) : RoundTrip.Statement (.cLui rd imm) := by
  intro h
  simp [Instr.wf] at h
  simp (disch := decide) [-Nat.reduceAdd, encode, decode, decode16, decodeQ1, encCI, immCi, unlessReserved,
    extract_append_low, extract_append_high, extract_all, extract_join, extract_extract, h]

theorem RoundTrip.cSrli (rd : CReg) (shamt : BitVec 5) : RoundTrip.Statement (.cSrli rd shamt) := by
  intro _
  simp (disch := decide) [-Nat.reduceAdd, encode, decode, decode16, decodeQ1, decodeCA, encCA, encCBS, immCi, unlessReserved,
    extract_append_low, extract_append_high, extract_all, extract_join, extract_extract]

theorem RoundTrip.cSrai (rd : CReg) (shamt : BitVec 5) : RoundTrip.Statement (.cSrai rd shamt) := by
  intro _
  simp (disch := decide) [-Nat.reduceAdd, encode, decode, decode16, decodeQ1, decodeCA, encCA, encCBS, immCi, unlessReserved,
    extract_append_low, extract_append_high, extract_all, extract_join, extract_extract]

theorem RoundTrip.cAndi (rd : CReg) (imm : BitVec 6) : RoundTrip.Statement (.cAndi rd imm) := by
  intro _
  simp (disch := decide) [-Nat.reduceAdd, encode, decode, decode16, decodeQ1, decodeCA, encCA, encCBS, immCi, unlessReserved,
    extract_append_low, extract_append_high, extract_all, extract_join, extract_extract]

theorem RoundTrip.cSub (rd : CReg) (rs2 : CReg) : RoundTrip.Statement (.cSub rd rs2) := by
  intro _
  simp (disch := decide) [-Nat.reduceAdd, encode, decode, decode16, decodeQ1, decodeCA, encCA, encCBS, immCi, unlessReserved,
    extract_append_low, extract_append_high, extract_all, extract_join, extract_extract]

theorem RoundTrip.cXor (rd : CReg) (rs2 : CReg) : RoundTrip.Statement (.cXor rd rs2) := by
  intro _
  simp (disch := decide) [-Nat.reduceAdd, encode, decode, decode16, decodeQ1, decodeCA, encCA, encCBS, immCi, unlessReserved,
    extract_append_low, extract_append_high, extract_all, extract_join, extract_extract]

theorem RoundTrip.cOr (rd : CReg) (rs2 : CReg) : RoundTrip.Statement (.cOr rd rs2) := by
  intro _
  simp (disch := decide) [-Nat.reduceAdd, encode, decode, decode16, decodeQ1, decodeCA, encCA, encCBS, immCi, unlessReserved,
    extract_append_low, extract_append_high, extract_all, extract_join, extract_extract]

theorem RoundTrip.cAnd (rd : CReg) (rs2 : CReg) : RoundTrip.Statement (.cAnd rd rs2) := by
  intro _
  simp (disch := decide) [-Nat.reduceAdd, encode, decode, decode16, decodeQ1, decodeCA, encCA, encCBS, immCi, unlessReserved,
    extract_append_low, extract_append_high, extract_all, extract_join, extract_extract]

theorem RoundTrip.cJ (imm : BitVec 11) : RoundTrip.Statement (.cJ imm) := by
  intro _
  simp (disch := decide) [-Nat.reduceAdd, encode, decode, decode16, decodeQ1, encCJ, immCj, unlessReserved,
    extract_append_low, extract_append_high, extract_all, extract_join, extract_extract]

theorem RoundTrip.cBeqz (rs1 : CReg) (imm : BitVec 8) : RoundTrip.Statement (.cBeqz rs1 imm) := by
  intro _
  simp (disch := decide) [-Nat.reduceAdd, encode, decode, decode16, decodeQ1, encCB, immCb, unlessReserved,
    extract_append_low, extract_append_high, extract_all, extract_join, extract_extract]

theorem RoundTrip.cBnez (rs1 : CReg) (imm : BitVec 8) : RoundTrip.Statement (.cBnez rs1 imm) := by
  intro _
  simp (disch := decide) [-Nat.reduceAdd, encode, decode, decode16, decodeQ1, encCB, immCb, unlessReserved,
    extract_append_low, extract_append_high, extract_all, extract_join, extract_extract]

theorem RoundTrip.cSlli (rd : Reg) (shamt : BitVec 5) : RoundTrip.Statement (.cSlli rd shamt) := by
  intro _
  simp (disch := decide) [-Nat.reduceAdd, encode, decode, decode16, decodeQ2, encCI, unlessReserved,
    extract_append_low, extract_append_high, extract_all, extract_join, extract_extract]

theorem RoundTrip.cLwsp (rd : Reg) (imm : BitVec 6) : RoundTrip.Statement (.cLwsp rd imm) := by
  intro h
  simp [Instr.wf] at h
  simp (disch := decide) [-Nat.reduceAdd, encode, decode, decode16, decodeQ2, encCI, immCLwsp, unlessReserved,
    extract_append_low, extract_append_high, extract_all, extract_join, extract_extract, h]

theorem RoundTrip.cEbreak : RoundTrip.Statement .cEbreak := by
  intro _; decide

theorem RoundTrip.cJr (rs1 : Reg) : RoundTrip.Statement (.cJr rs1) := by
  intro h
  simp [Instr.wf] at h
  simp (disch := decide) [-Nat.reduceAdd, encode, decode, decode16, decodeQ2, encCI, unlessReserved,
    extract_append_low, extract_append_high, extract_all, extract_join, extract_extract, h]

theorem RoundTrip.cJalr (rs1 : Reg) : RoundTrip.Statement (.cJalr rs1) := by
  intro h
  simp [Instr.wf] at h
  simp (disch := decide) [-Nat.reduceAdd, encode, decode, decode16, decodeQ2, encCI, unlessReserved,
    extract_append_low, extract_append_high, extract_all, extract_join, extract_extract, h]

theorem RoundTrip.cMv (rd : Reg) (rs2 : Reg) : RoundTrip.Statement (.cMv rd rs2) := by
  intro h
  simp [Instr.wf] at h
  simp (disch := decide) [-Nat.reduceAdd, encode, decode, decode16, decodeQ2, encCI, unlessReserved,
    extract_append_low, extract_append_high, extract_all, extract_join, extract_extract, h]

theorem RoundTrip.cAdd (rd : Reg) (rs2 : Reg) : RoundTrip.Statement (.cAdd rd rs2) := by
  intro h
  simp [Instr.wf] at h
  simp (disch := decide) [-Nat.reduceAdd, encode, decode, decode16, decodeQ2, encCI, unlessReserved,
    extract_append_low, extract_append_high, extract_all, extract_join, extract_extract, h]

theorem RoundTrip.cSwsp (rs2 : Reg) (imm : BitVec 6) : RoundTrip.Statement (.cSwsp rs2 imm) := by
  intro _
  simp (disch := decide) [-Nat.reduceAdd, encode, decode, decode16, decodeQ2, encCI, immCSwsp, unlessReserved,
    extract_append_low, extract_append_high, extract_all, extract_join, extract_extract]

end Sys2Proof.Laws
end

