-- ==== Sys2Proof/Tests/Slice0.lean ====
section
/-! SUPPORT. Tests. The words and the expected values of an instruction's test are the example of the rule its docstring names;
the witnesses at the end show that the hypotheses of each statement can be met. -/

set_option Elab.async false
set_option maxRecDepth 8000

namespace Sys2Proof.Tests

open Sys2Proof.Machine

/-! ## Helpers -/

/-- The reset state at another pc, with some registers set. -/
def lab (pc : Word) (rs : List (Reg × Word)) : State :=
  rs.foldl (fun s r => s.setReg r.1 r.2) { State.reset with pc := pc }

/-- The word `v` at the first DCCM address of map T, 0x00080000. -/
def hold (v : BitVec 64) (s : State) : State := { s with dccm := s.dccm.putBytes 0x00080000#32 (toBytes v 4) }

/-- The encoding decodes to the instruction, which takes the state to one where `p` holds. -/
def gives (e : Enc) (i : Instr) (s : State) (p : State → Bool) : Bool :=
  (match decode e with | .ok j => j == i | .error _ => false) &&
    (match exec i s with | .next t => p t | .fault _ => false | .refused _ => false)

/-! ## Well-formedness: every check refuses an ill-formed term (R231, R234) -/

theorem test_wf_cAddi4spn : (Instr.cAddi4spn 0#3 0#8).wf = false := by decide
theorem test_wf_cAddi : (Instr.cAddi 0#5 1#6).wf = false := by decide
theorem test_wf_cAddi16sp : (Instr.cAddi16sp 0#6).wf = false := by decide
theorem test_wf_cLui_sp : (Instr.cLui 2#5 1#6).wf = false := by decide
theorem test_wf_cLui_zero : (Instr.cLui 1#5 0#6).wf = false := by decide
theorem test_wf_cLwsp : (Instr.cLwsp 0#5 1#6).wf = false := by decide
theorem test_wf_cJr : (Instr.cJr 0#5).wf = false := by decide
theorem test_wf_cJalr : (Instr.cJalr 0#5).wf = false := by decide
theorem test_wf_cMv : (Instr.cMv 1#5 0#5).wf = false := by decide
theorem test_wf_cAdd : (Instr.cAdd 1#5 0#5).wf = false := by decide

/-! ## Instructions: the example of each rule -/

/-- R261: its example. -/
theorem test_lui : gives (.word 0x123452B7#32) (.lui 5#5 0x12345#20)
    (lab 0x1000#32 [])
    (fun t => t.getReg 5#5 == 0x12345000#32 && t.pc == 0x00001004#32) = true := by
  decide

/-- R262: its example. -/
theorem test_auipc : gives (.word 0x00001297#32) (.auipc 5#5 1#20)
    (lab 0x100#32 [])
    (fun t => t.getReg 5#5 == 0x00001100#32 && t.pc == 0x00000104#32) = true := by
  decide

/-- R263: its example. -/
theorem test_addi : gives (.word 0xFFF30293#32) (.addi 5#5 6#5 0xFFF#12)
    (lab 0x1000#32 [(6#5, 0x0#32)])
    (fun t => t.getReg 5#5 == 0xFFFFFFFF#32 && t.pc == 0x00001004#32) = true := by
  decide

/-- R264: its example. -/
theorem test_slti : gives (.word 0xFFF32293#32) (.slti 5#5 6#5 0xFFF#12)
    (lab 0x1000#32 [(6#5, 0x80000000#32)])
    (fun t => t.getReg 5#5 == 0x00000001#32 && t.pc == 0x00001004#32) = true := by
  decide

/-- R265: its example. -/
theorem test_sltiu : gives (.word 0xFFF33293#32) (.sltiu 5#5 6#5 0xFFF#12)
    (lab 0x1000#32 [(6#5, 0xFFFFFFFF#32)])
    (fun t => t.getReg 5#5 == 0x00000000#32 && t.pc == 0x00001004#32) = true := by
  decide

/-- R266: its example. -/
theorem test_xori : gives (.word 0xFFF34293#32) (.xori 5#5 6#5 0xFFF#12)
    (lab 0x1000#32 [(6#5, 0xF0F0F0F#32)])
    (fun t => t.getReg 5#5 == 0xF0F0F0F0#32 && t.pc == 0x00001004#32) = true := by
  decide

/-- R267: its example. -/
theorem test_ori : gives (.word 0x0F036293#32) (.ori 5#5 6#5 0x0F0#12)
    (lab 0x1000#32 [(6#5, 0xF000000F#32)])
    (fun t => t.getReg 5#5 == 0xF00000FF#32 && t.pc == 0x00001004#32) = true := by
  decide

/-- R268: its example. -/
theorem test_andi : gives (.word 0x0FF37293#32) (.andi 5#5 6#5 0x0FF#12)
    (lab 0x1000#32 [(6#5, 0x12345678#32)])
    (fun t => t.getReg 5#5 == 0x00000078#32 && t.pc == 0x00001004#32) = true := by
  decide

/-- R269: its example. -/
theorem test_slli : gives (.word 0x01F31293#32) (.slli 5#5 6#5 31#5)
    (lab 0x1000#32 [(6#5, 0x3#32)])
    (fun t => t.getReg 5#5 == 0x80000000#32 && t.pc == 0x00001004#32) = true := by
  decide

/-- R270: its example. -/
theorem test_srli : gives (.word 0x00435293#32) (.srli 5#5 6#5 4#5)
    (lab 0x1000#32 [(6#5, 0x80000000#32)])
    (fun t => t.getReg 5#5 == 0x08000000#32 && t.pc == 0x00001004#32) = true := by
  decide

/-- R271: its example. -/
theorem test_srai : gives (.word 0x40435293#32) (.srai 5#5 6#5 4#5)
    (lab 0x1000#32 [(6#5, 0x80000000#32)])
    (fun t => t.getReg 5#5 == 0xF8000000#32 && t.pc == 0x00001004#32) = true := by
  decide

/-- R272: its example. -/
theorem test_add : gives (.word 0x007302B3#32) (.add 5#5 6#5 7#5)
    (lab 0x1000#32 [(6#5, 0x7FFFFFFF#32), (7#5, 0x1#32)])
    (fun t => t.getReg 5#5 == 0x80000000#32 && t.pc == 0x00001004#32) = true := by
  decide

/-- R273: its example. -/
theorem test_sub : gives (.word 0x407302B3#32) (.sub 5#5 6#5 7#5)
    (lab 0x1000#32 [(6#5, 0x0#32), (7#5, 0x1#32)])
    (fun t => t.getReg 5#5 == 0xFFFFFFFF#32 && t.pc == 0x00001004#32) = true := by
  decide

/-- R274: its example. -/
theorem test_sll : gives (.word 0x007312B3#32) (.sll 5#5 6#5 7#5)
    (lab 0x1000#32 [(6#5, 0x1#32), (7#5, 0x21#32)])
    (fun t => t.getReg 5#5 == 0x00000002#32 && t.pc == 0x00001004#32) = true := by
  decide

/-- R275: its example. -/
theorem test_slt : gives (.word 0x007322B3#32) (.slt 5#5 6#5 7#5)
    (lab 0x1000#32 [(6#5, 0xFFFFFFFF#32), (7#5, 0x1#32)])
    (fun t => t.getReg 5#5 == 0x00000001#32 && t.pc == 0x00001004#32) = true := by
  decide

/-- R276: its example. -/
theorem test_sltu : gives (.word 0x007332B3#32) (.sltu 5#5 6#5 7#5)
    (lab 0x1000#32 [(6#5, 0xFFFFFFFF#32), (7#5, 0x1#32)])
    (fun t => t.getReg 5#5 == 0x00000000#32 && t.pc == 0x00001004#32) = true := by
  decide

/-- R277: its example. -/
theorem test_xor : gives (.word 0x007342B3#32) (.xor 5#5 6#5 7#5)
    (lab 0x1000#32 [(6#5, 0xFF00FF00#32), (7#5, 0xFF00FF0#32)])
    (fun t => t.getReg 5#5 == 0xF0F0F0F0#32 && t.pc == 0x00001004#32) = true := by
  decide

/-- R278: its example. -/
theorem test_srl : gives (.word 0x007352B3#32) (.srl 5#5 6#5 7#5)
    (lab 0x1000#32 [(6#5, 0x80000000#32), (7#5, 0x1F#32)])
    (fun t => t.getReg 5#5 == 0x00000001#32 && t.pc == 0x00001004#32) = true := by
  decide

/-- R279: its example. -/
theorem test_sra : gives (.word 0x407352B3#32) (.sra 5#5 6#5 7#5)
    (lab 0x1000#32 [(6#5, 0x80000000#32), (7#5, 0x1F#32)])
    (fun t => t.getReg 5#5 == 0xFFFFFFFF#32 && t.pc == 0x00001004#32) = true := by
  decide

/-- R280: its example. -/
theorem test_or : gives (.word 0x007362B3#32) (.or 5#5 6#5 7#5)
    (lab 0x1000#32 [(6#5, 0xFF00FF00#32), (7#5, 0xFF00FF0#32)])
    (fun t => t.getReg 5#5 == 0xFFF0FFF0#32 && t.pc == 0x00001004#32) = true := by
  decide

/-- R281: its example. -/
theorem test_and : gives (.word 0x007372B3#32) (.and 5#5 6#5 7#5)
    (lab 0x1000#32 [(6#5, 0xFF00FF00#32), (7#5, 0xFF00FF0#32)])
    (fun t => t.getReg 5#5 == 0x0F000F00#32 && t.pc == 0x00001004#32) = true := by
  decide

/-- R341: its example. -/
theorem test_mul : gives (.word 0x027302B3#32) (.mul 5#5 6#5 7#5)
    (lab 0x1000#32 [(6#5, 0xFFFFFFFE#32), (7#5, 0x3#32)])
    (fun t => t.getReg 5#5 == 0xFFFFFFFA#32 && t.pc == 0x00001004#32) = true := by
  decide

/-- R342: its example. -/
theorem test_mulh : gives (.word 0x027312B3#32) (.mulh 5#5 6#5 7#5)
    (lab 0x1000#32 [(6#5, 0xFFFFFFFE#32), (7#5, 0x3#32)])
    (fun t => t.getReg 5#5 == 0xFFFFFFFF#32 && t.pc == 0x00001004#32) = true := by
  decide

/-- R343: its example. -/
theorem test_mulhsu : gives (.word 0x027322B3#32) (.mulhsu 5#5 6#5 7#5)
    (lab 0x1000#32 [(6#5, 0xFFFFFFFE#32), (7#5, 0xFFFFFFFF#32)])
    (fun t => t.getReg 5#5 == 0xFFFFFFFE#32 && t.pc == 0x00001004#32) = true := by
  decide

/-- R344: its example. -/
theorem test_mulhu : gives (.word 0x027332B3#32) (.mulhu 5#5 6#5 7#5)
    (lab 0x1000#32 [(6#5, 0xFFFFFFFE#32), (7#5, 0x3#32)])
    (fun t => t.getReg 5#5 == 0x00000002#32 && t.pc == 0x00001004#32) = true := by
  decide

/-- R345: its example. -/
theorem test_div : gives (.word 0x027342B3#32) (.div 5#5 6#5 7#5)
    (lab 0x1000#32 [(6#5, 0xFFFFFFF9#32), (7#5, 0x2#32)])
    (fun t => t.getReg 5#5 == 0xFFFFFFFD#32 && t.pc == 0x00001004#32) = true := by
  decide

/-- R346: its example. -/
theorem test_divu : gives (.word 0x027352B3#32) (.divu 5#5 6#5 7#5)
    (lab 0x1000#32 [(6#5, 0xFFFFFFF9#32), (7#5, 0x2#32)])
    (fun t => t.getReg 5#5 == 0x7FFFFFFC#32 && t.pc == 0x00001004#32) = true := by
  decide

/-- R347: its example. -/
theorem test_rem : gives (.word 0x027362B3#32) (.rem 5#5 6#5 7#5)
    (lab 0x1000#32 [(6#5, 0xFFFFFFF9#32), (7#5, 0x2#32)])
    (fun t => t.getReg 5#5 == 0xFFFFFFFF#32 && t.pc == 0x00001004#32) = true := by
  decide

/-- R348: its example. -/
theorem test_remu : gives (.word 0x027372B3#32) (.remu 5#5 6#5 7#5)
    (lab 0x1000#32 [(6#5, 0xFFFFFFF9#32), (7#5, 0x2#32)])
    (fun t => t.getReg 5#5 == 0x00000001#32 && t.pc == 0x00001004#32) = true := by
  decide

/-- R302: its example. -/
theorem test_jal : gives (.word 0x100000EF#32) (.jal 1#5 0x80#20)
    (lab 0x1000#32 [])
    (fun t => t.getReg 1#5 == 0x00001004#32 && t.pc == 0x00001100#32) = true := by
  decide

/-- R302: its example. -/
theorem test_jal_back : gives (.word 0xFFDFF06F#32) (.jal 0#5 0xFFFFE#20)
    (lab 0x1000#32 [])
    (fun t => t.getReg 0#5 == 0x00000000#32 && t.pc == 0x00000FFC#32) = true := by
  decide

/-- R303: its example. -/
theorem test_jalr : gives (.word 0x001280E7#32) (.jalr 1#5 5#5 1#12)
    (lab 0x1000#32 [(5#5, 0x2000#32)])
    (fun t => t.getReg 1#5 == 0x00001004#32 && t.pc == 0x00002000#32) = true := by
  decide

/-- R304: its example. -/
theorem test_beq : gives (.word 0xFE730CE3#32) (.beq 6#5 7#5 0xFFC#12)
    (lab 0x1008#32 [(6#5, 0x5#32), (7#5, 0x5#32)])
    (fun t => t.pc == 0x00001000#32) = true := by
  decide

/-- R305: its example. -/
theorem test_bne : gives (.word 0xFE731CE3#32) (.bne 6#5 7#5 0xFFC#12)
    (lab 0x1008#32 [(6#5, 0x5#32), (7#5, 0x5#32)])
    (fun t => t.pc == 0x0000100C#32) = true := by
  decide

/-- R306: its example. -/
theorem test_blt : gives (.word 0xFE734CE3#32) (.blt 6#5 7#5 0xFFC#12)
    (lab 0x1008#32 [(6#5, 0xFFFFFFFF#32), (7#5, 0x1#32)])
    (fun t => t.pc == 0x00001000#32) = true := by
  decide

/-- R307: its example. -/
theorem test_bge : gives (.word 0xFE735CE3#32) (.bge 6#5 7#5 0xFFC#12)
    (lab 0x1008#32 [(6#5, 0xFFFFFFFF#32), (7#5, 0x1#32)])
    (fun t => t.pc == 0x0000100C#32) = true := by
  decide

/-- R308: its example. -/
theorem test_bltu : gives (.word 0xFE736CE3#32) (.bltu 6#5 7#5 0xFFC#12)
    (lab 0x1008#32 [(6#5, 0xFFFFFFFF#32), (7#5, 0x1#32)])
    (fun t => t.pc == 0x0000100C#32) = true := by
  decide

/-- R309: its example. -/
theorem test_bgeu : gives (.word 0xFE737CE3#32) (.bgeu 6#5 7#5 0xFFC#12)
    (lab 0x1008#32 [(6#5, 0xFFFFFFFF#32), (7#5, 0x1#32)])
    (fun t => t.pc == 0x00001000#32) = true := by
  decide

/-- R321: its example. -/
theorem test_lb : gives (.word 0x00030283#32) (.lb 5#5 6#5 0#12)
    (hold 0x1234FF80#64 (lab 0x1000#32 [(6#5, 0x80000#32)]))
    (fun t => t.getReg 5#5 == 0xFFFFFF80#32 && t.pc == 0x00001004#32) = true := by
  decide

/-- R322: its example. -/
theorem test_lh : gives (.word 0x00031283#32) (.lh 5#5 6#5 0#12)
    (hold 0x1234FF80#64 (lab 0x1000#32 [(6#5, 0x80000#32)]))
    (fun t => t.getReg 5#5 == 0xFFFFFF80#32 && t.pc == 0x00001004#32) = true := by
  decide

/-- R323: its example. -/
theorem test_lw : gives (.word 0x00032283#32) (.lw 5#5 6#5 0#12)
    (hold 0x1234FF80#64 (lab 0x1000#32 [(6#5, 0x80000#32)]))
    (fun t => t.getReg 5#5 == 0x1234FF80#32 && t.pc == 0x00001004#32) = true := by
  decide

/-- R324: its example. -/
theorem test_lbu : gives (.word 0x00034283#32) (.lbu 5#5 6#5 0#12)
    (hold 0x1234FF80#64 (lab 0x1000#32 [(6#5, 0x80000#32)]))
    (fun t => t.getReg 5#5 == 0x00000080#32 && t.pc == 0x00001004#32) = true := by
  decide

/-- R325: its example. -/
theorem test_lhu : gives (.word 0x00035283#32) (.lhu 5#5 6#5 0#12)
    (hold 0x1234FF80#64 (lab 0x1000#32 [(6#5, 0x80000#32)]))
    (fun t => t.getReg 5#5 == 0x0000FF80#32 && t.pc == 0x00001004#32) = true := by
  decide

/-- R326: its example. -/
theorem test_sb : gives (.word 0x007300A3#32) (.sb 6#5 7#5 1#12)
    (hold 0x1234FF80#64 (lab 0x1000#32 [(6#5, 0x80000#32), (7#5, 0xAABBCCDD#32)]))
    (fun t => t.dccm == (lab 0#32 []).dccm.putBytes 0x00080000#32 (toBytes 0x1234DD80#64 4) && t.pc == 0x00001004#32) = true := by
  decide

/-- R327: its example. -/
theorem test_sh : gives (.word 0x00731123#32) (.sh 6#5 7#5 2#12)
    (hold 0x1234FF80#64 (lab 0x1000#32 [(6#5, 0x80000#32), (7#5, 0xAABBCCDD#32)]))
    (fun t => t.dccm == (lab 0#32 []).dccm.putBytes 0x00080000#32 (toBytes 0xCCDDFF80#64 4) && t.pc == 0x00001004#32) = true := by
  decide

/-- R328: its example. -/
theorem test_sw : gives (.word 0xFE732E23#32) (.sw 6#5 7#5 0xFFC#12)
    (hold 0x1234FF80#64 (lab 0x1000#32 [(6#5, 0x80004#32), (7#5, 0xAABBCCDD#32)]))
    (fun t => t.dccm == (lab 0#32 []).dccm.putBytes 0x00080000#32 (toBytes 0xAABBCCDD#64 4) && t.pc == 0x00001004#32) = true := by
  decide

/-- R351: its example. -/
theorem test_cAddi4spn : gives (.half 0x0800#16) (.cAddi4spn 0#3 4#8)
    (lab 0x1000#32 [(2#5, 0xF0040100#32)])
    (fun t => t.getReg 8#5 == 0xF0040110#32 && t.pc == 0x00001002#32) = true := by
  decide

/-- R352: its example. -/
theorem test_cLw : gives (.half 0x4144#16) (.cLw 1#3 2#3 1#5)
    (hold 0x1234FF80#64 (lab 0x1000#32 [(10#5, 0x7FFFC#32)]))
    (fun t => t.getReg 9#5 == 0x1234FF80#32 && t.pc == 0x00001002#32) = true := by
  decide

/-- R353: its example. -/
theorem test_cSw : gives (.half 0xC144#16) (.cSw 2#3 1#3 1#5)
    (lab 0x1000#32 [(10#5, 0x7FFFC#32), (9#5, 0xAABBCCDD#32)])
    (fun t => t.dccm == (lab 0#32 []).dccm.putBytes 0x00080000#32 (toBytes 0xAABBCCDD#64 4) && t.pc == 0x00001002#32) = true := by
  decide

/-- R354: its example. -/
theorem test_cNop : gives (.half 0x0001#16) (.cNop 0#6)
    (lab 0x1000#32 [])
    (fun t => t.pc == 0x00001002#32 && t.csr.minstret == 1#64 && t.x == (lab 0#32 []).x) = true := by
  decide

/-- R355: its example. -/
theorem test_cAddi : gives (.half 0x157D#16) (.cAddi 10#5 0x3F#6)
    (lab 0x1000#32 [])
    (fun t => t.getReg 10#5 == 0xFFFFFFFF#32 && t.pc == 0x00001002#32) = true := by
  decide

/-- R356: its example. -/
theorem test_cJal : gives (.half 0x2021#16) (.cJal 4#11)
    (lab 0x1000#32 [])
    (fun t => t.getReg 1#5 == 0x00001002#32 && t.pc == 0x00001008#32) = true := by
  decide

/-- R357: its example. -/
theorem test_cLi : gives (.half 0x5501#16) (.cLi 10#5 0x20#6)
    (lab 0x1000#32 [])
    (fun t => t.getReg 10#5 == 0xFFFFFFE0#32 && t.pc == 0x00001002#32) = true := by
  decide

/-- R358: its example. -/
theorem test_cAddi16sp : gives (.half 0x7101#16) (.cAddi16sp 0x20#6)
    (lab 0x1000#32 [(2#5, 0xF0041000#32)])
    (fun t => t.getReg 2#5 == 0xF0040E00#32 && t.pc == 0x00001002#32) = true := by
  decide

/-- R359: its example. -/
theorem test_cLui : gives (.half 0x757D#16) (.cLui 10#5 0x3F#6)
    (lab 0x1000#32 [])
    (fun t => t.getReg 10#5 == 0xFFFFF000#32 && t.pc == 0x00001002#32) = true := by
  decide

/-- R360: its example. -/
theorem test_cSrli : gives (.half 0x8011#16) (.cSrli 0#3 4#5)
    (lab 0x1000#32 [(8#5, 0x80000000#32)])
    (fun t => t.getReg 8#5 == 0x08000000#32 && t.pc == 0x00001002#32) = true := by
  decide

/-- R361: its example. -/
theorem test_cSrai : gives (.half 0x8411#16) (.cSrai 0#3 4#5)
    (lab 0x1000#32 [(8#5, 0x80000000#32)])
    (fun t => t.getReg 8#5 == 0xF8000000#32 && t.pc == 0x00001002#32) = true := by
  decide

/-- R362: its example. -/
theorem test_cAndi : gives (.half 0x9841#16) (.cAndi 0#3 0x30#6)
    (lab 0x1000#32 [(8#5, 0x12345678#32)])
    (fun t => t.getReg 8#5 == 0x12345670#32 && t.pc == 0x00001002#32) = true := by
  decide

/-- R363: its example. -/
theorem test_cSub : gives (.half 0x8C05#16) (.cSub 0#3 1#3)
    (lab 0x1000#32 [(8#5, 0x5#32), (9#5, 0x7#32)])
    (fun t => t.getReg 8#5 == 0xFFFFFFFE#32 && t.pc == 0x00001002#32) = true := by
  decide

/-- R364: its example. -/
theorem test_cXor : gives (.half 0x8C25#16) (.cXor 0#3 1#3)
    (lab 0x1000#32 [(8#5, 0xFF00FF00#32), (9#5, 0xFF00FF0#32)])
    (fun t => t.getReg 8#5 == 0xF0F0F0F0#32 && t.pc == 0x00001002#32) = true := by
  decide

/-- R365: its example. -/
theorem test_cOr : gives (.half 0x8C45#16) (.cOr 0#3 1#3)
    (lab 0x1000#32 [(8#5, 0xFF00FF00#32), (9#5, 0xFF00FF0#32)])
    (fun t => t.getReg 8#5 == 0xFFF0FFF0#32 && t.pc == 0x00001002#32) = true := by
  decide

/-- R366: its example. -/
theorem test_cAnd : gives (.half 0x8C65#16) (.cAnd 0#3 1#3)
    (lab 0x1000#32 [(8#5, 0xFF00FF00#32), (9#5, 0xFF00FF0#32)])
    (fun t => t.getReg 8#5 == 0x0F000F00#32 && t.pc == 0x00001002#32) = true := by
  decide

/-- R367: its example. -/
theorem test_cJ : gives (.half 0xBFF5#16) (.cJ 0x7FE#11)
    (lab 0x1004#32 [])
    (fun t => t.pc == 0x00001000#32) = true := by
  decide

/-- R368: its example. -/
theorem test_cBeqz : gives (.half 0xC019#16) (.cBeqz 0#3 3#8)
    (lab 0x1000#32 [])
    (fun t => t.pc == 0x00001006#32) = true := by
  decide

/-- R369: its example. -/
theorem test_cBnez : gives (.half 0xFCF5#16) (.cBnez 1#3 0xFE#8)
    (lab 0x1004#32 [(9#5, 0x3#32)])
    (fun t => t.pc == 0x00001000#32) = true := by
  decide

/-- R370: its example. -/
theorem test_cSlli : gives (.half 0x0512#16) (.cSlli 10#5 4#5)
    (lab 0x1000#32 [(10#5, 0x12345678#32)])
    (fun t => t.getReg 10#5 == 0x23456780#32 && t.pc == 0x00001002#32) = true := by
  decide

/-- R371: its example. -/
theorem test_cLwsp : gives (.half 0x4522#16) (.cLwsp 10#5 2#6)
    (hold 0x1234FF80#64 (lab 0x1000#32 [(2#5, 0x7FFF8#32)]))
    (fun t => t.getReg 10#5 == 0x1234FF80#32 && t.pc == 0x00001002#32) = true := by
  decide

/-- R372: its example. -/
theorem test_cJr : gives (.half 0x8082#16) (.cJr 1#5)
    (lab 0x1000#32 [(1#5, 0x2001#32)])
    (fun t => t.pc == 0x00002000#32) = true := by
  decide

/-- R373: its example. -/
theorem test_cMv : gives (.half 0x852E#16) (.cMv 10#5 11#5)
    (lab 0x1000#32 [(11#5, 0xDEADBEEF#32)])
    (fun t => t.getReg 10#5 == 0xDEADBEEF#32 && t.pc == 0x00001002#32) = true := by
  decide

/-- R374: its example. -/
theorem test_cEbreak : gives (.half 0x9002#16) (.cEbreak)
    (lab 0x1002#32 [])
    (fun t => t.csr.mcause == 3#32 && t.csr.mepc == 0x1002#32 && t.csr.mtval == 0x1002#32) = true := by
  decide

/-- R375: its example. -/
theorem test_cJalr : gives (.half 0x9282#16) (.cJalr 5#5)
    (lab 0x1000#32 [(5#5, 0x2000#32)])
    (fun t => t.getReg 1#5 == 0x00001002#32 && t.pc == 0x00002000#32) = true := by
  decide

/-- R376: its example. -/
theorem test_cAdd : gives (.half 0x952E#16) (.cAdd 10#5 11#5)
    (lab 0x1000#32 [(10#5, 0xFFFFFFFF#32), (11#5, 0x2#32)])
    (fun t => t.getReg 10#5 == 0x00000001#32 && t.pc == 0x00001002#32) = true := by
  decide

/-- R377: its example. -/
theorem test_cSwsp : gives (.half 0xC42A#16) (.cSwsp 10#5 2#6)
    (lab 0x1000#32 [(2#5, 0x7FFF8#32), (10#5, 0xAABBCCDD#32)])
    (fun t => t.dccm == (lab 0#32 []).dccm.putBytes 0x00080000#32 (toBytes 0xAABBCCDD#64 4) && t.pc == 0x00001002#32) = true := by
  decide

/-- R401: its example. -/
theorem test_fence : gives (.word 0x0FF0000F#32) (.fence 0#4 15#4 15#4 0#5 0#5)
    ({ lab 0x1000#32 [] with lsu := { wbuf := [{ addr := 0x90000000#32, bytes := [(0x90000000#32, 0xAA#8)], side := false }], busOut := [] } })
    (fun t => t.lsu == { wbuf := [], busOut := [] } && t.soc == [(0x90000000, 0xAA#8)] && t.pc == 0x00001004#32) = true := by
  decide

/-- R402: its example. -/
theorem test_fenceI : gives (.word 0x0000100F#32) (.fenceI 0#12 0#5 0#5)
    ({ lab 0x1000#32 [] with lsu := { wbuf := [{ addr := 0x90000000#32, bytes := [(0x90000000#32, 0xAA#8)], side := false }], busOut := [] } })
    (fun t => t.lsu == { wbuf := [], busOut := [] } && t.pc == 0x00001004#32) = true := by
  decide

/-- R403: its example. -/
theorem test_csrrw : gives (.word 0x340312F3#32) (.csrrw 5#5 0x340#12 6#5)
    ({ lab 0x1000#32 [(6#5, 0x22#32)] with csr := { State.reset.csr with mscratch := 0x11#32 } })
    (fun t => t.getReg 5#5 == 0x00000011#32 && t.csr.mscratch == 0x22#32 && t.pc == 0x00001004#32) = true := by
  decide

/-- R404: its example. -/
theorem test_csrrs : gives (.word 0x300322F3#32) (.csrrs 5#5 0x300#12 6#5)
    (lab 0x1000#32 [(6#5, 0x8#32)])
    (fun t => t.getReg 5#5 == 0x00001800#32 && t.csr.mstatus == 0x1808#32 && t.pc == 0x00001004#32) = true := by
  decide

/-- R404: its example. -/
theorem test_csrr : gives (.word 0xF14022F3#32) (.csrrs 5#5 0xF14#12 0#5)
    (lab 0x1000#32 [])
    (fun t => t.getReg 5#5 == 0x00000000#32 && t.pc == 0x00001004#32) = true := by
  decide

/-- R405: its example. -/
theorem test_csrrc : gives (.word 0x300332F3#32) (.csrrc 5#5 0x300#12 6#5)
    ({ lab 0x1000#32 [(6#5, 0x8#32)] with csr := { State.reset.csr with mstatus := 0x1808#32 } })
    (fun t => t.getReg 5#5 == 0x00001808#32 && t.csr.mstatus == 0x1800#32 && t.pc == 0x00001004#32) = true := by
  decide

/-- R406: its example. -/
theorem test_csrrwi : gives (.word 0x340FD2F3#32) (.csrrwi 5#5 0x340#12 31#5)
    ({ lab 0x1000#32 [] with csr := { State.reset.csr with mscratch := 0xFFFFFFFF#32 } })
    (fun t => t.getReg 5#5 == 0xFFFFFFFF#32 && t.csr.mscratch == 0x1F#32 && t.pc == 0x00001004#32) = true := by
  decide

/-- R407: its example. -/
theorem test_csrrsi : gives (.word 0x30046073#32) (.csrrsi 0#5 0x300#12 8#5)
    (lab 0x1000#32 [])
    (fun t => t.getReg 0#5 == 0x00000000#32 && t.csr.mstatus == 0x1808#32 && t.pc == 0x00001004#32) = true := by
  decide

/-- R408: its example. -/
theorem test_csrrci : gives (.word 0x30047073#32) (.csrrci 0#5 0x300#12 8#5)
    ({ lab 0x1000#32 [] with csr := { State.reset.csr with mstatus := 0x1808#32 } })
    (fun t => t.getReg 0#5 == 0x00000000#32 && t.csr.mstatus == 0x1800#32 && t.pc == 0x00001004#32) = true := by
  decide

/-- R409: its example. -/
theorem test_ecall : gives (.word 0x00000073#32) (.ecall)
    ({ lab 0x1000#32 [] with csr := { State.reset.csr with mstatus := 0x1808#32, mtvec := 0x2000#32 } })
    (fun t => t.csr.mepc == 0x1000#32 && t.csr.mcause == 0xB#32 && t.csr.mtval == 0#32 && t.csr.mstatus == 0x1880#32 && t.pc == 0x00002000#32) = true := by
  decide

/-- R410: its example. -/
theorem test_ebreak : gives (.word 0x00100073#32) (.ebreak)
    (lab 0x1000#32 [])
    (fun t => t.csr.mepc == 0x1000#32 && t.csr.mcause == 3#32 && t.csr.mtval == 0x1000#32) = true := by
  decide

/-- R410: its example. -/
theorem test_ebreak_debug : gives (.word 0x00100073#32) (.ebreak)
    ({ lab 0x1000#32 [] with csr := { State.reset.csr with dcsr := 0x40008003#32 } })
    (fun t => t.csr.dpc == 0x1000#32 && t.csr.dcsr.extractLsb' 6 3 == 1#3 && t.csr.mcause == 0#32 && t.hart.activity == .dbHalt) = true := by
  decide

/-- R411: its example. -/
theorem test_mret : gives (.word 0x30200073#32) (.mret)
    ({ lab 0x1000#32 [] with csr := { State.reset.csr with mstatus := 0x1880#32, mepc := 0x1004#32 } })
    (fun t => t.csr.mstatus == 0x1888#32 && t.pc == 0x00001004#32) = true := by
  decide

/-- R414: its example. -/
theorem test_wfi : gives (.word 0x10500073#32) (.wfi)
    (lab 0x1000#32 [])
    (fun t => t.pc == 0x00001004#32) = true := by
  decide
/-! ## Reserved and rejected words (R221, R225, R234; the tables of 95_test_vectors.md section 2.1) -/

theorem test_reject_words :
    [0x02109193#32, 0x40009193#32, 0x7B200073#32, 0x10200073#32, 0x12000073#32, 0x0000202F#32, 0x00002007#32,
      0x0000000B#32, 0x00003003#32, 0xFFFFFFFF#32].all
      (fun w => match decode (.word w) with | .ok _ => false | .error _ => true) = true := by decide

theorem test_reject_parcels :
    [0x0000#16, 0x2000#16, 0x6000#16, 0xA000#16, 0xE000#16, 0x2002#16, 0x6002#16, 0xA002#16, 0xE002#16, 0x8002#16,
      0x4002#16, 0x9001#16, 0x1502#16, 0x6101#16, 0x6081#16, 0x9C81#16].all
      (fun w => match decode (.half w) with | .ok _ => false | .error _ => true) = true := by decide

/-! ## One step of the whole machine -/

/-- What a step from `s` leads to. -/
def stepsTo (s : State) (p : State → Bool) : Bool :=
  match step s with | .next t => p t | .fault _ => false | .refused _ => false

/-- R309 and R236: the reset machine fetches and runs the instruction placed for it. -/
theorem test_step_addi :
    stepsTo (State.reset.withFetchWord 32 0xFFF30293)
      (fun t => t.getReg 5#5 == 0xFFFFFFFF#32 && t.pc == 0x00040004#32 && t.csr.minstret == 1#64) = true := by
  decide

/-- 95_test_vectors.md 2.8: an illegal word. -/
theorem test_step_illegal :
    stepsTo ({ State.reset.withFetchWord 32 0xFFFFFFFF with csr := { State.reset.csr with mtvec := 0x00040101#32 } })
      (fun t => t.csr.mcause == 2#32 && t.csr.mtval == 0xFFFFFFFF#32 && t.pc == 0x00040100#32 && t.csr.minstret == 0#64) =
      true := by
  decide

/-- The state of 95_test_vectors.md 2.9: mtvec vectored, mie on. -/
def irq (mie : Word) (s : State) : State :=
  { s with pc := 0x00040010#32, csr := { s.csr with mtvec := 0x00040101#32, mstatus := 0x1808#32, mie := mie } }

/-- 95_test_vectors.md 2.9: the timer interrupt. -/
theorem test_step_timer :
    stepsTo (irq 0x80#32 { State.reset with pins := { State.reset.pins with timerInt := true } })
      (fun t => t.csr.mcause == 0x80000007#32 && t.pc == 0x0004011C#32 && t.csr.mepc == 0x00040010#32 &&
        t.csr.mstatus == 0x1880#32) = true := by
  decide

/-- 95_test_vectors.md 2.9: a second interrupt of lower rank waits. -/
theorem test_step_correctable :
    stepsTo (irq 0x40000080#32 { State.reset with
        pins := { State.reset.pins with timerInt := true }
        csr := { State.reset.csr with micect := 1#32 } })
      (fun t => t.csr.mcause == 0x8000001E#32 && t.pc == 0x00040178#32) = true := by
  decide

/-- 95_test_vectors.md 2.10: of sources 3 and 5 at the same priority the lower wins. -/
theorem test_pic_tie :
    ({ State.reset with
        pins := { State.reset.pins with extint := 0x28#256 }
        pic := { Pic.reset with meie := 0x28#256, meipl := (Pic.reset.meipl.set 3 7#4).set 5 7#4 } } : State).picEval =
      (7#4, 3#8) := by
  decide

/-- 95_test_vectors.md 2.13: what tdata1 keeps of all ones written in M-mode. -/
theorem test_tdata1_ones : (State.reset.csrWrite false .tdata1 0xFFFFFFFF#32).csrRead .tdata1 = 0x23F808C2#32 := by decide

/-- 95_test_vectors.md 1.6: the debugger clears minstret. -/
theorem test_minstret_clear :
    ((State.reset.csrWrite true .minstreth 0xFFFFFFFF#32).csrWrite true .minstret 0xFFFFFFFF#32).csr.minstret = 0#64 := by
  decide

/-! ## Witnesses: the hypotheses of each statement hold somewhere -/

theorem witness_DecodeEncode : (Instr.cAddi 31#5 0x20#6).wf = true := by decide

theorem witness_EncodeDecode : decode (.word 0x007302B3#32) = .ok (.add 5#5 6#5 7#5) := by decide

/-- Division by zero, the overflow and an ordinary division are all reachable. -/
theorem witness_Divide :
    (lab 0#32 []).getReg 7#5 = 0#32 ∧
    ((lab 0#32 [(6#5, 0x80000000#32), (7#5, 0xFFFFFFFF#32)]).getReg 6#5 = 0x80000000#32 ∧
      (lab 0#32 [(6#5, 0x80000000#32), (7#5, 0xFFFFFFFF#32)]).getReg 7#5 = 0xFFFFFFFF#32) ∧
    (lab 0#32 [(6#5, 7#32), (7#5, 2#32)]).getReg 7#5 ≠ 0#32 := by decide

/-- Both directions of a branch, at the boundary of the signed comparison. -/
theorem witness_ConditionalBranches :
    ((lab 0#32 [(6#5, 0x80000000#32)]).getReg 6#5).toInt < ((lab 0#32 []).getReg 7#5).toInt ∧
    ¬ ((lab 0#32 []).getReg 6#5).toInt < ((lab 0#32 []).getReg 7#5).toInt := by decide

/-- A machine whose DCCM holds the words 0x00080000 and 0x0009FFFC, the first and the last. -/
def filled : State :=
  { lab 0x1000#32 [(6#5, 0x00080000#32), (7#5, 0x0009FFFC#32), (8#5, 0x000C0014#32), (9#5, 0x90000000#32)] with
    dccm := (Memory.putBytes [] 0x00080000#32 (toBytes 0x1234FF80#64 4)).putBytes 0x0009FFFC#32 (toBytes 0x11223344#64 4) }

/-- The words 0x00080000 and 0x00080004 hold values, and the memory reports these answers. -/
def erring (es : List Ecc) : State :=
  { filled with
    dccm := filled.dccm.putBytes 0x00080004#32 (toBytes 0x55667788#64 4)
    env := { filled.env with ecc := es } }

theorem witness_LoadsFromDccm :
    (∃ f, filled.loadOf (.lw 5#5 7#5 0#12) = some f ∧ filled.DccmReady f.ea f.size.bytes ∧
      ∀ p ∈ addrs f.ea f.size.bytes, (filled.byte? p).isSome = true) ∧
    (∃ f, filled.loadOf (.lh 5#5 6#5 1#12) = some f ∧ filled.DccmReady f.ea f.size.bytes ∧
      ∀ p ∈ addrs f.ea f.size.bytes, (filled.byte? p).isSome = true) :=
  ⟨⟨_, rfl, ⟨by decide, by decide, by decide, by decide, rfl⟩,
      List.all_eq_true.mp (by decide)⟩,
    ⟨_, rfl, ⟨by decide, by decide, by decide, by decide, rfl⟩,
      List.all_eq_true.mp (by decide)⟩⟩

/-- An aligned word, a byte of an initialised word and one of an uninitialised word, and a half-word over two initialised words with
each outcome of its checks. -/
theorem witness_StoresToDccm :
    (∃ f, filled.storeOf (.sw 7#5 6#5 0#12) = some f ∧ filled.DccmReady f.ea f.size.bytes ∧
      f.size = .word ∧ f.ea.toNat % 4 = 0) ∧
    (∃ f, filled.storeOf (.sb 6#5 7#5 3#12) = some f ∧ filled.DccmReady f.ea f.size.bytes ∧
      (∀ p ∈ addrs f.ea f.size.bytes, filled.wordInit .dccm p = true) ∧ ¬ (f.size = .word ∧ f.ea.toNat % 4 = 0)) ∧
    (∃ f, filled.storeOf (.sb 6#5 7#5 4#12) = some f ∧ filled.DccmReady f.ea f.size.bytes ∧
      filled.wordInit .dccm f.ea = false ∧ ¬ (f.size = .word ∧ f.ea.toNat % 4 = 0)) ∧
    (∀ e, ∃ f, (erring [.none, e]).storeOf (.sh 6#5 7#5 3#12) = some f ∧ (erring [.none, e]).DccmChecked f.ea f.size.bytes ∧
      (∀ p ∈ addrs f.ea f.size.bytes, (erring [.none, e]).wordInit .dccm p = true) ∧
      ¬ (f.size = .word ∧ f.ea.toNat % 4 = 0) ∧ (erring [.none, e]).env.ecc.take (accessWords f.ea f.size.bytes) = [.none, e]) :=
  ⟨⟨_, rfl, ⟨by decide, by decide, by decide, by decide, rfl⟩, rfl, by decide⟩,
    ⟨_, rfl, ⟨by decide, by decide, by decide, by decide, rfl⟩, List.all_eq_true.mp (by decide), by decide⟩,
    ⟨_, rfl, ⟨by decide, by decide, by decide, by decide, rfl⟩, by decide, by decide⟩,
    fun e => ⟨_, rfl, ⟨by cases e <;> decide, by cases e <;> decide, by cases e <;> decide, by cases e <;> decide, rfl⟩,
      List.all_eq_true.mp (by cases e <;> decide), by cases e <;> decide, by cases e <;> decide⟩⟩

theorem witness_LoadsFromPic :
    ∃ f, filled.loadOf (.lw 5#5 8#5 0#12) = some f ∧ f.size = .word ∧ filled.PicReady f.ea :=
  ⟨_, rfl, rfl, by decide, by decide, by decide⟩

theorem witness_StoresToPic :
    ∃ f, filled.storeOf (.sw 8#5 6#5 0#12) = some f ∧ f.size = .word ∧ filled.PicReady f.ea :=
  ⟨_, rfl, rfl, by decide, by decide, by decide⟩

/-- The invariant holds of the machine these tests use. -/
theorem filled_inv : filled.Inv where
  cfg := by decide
  pc := by decide
  csr := Csrs.reset_legal (by decide)
  dicad1 := by decide
  hart := ⟨by decide, by decide, by decide⟩
  iccm := by decide
  dccm := by decide
  soc := by decide
  icData := by decide
  icTags := by decide
  icLru := by decide
  bus := by decide
  stores := fun p hp => absurd (show p ∈ ([] : List PendStore) from hp) List.not_mem_nil

theorem witness_LoadsFromBus :
    ∃ f, filled.loadOf (.lw 5#5 9#5 2#12) = some f ∧ filled.Inv ∧ filled.BusReady f.ea f.size.bytes ∧
      filled.env.replies = [] :=
  ⟨_, rfl, filled_inv, ⟨by decide, by decide, by decide, by decide⟩, rfl⟩

/-- A store in reach of the bus; and the youngest of three outstanding transactions answered first, then none left. -/
theorem witness_StoresToBus :
    (∃ f, filled.storeOf (.sw 9#5 6#5 2#12) = some f ∧ filled.cfg.valid = true ∧ filled.BusReady f.ea f.size.bytes) ∧
    (∀ x ∈ [(2, false)], x.2 = false) ∧ ∀ x ∈ ([] : List (Nat × Bool)), x.2 = false :=
  ⟨⟨_, rfl, by decide, ⟨by decide, by decide, by decide, by decide⟩⟩, by decide, by decide⟩

/-- R154: of two sent stores to one byte the younger is answered first; the hart reads the younger's value before and after the
older's answer, and so does the SoC in the end. -/
theorem test_answers_out_of_order :
    let st (v : Byte) : Txn := .store { addr := 0x90000000#32, bytes := [(0x90000000#32, v)], side := false }
    let s : State := { State.reset with lsu := { wbuf := [], busOut := [st 1#8, st 2#8] } }
    let s1 := s.busResp [(1, false)]
    let s2 := s1.busResp [(0, false)]
    s1.byte? 0x90000000#32 = some 2#8 ∧ s1.lsu.busOut.length = 1 ∧ s2.soc.get? 0x90000000 = some 2#8 ∧
      s2.lsu.busOut = [] := by decide

/-- Region 9 has side effects, for data accesses too. -/
def sided : State :=
  { filled with
    csr := { filled.csr with mrac := 0x00080000#32 }
    sync := { filled.sync with mracD := [0#32] } }

/-- Each check of R170 at a boundary: the last halfword of a region, a misaligned side-effect access, the first byte above the
DCCM, a halfword of the PIC block, an address outside the only window. -/
theorem witness_AccessExceptions :
    (∃ f, (filled.setReg 6#5 0x8FFFFFFE#32).loadOf (.lw 5#5 6#5 0#12) = some f ∧
      (filled.setReg 6#5 0x8FFFFFFE#32).Checked f.ea f.size 4#32 6#32) ∧
    (∃ f, sided.storeOf (.sw 9#5 6#5 1#12) = some f ∧ sided.Checked f.ea f.size 4#32 6#32) ∧
    (∃ f, filled.loadOf (.lw 5#5 7#5 2#12) = some f ∧ filled.Checked f.ea f.size 5#32 7#32) ∧
    (∃ f, filled.storeOf (.sh 8#5 6#5 0#12) = some f ∧ filled.Checked f.ea f.size 5#32 7#32) ∧
    (∃ f, ({ filled with cfg := { Build.mapT with dataWindows := [{ addr := 0x20000000#32, mask := 0x0FFFFFFF#32 }] } } :
        State).loadOf (.lw 5#5 9#5 0#12) = some f ∧
      ({ filled with cfg := { Build.mapT with dataWindows := [{ addr := 0x20000000#32, mask := 0x0FFFFFFF#32 }] } } :
        State).Checked f.ea f.size 5#32 7#32) :=
  ⟨⟨_, rfl, .crosses (by decide)⟩, ⟨_, rfl, .sideEffect (by decide) (by decide) (by decide)⟩,
    ⟨_, rfl, .unmapped (by decide) (by decide) (by decide) (by decide) (by decide)⟩,
    ⟨_, rfl, .picAccess (by decide) (by decide) (by decide) (by decide) (by decide) (by decide)⟩,
    ⟨_, rfl, .window (by decide) (by decide) (by decide) (by decide)⟩⟩

theorem witness_SideEffectLoadError :
    ∃ f, ({ sided with env := { sided.env with replies := [.error] } } : State).loadOf (.lw 5#5 9#5 0#12) = some f ∧
      ({ sided with env := { sided.env with replies := [.error] } } : State).BusReady f.ea f.size.bytes ∧
      ({ sided with env := { sided.env with replies := [.error] } } : State).sideEffect f.ea = true ∧
      sided.lsu.wbuf = [] ∧ sided.lsu.busOut = [] :=
  ⟨_, rfl, ⟨by decide, by decide, by decide, by decide⟩, by decide, rfl, rfl⟩

/-- A half-word over two words, its second word with each answer; a word, with a double-bit error. -/
theorem witness_DccmLoadErrors :
    (∀ e, ∃ f, (erring [.single, e]).loadOf (.lhu 5#5 6#5 3#12) = some f ∧ (erring [.single, e]).DccmChecked f.ea f.size.bytes ∧
      (∀ p ∈ addrs f.ea f.size.bytes, ((erring [.single, e]).byte? p).isSome = true) ∧
      (erring [.single, e]).env.ecc.take (accessWords f.ea f.size.bytes) = [.single, e]) ∧
    (∃ f, (erring [.double]).loadOf (.lw 5#5 6#5 0#12) = some f ∧ (erring [.double]).DccmChecked f.ea f.size.bytes ∧
      Ecc.double ∈ (erring [.double]).env.ecc.take (accessWords f.ea f.size.bytes)) :=
  ⟨fun e => ⟨_, rfl, ⟨by cases e <;> decide, by cases e <;> decide, by cases e <;> decide, by cases e <;> decide, rfl⟩,
      List.all_eq_true.mp (by cases e <;> decide), by cases e <;> decide⟩,
    ⟨_, rfl, ⟨by decide, by decide, by decide, by decide, rfl⟩, by decide⟩⟩

theorem witness_BusErrorCapture :
    filled.csr.mdseacLocked = false ∧ (filled.reportBusError true 0x90000000#32).csr.mdseacLocked = true := by decide

theorem witness_EbreakRaises : filled.ebreakm = false := by decide

theorem witness_EbreakEntersDebugMode :
    ({ filled with csr := { filled.csr with dcsr := 0x40008003#32 } } : State).ebreakm = true := by decide

theorem witness_FencesDrain :
    (∃ fm p su rs1 rd, Instr.fence 0#4 15#4 15#4 0#5 0#5 = .fence fm p su rs1 rd) ∧ filled.Inv ∧
      filled.env.replies = [] :=
  ⟨⟨_, _, _, _, _, rfl⟩, filled_inv, rfl⟩

/-- An unimplemented address, a Debug Mode CSR, a write to a read-only address. -/
theorem witness_IllegalCsrAccess :
    csrAt 0xC00#12 = none ∧ (csrAt 0x7B0#12 = some .dcsr ∧ CsrName.dcsr.debugOnly = true) ∧
      (∃ f, filled.csrOf (.csrrw 0#5 0xF11#12 1#5) = some f ∧ f.write = true ∧ f.csr.extractLsb' 10 2 = 3#2) :=
  ⟨by decide, ⟨by decide, by decide⟩, ⟨_, rfl, rfl, by decide⟩⟩

theorem witness_CsrReads :
    ∃ f, filled.csrOf (.csrrs 5#5 0xF11#12 0#5) = some f ∧ csrAt f.csr = some .mvendorid ∧
      CsrName.mvendorid.debugOnly = false ∧ f.write = false :=
  ⟨_, rfl, by decide, by decide, by decide⟩

theorem witness_CsrWrites :
    ∃ f, filled.csrOf (.csrrw 5#5 0x340#12 6#5) = some f ∧ csrAt f.csr = some .mscratch ∧
      CsrName.mscratch.debugOnly = false ∧ f.write = true ∧ f.csr.extractLsb' 10 2 ≠ 3#2 :=
  ⟨_, rfl, by decide, by decide, rfl, by decide⟩

/-- Legal causes; a trigger owned by the debugger, and one chained before the selected one. -/
theorem witness_CsrWrittenValues :
    legalCause 0x8000001C#32 = true ∧ legalCause 11#32 = true ∧
    ({ filled with csr := { filled.csr with tdata1 := filled.csr.tdata1.set 0 0x2BE00000#32 } } : State).csrRead .tdata1 =
      0x2BE00000#32 ∧
    (filled.csrRead .tdata1).getLsbD 27 = false ∧
    ({ filled with csr := { filled.csr with
        tselect := 1#2, tdata1 := filled.csr.tdata1.set 0 0x23E00800#32 } } : State).csr.tdata1[0].getLsbD 11 = true := by decide

/-- The commands are five of the CSRs. -/
theorem witness_CsrWriteFrame :
    CsrName.tselect ≠ .mcpc ∧ CsrName.tselect ≠ .dmst ∧ CsrName.tselect ≠ .mpmc ∧ CsrName.tselect ≠ .dicago ∧
      CsrName.tselect ≠ .meicpct ∧ ¬ (true = true ∧ CsrName.tselect = .minstret) := by decide

/-- `addi x5, x6, -1` in the ICCM at the reset pc. -/
def loaded : State := State.reset.withFetchWord 32 0xFFF30293

theorem witness_StepRunsDecoded :
    loaded.beginStep.env.events = [] ∧ loaded.beginStep.Ready ∧ loaded.beginStep.interruptNow = none ∧
      loaded.beginStep.paused = false ∧
      (match loaded.beginStep.fetch with
        | .ok enc s1 => decode enc = .ok (.addi 5#5 6#5 0xFFF#12) ∧
          (s1.traceInsn enc.bits).triggers ((s1.traceInsn enc.bits).memOp (.addi 5#5 6#5 0xFFF#12)) = .no
        | .fault _ _ => False
        | .again _ => False) :=
  ⟨rfl, ⟨rfl, rfl, rfl, rfl, rfl, rfl, rfl, rfl⟩, by decide, by decide, ⟨by decide, rfl⟩⟩

/-- The instruction of `loaded`, and its first parcel with a single-bit and with a double-bit error. -/
theorem witness_FetchesFromIccm :
    ((Instr.addi 5#5 6#5 0xFFF#12).wf = true ∧ loaded.cfg.valid = true ∧ loaded.env.ecc = [] ∧ loaded.env.dmaMid = [] ∧
      ∀ k : Nat, (hk : k < (encode (.addi 5#5 6#5 0xFFF#12)).bytes.length) →
        loaded.inIccm (loaded.pc + BitVec.ofNat 32 k) = true ∧
          loaded.iccm.get? (loaded.pc + BitVec.ofNat 32 k).toNat =
            some ((encode (.addi 5#5 6#5 0xFFF#12)).bytes[k])) ∧
    (loaded.cecd = false ∧ loaded.inIccm loaded.pc = true ∧ loaded.inIccm (loaded.pc + 1#32) = true) ∧
    ({ loaded with env := { loaded.env with ecc := [.single] } } : State).env.ecc = .single :: [] ∧
    (({ loaded with env := { loaded.env with ecc := [.double] } } : State).env.ecc = .double :: [] ∧
      (({ loaded with env := { loaded.env with ecc := [.double] } } : State).afterChecks 1).triggers .none = .no) := by
  refine ⟨⟨by decide, by decide, rfl, rfl, ?_⟩, by decide, rfl, rfl, rfl⟩
  have h : ∀ k : Fin 4, loaded.inIccm (loaded.pc + BitVec.ofNat 32 k) = true ∧
      loaded.iccm.get? (loaded.pc + BitVec.ofNat 32 k).toNat =
        some ((encode (.addi 5#5 6#5 0xFFF#12)).bytes[k.val]'k.isLt) := by decide
  exact fun k hk => h ⟨k, hk⟩

/-- A reserved word in the ICCM, and a pc just above it. -/
theorem witness_RejectedFetches :
    (match (State.reset.withFetchWord 32 0x0000000B).fetch with
      | .ok enc s1 => decode enc = .error .noRow32 ∧ (s1.traceInsn enc.bits).triggers .none = .no
      | .fault _ _ => False
      | .again _ => False) ∧
    (lab 0x00060000#32 []).fetchRegionLocal (regionOf 0x00060000#32) = true ∧
    (lab 0x00060000#32 []).inIccm 0x00060000#32 = false ∧ (lab 0x00060000#32 []).triggers .none = .no :=
  ⟨⟨by decide, rfl⟩, by decide, by decide, rfl⟩

theorem witness_NoInstructionStops :
    step { State.reset with pins := { State.reset.pins with scanMode := true } } = .fault .testMode ∧
    step { State.reset with inputs :=
      [{ Env.quiet with events := [.pins { Pins.quiet with cpuHaltReq := true, cpuRunReq := true }] }] } =
        .refused .protocolViolation :=
  ⟨rfl, rfl⟩

/-- Whether the events end in a protocol violation, and else whether the state they leave passes a check. -/
def endsIn (s : State) (es : List Event) (violation : Bool) (check : State → Bool) : Bool :=
  match s.applyEvents es with
  | none => violation
  | some t => !violation && check t

/-- R554: in a db-halt of the debugger the MPC may ask to run once, and again only after it has asked for a halt. -/
theorem test_mpc_run_twice :
    let s : State := { State.reset with hart := { Hart.reset with activity := .dbHalt, dbgHalt := true } }
    let run : Event := .pins { Pins.quiet with mpcRunReq := true }
    let halt : Event := .pins { Pins.quiet with mpcHaltReq := true }
    let off : Event := .pins Pins.quiet
    endsIn s [run, off] false (fun _ => true) = true ∧ endsIn s [run, off, run] true (fun _ => true) = true ∧
    endsIn s [run, off, halt, off, run] false (fun _ => true) = true := by decide

/-- R655, R651, R558: the reset inputs and the reset vector are those at the release, whatever they are later in the step; an MPC
run request held over a reset out of which the MPC asks for db-halt is a violation. -/
theorem test_reset_release :
    let low (run : Bool) : Event := .pins { Pins.quiet with rstL := false, mpcRunReq := run }
    let high (start run : Bool) : Event := .pins { Pins.quiet with mpcResetRunReq := start, mpcRunReq := run }
    endsIn State.reset [low false, high false false, high true false] false
      (fun t => t.hart.activity == .dbHalt && t.hart.mpcHalt && t.csr.dpc == 0x00040000#32) = true ∧
    endsIn State.reset [low false, .pins { Pins.quiet with rstVec := 0x30000#31 }] false (fun t => t.pc == 0x00060000#32) = true ∧
    endsIn { State.reset with pins := { Pins.quiet with mpcRunReq := true } } [low true, high false true] true
      (fun _ => true) = true ∧
    endsIn { State.reset with pins := { Pins.quiet with mpcRunReq := true } } [low true, high true true] false
      (fun t => t.hart.activity == .running && !t.hart.held) = true := by decide

/-- R680: on an AHB-Lite port the byte writes of an unaligned store stay apart; on AXI4 neighbours may be combined (R157). -/
theorem test_ahb_no_coalescing :
    let s (b : BusType) : State := State.busStore 0x90000001#32 2 0x1122#32 false
      { State.reset with cfg := { Build.mapT with lsuBus := b } }
    (s .ahbLite).lsu.wbuf.length = 2 ∧ (State.busMerge 0 (s .ahbLite)).lsu.wbuf.length = 2 ∧
    (State.busMerge 0 (s .axi4)).lsu.wbuf.length = 1 := by decide

/-- The timer interrupt of 95_test_vectors.md 2.9. -/
def timed : State := irq 0x80#32 { State.reset with pins := { State.reset.pins with timerInt := true } }

theorem witness_StepTakesInterrupt :
    timed.beginStep.env.events = [] ∧ timed.beginStep.Ready ∧ timed.beginStep.interruptNow = some .timer :=
  ⟨rfl, ⟨rfl, rfl, rfl, rfl, rfl, rfl, rfl, rfl⟩, by decide⟩

theorem witness_InterruptSelection :
    filled.mieOn = false ∧
    (({ timed with hart := { timed.hart with stepping := true } } : State).hart.stepping = true ∧
      ({ timed with hart := { timed.hart with stepping := true } } : State).stepie = false) ∧
    (timed.mieOn = true ∧ timed.hart.stepping = false ∧ timed.env.deferInt = false) := by decide

/-- No request, the pin's alone, a bus error's alone, and both. -/
theorem witness_NmiEntry :
    ({ filled with hart := { filled.hart with nmiPin := true } } : State).nmiPending = true ∧
    filled.hart.nmiBus = none ∧
    (filled.reportBusError true 0#32).hart.nmiPin = false ∧
    (filled.reportBusError true 0#32).hart.nmiBus = some 0xF0000001#32 ∧
    (({ filled with hart := { filled.hart with nmiPin := true } } : State).reportBusError false 0#32).hart.nmiPin = true ∧
    (({ filled with hart := { filled.hart with nmiPin := true } } : State).reportBusError false 0#32).hart.nmiBus =
      some 0xF0000000#32 := by decide

/-- Source 8, the last of map T, is pending and enabled. -/
def source8 : State :=
  { State.reset with
    pins := { State.reset.pins with extint := 0x100#256 }
    pic := { Pic.reset with meie := 0x100#256, meipl := Pic.reset.meipl.set 8 15#4 } }

theorem witness_PicEvaluation :
    source8.cfg.valid = true ∧ 8 ≤ source8.cfg.totalInt ∧
      (source8.gwReq source8.picSeen &&& source8.picSeen.meie).getLsbD 8 = true ∧ source8.picEval = (15#4, 8#8) ∧
      State.reset.picEval = (0#4, 0#8) := by decide

/-- Source 8 has a configurable gateway; in a build without one for it, it has not. -/
theorem witness_PicRegisters :
    source8.cfg.valid = true ∧ 1 ≤ 8 ∧ 8 ≤ source8.cfg.totalInt ∧ source8.cfg.cfgGateway.getLsbD 8 = true ∧
    ({ Build.mapT with cfgGateway := 2#256 } : Build).valid = true ∧
    ({ Build.mapT with cfgGateway := 2#256 } : Build).cfgGateway.getLsbD 8 = false := by decide

theorem witness_GatewayClock :
    (source8.gwActive source8.pic).getLsbD 8 = true ∧ source8.cfgGateways.getLsbD 8 = true ∧
      source8.sync.gwCleared.getLsbD 8 = false ∧ (State.reset.gwActive State.reset.pic).getLsbD 255 = false := by decide

/-- A timer at its bound, just below it, with a committing write, with an old bound, and with its interrupt enabled or not. -/
theorem witness_TimerCycle :
    ({ filled with csr := { filled.csr with mitb0 := 3#32, mitcnt0 := 3#32 } } : State).csr.mitb0 ≤ 3#32 ∧
    ¬ ({ filled with csr := { filled.csr with mitb0 := 3#32, mitcnt0 := 2#32 } } : State).csr.mitb0 ≤ 2#32 ∧
    ({ filled with sync := { filled.sync with mitWr0 := some 7#32 } } : State).sync.mitWr0 = some 7#32 ∧
    (filled.csrWrite false .mitb1 3#32).sync.mitbOld1 = some 0xFFFFFFFF#32 ∧
    (filled.sync.mitWr0 = none ∧ filled.csr.mitctl0.getLsbD 0 = true ∧ filled.hart.activity ≠ .dbHalt ∧
      filled.hart.activity ≠ .pmuHalt ∧ ¬ 0 < filled.hart.pause) ∧
    ({ filled with csr := { filled.csr with mitctl0 := 0#3 } } : State).csr.mitctl0.getLsbD 0 = false ∧
    ({ filled with csr := { filled.csr with mie := 0x30000000#32, mstatus := 0x1808#32 } } : State).timerEnabled 29 = true ∧
    filled.timerEnabled 28 = false := by decide

/-- A hart halted by the debugger. -/
def halted : State := { filled with hart := { filled.hart with activity := .dbHalt, dbgHalt := true } }

/-- Counting and not, in each activity; each half written; an event counter on event 50 with an interrupt pending and enabled. -/
theorem witness_CycleCounter :
    (filled.hart.activity = .running ∧ filled.sync.wrote = none) ∧
    ({ filled with hart := { filled.hart with activity := .pmuHalt } } : State).hart.activity = .pmuHalt ∧
    ({ filled with csr := { filled.csr with dcsr := 0x40000403#32 } } : State).stopcount = true ∧
    (halted.hart.activity = .dbHalt ∧ halted.stopcount = false) ∧
    (filled.csrWrite false .mcycle 5#32).sync.wrote = some { event := none, high := false, v := 5#32, old := 0#64 } ∧
    (filled.csrWrite false .mcycleh 5#32).sync.wrote = some { event := none, high := true, v := 5#32, old := 0#64 } ∧
    (∀ w, (filled.csrWrite false (.mhpmcounter 1) 5#32).sync.wrote = some w → w.event ≠ some 0) ∧
    ((irq 0x80#32 { State.reset with pins := { State.reset.pins with timerInt := true } }).csrRead .mip &&& 0x80#32 ≠ 0#32 ∧
      ({ filled with csr := { filled.csr with mhpmevent := filled.csr.mhpmevent.set 0 50#6 } } : State).csr.mhpmevent[0] =
        50#6 ∧ filled.csr.mgpmc = 1#1) := by
  refine ⟨by decide, by decide, by decide, by decide, by decide, by decide, ?_, by decide⟩
  intro w hw
  have : some w = some ({ event := some 1, high := false, v := 5#32, old := 0#64 } : CounterWrite) := hw.symm.trans (by decide)
  cases this
  decide

/-- Of a counter half written the step's clock goes to the other half only. -/
theorem test_mcycle_half :
    ({ filled with csr := { filled.csr with mcycle := 0xFFFFFFFF#64 } }.csrWrite false .mcycle 5#32).clock.csr.mcycle =
      0x0000000100000005#64 := by decide

/-- An `ebreak` at the pc, with dcsr.ebreakm = 1. -/
def broken : State :=
  { State.reset.withFetchWord 32 0x00100073 with csr := { State.reset.csr with dcsr := 0x40008003#32 } }

/-- Each requester; with nothing of its own the next instruction, and with an `ebreak`. -/
theorem witness_DebugHaltRequest :
    ({ filled with dm := { filled.dm with haltreq := true } } : State).debugHaltReq = true ∧
    ({ filled with pins := { filled.pins with mpcHaltReq := true } } : State).debugHaltReq = true ∧
    ({ loaded with dm := { loaded.dm with haltreq := true } } : State).ownHalt = none ∧
    ({ broken with dm := { broken.dm with haltreq := true } } : State).ownHalt ≠ none := by decide

/-- R552: a PMU halt request and an `ebreak` with halt action at one boundary end in db-halt. -/
theorem test_pmu_and_breakpoint :
    stepsTo { broken with pins := { broken.pins with cpuHaltReq := true } }
      (fun t => t.hart.activity == .dbHalt && t.csr.dcsr.extractLsb' 6 3 == 1#3 && !t.outs.cpuHaltAck) = true := by decide

/-- R611: with a halt request and an `ebreak` at one boundary the cause is the `ebreak`'s. -/
theorem test_halt_priority :
    stepsTo { broken with dm := { broken.dm with haltreq := true } }
      (fun t => t.csr.dcsr.extractLsb' 6 3 == 1#3 && t.csr.dpc == 0x00040000#32 && t.hart.dbgHalt) = true := by decide

theorem witness_DebugResume :
    (halted.hart.activity = .dbHalt ∧ halted.debugHaltReq = false ∧ halted.pins.mpcRunReq = false) ∧
    halted.hart.leaves = false ∧ ({ halted.hart with dbgResume := true } : Hart).leaves = true := by decide

theorem witness_SingleStepEnds :
    ({ filled with hart := { filled.hart with stepping := true } } : State).hart.stepping = true ∧
    ({ filled with hart := { filled.hart with stepping := true } } : State).hart.fwHalt = false := by decide

/-- Trigger 0 on the address 0x1000 of the next instruction, with mie = 1 and with mie = 0. -/
def armed (mstatus : Word) : State :=
  { filled with csr := { filled.csr with
      mstatus := mstatus
      tdata1 := #v[0x23E00044#32, 0x23E00000#32, 0x23E00000#32, 0x23E00000#32]
      tdata2 := #v[0x1001#32, 0#32, 0#32, 0#32] } }

theorem witness_ExecuteTrigger :
    ((armed 0x1808#32).csr.tdata1[0].getLsbD 6 = true ∧ (armed 0x1808#32).csr.tdata1[0].getLsbD 2 = true ∧
      (armed 0x1808#32).csr.tdata1[0].getLsbD 7 = false ∧ (armed 0x1808#32).csr.tdata1[0].getLsbD 11 = false ∧
      (armed 0x1808#32).csr.tdata1[0].extractLsb' 12 4 = 0#4) ∧
    (armed 0x1808#32).csr.tdata2[0] &&& 0xFFFFFFFE#32 = (armed 0x1808#32).pc ∧
    ((armed 0x1808#32).csr.tdata1[1].getLsbD 6 = false ∧ (armed 0x1808#32).csr.tdata1[2].getLsbD 6 = false ∧
      (armed 0x1808#32).csr.tdata1[3].getLsbD 6 = false) ∧
    (armed 0x1808#32).mieOn = true ∧ (armed 0x1800#32).mieOn = false := by decide

theorem witness_AbstractRegisterAccess :
    halted.dm.cmderr = 0#3 ∧ halted.dmHalted = true ∧ filled.dm.cmderr = 0#3 ∧ filled.dmHalted = false := by decide

/-- The request `r` waits at the DMA port, and the memory reports these answers. -/
def dma (r : DmaReq) (es : List Ecc) : State := { erring es with dma := { fifo := [r], half := none, resp := none } }

/-- The last double-word of the DCCM and the first word of the ICCM; requests outside, of an illegal width, of an illegal alignment;
a read of known bytes, with each answer of the memory. -/
theorem witness_DmaAccesses :
    (filled.cfg.valid = true ∧ (dma ⟨true, 0x0009FFF8#32, 8, 0#64⟩ []).dma.half = none) ∧
    ((⟨true, 0x0009FFF8#32, 8, 0#64⟩ : DmaReq).Allowed ∧ filled.inCcm .dccm 0x0009FFF8#32 = true ∧
      filled.inCcm .dccm (0x0009FFF8#32 + BitVec.ofNat 32 (8 - 1)) = true) ∧
    ((⟨true, 0x00040000#32, 4, 0#64⟩ : DmaReq).Allowed ∧ filled.inCcm .iccm 0x00040000#32 = true ∧
      filled.inCcm .iccm (0x00040000#32 + BitVec.ofNat 32 (4 - 1)) = true) ∧
    (¬ filled.inCcm .iccm 0x000A0000#32 = true ∧ ¬ filled.inCcm .dccm 0x000A0000#32 = true) ∧
    ¬ (⟨true, 0x00080000#32, 2, 0#64⟩ : DmaReq).Allowed ∧ ¬ (⟨false, 0x00080002#32, 4, 0#64⟩ : DmaReq).Allowed ∧
    ((⟨false, 0x00080000#32, 8, 0#64⟩ : DmaReq).Allowed ∧
      ∀ p ∈ addrs 0x00080000#32 8, (((dma ⟨false, 0x00080000#32, 8, 0#64⟩ []).ccm .dccm).get? p.toNat).isSome = true) ∧
    ((dma ⟨false, 0x00080000#32, 4, 0#64⟩ [.single]).env.ecc = .single :: [] ∧
      (dma ⟨false, 0x00080000#32, 4, 0#64⟩ [.double]).env.ecc = .double :: [] ∧ filled.cecd = false) := by
  refine ⟨by decide, ⟨⟨Or.inr (Or.inl rfl), by decide⟩, by decide, by decide⟩, ⟨⟨Or.inl rfl, by decide⟩, by decide, by decide⟩,
    by decide, ?_, ?_, ⟨⟨Or.inr (Or.inl rfl), by decide⟩, List.all_eq_true.mp (by decide)⟩, by decide⟩
  · rintro ⟨h, -⟩; revert h; decide
  · rintro ⟨-, h⟩; revert h; decide

/-- R194: after one serving of a double-word request only the first word has been written. -/
theorem test_dma_word_by_word :
    let s := { dma ⟨true, 0x00080000#32, 8, 0x1111111122222222#64⟩ [] with dccm := [] }
    s.dmaServe.dccm = Memory.putBytes [] 0x00080000#32 (toBytes 0x22222222#64 4) ∧ s.dmaServe.dma.resp = none := by decide

theorem witness_PowerStates :
    ((3#32 : Word).getLsbD 0 = true ∧ filled.inDebugMode = false) ∧
    (({ filled with hart := { filled.hart with fwHalt := true } } : State).hart.fwHalt = true ∧
      filled.hart.stepping = false) ∧
    (({ filled with pins := { filled.pins with cpuHaltReq := true } } : State).pins.cpuHaltReq = true ∧
      filled.hart.activity = .running) ∧
    (({ loaded with pins := { loaded.pins with cpuHaltReq := true } } : State).ownHalt = none ∧
      ({ broken with pins := { broken.pins with cpuHaltReq := true } } : State).ownHalt ≠ none) ∧
    (filled.debugHaltReq = false ∧ filled.pins.cpuRunReq = false ∧ filled.wakes = false) ∧
    timed.debugHaltReq = false ∧ timed.wakes = true := by decide

/-- The last parcel of a line and its first, its set holding nothing. -/
theorem witness_ICacheServesFilledLine :
    filled.cfg.valid = true ∧ (0x9000003E#32 : Word).getLsbD 0 = false ∧ filled.cfg.icacheEcc = false ∧
    filled.icHit 0x9000003E#32 = none ∧ filled.icTagError (Build.setOf filled.cfg 0x9000003E#32) = false ∧
    filled.env.replies = [] ∧ filled.env.icErr = false ∧
    (0x90000000#32 : Word) &&& 0xFFFFFFC0#32 = 0x9000003E#32 &&& 0xFFFFFFC0#32 := by decide

/-- A load of 0x00080004 to 0x00080007 by NAPOT, with action 0; a chain of a store address and a store data; a trigger of the
debugger with action 1. -/
def watching (a b t2a t2b : Word) : State :=
  { filled with csr := { filled.csr with
      mstatus := 0x1808#32
      tdata1 := #v[a, b, 0x23E00000#32, 0x23E00000#32]
      tdata2 := #v[t2a, t2b, 0#32, 0#32] } }

/-- Triggers that are taken: the last byte of a NAPOT range and not the next one, both conditions of a chain and not one, action 1. -/
theorem test_triggers :
    (match (watching 0x23E000C1#32 0x23E00000#32 0x00080005#32 0#32).triggers (.load 0x00080007#32) with
      | .breakpoint t => t.csr.tdata1[0] == 0x23F000C1#32 && t.csr.mcause == 3#32 | .no | .debug _ => false) = true ∧
    (watching 0x23E000C1#32 0x23E00000#32 0x00080005#32 0#32).triggers (.load 0x00080008#32) = .no ∧
    (match (watching 0x23E00842#32 0x23E80042#32 0x00080000#32 0x55#32).triggers (.store 0x00080000#32 0x55#32) with
      | .breakpoint t => t.csr.tdata1[1] == 0x23F80042#32 | .no | .debug _ => false) = true ∧
    (watching 0x23E00842#32 0x23E80042#32 0x00080000#32 0x55#32).triggers (.store 0x00080000#32 0x56#32) = .no ∧
    (match (watching 0x2BE01041#32 0x23E00000#32 0x00080000#32 0#32).triggers (.load 0x00080000#32) with
      | .debug t => t.csr.dcsr.extractLsb' 6 3 == 2#3 && t.hart.activity == .dbHalt | .no | .breakpoint _ => false) = true :=
  ⟨by decide, rfl, by decide, rfl, by decide⟩

/-- Triggers 2 and 3 as a chain on a store's address and data. -/
def chained : State :=
  { filled with csr := { filled.csr with
      mstatus := 0x1808#32
      tdata1 := #v[0x23E00000#32, 0x23E00000#32, 0x23E00842#32, 0x23E80042#32]
      tdata2 := #v[0#32, 0#32, 0x00080000#32, 0x55#32] } }

/-- R624: the second pair chains as the first does. -/
theorem test_chain_of_2_and_3 :
    (match chained.triggers (.store 0x00080000#32 0x55#32) with
      | .breakpoint t => t.csr.tdata1[2] == 0x23F00842#32 && t.csr.tdata1[3] == 0x23F80042#32 | .no | .debug _ => false) = true ∧
    chained.triggers (.store 0x00080000#32 0x56#32) = .no ∧
    (∀ j : Fin 4, j ≠ 2 → j ≠ 3 → chained.csr.tdata1[j].getLsbD 6 = false) ∧ chained.csr.tdata1[2].getLsbD 11 = true :=
  ⟨by decide, rfl, by decide, by decide⟩

/-- Alone and as a chain; each action; mie = 1, and mie = 0. -/
theorem witness_TriggersFire :
    ((∀ j : Fin 4, j ≠ 0 → (watching 0x23E000C1#32 0x23E00000#32 0x00080005#32 0#32).csr.tdata1[j].getLsbD 6 = false) ∧
      (∀ j : Fin 4, j.val / 2 = 0 → (watching 0x23E000C1#32 0x23E00000#32 0x00080005#32 0#32).csr.tdata1[j].getLsbD 11 = false) ∧
      (0x23E000C1#32 : Word).extractLsb' 12 4 = 0#4 ∧ (0x2BE01041#32 : Word).extractLsb' 12 4 = 1#4) ∧
    (∀ j : Fin 4, j ≠ 0 → j ≠ 1 → (watching 0x23E00842#32 0x23E80042#32 0x00080000#32 0x55#32).csr.tdata1[j].getLsbD 6 = false) ∧
    ((0x23E00842#32 : Word).getLsbD 11 = true ∧ (0x23E00000#32 : Word).getLsbD 6 = false ∧ filled.mieOn = false ∧
      (watching 0#32 0#32 0#32 0#32).mieOn = true) ∧
    (TriggerMatches 0x23E80042#32 0x55#32 0x1000#32 (.store 0x00080000#32 0x55#32) ∧
      ¬ TriggerMatches 0x23E80042#32 0x55#32 0x1000#32 .none) := by
  refine ⟨by decide, by decide, by decide, ⟨by decide, Or.inr (Or.inr ⟨_, _, rfl, by decide, rfl⟩)⟩, ?_⟩
  rintro ⟨-, ⟨h, -⟩ | ⟨_, h, -⟩ | ⟨_, _, h, -⟩⟩
  · revert h; decide
  · cases h
  · cases h

/-- A row, the ends of the ranges of selectors and counters, and addresses beside them (R28). -/
theorem witness_CsrMap :
    csrAt 0x300#12 = some .mstatus ∧ csrAt 0xFC8#12 = some .meihap ∧ csrAt 0x323#12 = some (.mhpmevent 0) ∧
    csrAt 0xB06#12 = some (.mhpmcounter 3) ∧ csrAt 0xB83#12 = some (.mhpmcounterh 0) ∧
    csrAt 0x327#12 = some .zero ∧ csrAt 0x33F#12 = some .zero ∧ csrAt 0xB1F#12 = some .zero ∧ csrAt 0xB9F#12 = some .zero ∧
    csrAt 0x322#12 = none ∧ csrAt 0xB01#12 = none ∧ csrAt 0xBA0#12 = none ∧ CsrName.dcsr.debugOnly = true := by decide

theorem witness_InvariantKept : filled.Inv ∧ stepsTo filled (fun _ => true) = true := ⟨filled_inv, by decide⟩

end Sys2Proof.Tests
end

section
/-! PROOFS. Every step keeps the machine's invariant, and the reset values (10_state.md). -/

namespace Sys2Proof.Machine

/-! ### Every step keeps the invariant -/

/-- The end of a step keeps the invariant: cycles, a firmware halt, the end of a single step, handshakes (R448, R556, R558). -/
theorem State.Inv.endStep {s : State} (h : s.Inv) (stepped : Bool) : (s.endStep stepped).Inv := by
  have hclock : s.clock.finishFwHalt.Inv := h.clock.finishFwHalt
  exact State.Inv.handshakes (.ite (hclock.enterDebug 4#3 true) hclock)

/-- What a step that goes on is made of: the world's part, then either nothing, the core being in reset, or the hart's part and
the end of the step (R475, R650). -/
theorem step_next_cases {s t : State} (e : step s = .next t) :
    ∃ u, s.beginStep.applyEvents s.beginStep.env.events = some u ∧
      (t = u ∨ ∃ w, u.hartStep.2 = .next w ∧ t = w.endStep u.hartStep.1) := by
  unfold step State.stepOnce at e
  simp only [] at e
  split at e
  · cases e
  · next u hu =>
    refine ⟨u, hu, ?_⟩
    unfold State.afterEvents at e
    split at e
    · cases e
    · split at e
      · cases e; exact .inl rfl
      · unfold finishStep at e
        split at e
        · next w hw => cases e; exact .inr ⟨w, hw, rfl⟩
        · cases e
        · cases e

/-- Settles O58: the world's events, the hart's step and the end of the step each keep the invariant. -/
theorem invariantKept : Obligations.InvariantKept := by
  unfold Obligations.InvariantKept
  intro s t h e
  obtain ⟨u, hu, ht⟩ := step_next_cases e
  have hworld : u.Inv := h.beginStep.applyEvents _ hu
  rcases ht with rfl | ⟨w, hw, rfl⟩
  · exact hworld
  · exact (hworld.hartStep w hw).endStep _

/-! ### Reset values -/

/-- Every integer register is 0 at reset (R22). -/
theorem State.getReg_reset (r : Reg) : State.reset.getReg r = 0#32 := by
  unfold State.getReg
  split
  · rfl
  · exact Vector.getElem_replicate _

/-- Settles O56: the registers by `getReg_reset`, the CSRs and the activity state by evaluating the reset state. -/
theorem resetValues : Obligations.ResetValues := by
  unfold Obligations.ResetValues
  exact ⟨State.getReg_reset, by decide⟩

/-! ### The CSR map -/

/-- A row that `csrAt` reads back at its own address holds at every address equal to it as a number. -/
theorem csrAt_of_toNat {a : BitVec 12} {k : Nat} {n : CsrName} (ha : a.toNat = k)
    (h : csrAt (BitVec.ofNat 12 k) = some n) : csrAt a = some n := by
  rw [← ha, BitVec.ofNat_toNat, BitVec.setWidth_eq] at h
  exact h

/-- The hardwired-zero addresses are three ranges (R54). -/
theorem csrZero_iff {a : BitVec 12} : csrZero a = true ↔
    (0x327 ≤ a.toNat ∧ a.toNat ≤ 0x33F) ∨ (0xB07 ≤ a.toNat ∧ a.toNat ≤ 0xB1F) ∨ (0xB87 ≤ a.toNat ∧ a.toNat ≤ 0xB9F) := by
  simp [csrZero, BitVec.le_def, or_assoc]

/-- What `csrAt` finds is the hardwired zero of R54 or a row of the table. -/
theorem csrAt_cases {a : BitVec 12} {n : CsrName} (h : csrAt a = some n) :
    (csrZero a = true ∧ n = .zero) ∨ (a, n) ∈ csrTable := by
  unfold csrAt at h
  split at h
  · next hz => cases h; exact .inl ⟨hz, rfl⟩
  · obtain ⟨l, r, e, -⟩ := List.lookup_eq_some_iff.mp h
    exact .inr (by rw [e]; simp)

/-- `csrAt` finds nothing outside the hardwired-zero ranges and the keys of the table. -/
theorem csrAt_eq_none {a : BitVec 12} (hz : csrZero a = false) (ht : ∀ p ∈ csrTable, p.1 ≠ a) : csrAt a = none := by
  unfold csrAt
  rw [if_neg (by simp [hz]), List.lookup_eq_none_iff]
  intro p hp
  simpa using (ht p hp).symm

/-- The four counters in use, their halves and their selectors stand at rising addresses (R28). -/
theorem csrAt_counter : ∀ i : Fin 4,
    csrAt (BitVec.ofNat 12 (0x323 + i.val)) = some (.mhpmevent i) ∧
      csrAt (BitVec.ofNat 12 (0xB03 + i.val)) = some (.mhpmcounter i) ∧
      csrAt (BitVec.ofNat 12 (0xB83 + i.val)) = some (.mhpmcounterh i) := by decide

/-- The rows of the table that are Debug Mode CSRs (R30). -/
theorem csrTable_debugOnly : ∀ p ∈ csrTable,
    (p.2.debugOnly = true ↔ p.1.toNat ∈ [0x7B0, 0x7B1, 0x7C4, 0x7C8, 0x7C9, 0x7CA, 0x7CB]) := by decide

/-- Settles O59: the rows by evaluation at each address, the ranges by comparing addresses, the rest because the table has no other
key. -/
theorem csrMap : Obligations.CsrMap := by
  unfold Obligations.CsrMap
  intro rows a
  have hrows : ∀ p ∈ rows, csrAt (BitVec.ofNat 12 p.1) = some p.2 := by unfold rows; decide
  have hkeys : ∀ p ∈ csrTable, p.1.toNat ∈ rows.map (·.1) ∨ (0x323 ≤ p.1.toNat ∧ p.1.toNat ≤ 0x33F) ∨
      (0xB03 ≤ p.1.toNat ∧ p.1.toNat ≤ 0xB1F) ∨ (0xB83 ≤ p.1.toNat ∧ p.1.toNat ≤ 0xB9F) := by unfold rows; decide
  refine ⟨fun n hn => csrAt_of_toNat rfl (hrows _ hn), fun i => ⟨?_, ?_, ?_⟩, fun hz => ?_, fun hr h3 hb hbh => ?_,
    fun n hn => ?_⟩
  · exact fun e => csrAt_of_toNat e (csrAt_counter i).1
  · exact fun e => csrAt_of_toNat e (csrAt_counter i).2.1
  · exact fun e => csrAt_of_toNat e (csrAt_counter i).2.2
  · unfold csrAt
    rw [if_pos (csrZero_iff.mpr hz)]
  · refine csrAt_eq_none ?_ ?_
    · rw [← Bool.not_eq_true, csrZero_iff]; omega
    · rintro p hp rfl
      rcases hkeys p hp with h | h | h | h
      · exact hr h
      · exact h3 h
      · exact hb h
      · exact hbh h
  · rcases csrAt_cases hn with ⟨hz, rfl⟩ | hmem
    · rw [csrZero_iff] at hz
      simp only [CsrName.debugOnly, Bool.false_eq_true, List.mem_cons, List.not_mem_nil, or_false, false_iff, not_or]
      omega
    · exact csrTable_debugOnly _ hmem

end Sys2Proof.Machine
end

section
/-! PROOFS. Memory errors in a DCCM load (42_load_store.md R197, R198, R320). -/

namespace Sys2Proof.Machine

/-! ### A load is `loadOp` at its form's address -/

/-- The extension of a signed byte load (R321). -/
theorem LoadForm.extend_signed_byte (len : Len) (rd : Reg) (ea : Word) :
    (LoadForm.mk len rd ea .byte true).extend = extSByte := by
  funext v
  rw [extSByte, BitVec.setWidth_eq_extractLsb' (by decide)]; rfl

/-- The extension of a signed half-word load (R322). -/
theorem LoadForm.extend_signed_half (len : Len) (rd : Reg) (ea : Word) :
    (LoadForm.mk len rd ea .half true).extend = extSHalf := by
  funext v
  rw [extSHalf, BitVec.setWidth_eq_extractLsb' (by decide)]; rfl

/-- The extension of an unsigned byte load (R324). -/
theorem LoadForm.extend_unsigned_byte (len : Len) (rd : Reg) (ea : Word) :
    (LoadForm.mk len rd ea .byte false).extend = extUByte := by
  funext v
  rw [extUByte, BitVec.setWidth_eq_extractLsb' (x := v) (by decide)]; rfl

/-- The extension of an unsigned half-word load (R325). -/
theorem LoadForm.extend_unsigned_half (len : Len) (rd : Reg) (ea : Word) :
    (LoadForm.mk len rd ea .half false).extend = extUHalf := by
  funext v
  rw [extUHalf, BitVec.setWidth_eq_extractLsb' (x := v) (by decide)]; rfl

/-- An offset scaled by 4, as a number (R233). -/
theorem append_two_zeros {w : Nat} (imm : BitVec w) : (imm ++ 0#2).setWidth 32 = BitVec.ofNat 32 (4 * imm.toNat) := by
  apply BitVec.eq_of_toNat_eq
  rw [BitVec.toNat_setWidth, BitVec.toNat_append, BitVec.toNat_ofNat, Nat.shiftLeft_eq]
  simp [Nat.mul_comm]

/-- Every load instruction is the common load operation at its form's address, width and extension (R320-R325, R352, R371). -/
theorem exec_loadOf {s : State} {i : Instr} {f : LoadForm} (h : s.loadOf i = some f) :
    exec i s = .next (s.loadOp f.len f.rd f.ea f.size f.extend) := by
  cases i <;> cases h
  case lb => rw [LoadForm.extend_signed_byte]; rfl
  case lh => rw [LoadForm.extend_signed_half]; rfl
  case lbu => rw [LoadForm.extend_unsigned_byte]; rfl
  case lhu => rw [LoadForm.extend_unsigned_half]; rfl
  case lw => rfl
  case cLw rd rs1 imm => rw [← append_two_zeros]; rfl
  case cLwsp rd imm => rw [← append_two_zeros]; rfl

/-- The events of a load form are those the load operation counts. -/
theorem LoadForm.events_eq (f : LoadForm) : f.events = 11 :: misalignedEvent 13 f.ea f.size := rfl

theorem size_bytes_le (z : Size) : 1 ≤ z.bytes ∧ z.bytes ≤ 4 := by cases z <;> decide

/-! ### Synchronous exceptions -/

/-- A synchronous exception goes to the mtvec base (R446). -/
theorem trapTarget_sync {m c : Word} (h : c.getLsbD 31 = false) : trapTarget m c = m &&& 0xFFFFFFFC#32 := by
  unfold trapTarget
  rw [h, Bool.and_false]; rfl

/-- mpie takes mie on trap entry (R445). -/
theorem mstatusEnter_mpie (m : Word) : (mstatusEnter m).getLsbD 7 = m.getLsbD 3 := by
  unfold mstatusEnter
  cases h : m.getLsbD 3 <;> simp

/-- mie is clear after trap entry (R445). -/
theorem mstatusEnter_mie (m : Word) : (mstatusEnter m).getLsbD 3 = false := by
  unfold mstatusEnter
  cases h : m.getLsbD 3 <;> simp

/-- Trap entry keeps the other bits of mstatus (R445). -/
theorem mstatusEnter_rest (m : Word) : mstatusEnter m &&& ~~~0x88#32 = m &&& ~~~0x88#32 := by
  unfold mstatusEnter
  rw [and_or_mask, show (~~~0x88#32 &&& ~~~0x88#32 : Word) = ~~~0x88#32 from rfl]
  split
  · rw [show (0x80#32 &&& ~~~0x88#32 : Word) = 0#32 from rfl, BitVec.or_zero]
  · rw [show (0#32 &&& ~~~0x88#32 : Word) = 0#32 from rfl, BitVec.or_zero]

/-- The CSRs after an exception: the trap registers, and the counters that event 37 counts on. -/
theorem State.takeException_csr (s : State) (e : Exc) :
    (s.takeException e).csr = { s.csr with
      mepc := s.pc, mcause := e.cause, mtval := e.tval, mstatus := mstatusEnter s.csr.mstatus
      mhpm := (s.takeException e).csr.mhpm } := by
  have hc := State.countEvents_csr (s.enterTrap e.cause e.tval (trapTarget s.csr.mtvec e.cause)) [37]
  exact hc

/-- Everything a synchronous exception does (R445). -/
theorem State.takeException_spec (s : State) {e : Exc} (he : e.cause.getLsbD 31 = false) :
    Raises e.cause e.tval s (s.takeException e) where
  mepc := by rw [State.takeException_csr]
  mcause := by rw [State.takeException_csr]
  mtval := by rw [State.takeException_csr]
  mpie := by rw [State.takeException_csr]; exact mstatusEnter_mpie _
  mie := by rw [State.takeException_csr]; exact mstatusEnter_mie _
  mstatus := by rw [State.takeException_csr]; exact mstatusEnter_rest _
  pc := by rw [State.takeException_pc, trapTarget_sync he]
  counts := fun i _ => State.countEvents_get (s.enterTrap e.cause e.tval (trapTarget s.csr.mtvec e.cause)) [37] i
  frame := by
    refine State.eq_of ?_ ?_ ?_ ?_ ?_ rfl ?_ rfl ?_ ?_ ?_ ?_ ?_ ?_ ?_ ?_ ?_ ?_ ?_ ?_
    case refine_7 =>
      have hc := State.takeException_csr s e
      rw [hc]
    all_goals simp
  memory := sameMemory_of (by simp) (by simp) (by simp) (by simp) (by simp)

/-! ### The bytes of an access in the DCCM -/

/-- Every byte of an access whose first and last byte are in the DCCM is in the DCCM (R142). -/
theorem State.inDccm_of_mem_addrs {s : State} {a p : Word} {n : Nat} (hc : s.cfg.valid = true) (hn : n ≤ 4)
    (hfirst : s.inDccm a = true) (hlast : s.inDccm (a + BitVec.ofNat 32 (n - 1)) = true) (hp : p ∈ addrs a n) :
    s.inDccm p = true := by
  obtain ⟨i, hi, rfl⟩ := mem_addrs.mp hp
  have hr := State.region_inDccm hc hlast hfirst
  have hat := toNat_add_ofNat hn hi hr
  have hend := toNat_add_ofNat hn (show n - 1 < n by omega) hr
  unfold State.inDccm at *
  cases hd : s.cfg.dccm with
  | none => simp [hd] at hfirst
  | some b =>
    simp only [hd, Option.any_some, Block.has, Bool.and_eq_true, decide_eq_true_eq, hat, hend] at *
    omega

/-- What the hart sees at a DCCM address is what the DCCM holds. -/
theorem State.byte?_inDccm {s : State} {a : Word} (h : s.inDccm a = true) : s.byte? a = s.dccm.get? a.toNat := by
  rw [State.byte?_eq, if_pos h]

/-- The value of known DCCM bytes is that of the bytes the DCCM holds. -/
theorem State.value_dccm {s : State} {a : Word} {n : Nat} (hd : ∀ p ∈ addrs a n, s.inDccm p = true)
    (hk : ∀ p ∈ addrs a n, (s.byte? p).isSome = true) :
    s.value a n = (ofBytes ((addrs a n).map (fun p => (s.dccm.get? p.toNat).getD 0))).setWidth 32 := by
  unfold State.value
  congr 2
  apply List.map_congr_left
  intro p hp
  have h := hk p hp
  rw [State.byte?_inDccm (hd p hp)] at h ⊢
  obtain ⟨b, hb⟩ := Option.isSome_iff_exists.mp h
  rw [hb]; rfl

/-- An access inside the DCCM goes there, whatever the memory's errors (R170 step 3a). -/
theorem State.DccmChecked.dataTarget {s : State} {a : Word} {size : Size} (h : s.DccmChecked a size.bytes) (store : Bool) :
    s.dataTarget store a size = .ok .dccm :=
  State.dataTarget_dccm (s := { s with env := { s.env with ecc := [] } }) store
    ⟨h.cfg, h.first, h.last, rfl, h.mid⟩

/-! ### Checking words with errors reported (R197) -/

/-- What the check of a word says when errors are reported (R197). -/
def Ecc.reported : Ecc → Check
  | .none => .clean
  | .single => .corrected
  | .double => .fatal

/-- The checks of the words of an access when errors are reported, by the oracle's answers in order. -/
def reportedChecks : List Word → List Ecc → List (Word × Check)
  | [], _ => []
  | w :: ws, es => (w, (es.head?.getD .none).reported) :: reportedChecks ws es.tail

/-- One word's check, errors being reported: the oracle's next answer, which is used up. -/
theorem State.checkWord_reported {s : State} (h : s.cecd = false) :
    s.checkWord = ((s.env.ecc.head?.getD .none).reported, s.afterChecks 1) := by
  unfold State.checkWord State.takeEcc State.afterChecks
  cases he : s.env.ecc with
  | nil =>
    refine Prod.ext rfl ?_
    show s = { s with env := { s.env with ecc := [] } }
    rw [← he]
  | cons e es =>
    have hrest : ({ s with env := { s.env with ecc := es } } : State).cecd = false := h
    cases e with
    | none => rfl
    | single => exact Prod.ext (if_neg (Bool.eq_false_iff.mp hrest)) rfl
    | double => exact Prod.ext (if_neg (Bool.eq_false_iff.mp hrest)) rfl

/-- Answers for one word, then for `n`. -/
theorem State.afterChecks_afterChecks (s : State) (n : Nat) : (s.afterChecks 1).afterChecks n = s.afterChecks (n + 1) := by
  unfold State.afterChecks
  rw [List.drop_drop, Nat.add_comm]

/-- The words of an access, errors being reported: the oracle's next answers are used up, one for each word. -/
theorem State.checkWords_reported {s : State} (h : s.cecd = false) (ws : List Word) :
    State.checkWords ws s = (reportedChecks ws s.env.ecc, s.afterChecks ws.length) := by
  induction ws generalizing s with
  | nil => rfl
  | cons w ws ih =>
    have hrest := ih (s := s.afterChecks 1) h
    rw [State.afterChecks_afterChecks] at hrest
    simp only [State.checkWords, State.checkWord_reported h, hrest]
    simp [reportedChecks, State.afterChecks]

/-- Some word is fatal if and only if one of the answers is a double error. -/
theorem reportedChecks_fatal (ws : List Word) (es : List Ecc) :
    (reportedChecks ws es).any (fun c => c.2 == .fatal) = true ↔ Ecc.double ∈ es.take ws.length := by
  induction ws generalizing es with
  | nil => simp [reportedChecks]
  | cons w ws ih =>
    cases es with
    | nil => simpa [reportedChecks, Ecc.reported] using ih []
    | cons e es =>
      have hrest := ih es
      cases e with
      | none => simpa [reportedChecks, Ecc.reported] using hrest
      | single => simpa [reportedChecks, Ecc.reported] using hrest
      | double => simp [reportedChecks, Ecc.reported]

/-- As many words are corrected as there are single errors among the answers. -/
theorem reportedChecks_corrected (ws : List Word) (es : List Ecc) :
    (reportedChecks ws es).countP (fun c => c.2 == .corrected) = (es.take ws.length).count .single := by
  induction ws generalizing es with
  | nil => simp [reportedChecks]
  | cons w ws ih =>
    cases es with
    | nil => simpa [reportedChecks, Ecc.reported] using ih []
    | cons e es =>
      have hrest := ih es
      cases e <;> simpa [reportedChecks, Ecc.reported, List.count_cons] using hrest

/-- No word is left corrupt when errors are reported. -/
theorem corruptAt_reportedChecks (ws : List Word) (es : List Ecc) (a : Word) : corruptAt (reportedChecks ws es) a = false := by
  induction ws generalizing es with
  | nil => rfl
  | cons w ws ih =>
    have hrest := ih es.tail
    unfold corruptAt at hrest ⊢
    rw [reportedChecks, List.any_cons, hrest]
    cases es.head?.getD .none <;> simp [Ecc.reported]

/-- An access touches as many words as its first and last byte are in. -/
theorem length_wordsOf (a : Word) (n : Nat) : (wordsOf a n).length = accessWords a n := by
  unfold wordsOf accessWords wordAddr
  split <;> simp_all

/-! ### Counting corrected words (R65, R198) -/

/-- The bits of a word under a mask of its low `k` bits. -/
theorem and_lowMask {w : Nat} (v : BitVec w) (k : Nat) :
    v &&& (BitVec.allOnes k).setWidth w = (v.setWidth k).setWidth w := by
  apply BitVec.eq_of_getLsbD_eq
  intro i hi
  by_cases hk : i < k <;> simp [hi, hk]

/-- A counter/threshold register is its threshold field over its 27-bit count (R65). -/
theorem counted_eq (r : Word) (n : Nat) :
    counted r n = r.extractLsb' 27 5 ++ (r.setWidth 27 + BitVec.ofNat 27 n) := by
  have hsum : r.setWidth 27 + BitVec.ofNat 27 n = (r + BitVec.ofNat 32 n).setWidth 27 := by
    rw [BitVec.setWidth_add _ _ (by decide), BitVec.setWidth_ofNat_of_le (by decide)]
  have hhigh : (0xF8000000#32 : Word) = BitVec.allOnes 5 ++ 0#27 := rfl
  have hlow : (0x07FFFFFF#32 : Word) = (BitVec.allOnes 27).setWidth 32 := rfl
  unfold counted
  rw [hsum, hhigh, hlow]
  generalize r + BitVec.ofNat 32 n = t
  apply BitVec.eq_of_getLsbD_eq
  intro i hi
  simp only [BitVec.getLsbD_or, BitVec.getLsbD_and, BitVec.getLsbD_append, BitVec.getLsbD_setWidth, BitVec.getLsbD_allOnes,
    BitVec.getLsbD_extractLsb', BitVec.getLsbD_zero]
  by_cases hk : i < 27
  · simp [hi, hk]
  · have hthreshold : i - 27 < 5 := by omega
    have hat : 27 + (i - 27) = i := by omega
    simp [hk, hthreshold, hat]

/-- A word is its upper `k` bits over its lower `n`. -/
theorem extract_append_setWidth {k n : Nat} (r : BitVec (k + n)) : r.extractLsb' n k ++ r.setWidth n = r := by
  apply BitVec.eq_of_getLsbD_eq
  intro i hi
  simp only [BitVec.getLsbD_append, BitVec.getLsbD_setWidth, BitVec.getLsbD_extractLsb']
  by_cases hn : i < n
  · simp [hn]
  · have hhigh : i - n < k := by omega
    have hat : n + (i - n) = i := by omega
    simp [hn, hhigh, hat]

theorem counted_zero (r : Word) : counted r 0 = r := by
  rw [counted_eq, show BitVec.ofNat 27 0 = 0#27 from rfl, BitVec.add_zero]
  exact extract_append_setWidth (k := 5) (n := 27) r

/-- One error and then `n` more. -/
theorem counted_countError (r : Word) (n : Nat) : counted (countError r) n = counted r (n + 1) := by
  rw [show countError r = counted r 1 from rfl, counted_eq (counted r 1), counted_eq r (n + 1), counted_eq r 1]
  rw [BitVec.setWidth_append_eq_right, Laws.extract_append_high _ _ _ _ (le_refl 27), BitVec.add_assoc, Nat.add_comm n 1, BitVec.ofNat_add]
  rw [BitVec.extractLsb'_eq_self]

/-- Counting the checks of an access adds the corrected words to mdccmect. -/
theorem State.countChecks_dccm (s : State) (cs : List (Word × Check)) :
    s.countChecks .dccm cs =
      { s with csr := { s.csr with mdccmect := counted s.csr.mdccmect (cs.countP (fun c => c.2 == .corrected)) } } := by
  induction cs generalizing s with
  | nil => rw [List.countP_nil, counted_zero]; rfl
  | cons c cs ih =>
    have hrest := ih (if c.2 == .corrected then s.countCcmError .dccm else s)
    rw [List.countP_cons]
    unfold State.countChecks at hrest ⊢
    rw [List.foldl_cons, hrest]
    split
    · show ({ s with csr := { s.csr with mdccmect := counted (countError s.csr.mdccmect) _ } } : State) = _
      rw [counted_countError]
    · rfl

/-! ### A load with its memory errors -/

/-- A double error makes a DCCM load fault at its address (R197). -/
theorem State.dccmLoad_fault {s : State} {a : Word} {n : Nat} (h : s.cecd = false)
    (hd : Ecc.double ∈ s.env.ecc.take (accessWords a n)) :
    s.dccmLoad a n = .trap (loadFault a) (s.afterChecks (accessWords a n)) := by
  rw [← length_wordsOf] at hd ⊢
  unfold State.dccmLoad
  rw [State.checkWords_reported h]
  simp only [(reportedChecks_fatal _ _).mpr hd, if_true]

/-- `s` after a DCCM access to `k` words whose single errors were counted (R198). -/
def State.afterCounted (s : State) (k : Nat) : State :=
  { s.afterChecks k with csr := { s.csr with mdccmect := counted s.csr.mdccmect ((s.env.ecc.take k).count .single) } }

/-- Without a double error a DCCM load of known bytes gives them, and its single errors are counted (R197, R198). -/
theorem State.dccmLoad_corrected {s : State} {a : Word} {n : Nat} (h : s.cecd = false) (hm : s.env.dmaMid = [])
    (hd : Ecc.double ∉ s.env.ecc.take (accessWords a n)) (hb : ∀ p ∈ addrs a n, (s.dccm.get? p.toNat).isSome = true) :
    s.dccmLoad a n =
      .ok (ofBytes ((addrs a n).map (fun p => (s.dccm.get? p.toNat).getD 0))) (s.afterCounted (accessWords a n)) := by
  have hfatal : (reportedChecks (wordsOf a n) s.env.ecc).any (fun c => c.2 == .fatal) = false := by
    rw [← Bool.not_eq_true, reportedChecks_fatal, length_wordsOf]; exact hd
  have hcount : (s.afterChecks (accessWords a n)).countChecks .dccm (reportedChecks (wordsOf a n) s.env.ecc) =
      s.afterCounted (accessWords a n) := by
    rw [State.countChecks_dccm, reportedChecks_corrected, length_wordsOf]; rfl
  have hbytes := State.dccmBytes_known (s := s.afterCounted (accessWords a n)) (cs := reportedChecks (wordsOf a n) s.env.ecc)
    (pss := cutAt a n (addrs a n)) hm (fun p _ => corruptAt_reportedChecks _ _ p)
    (by rw [cutAt_flatten]; exact hb)
  rw [cutAt_flatten] at hbytes
  unfold State.dccmLoad
  rw [State.checkWords_reported h, length_wordsOf]
  simp only [hfatal, Bool.false_eq_true, if_false, hcount, hbytes]
  rfl

/-- A load fault is no interrupt. -/
theorem loadFault_sync {a : Word} : (loadFault a).cause.getLsbD 31 = false := by
  show (5#32).getLsbD 31 = false
  decide

/-- Settles O20: the load goes to the DCCM, where the oracle's answers for its words decide between the fault and the counted
completion. -/
theorem dccmLoadErrors : Obligations.DccmLoadErrors := by
  intro s i f hi h
  have hx := exec_loadOf hi
  have htarget := h.dataTarget false
  constructor
  · intro hd
    refine ⟨_, ?_, State.takeException_spec (s.afterChecks _) (e := loadFault f.ea) loadFault_sync⟩
    rw [hx, State.loadOp]
    simp only [State.memRead, htarget, State.dccmLoad_fault h.checked hd]
    rfl
  · intro hd hb
    have hin : ∀ p ∈ addrs f.ea f.size.bytes, s.inDccm p = true := fun p hp =>
      State.inDccm_of_mem_addrs h.cfg (size_bytes_le f.size).2 h.first h.last hp
    have hread := State.dccmLoad_corrected h.checked h.mid hd
      (fun p hp => by rw [← State.byte?_inDccm (hin p hp)]; exact hb p hp)
    obtain ⟨hreg, hpc, hcounts, hframe, hmem⟩ := State.setReg_finish_spec (s.afterCounted (accessWords f.ea f.size.bytes)) f.len
      f.events f.rd (f.extend (s.value f.ea f.size.bytes))
    have hdraws : ((s.afterCounted (accessWords f.ea f.size.bytes)).setReg f.rd
        (f.extend (s.value f.ea f.size.bytes)) |>.finish f.len f.events).draws = s.draws := by
      simp [State.afterCounted, State.afterChecks]
    rw [OnlyRetires, hdraws] at hframe
    refine ⟨_, ?_, hreg, hpc, hcounts, ⟨hmem.data, hmem.iccm⟩, hframe⟩
    rw [hx, State.loadOp, State.value_dccm hin hb]
    simp only [State.memRead, htarget, hread]
    rfl

end Sys2Proof.Machine
end

section
/-! PROOFS. What a CSR reads after a write (10_state.md R40-R104, R542, R621). -/

namespace Sys2Proof.Machine

/-! ### Fields -/

/-- A field of the upper `k` bits over zeros is a mask. -/
theorem and_highMask {k n : Nat} (v : BitVec (k + n)) : v &&& (BitVec.allOnes k ++ 0#n) = v.extractLsb' n k ++ 0#n := by
  apply BitVec.eq_of_getLsbD_eq
  intro i hi
  simp only [BitVec.getLsbD_and, BitVec.getLsbD_append, BitVec.getLsbD_allOnes, BitVec.getLsbD_extractLsb', BitVec.getLsbD_zero]
  by_cases hn : i < n
  · simp [hn]
  · have hat : n + (i - n) = i := by omega
    simp [hn, hat, Bool.and_comm]

/-- The haltie bit over fwhalt, which reads 0, is a mask of bit 1 (R70). -/
theorem haltie_mask (v : Word) : (BitVec.ofBool (v.getLsbD 1) ++ 0#1).setWidth 32 = v &&& 2#32 := by
  rw [show (2#32 : Word) = BitVec.twoPow 32 1 from rfl, BitVec.and_twoPow]
  cases v.getLsbD 1 <;> rfl

/-- An event selector reads the number written, 50 for a larger one (R53). -/
theorem legalEvent_reads (v : Word) : (legalEvent v).setWidth 32 = if 50 < v.toNat then 50#32 else v := by
  have hlt : 50#32 < v ↔ 50 < v.toNat := Iff.rfl
  unfold legalEvent
  by_cases h : 50 < v.toNat
  · rw [if_pos h, if_pos (hlt.mpr h)]; rfl
  · rw [if_neg h, if_neg (fun hv => h (hlt.mp hv))]
    apply BitVec.eq_of_toNat_eq
    rw [BitVec.toNat_setWidth, BitVec.toNat_setWidth]
    omega

/-- A pair of mrac takes the two bits written, 10 for 11 (R60). -/
theorem legalMrac_pair (v : Word) (k : Fin 16) :
    (legalMrac v).extractLsb' (2 * k.val) 2 =
      if v.extractLsb' (2 * k.val) 2 = 3#2 then 2#2 else v.extractLsb' (2 * k.val) 2 := by
  have hmask : ∀ k : Fin 16, (0xAAAAAAAA#32).getLsbD (2 * k.val) = false ∧ (0xAAAAAAAA#32).getLsbD (1 + 2 * k.val) = true ∧
      (0xAAAAAAAA#32).getLsbD (1 + (2 * k.val + 1)) = false := by decide
  have hpair : ∀ p q : BitVec 2, q.getLsbD 0 = (p.getLsbD 0 && !p.getLsbD 1) → q.getLsbD 1 = p.getLsbD 1 →
      q = if p = 3#2 then 2#2 else p := by decide
  obtain ⟨heven, hodd, hnext⟩ := hmask k
  have hlt : 2 * k.val + 1 < 32 := by omega
  apply hpair
  · simp only [legalMrac, BitVec.getLsbD_extractLsb', BitVec.getLsbD_and, BitVec.getLsbD_not, BitVec.getLsbD_ushiftRight, hodd,
      Nat.add_zero, Nat.add_comm _ 1]
    simp [show 2 * k.val < 32 by omega]
  · simp only [legalMrac, BitVec.getLsbD_extractLsb', BitVec.getLsbD_and, BitVec.getLsbD_not, BitVec.getLsbD_ushiftRight, hnext]
    simp [hlt]

/-- The low half of a counter after a write to it (R50). -/
theorem setLow_low (c : BitVec 64) (v : Word) : (setLow c v).setWidth 32 = v := BitVec.setWidth_append_eq_right

/-- The high half of a counter after a write to it (R50). -/
theorem setHigh_high (c : BitVec 64) (v : Word) : (setHigh c v).extractLsb' 32 32 = v := by
  rw [setHigh, Laws.extract_append_high _ _ _ _ (le_refl 32), BitVec.extractLsb'_eq_self]

/-! ### The trigger word (R621) -/

theorem getLsbD_tbit (b : Bool) {i j : Nat} (hj : j < 32) : (tbit b i).getLsbD j = (b && decide (i = j)) := by
  cases b with
  | false => simp [tbit, bitWord]
  | true =>
    rw [tbit, show bitWord true = 1#32 from rfl, BitVec.getLsbD_shiftLeft, BitVec.getLsbD_one]
    by_cases h : i = j
    · simp [h, hj]
    · simp [h, hj]; omega

/-- A trigger bit outside a mask. -/
theorem tbit_and {k : Word} (b : Bool) {i : Nat} (hk : k.getLsbD i = false) : tbit b i &&& k = 0#32 := by
  apply BitVec.eq_of_getLsbD_eq
  intro j hj
  rw [BitVec.getLsbD_and, getLsbD_tbit b hj, BitVec.getLsbD_zero]
  by_cases h : i = j
  · subst h; rw [hk, Bool.and_false]
  · simp [h]

/-- The trigger word that a write of `v` stores, given the dmode and chain bits that R621 allows. -/
def storedTrigger (dmode chain : Bool) (v : Word) : Word :=
  0x23E00000#32 ||| tbit dmode 27 ||| tbit (v.getLsbD 20) 20 ||| tbit (v.getLsbD 19) 19 |||
    tbit (v.getLsbD 12 && dmode) 12 ||| tbit chain 11 ||| tbit (v.getLsbD 7) 7 ||| tbit (v.getLsbD 6) 6 |||
    tbit (v.getLsbD 2 && !v.getLsbD 19) 2 ||| tbit (v.getLsbD 1) 1 ||| tbit (v.getLsbD 0 && !v.getLsbD 19) 0

/-- Outside its writable bits a stored trigger has the fixed bits only. -/
theorem storedTrigger_fixed (dmode chain : Bool) (v : Word) :
    storedTrigger dmode chain v &&& ~~~0x081818C7#32 = 0x23E00000#32 := by
  have hbit : ∀ i ∈ [27, 20, 19, 12, 11, 7, 6, 2, 1, 0], (~~~0x081818C7#32 : Word).getLsbD i = false := by decide
  have hword : ∀ b, ∀ i ∈ [27, 20, 19, 12, 11, 7, 6, 2, 1, 0], tbit b i &&& ~~~0x081818C7#32 = 0#32 :=
    fun b i hi => tbit_and b (hbit i hi)
  simp only [storedTrigger, BitVec.and_or_distrib_right]
  simp (disch := decide) only [hword, BitVec.or_zero]
  rfl

/-- A writable bit of a stored trigger. -/
theorem storedTrigger_bit (dmode chain : Bool) (v : Word) {j : Nat} (hj : j < 32) :
    (storedTrigger dmode chain v).getLsbD j = (
      (0x23E00000#32).getLsbD j || (dmode && decide (27 = j)) || (v.getLsbD 20 && decide (20 = j)) ||
      (v.getLsbD 19 && decide (19 = j)) || (v.getLsbD 12 && dmode && decide (12 = j)) || (chain && decide (11 = j)) ||
      (v.getLsbD 7 && decide (7 = j)) || (v.getLsbD 6 && decide (6 = j)) ||
      (v.getLsbD 2 && !v.getLsbD 19 && decide (2 = j)) || (v.getLsbD 1 && decide (1 = j)) ||
      (v.getLsbD 0 && !v.getLsbD 19 && decide (0 = j))) := by
  simp only [storedTrigger, BitVec.getLsbD_or, getLsbD_tbit _ hj]

/-- Whether a write of `v` to tdata1 is ignored (R621): a debugger's trigger is not the program's to write, and the second of a
chain of the program's triggers does not become the debugger's. -/
def TriggerWriteIgnored (dbg : Bool) (o : Vector Word 4) (t : BitVec 2) (v : Word) : Prop :=
  (dbg = false ∧ (o[t.toNat]'t.isLt).getLsbD 27 = true) ∨
    (dbg = true ∧ v.getLsbD 27 = true ∧ t.getLsbD 0 = true ∧ (o[(t - 1#2).toNat]'(t - 1#2).isLt).getLsbD 27 = false ∧
      (o[(t - 1#2).toNat]'(t - 1#2).isLt).getLsbD 11 = true)

/-- An ignored write stores nothing. -/
theorem legalTdata1_ignored {dbg : Bool} {o : Vector Word 4} {t : BitVec 2} {v : Word} (h : TriggerWriteIgnored dbg o t v) :
    legalTdata1 dbg o t v = none := by
  unfold legalTdata1
  rcases h with ⟨hdbg, hold⟩ | ⟨hdbg, hv, hodd, hprev, hchain⟩
  · simp only [hdbg, hold, Bool.not_false, Bool.and_self, if_true]
  · simp only [hdbg, hv, hodd, hprev, hchain]
    rfl

/-- Any other write stores a trigger: dmode only from the debugger, and no chain from an odd trigger or to one of the debugger's. -/
theorem legalTdata1_stored {dbg : Bool} {o : Vector Word 4} {t : BitVec 2} {v : Word} (h : ¬ TriggerWriteIgnored dbg o t v) :
    legalTdata1 dbg o t v = some (storedTrigger (dbg && v.getLsbD 27)
      (v.getLsbD 11 && !t.getLsbD 0 && !(!(dbg && v.getLsbD 27) && (o[(t + 1#2).toNat]'(t + 1#2).isLt).getLsbD 27)) v) := by
  have hprogram : ¬ (!dbg && (o[t.toNat]'t.isLt).getLsbD 27) = true := fun hc => h (.inl (by simpa using hc))
  have hsecond : ¬ (dbg && v.getLsbD 27 && t.getLsbD 0 && !(o[(t - 1#2).toNat]'(t - 1#2).isLt).getLsbD 27 &&
      (o[(t - 1#2).toNat]'(t - 1#2).isLt).getLsbD 11) = true := fun hc => h (.inr (by simpa [and_assoc] using hc))
  unfold legalTdata1
  simp only []
  rw [if_neg hprogram, if_neg hsecond]
  rfl

/-- tdata1 as it reads after a write that is not ignored. -/
theorem csrWrite_tdata1 {s : State} {dbg : Bool} {v w : Word} (h : legalTdata1 dbg s.csr.tdata1 s.csr.tselect v = some w) :
    (s.csrWrite dbg .tdata1 v).csrRead .tdata1 = w := by
  simp [State.csrWrite, h, State.csrRead]

/-- A write of tdata1 or tdata2 (R621). -/
theorem trigger_written (s : State) (v : Word) (dbg : Bool) :
    let o := s.csrRead .tdata1
    let w := (s.csrWrite dbg .tdata1 v).csrRead .tdata1
    let odd := s.csr.tselect.getLsbD 0
    let next := s.csr.tdata1[(s.csr.tselect + 1#2).toNat]'(s.csr.tselect + 1#2).isLt
    let ignored := TriggerWriteIgnored dbg s.csr.tdata1 s.csr.tselect v
    (ignored → s.csrWrite dbg .tdata1 v = s) ∧
    (dbg = false → o.getLsbD 27 = true → s.csrWrite dbg .tdata2 v = s) ∧
    (dbg = true ∨ o.getLsbD 27 = false → (s.csrWrite dbg .tdata2 v).csrRead .tdata2 = v) ∧
    (¬ ignored → w &&& ~~~0x081818C7#32 = 0x23E00000#32 ∧ w.getLsbD 27 = (dbg && v.getLsbD 27) ∧
      w.getLsbD 20 = v.getLsbD 20 ∧ w.getLsbD 19 = v.getLsbD 19 ∧
      w.getLsbD 12 = (v.getLsbD 12 && w.getLsbD 27) ∧
      w.getLsbD 11 = (v.getLsbD 11 && !odd && (w.getLsbD 27 || !next.getLsbD 27)) ∧
      w.getLsbD 7 = v.getLsbD 7 ∧ w.getLsbD 6 = v.getLsbD 6 ∧ w.getLsbD 2 = (v.getLsbD 2 && !v.getLsbD 19) ∧
      w.getLsbD 1 = v.getLsbD 1 ∧ w.getLsbD 0 = (v.getLsbD 0 && !v.getLsbD 19)) := by
  intro o w odd next ignored
  refine ⟨fun h => ?_, fun hdbg ho => ?_, fun h => ?_, fun h => ?_⟩
  · simp only [State.csrWrite, legalTdata1_ignored h]
  · have hskip : (!dbg && (s.csr.tdata1[s.csr.tselect.toNat]'s.csr.tselect.isLt).getLsbD 27) = true := by
      rw [hdbg]; exact ho
    simp only [State.csrWrite, hskip, if_true]
  · have hkeep : (!dbg && (s.csr.tdata1[s.csr.tselect.toNat]'s.csr.tselect.isLt).getLsbD 27) = false := by
      rcases h with hdbg | ho
      · rw [hdbg]; rfl
      · exact (congrArg (!dbg && ·) ho).trans (Bool.and_false _)
    have hwrite : s.csrWrite dbg .tdata2 v =
        s.withCsr { s.csr with tdata2 := s.csr.tdata2.set s.csr.tselect.toNat v s.csr.tselect.isLt } :=
      if_neg (Bool.eq_false_iff.mp hkeep)
    rw [hwrite]
    exact Vector.getElem_set_self _
  · have hw : w = _ := csrWrite_tdata1 (legalTdata1_stored h)
    rw [hw]
    refine ⟨storedTrigger_fixed _ _ _, ?_⟩
    rw [storedTrigger_bit (j := 27) _ _ _ (by decide), storedTrigger_bit (j := 20) _ _ _ (by decide),
      storedTrigger_bit (j := 19) _ _ _ (by decide), storedTrigger_bit (j := 12) _ _ _ (by decide),
      storedTrigger_bit (j := 11) _ _ _ (by decide), storedTrigger_bit (j := 7) _ _ _ (by decide),
      storedTrigger_bit (j := 6) _ _ _ (by decide), storedTrigger_bit (j := 2) _ _ _ (by decide),
      storedTrigger_bit (j := 1) _ _ _ (by decide), storedTrigger_bit (j := 0) _ _ _ (by decide)]
    simp [odd, next]

/-! ### The debugger's view of dcsr -/

/-- dcsr reads its pending NMI from the hart; a write takes its own bits only (R102). -/
theorem dcsr_write_reads (d v : Word) (b : Bool) :
    (((d &&& ~~~0x8C04#32) ||| (v &&& 0x8C04#32)) &&& 0xFFFFFFF7#32) ||| (bitWord b <<< 3) =
      (((d &&& 0xFFFFFFF7#32) ||| (bitWord b <<< 3)) &&& ~~~0x8C04#32) ||| (v &&& 0x8C04#32) := by
  have hnmi : (bitWord b <<< 3) &&& ~~~0x8C04#32 = bitWord b <<< 3 := by cases b <;> rfl
  rw [and_or_mask, and_or_mask, hnmi, BitVec.and_assoc v]
  rw [show (0x8C04#32 &&& 0xFFFFFFF7#32 : Word) = 0x8C04#32 from rfl, BitVec.and_comm (~~~0x8C04#32) _]
  rw [BitVec.or_assoc, BitVec.or_assoc, BitVec.or_comm (v &&& _)]

/-! ### The clauses together -/

/-- Counters' halves as they read after a write (R50). -/
theorem csrWrite_hpm (s : State) (v : Word) (i : Fin 4) :
    (s.csrWrite false (.mhpmcounter i) v).csrRead (.mhpmcounter i) = v ∧
      (s.csrWrite false (.mhpmcounterh i) v).csrRead (.mhpmcounterh i) = v := by
  constructor
  · simp only [State.csrWrite, State.writeHpm, State.csrRead, setHalf, Fin.getElem_fin, Vector.getElem_set_self]
    exact setLow_low _ v
  · simp only [State.csrWrite, State.writeHpm, State.csrRead, setHalf, Fin.getElem_fin, Vector.getElem_set_self]
    exact setHigh_high _ v

/-- Event selectors (R53). -/
theorem csrWrite_mhpmevent (s : State) (v : Word) (i : Fin 4) :
    (s.csrWrite false (.mhpmevent i) v).csrRead (.mhpmevent i) = if 50 < v.toNat then 50#32 else v := by
  simp only [State.csrWrite, State.withCsr, State.csrRead, Fin.getElem_fin, Vector.getElem_set_self]
  exact legalEvent_reads v

/-- haltie (R70): fwhalt reads 0, whether or not the write halts. -/
theorem csrWrite_mpmc (s : State) (v : Word) : (s.csrWrite false .mpmc v).csrRead .mpmc = v &&& 2#32 := by
  have hmpmc : (s.csrWrite false .mpmc v).csr.mpmc = BitVec.ofBool (v.getLsbD 1) ++ 0#1 := by
    show (s.writeMpmc false v).csr.mpmc = _
    unfold State.writeMpmc
    split
    · dsimp only
      split <;> rfl
    · rfl
  rw [State.csrRead, hmpmc, haltie_mask]

/-- The bits of dicad1 that the build has (R90). -/
theorem dicad1Mask_eq (c : Build) : Build.dicad1Mask c = if c.icacheEcc then 0x3FF#32 else 3#32 := by
  unfold Build.dicad1Mask Build.checkMask
  split <;> rfl

/-- Settles O31: each CSR's write against its read, the fields by masks, the rest by the rule for its legal values. -/
theorem csrWrittenValues : Obligations.CsrWrittenValues := by
  intro s v after debug
  refine ⟨⟨rfl, rfl, rfl, rfl, rfl, rfl, rfl, fun h => if_pos h, rfl⟩, csrWrite_mhpmevent s v,
    ⟨(and_lowMask v 2).symm, ?_, (and_lowMask v 1).symm, rfl, rfl, (and_lowMask v 3).symm, (and_lowMask v 3).symm,
      (and_lowMask v 9).symm, rfl⟩,
    ⟨rfl, rfl, rfl, rfl⟩, ?_, legalMrac_pair v,
    ⟨(and_highMask (k := 22) (n := 10) v).symm, (and_lowMask v 4).symm, (and_lowMask v 4).symm, (and_lowMask v 4).symm⟩,
    ⟨setLow_low _ v, setHigh_high _ v, setLow_low _ v, setHigh_high _ v⟩, csrWrite_hpm s v, ?_, ?_, ?_⟩
  · exact csrWrite_mpmc s v
  · rintro n (rfl | rfl | rfl) <;> rfl
  · exact ⟨rfl, rfl, rfl, rfl, rfl, rfl, rfl, rfl⟩
  · exact fun dbg => trigger_written s v dbg
  · exact ⟨dcsr_write_reads _ v _, rfl, rfl, rfl, congrArg (v &&& ·) (dicad1Mask_eq s.cfg)⟩

end Sys2Proof.Machine
end

section
/-! PROOFS. Triggers on execution, loads and stores (70_debug.md R101, R622-R625). -/

namespace Sys2Proof.Machine

/-! ### What a trigger matches (R622, R623) -/

/-- The bits that a NAPOT comparison leaves out are those up to the lowest 0 bit of tdata2 (R623). -/
theorem napotMask_bit (t2 : Word) {i : Nat} (hi : i < 32) :
    (t2 ^^^ (t2 + 1#32)).getLsbD i = true ↔ ∀ j, j < i → t2.getLsbD j = true := by
  rw [BitVec.getLsbD_xor, BitVec.getLsbD_add hi]
  cases i with
  | zero => simp [BitVec.carry_zero]
  | succ n =>
    have hone : (1#32).getLsbD (n + 1) = false := by simp
    have hcarry : BitVec.carry (n + 1) t2 1#32 false = decide (∀ j ≤ n, t2.getLsbD j = true) :=
      BitVec.carry_succ_one n t2 (by decide)
    rw [hone, hcarry, Bool.false_xor, ← Bool.xor_assoc, Bool.xor_self, Bool.false_xor, decide_eq_true_eq]
    exact forall_congr' fun j => by rw [Nat.lt_succ_iff]

/-- Two words with the bits of a mask set are equal if and only if the words agree outside it. -/
theorem or_mask_eq_iff (v t k : Word) :
    v ||| k = t ||| k ↔ ∀ i, i < 32 → k.getLsbD i = false → v.getLsbD i = t.getLsbD i := by
  constructor
  · intro h i hi hk
    have hbit := congrArg (·.getLsbD i) h
    simpa only [BitVec.getLsbD_or, hk, Bool.or_false] using hbit
  · intro h
    apply BitVec.eq_of_getLsbD_eq
    intro i hi
    rw [BitVec.getLsbD_or, BitVec.getLsbD_or]
    cases hk : k.getLsbD i with
    | true => rw [Bool.or_true, Bool.or_true]
    | false => rw [h i hi hk]

/-- The model's comparison is that of R623. -/
theorem triggerCmp_iff (napot : Bool) (t2 v : Word) : triggerCmp napot t2 v = true ↔ Covers napot t2 v := by
  cases napot with
  | false => exact beq_iff_eq
  | true =>
    show ((v ||| (t2 ^^^ (t2 + 1#32))) == (t2 ||| (t2 ^^^ (t2 + 1#32)))) = true ↔
      ∀ i, i < 32 → (∃ j, j < i ∧ t2.getLsbD j = false) → v.getLsbD i = t2.getLsbD i
    rw [beq_iff_eq, or_mask_eq_iff]
    refine forall_congr' fun i => imp_congr_right fun hi => ?_
    rw [← Bool.not_eq_true, napotMask_bit t2 hi]
    simp

/-- The model's match is that of R622. -/
theorem triggerMatch_iff (t1 t2 pc : Word) (m : MemOp) : triggerMatch t1 t2 pc m = true ↔ TriggerMatches t1 t2 pc m := by
  unfold triggerMatch TriggerMatches
  cases m <;> simp [← triggerCmp_iff, and_assoc]

/-- A trigger that is not on in M-mode matches nothing (R101). -/
theorem triggerMatch_off {t1 : Word} (h : t1.getLsbD 6 = false) (t2 pc : Word) (m : MemOp) :
    triggerMatch t1 t2 pc m = false := by
  unfold triggerMatch
  simp only [h, Bool.false_and]

/-! ### Which triggers of a pair fire (R622, R624) -/

section
variable {t1a t2a t1b t2b pc : Word} {m : MemOp} (mie : Bool)

/-- A pair of which neither matches. -/
theorem pairFires_off (ha : triggerMatch t1a t2a pc m = false) (hb : triggerMatch t1b t2b pc m = false) :
    pairFires mie t1a t2a t1b t2b pc m = ((false, false), (false, false)) := by
  unfold pairFires
  simp only [ha, hb]
  split <;> rfl

/-- The first of a pair alone. -/
theorem pairFires_first (hchain : t1a.getLsbD 11 = false) (hb : triggerMatch t1b t2b pc m = false) :
    pairFires mie t1a t2a t1b t2b pc m =
      ((triggerMatch t1a t2a pc m && (triggerDebug t1a || mie), false),
        (triggerMatch t1a t2a pc m && (triggerDebug t1a || mie) && triggerDebug t1a, false)) := by
  unfold pairFires
  simp only [hchain, hb, Bool.false_and, Bool.false_eq_true, if_false]

/-- The second of a pair alone. -/
theorem pairFires_second (hchain : t1a.getLsbD 11 = false) (ha : triggerMatch t1a t2a pc m = false) :
    pairFires mie t1a t2a t1b t2b pc m =
      ((false, triggerMatch t1b t2b pc m && (triggerDebug t1b || mie)),
        (false, triggerMatch t1b t2b pc m && (triggerDebug t1b || mie) && triggerDebug t1b)) := by
  unfold pairFires
  simp only [hchain, ha, Bool.false_and, Bool.false_eq_true, if_false]

/-- A chain fires as one, by the action of its second trigger. -/
theorem pairFires_chain (hchain : t1a.getLsbD 11 = true) :
    pairFires mie t1a t2a t1b t2b pc m =
      ((triggerMatch t1a t2a pc m && triggerMatch t1b t2b pc m && (triggerDebug t1b || mie),
          triggerMatch t1a t2a pc m && triggerMatch t1b t2b pc m && (triggerDebug t1b || mie)),
        (triggerMatch t1a t2a pc m && triggerMatch t1b t2b pc m && (triggerDebug t1b || mie) && triggerDebug t1b,
          triggerMatch t1a t2a pc m && triggerMatch t1b t2b pc m && (triggerDebug t1b || mie) && triggerDebug t1b)) := by
  unfold pairFires
  simp only [hchain, if_true]

end

/-! ### What firing does (R613, R445) -/

/-- `s` with the triggers' words `hits` goes into Debug Mode or takes a breakpoint. -/
def State.fired (s : State) (debug : Bool) (hits : Vector Word 4) : Fired :=
  if debug then .debug ((s.withCsr { s.csr with tdata1 := hits }).enterDebug 2#3 true)
  else .breakpoint ((s.withCsr { s.csr with tdata1 := hits }).takeException (breakpoint s.pc))

/-- Bus traffic changes the CSRs of the error capture only. -/
theorem BusFrame.csr {s t : State} (h : BusFrame s t) :
    t.csr = { s.csr with mdseac := t.csr.mdseac, mdseacLocked := t.csr.mdseacLocked } := congrArg State.csr h

/-- The CSRs in Debug Mode: its cause and dpc, and what draining the buffers reports. -/
theorem State.enterDebug_csr (s : State) (c : BitVec 3) (core : Bool) :
    (s.enterDebug c core).csr = { s.csr with
      mdseac := s.quiesce.csr.mdseac, mdseacLocked := s.quiesce.csr.mdseacLocked
      dcsr := (s.csr.dcsr &&& ~~~0x1C0#32) ||| (c.setWidth 32 <<< 6), dpc := s.pc } := by
  have hdrained : (s.enterDebug c core).csr = { s.quiesce.csr with
      dcsr := (s.quiesce.csr.dcsr &&& ~~~0x1C0#32) ||| (c.setWidth 32 <<< 6), dpc := s.quiesce.pc } := by
    unfold State.enterDebug
    dsimp only
    split <;> rfl
  have hcsr := s.quiesce_frame.csr
  have hdcsr : s.quiesce.csr.dcsr = s.csr.dcsr := by rw [hcsr]
  rw [hdrained, s.quiesce_frame.pc, hdcsr]
  exact congrArg (fun r : Csrs =>
    { r with dcsr := (s.csr.dcsr &&& ~~~0x1C0#32) ||| (c.setWidth 32 <<< 6), dpc := s.pc }) hcsr

/-- Entering Debug Mode leaves the integer registers. -/
theorem State.enterDebug_x (s : State) (c : BitVec 3) (core : Bool) : (s.enterDebug c core).x = s.x := by
  have hx := s.quiesce_frame.x
  unfold State.enterDebug
  dsimp only
  split <;> simp [hx]

/-- What a trigger of tdata1 `t1` does, the triggers' words being `hits` after it (R622, R625). -/
def State.Acts (s : State) (m : MemOp) (t1 : Word) (hits : Vector Word 4) : Prop :=
  (t1.extractLsb' 12 4 = 1#4 → ∃ t, s.triggers m = .debug t ∧ t.hart.activity = .dbHalt ∧ t.csr.dpc = s.pc ∧
    t.csr.dcsr = (s.csr.dcsr &&& ~~~0x1C0#32) ||| 0x80#32 ∧ t.csr.tdata1 = hits ∧ t.csr.mcause = s.csr.mcause ∧
    (∀ r, t.getReg r = s.getReg r) ∧ t.csr.minstret = s.csr.minstret) ∧
  (t1.extractLsb' 12 4 = 0#4 → s.mieOn = true → ∃ t, s.triggers m = .breakpoint t ∧ t.csr.tdata1 = hits ∧
    t.csr.mcause = 3#32 ∧ t.csr.mepc = s.pc ∧ t.csr.mtval = s.pc ∧ t.pc = s.csr.mtvec &&& 0xFFFFFFFC#32 ∧
    (∀ r, t.getReg r = s.getReg r) ∧ t.csr.minstret = s.csr.minstret) ∧
  (t1.extractLsb' 12 4 = 0#4 → s.mieOn = false → s.triggers m = .no)

/-- A trigger acts by its action: Debug Mode, or a breakpoint if interrupts are enabled. -/
theorem State.acts_of_fired {s : State} {m : MemOp} {t1 : Word} {hits : Vector Word 4}
    (h : s.triggers m = if triggerDebug t1 || s.mieOn then s.fired (triggerDebug t1) hits else .no) : s.Acts m t1 hits := by
  refine ⟨fun haction => ?_, fun haction hmie => ?_, fun haction hmie => ?_⟩
  · have hdebug : triggerDebug t1 = true := beq_iff_eq.mpr haction
    rw [hdebug] at h
    refine ⟨_, h, rfl, ?_, ?_, ?_, ?_, fun r => State.getReg_congr (State.enterDebug_x _ _ _) r, ?_⟩
    all_goals rw [State.enterDebug_csr]; rfl
  · have hdebug : triggerDebug t1 = false := by rw [triggerDebug, haction]; rfl
    rw [hdebug, hmie] at h
    have hsync : (breakpoint s.pc).cause.getLsbD 31 = false := by
      show (3#32).getLsbD 31 = false
      decide
    refine ⟨_, h, ?_, ?_, ?_, ?_, ?_, fun r => State.getReg_congr (by simp) r, ?_⟩
    case refine_5 => rw [State.takeException_pc, trapTarget_sync hsync]; rfl
    all_goals rw [State.takeException_csr]; rfl
  · have hdebug : triggerDebug t1 = false := by rw [triggerDebug, haction]; rfl
    rw [hdebug, hmie] at h
    exact h

/-! ### One trigger, and a chain -/

/-- Four trigger words with the hits of those that fired. -/
def hitWords (fires : Fin 4 → Bool) (a : Vector Word 4) : Vector Word 4 :=
  #v[setHit (fires 0) a[0], setHit (fires 1) a[1], setHit (fires 2) a[2], setHit (fires 3) a[3]]

theorem getElem_hitWords (fires : Fin 4 → Bool) (a : Vector Word 4) (i : Fin 4) :
    (hitWords fires a)[i] = setHit (fires i) a[i] := by
  match i with
  | 0 => rfl
  | 1 => rfl
  | 2 => rfl
  | 3 => rfl

/-- A hit of one trigger is a write of its word. -/
theorem hitWords_single (a : Vector Word 4) (k : Fin 4) : hitWords (fun i => i == k) a = a.set k (hitSet a[k]) := by
  apply Vector.ext
  intro i hi
  have hword := getElem_hitWords (fun i => i == k) a ⟨i, hi⟩
  rw [Fin.getElem_fin] at hword
  rw [hword, Vector.getElem_set]
  by_cases hk : k.val = i
  · subst hk
    simp [setHit, hitSet]
  · have hother : ((⟨i, hi⟩ : Fin 4) == k) = false := beq_eq_false_iff_ne.mpr fun h => hk (congrArg Fin.val h).symm
    rw [hother, if_neg hk]
    rfl

/-- The hits of two triggers are writes of both words. -/
theorem hitWords_pair (a : Vector Word 4) {k l : Fin 4} :
    hitWords (fun i => i == k || i == l) a = (a.set k (hitSet a[k])).set l (hitSet a[l]) := by
  apply Vector.ext
  intro i hi
  have hword := getElem_hitWords (fun i => i == k || i == l) a ⟨i, hi⟩
  have hfirst := getElem_hitWords (fun i => i == k) a ⟨i, hi⟩
  rw [Fin.getElem_fin] at hword hfirst
  rw [hword, Vector.getElem_set, ← hitWords_single, hfirst]
  by_cases hl : l.val = i
  · subst hl
    simp [setHit, hitSet]
  · have hother : ((⟨i, hi⟩ : Fin 4) == l) = false := beq_eq_false_iff_ne.mpr fun h => hl (congrArg Fin.val h).symm
    rw [hother, Bool.or_false, if_neg hl]

/-- Which of the four fire and how, as the two pairs have it. -/
structure State.Fires (s : State) (m : MemOp) (fires debug : Fin 4 → Bool) : Prop where
  low : pairFires s.mieOn s.csr.tdata1[0] s.csr.tdata2[0] s.csr.tdata1[1] s.csr.tdata2[1] s.pc m =
    ((fires 0, fires 1), (debug 0, debug 1))
  high : pairFires s.mieOn s.csr.tdata1[2] s.csr.tdata2[2] s.csr.tdata1[3] s.csr.tdata2[3] s.pc m =
    ((fires 2, fires 3), (debug 2, debug 3))

/-- The triggers act by which of them fire and which of these enter Debug Mode. -/
theorem State.triggers_of_fires {s : State} {m : MemOp} {fires debug : Fin 4 → Bool} (h : s.Fires m fires debug) :
    s.triggers m =
      if fires 0 || fires 1 || fires 2 || fires 3 then
        s.fired (debug 0 || debug 1 || debug 2 || debug 3) (hitWords fires s.csr.tdata1)
      else .no := by
  unfold State.triggers
  simp only [h.low, h.high]
  rfl

/-- Triggers `which` that fire together, if they do, by one action. -/
theorem State.triggers_together {s : State} {m : MemOp} {which : Fin 4 → Bool} {fire debug : Bool}
    (hsome : (which 0 || which 1 || which 2 || which 3) = true)
    (h : s.Fires m (fun i => which i && fire) (fun i => which i && (fire && debug))) :
    s.triggers m = if fire then s.fired debug (hitWords which s.csr.tdata1) else .no := by
  rw [State.triggers_of_fires h]
  cases fire with
  | false => simp only [Bool.and_false, Bool.or_false, Bool.false_eq_true, if_false]
  | true => simp only [Bool.and_true, Bool.true_and, ← Bool.and_or_distrib_right, hsome, if_true]

/-- One trigger with no other on: it alone shows the hit. -/
theorem State.triggers_single {s : State} (m : MemOp) (k : Fin 4)
    (hoff : ∀ j : Fin 4, j ≠ k → s.csr.tdata1[j].getLsbD 6 = false)
    (hchain : ∀ j : Fin 4, j.val / 2 = k.val / 2 → s.csr.tdata1[j].getLsbD 11 = false) :
    s.triggers m =
      if triggerMatch s.csr.tdata1[k] s.csr.tdata2[k] s.pc m && (triggerDebug s.csr.tdata1[k] || s.mieOn) then
        s.fired (triggerDebug s.csr.tdata1[k]) (s.csr.tdata1.set k (hitSet s.csr.tdata1[k]))
      else .no := by
  have hsilent : ∀ j : Fin 4, j ≠ k → triggerMatch s.csr.tdata1[j] s.csr.tdata2[j] s.pc m = false :=
    fun j hj => triggerMatch_off (hoff j hj) _ _ _
  rw [← hitWords_single]
  clear hoff
  match k, hchain, hsilent with
  | 0, hchain, hsilent =>
    exact State.triggers_together (which := fun i => i == 0) rfl
      ⟨pairFires_first _ (hchain 0 rfl) (hsilent 1 (by decide)), pairFires_off _ (hsilent 2 (by decide)) (hsilent 3 (by decide))⟩
  | 1, hchain, hsilent =>
    exact State.triggers_together (which := fun i => i == 1) rfl
      ⟨pairFires_second _ (hchain 0 rfl) (hsilent 0 (by decide)), pairFires_off _ (hsilent 2 (by decide)) (hsilent 3 (by decide))⟩
  | 2, hchain, hsilent =>
    exact State.triggers_together (which := fun i => i == 2) rfl
      ⟨pairFires_off _ (hsilent 0 (by decide)) (hsilent 1 (by decide)), pairFires_first _ (hchain 2 rfl) (hsilent 3 (by decide))⟩
  | 3, hchain, hsilent =>
    exact State.triggers_together (which := fun i => i == 3) rfl
      ⟨pairFires_off _ (hsilent 0 (by decide)) (hsilent 1 (by decide)), pairFires_second _ (hchain 2 rfl) (hsilent 2 (by decide))⟩

/-- A chain with no other trigger on: it fires if both match, by the action of its second, and both show the hit. -/
theorem State.triggers_chain {s : State} (m : MemOp) {a b : Fin 4} (hpair : (a = 0 ∧ b = 1) ∨ (a = 2 ∧ b = 3))
    (hchain : s.csr.tdata1[a].getLsbD 11 = true)
    (hoff : ∀ j : Fin 4, j ≠ a → j ≠ b → s.csr.tdata1[j].getLsbD 6 = false) :
    s.triggers m =
      if triggerMatch s.csr.tdata1[a] s.csr.tdata2[a] s.pc m && triggerMatch s.csr.tdata1[b] s.csr.tdata2[b] s.pc m &&
          (triggerDebug s.csr.tdata1[b] || s.mieOn) then
        s.fired (triggerDebug s.csr.tdata1[b])
          ((s.csr.tdata1.set a (hitSet s.csr.tdata1[a])).set b (hitSet s.csr.tdata1[b]))
      else .no := by
  have hsilent : ∀ j : Fin 4, j ≠ a → j ≠ b → triggerMatch s.csr.tdata1[j] s.csr.tdata2[j] s.pc m = false :=
    fun j ha hb => triggerMatch_off (hoff j ha hb) _ _ _
  rw [← hitWords_pair]
  rcases hpair with ⟨rfl, rfl⟩ | ⟨rfl, rfl⟩
  · exact State.triggers_together (which := fun i => i == 0 || i == 1) rfl
      ⟨pairFires_chain _ hchain, pairFires_off _ (hsilent 2 (by decide) (by decide)) (hsilent 3 (by decide) (by decide))⟩
  · exact State.triggers_together (which := fun i => i == 2 || i == 3) rfl
      ⟨pairFires_off _ (hsilent 0 (by decide) (by decide)) (hsilent 1 (by decide) (by decide)), pairFires_chain _ hchain⟩

/-- Settles O60: one trigger and a chain each fire as a whole, and then act by one action. -/
theorem triggersFire : Obligations.TriggersFire := by
  intro s m acts
  refine ⟨fun k hoff hchain => ?_, fun a b hpair hchain hoff => ?_⟩
  · have hfire := State.triggers_single m k hoff hchain
    rw [← triggerMatch_iff]
    refine ⟨fun hmatch => ?_, fun hmiss => ?_⟩
    · exact State.acts_of_fired (by rw [hfire, hmatch, Bool.true_and])
    · rw [hfire, Bool.eq_false_iff.mpr hmiss, Bool.false_and]; rfl
  · have hfire := State.triggers_chain m hpair hchain hoff
    rw [← triggerMatch_iff, ← triggerMatch_iff, ← Bool.and_eq_true]
    refine ⟨fun hmatch => ?_, fun hmiss => ?_⟩
    · exact State.acts_of_fired (by rw [hfire, hmatch, Bool.true_and])
    · rw [hfire, Bool.eq_false_iff.mpr hmiss, Bool.false_and]; rfl

end Sys2Proof.Machine
end

section
/-! PROOFS. Loads and stores: what the common load and store operations do at each place an access goes to (20_memory.md R170). -/

namespace Sys2Proof.Machine

/-! ### The common load and store operations -/

/-- A load whose read gives a value: it is extended and written, and the load retires (R320). -/
theorem State.loadOp_ok {s u : State} {a : Word} {size : Size} {v : BitVec 64} (h : s.memRead a size = .ok ⟨v, false⟩ u)
    (len : Len) (rd : Reg) (ext : Word → Word) :
    s.loadOp len rd a size ext = (u.setReg rd (ext (v.setWidth 32))).finish len (11 :: misalignedEvent 13 a size) := by
  rw [State.loadOp, h]; rfl

/-- A load whose read traps takes the exception (R320). -/
theorem State.loadOp_trap {s u : State} {a : Word} {size : Size} {e : Exc} (h : s.memRead a size = .trap e u)
    (len : Len) (rd : Reg) (ext : Word → Word) : s.loadOp len rd a size ext = u.takeException e := by
  rw [State.loadOp, h]; rfl

/-- A store whose write is done retires (R320). -/
theorem State.storeOp_ok {s u : State} {a : Word} {size : Size} {v : Word} (h : s.memWrite a size v = .ok () u) (len : Len) :
    s.storeOp len a size v = u.finish len (12 :: misalignedEvent 14 a size) := by
  rw [State.storeOp, h]; rfl

/-- A store whose write traps takes the exception (R320). -/
theorem State.storeOp_trap {s u : State} {a : Word} {size : Size} {v : Word} {e : Exc} (h : s.memWrite a size v = .trap e u)
    (len : Len) : s.storeOp len a size v = u.takeException e := by
  rw [State.storeOp, h]; rfl

/-- Every store instruction is the common store operation at its form's address, width and data (R326-R328, R353, R377). -/
theorem exec_storeOf {s : State} {i : Instr} {f : StoreForm} (h : s.storeOf i = some f) :
    exec i s = .next (s.storeOp f.len f.ea f.size f.data) := by
  cases i <;> cases h
  case sb => rfl
  case sh => rfl
  case sw => rfl
  case cSw rs1 rs2 imm => rw [← append_two_zeros]; rfl
  case cSwsp rs2 imm => rw [← append_two_zeros]; rfl

/-- A load instruction whose read gives a value, and what the write and retirement from `u` do. -/
theorem exec_load_ok {s u : State} {i : Instr} {f : LoadForm} {v : BitVec 64} (hi : s.loadOf i = some f)
    (h : s.memRead f.ea f.size = .ok ⟨v, false⟩ u) :
    ∃ t, exec i s = .next t ∧ Retires f.len f.events [] f.rd (f.extend (v.setWidth 32)) (u.pc + f.len.bytes) u t :=
  ⟨_, by rw [exec_loadOf hi, State.loadOp_ok h, f.events_eq], State.setReg_finish_spec u f.len f.events f.rd _⟩

/-- A load instruction whose read traps raises the exception. -/
theorem exec_load_trap {s u : State} {i : Instr} {f : LoadForm} {e : Exc} (hi : s.loadOf i = some f)
    (h : s.memRead f.ea f.size = .trap e u) (he : e.cause.getLsbD 31 = false) :
    ∃ t, exec i s = .next t ∧ Raises e.cause e.tval u t :=
  ⟨_, by rw [exec_loadOf hi, State.loadOp_trap h], State.takeException_spec u he⟩

/-- A store instruction whose write is done retires. -/
theorem exec_store_ok {s u : State} {i : Instr} {f : StoreForm} (hi : s.storeOf i = some f)
    (h : s.memWrite f.ea f.size f.data = .ok () u) : exec i s = .next (u.finish f.len f.events) := by
  rw [exec_storeOf hi, State.storeOp_ok h]; rfl

/-- A store instruction whose write traps raises the exception. -/
theorem exec_store_trap {s u : State} {i : Instr} {f : StoreForm} {e : Exc} (hi : s.storeOf i = some f)
    (h : s.memWrite f.ea f.size f.data = .trap e u) (he : e.cause.getLsbD 31 = false) :
    ∃ t, exec i s = .next t ∧ Raises e.cause e.tval u t :=
  ⟨_, by rw [exec_storeOf hi, State.storeOp_trap h], State.takeException_spec u he⟩

/-! ### Counting and retiring after the access -/

/-- The events counted from `u` are those counted from `s`, if the access before left the counters and their enables alone. -/
theorem Counted.of_access {s u t : State} {es open_ : List Nat} (h : Counted u t es open_)
    (hsel : u.csr.mhpmevent = s.csr.mhpmevent) (hcnt : u.csr.mhpm = s.csr.mhpm) (hen : u.counting = s.counting) :
    Counted s t es open_ := by
  intro n hn
  have hu := h n (by rw [hsel]; exact hn)
  rw [hsel, hcnt, hen] at hu
  exact hu

/-- Everything a retirement that writes no register does. -/
theorem State.finish_spec (s : State) (len : Len) (es : List Nat) :
    Retires len es [] 0#5 0#32 (s.pc + len.bytes) s (s.finish len es) := State.setReg_finish_spec s len es 0#5 0#32

/-- Retiring leaves memory as the access left it. -/
theorem Stores.finish {s u : State} {a : Word} {n : Nat} {v : Word} (h : Stores a n v s u) (len : Len) (es : List Nat) :
    Stores a n v s (u.finish len es) := by
  have hmem := (State.finish_spec u len es).memory
  exact ⟨fun k hk => by rw [hmem.data, h.stored k hk], fun p hp => by rw [hmem.data, h.others p hp], by rw [hmem.iccm, h.iccm]⟩

/-- A store's access has changed the named memories only. -/
def OnlyWrites (s u : State) : Prop :=
  ∃ dccm lsu pic sync, u = { s with dccm := dccm, lsu := lsu, pic := pic, sync := sync }

/-- Retiring after such an access: the pc, the events counted, and what is left alone. -/
theorem OnlyWrites.finish {s u : State} (h : OnlyWrites s u) (len : Len) (es : List Nat) :
    (u.finish len es).pc = s.pc + len.bytes ∧ Counted s (u.finish len es) (4 :: Len.event len :: es) [] ∧
      OnlyStores s (u.finish len es) := by
  obtain ⟨_, hpc, hcounts, hframe, _⟩ := State.finish_spec u len es
  obtain ⟨dccm, lsu, pic, sync, rfl⟩ := h
  refine ⟨hpc, hcounts, ?_⟩
  unfold OnlyRetires OnlyStores at *
  rw [State.finish_x, State.finish_draws] at hframe
  rw [State.finish_dccm, State.finish_lsu, State.finish_pic, State.finish_sync]
  exact hframe

/-! ### Where a read or a write goes (R170) -/

section
variable {s : State} {a : Word} {size : Size}

theorem State.memRead_dccm {v : BitVec 64} {u : State} (ht : s.dataTarget false a size = .ok .dccm)
    (hl : s.dccmLoad a size.bytes = .ok v u) : s.memRead a size = .ok ⟨v, false⟩ u := by
  rw [State.memRead, ht]; simp only [hl]

theorem State.memRead_pic (ht : s.dataTarget false a size = .ok .pic) :
    s.memRead a size = .ok ⟨(s.picLoad a).setWidth 64, false⟩ s := by
  rw [State.memRead, ht]

theorem State.memRead_bus {side : Bool} (ht : s.dataTarget false a size = .ok (.bus side)) :
    s.memRead a size = s.busLoad a size.bytes side := by
  rw [State.memRead, ht]

theorem State.memWrite_dccm {v : Word} (ht : s.dataTarget true a size = .ok .dccm) :
    s.memWrite a size v = s.dccmStore a size.bytes v := by
  rw [State.memWrite, ht]

theorem State.memWrite_pic {v : Word} (ht : s.dataTarget true a size = .ok .pic) :
    s.memWrite a size v = .ok () (s.picStore a v) := by
  rw [State.memWrite, ht]

theorem State.memWrite_bus {v : Word} {side : Bool} (ht : s.dataTarget true a size = .ok (.bus side)) :
    s.memWrite a size v = .ok () (s.busStore a size.bytes v side) := by
  rw [State.memWrite, ht]

end

/-! ### Accesses that fail a check (R170) -/

/-- The exceptions of the checks are no interrupts. -/
theorem State.Checked.sync {s : State} {a : Word} {size : Size} {cl cs : Word} (h : s.Checked a size cl cs) :
    cl.getLsbD 31 = false ∧ cs.getLsbD 31 = false := by
  cases h <;> decide

/-- Settles O18: the access is stopped where it is directed, so the load or store is its exception. -/
theorem accessExceptions : Obligations.AccessExceptions := by
  refine ⟨fun s i f cl cs hi h => ?_, fun s i f cl cs hi h => ?_⟩
  · have hread : s.memRead f.ea f.size = .trap { cause := cl, tval := f.ea } s := by
      rw [State.memRead, (State.dataTarget_checked h).1]
    exact exec_load_trap hi hread h.sync.1
  · have hwrite : s.memWrite f.ea f.size f.data = .trap { cause := cs, tval := f.ea } s := by
      rw [State.memWrite, (State.dataTarget_checked h).2]
    exact exec_store_trap hi hwrite h.sync.2

/-! ### Loads from the DCCM and the PIC -/

/-- Every byte of an access that lies in the DCCM is in it (R142). -/
theorem State.DccmReady.inDccm {s : State} {a : Word} {n : Nat} (h : s.DccmReady a n) (hn : n ≤ 4) :
    ∀ p ∈ addrs a n, s.inDccm p = true := fun _ hp => State.inDccm_of_mem_addrs h.cfg hn h.first h.last hp

/-- Every byte of an access that lies in the DCCM is in it, whatever the memory's errors (R142). -/
theorem State.DccmChecked.inDccm {s : State} {a : Word} {n : Nat} (h : s.DccmChecked a n) (hn : n ≤ 4) :
    ∀ p ∈ addrs a n, s.inDccm p = true := fun _ hp => State.inDccm_of_mem_addrs h.cfg hn h.first h.last hp

/-- Settles O12: the DCCM gives the bytes it holds and the state stays, so the load only retires with them. -/
theorem loadsFromDccm : Obligations.LoadsFromDccm := by
  intro s i f hi h hb
  have hin := h.inDccm (size_bytes_le f.size).2
  have hload := State.dccmLoad_spec (a := f.ea) (n := f.size.bytes) h.ecc h.mid
    (fun p hp => by rw [← State.byte?_inDccm (hin p hp)]; exact hb p hp)
  rw [State.value_dccm hin hb]
  exact exec_load_ok hi (State.memRead_dccm (State.dataTarget_dccm false h) hload)

/-- A word load writes the word it reads (R323). -/
theorem LoadForm.extend_word {f : LoadForm} (h : f.size = .word) (v : Word) : f.extend v = v := by
  unfold LoadForm.extend
  rw [h]

/-- Settles O14: an aligned word load in the PIC block reads the register and changes nothing. -/
theorem loadsFromPic : Obligations.LoadsFromPic := by
  intro s i f hi hw h
  obtain ⟨t, ht, hret⟩ := exec_load_ok hi (State.memRead_pic (by rw [hw]; exact State.dataTarget_pic false h))
  rw [BitVec.setWidth_setWidth_of_le _ (by decide), BitVec.setWidth_eq, LoadForm.extend_word hw] at hret
  exact ⟨t, ht, hret⟩

/-! ### Loads from the system bus -/

/-- No byte of an access that goes to the bus is in the DCCM (R147, R170). -/
theorem State.BusReady.not_inDccm {s : State} {a p : Word} {n : Nat} (h : s.BusReady a n) (hc : s.cfg.valid = true) (hn : n ≤ 4)
    (hp : p ∈ addrs a n) : s.inDccm p = false := by
  have hlocal := h.external
  rw [← regionOf_of_mem hn h.region hp] at hlocal
  exact Bool.eq_false_iff.mpr fun hd => by rw [State.local_of_inDccm hc hd] at hlocal; cases hlocal

/-- The CSRs that the bus leaves alone, and whether counting is enabled. -/
theorem BusFrame.counting {s t : State} (h : BusFrame s t) :
    t.csr.mhpmevent = s.csr.mhpmevent ∧ t.csr.mhpm = s.csr.mhpm ∧ t.counting = s.counting := by
  rw [h]; exact ⟨rfl, rfl, rfl⟩

/-- Answers move the hart's stores to the SoC, and retiring then changes nothing more of what the bus may change. -/
theorem Settled.retires {s u t : State} (h : Settled s u) {len : Len} {es : List Nat} {rd : Reg} {v next : Word}
    (ht : Retires len es [] rd v next u t) :
    WritesReg s t rd v ∧ t.pc = next ∧ Counted s t (4 :: Len.event len :: es) [] ∧ BusSettles s t ∧ SameMemory s t := by
  obtain ⟨hreg, hpc, hcounts, hframe, hmem⟩ := ht
  obtain ⟨hsel, hcnt, hen⟩ := h.frame.counting
  refine ⟨fun r => ?_, hpc, hcounts.of_access hsel hcnt hen, ?_, fun p => ?_, ?_⟩
  · rw [hreg r, State.getReg_congr h.frame.x]
  · have hu : u = { s with
        outs := { s.outs with bus := u.outs.bus }, draws := u.draws, lsu := u.lsu, soc := u.soc
        csr := { s.csr with mdseac := u.csr.mdseac, mdseacLocked := u.csr.mdseacLocked }
        hart := { s.hart with nmiBus := u.hart.nmiBus } } := by
      have hframe := h.frame
      rw [BusFrame, h.env] at hframe
      exact hframe
    unfold BusSettles
    rw [hframe, hu]
  · rw [hmem.data, h.byte?]
  · rw [hmem.iccm, h.frame.iccm]

/-- Settles O13: the bus load gives what the hart sees, whatever is drained, answered or forwarded before. -/
theorem loadsFromBus : Obligations.LoadsFromBus := by
  intro s i f hi hinv h hr
  obtain ⟨u, hload, hsettled⟩ := State.busLoad_spec (a := f.ea) (n := f.size.bytes) (side := s.sideEffect f.ea) hr
    (fun p hp => h.not_inDccm hinv.cfg (size_bytes_le f.size).2 hp)
  rw [← State.memRead_bus (State.dataTarget_bus false h)] at hload
  obtain ⟨t, ht, hret⟩ := exec_load_ok hi hload
  rw [hsettled.frame.pc] at hret
  exact ⟨t, ht, hsettled.retires hret⟩

/-! ### A bus error on a side-effect load -/

/-- With nothing outstanding there is room for a transaction (R158, R164). -/
theorem State.makeRoom_idle {s : State} (h : s.lsu.busOut = []) : s.makeRoom = s := by
  simp [State.makeRoom, h, sentStores]

/-- An aligned side-effect load that the bus answers with an error faults; the read request has gone out (R153, R183). -/
theorem State.busLoad_sideEffect_error {s : State} {a : Word} {n : Nat} {rest : List Reply} (ha : a.toNat % n = 0)
    (hw : s.lsu.wbuf = []) (hb : s.lsu.busOut = []) (hr : s.env.replies = .error :: rest) :
    s.busLoad a n true =
      .trap (loadFault a) (State.logBus (.read a n) { s with env := { s.env with replies := rest } }) := by
  have hdrain : s.drain = s := by rw [State.drain, hw]; rfl
  have htxns : State.readTxns true true n [a] s =
      ([(a, .error)], State.logBus (.read a n) { s with env := { s.env with replies := rest } }) := by
    simp [State.readTxns, State.makeRoom_idle hb, State.takeReply, hr, readReq, State.logBus]
  simp only [State.busLoad, splitAt, ha, hdrain, htxns, Bool.not_true, Bool.false_and, Bool.true_or, if_true]
  rfl

/-- A trap taken after a request has gone out on the bus is one of the state without the request: nothing is said of the outputs. -/
theorem Traps.of_logBus {s t : State} {r : BusReq} {c v target : Word} {es : List Nat}
    (h : Traps c v target es (s.logBus r) t) : Traps c v target es s t := by
  obtain ⟨hmepc, hmcause, hmtval, hmpie, hmie, hmstatus, hpc, hcounts, hframe, hmem⟩ := h
  exact ⟨hmepc, hmcause, hmtval, hmpie, hmie, hmstatus, hpc, hcounts, hframe, ⟨hmem.data, hmem.iccm⟩⟩

/-- Settles O19: nothing being buffered, the read is the load's only transaction, and its error is precise. -/
theorem sideEffectLoadError : Obligations.SideEffectLoadError := by
  intro s i f rest hi h hside hw hb hr
  have hread : s.memRead f.ea f.size = .trap (loadFault f.ea)
      (State.logBus (.read f.ea f.size.bytes) { s with env := { s.env with replies := rest } }) := by
    rw [State.memRead_bus (State.dataTarget_bus false h), hside]
    exact State.busLoad_sideEffect_error (h.aligned hside) hw hb hr
  obtain ⟨t, ht, htraps⟩ := exec_load_trap hi hread loadFault_sync
  exact ⟨t, ht, htraps.of_logBus⟩

/-! ### Stores to the system bus and the PIC -/

/-- No error among the answers: no byte changes as the hart sees it, nor does the ICCM. -/
theorem Settled.sameMemory {s t : State} (h : Settled s t) : SameMemory s t := ⟨h.byte?, h.frame.iccm⟩

/-- A store on the bus changes the buffers only. -/
theorem State.busStore_onlyWrites (s : State) (a : Word) (n : Nat) (v : Word) (side : Bool) :
    OnlyWrites s (s.busStore a n v side) := ⟨s.dccm, _, s.pic, s.sync, rfl⟩

/-- A store in the PIC block changes the PIC only. -/
theorem State.picStore_onlyWrites (s : State) (a v : Word) : OnlyWrites s (s.picStore a v) := by
  unfold State.picStore
  split
  · exact ⟨s.dccm, s.lsu, _, _, rfl⟩
  · exact ⟨s.dccm, s.lsu, s.pic, s.sync, rfl⟩

/-- A store in the PIC block changes no memory. -/
theorem State.picStore_sameMemory (s : State) (a v : Word) : SameMemory s (s.picStore a v) := by
  unfold State.picStore
  split <;> exact sameMemory_of rfl rfl rfl rfl rfl

/-- The PIC registers after a store in the PIC block (R177, R492). -/
theorem State.picStore_pic (s : State) (a v : Word) :
    (s.picStore a v).pic =
      match s.picReg (a.toNat - s.cfg.pic.base) with
      | some r => s.pic.write r v
      | none => s.pic := by
  unfold State.picStore
  cases s.picReg (a.toNat - s.cfg.pic.base) <;> rfl

/-- Settles O16: the store's bytes enter the write buffer, and answers then move stores on without changing what the hart reads. -/
theorem storesToBus : Obligations.StoresToBus := by
  refine ⟨fun s i f hi hc h => ?_, fun s answers hgood => (State.busResp_settled answers s hgood).sameMemory⟩
  have hstores : Stores f.ea f.size.bytes f.data s _ := State.busStore_spec (side := s.sideEffect f.ea) (size_bytes_le f.size).2
    (fun p hp => h.not_inDccm hc (size_bytes_le f.size).2 hp)
  obtain ⟨hpc, hcounts, honly⟩ := (s.busStore_onlyWrites f.ea f.size.bytes f.data (s.sideEffect f.ea)).finish f.len f.events
  exact ⟨_, exec_store_ok hi (State.memWrite_bus (State.dataTarget_bus true h)), hpc, hstores.finish _ _, hcounts, honly,
    by simp, by simp, by simp, by rw [State.finish_lsu]; rfl⟩

/-- Settles O17: the PIC's registers take the store, and no memory does. -/
theorem storesToPic : Obligations.StoresToPic := by
  intro s i f hi hw h
  obtain ⟨hpc, hcounts, honly⟩ := (s.picStore_onlyWrites f.ea f.data).finish f.len f.events
  have hmem := (State.finish_spec (s.picStore f.ea f.data) f.len f.events).memory
  have hsame := s.picStore_sameMemory f.ea f.data
  refine ⟨_, exec_store_ok hi (State.memWrite_pic (by rw [hw]; exact State.dataTarget_pic true h)), hpc, ?_, hcounts, honly,
    ⟨fun p => (hmem.data p).trans (hsame.data p), hmem.iccm.trans hsame.iccm⟩⟩
  rw [State.finish_pic]
  exact s.picStore_pic f.ea f.data

end Sys2Proof.Machine
end

section
/-! PROOFS. Stores to the DCCM (20_memory.md R148, R170 step 3a, R197-R199, R656). -/

namespace Sys2Proof.Machine

/-! ### The word of an address -/

/-- Clearing the low `k` bits of a word gives the multiple of 2^k at or below it. -/
theorem toNat_and_highMask {w : Nat} (x : BitVec w) (k : Nat) :
    (x &&& (BitVec.allOnes w <<< k)).toNat = x.toNat / 2 ^ k * 2 ^ k := by
  have hshift : x &&& (BitVec.allOnes w <<< k) = (x >>> k) <<< k := by
    apply BitVec.eq_of_getLsbD_eq
    intro j hj
    by_cases hk : j < k
    · simp [hk]
    · have hat : k + (j - k) = j := by omega
      simp [hj, hk, hat]
  have hle : x.toNat / 2 ^ k * 2 ^ k ≤ x.toNat := Nat.div_mul_le_self _ _
  rw [hshift, BitVec.toNat_shiftLeft, BitVec.toNat_ushiftRight, Nat.shiftLeft_eq, Nat.shiftRight_eq_div_pow,
    Nat.mod_eq_of_lt (lt_of_le_of_lt hle x.isLt)]

/-- The word of an address starts at the multiple of 4 at or below it. -/
theorem toNat_wordAddr (a : Word) : (wordAddr a).toNat = a.toNat / 4 * 4 := toNat_and_highMask a 2

/-- An address is one of the four of its word. -/
theorem mem_addrs_wordAddr (a : Word) : a ∈ addrs (wordAddr a) 4 := by
  refine mem_addrs.mpr ⟨a.toNat % 4, Nat.mod_lt _ (by decide), BitVec.eq_of_toNat_eq ?_⟩
  rw [BitVec.toNat_add, toNat_wordAddr, BitVec.toNat_ofNat]
  have := a.isLt
  omega

/-- Byte `j` of the value of a store (R148). -/
theorem toBytes_setWidth_getElem (v : Word) {n j : Nat} (hn : n ≤ 4) (hj : j < n) :
    (toBytes (v.setWidth 64) n)[j]'(by simpa using hj) = v.extractLsb' (8 * j) 8 := by
  rw [toBytes_getElem]
  apply BitVec.eq_of_getLsbD_eq
  intro b hb
  have hin : 8 * j + b < 64 := by omega
  simp [hb, hin]

/-- What a store of `n` bytes leaves at its byte `j` (R148). -/
theorem lastAt_store (a v : Word) {n j : Nat} (hn : n ≤ 4) (hj : j < n) :
    lastAt ((addrs a n).zip (toBytes (v.setWidth 64) n)) (a + BitVec.ofNat 32 j) = some (v.extractLsb' (8 * j) 8) := by
  have hat := lastAt_zip a (toBytes (v.setWidth 64) n) (by simp; omega) j (by simpa using hj)
  rw [toBytes_setWidth_getElem v hn hj] at hat
  simpa only [toBytes_length] using hat

/-! ### Merging bytes into initialised words (R199, R656) -/

@[simp] theorem State.ccm_setCcm (s : State) (k : Ccm) (m : Memory) : (s.setCcm k m).ccm k = m := by cases k <;> rfl

@[simp] theorem State.setCcm_setCcm (s : State) (k : Ccm) (m m' : Memory) : (s.setCcm k m).setCcm k m' = s.setCcm k m' := by
  cases k <;> rfl

@[simp] theorem State.setCcm_ccm (s : State) (k : Ccm) : s.setCcm k (s.ccm k) = s := by cases k <;> rfl

/-- A byte of an initialised word is known. -/
theorem State.isSome_of_wordInit {s : State} {k : Ccm} {a : Word} (h : s.wordInit k a = true) :
    ((s.ccm k).get? a.toNat).isSome = true :=
  List.all_eq_true.mp h a (mem_addrs_wordAddr a)

/-- A list of byte writes merged into a memory from `s` to `t`: it goes to the initialised words only, which stay those. -/
structure Merged (k : Ccm) (bs : List (Word × Byte)) (s t : State) : Prop where
  frame : t = s.setCcm k (t.ccm k)
  init : ∀ a, t.wordInit k a = s.wordInit k a
  bytes : ∀ a : Word, (t.ccm k).get? a.toNat =
    if s.wordInit k a then (lastAt bs a).or ((s.ccm k).get? a.toNat) else (s.ccm k).get? a.toNat

theorem Merged.nil (k : Ccm) (s : State) : Merged k [] s s := ⟨by simp, fun _ => rfl, fun a => by simp [lastAt]⟩

theorem Merged.append {k : Ccm} {bs cs : List (Word × Byte)} {s u t : State} (h1 : Merged k bs s u) (h2 : Merged k cs u t) :
    Merged k (bs ++ cs) s t where
  frame := by
    have hframe := h2.frame
    rw [h1.frame, State.setCcm_setCcm] at hframe
    exact hframe
  init := fun a => (h2.init a).trans (h1.init a)
  bytes := fun a => by
    rw [h2.bytes, h1.init, h1.bytes, lastAt_append, Option.or_assoc]
    split <;> rfl

/-- Putting a byte where one is known changes which bytes are known nowhere. -/
theorem Memory.isSome_get?_put {m : Memory} {p : Nat} (h : (m.get? p).isSome = true) (b : Byte) (q : Nat) :
    ((m.put p b).get? q).isSome = (m.get? q).isSome := by
  by_cases hq : q = p
  · rw [hq, Memory.get?_put_same, h]; rfl
  · rw [Memory.get?_put_other _ _ _ _ hq]

/-- One byte is merged. -/
theorem State.mergeByte_merged (k : Ccm) (s : State) (p : Word × Byte) : Merged k [p] s (State.mergeByte k s p) := by
  unfold State.mergeByte
  split
  next hinit =>
    refine ⟨by simp, fun a => ?_, fun a => ?_⟩
    · simp only [State.wordInit, State.ccm_setCcm, Memory.isSome_get?_put (State.isSome_of_wordInit hinit)]
    · rw [State.ccm_setCcm]
      by_cases ha : p.1 = a
      · rw [← ha, if_pos hinit, Memory.get?_put_same]; simp [lastAt]
      · rw [Memory.get?_put_other _ _ _ _ (fun e => ha (BitVec.eq_of_toNat_eq e.symm))]
        simp [lastAt, ha]
  next hinit =>
    refine ⟨by simp, fun _ => rfl, fun a => ?_⟩
    by_cases ha : p.1 = a
    · rw [← ha, if_neg hinit]
    · simp [lastAt, ha]

theorem State.foldl_mergeByte_merged (k : Ccm) (bs : List (Word × Byte)) (s : State) :
    Merged k bs s (bs.foldl (State.mergeByte k) s) := by
  induction bs generalizing s with
  | nil => exact Merged.nil k s
  | cons b bs ih => exact (s.mergeByte_merged k b).append (ih _)

/-- The parts of an access are merged one after the other, as if they were one. -/
theorem State.dccmMerge_merged (bss : List (List (Word × Byte))) {s : State} (hm : s.env.dmaMid = []) :
    Merged .dccm bss.flatten s (State.dccmMerge bss s) := by
  induction bss generalizing s with
  | nil => exact Merged.nil .dccm s
  | cons bs rest ih =>
    have hone := s.foldl_mergeByte_merged .dccm bs
    cases rest with
    | nil => simpa [State.dccmMerge] using hone
    | cons cs rest =>
      have hmid : (bs.foldl (State.mergeByte .dccm) s).env.dmaMid = [] := by rw [hone.frame, State.setCcm_env, hm]
      rw [State.dccmMerge, State.dmaPoint_nil hmid]
      · exact hone.append (ih hmid)
      · simp

/-! ### What a store that merges leaves -/

/-- Data memory after a store of the low `n` bytes of `v` at `a` that merges: the bytes of initialised words are stored, and every
other byte is as before. -/
structure StoresMerged (a : Word) (n : Nat) (v : Word) (s t : State) : Prop where
  stored : ∀ j, j < n → t.byte? (a + BitVec.ofNat 32 j) =
    if s.wordInit .dccm (a + BitVec.ofNat 32 j) then some (v.extractLsb' (8 * j) 8) else s.byte? (a + BitVec.ofNat 32 j)
  others : ∀ p, p ∉ addrs a n → t.byte? p = s.byte? p
  iccm : t.iccm = s.iccm

/-- If every word is initialised, the whole store is made. -/
theorem StoresMerged.stores {a v : Word} {n : Nat} {s t : State} (h : StoresMerged a n v s t)
    (hinit : ∀ p ∈ addrs a n, s.wordInit .dccm p = true) : Stores a n v s t :=
  ⟨fun j hj => by rw [h.stored j hj, if_pos (hinit _ (mem_addrs.mpr ⟨j, hj, rfl⟩))], h.others, h.iccm⟩

/-- Retiring leaves memory as the store left it. -/
theorem StoresMerged.finish {a v : Word} {n : Nat} {s u : State} (h : StoresMerged a n v s u) (len : Len) (es : List Nat) :
    StoresMerged a n v s (u.finish len es) := by
  have hmem := (State.finish_spec u len es).memory
  exact ⟨fun j hj => by rw [hmem.data, h.stored j hj], fun p hp => by rw [hmem.data, h.others p hp], by rw [hmem.iccm, h.iccm]⟩

/-- What the hart sees after the DCCM's contents are replaced. -/
theorem State.byte?_setCcm_dccm (s : State) (m : Memory) (p : Word) :
    (s.setCcm .dccm m).byte? p = if s.inDccm p then m.get? p.toNat else s.byte? p := by
  rw [State.byte?_eq, State.byte?_eq, show (s.setCcm .dccm m).inDccm p = s.inDccm p from rfl]
  cases s.inDccm p <;> rfl

/-- A store's bytes merged into the DCCM, where all of them lie. -/
theorem Merged.storesMerged {a v : Word} {n : Nat} {s t : State} (hn : n ≤ 4) (hd : ∀ p ∈ addrs a n, s.inDccm p = true)
    (h : Merged .dccm ((addrs a n).zip (toBytes (v.setWidth 64) n)) s t) : StoresMerged a n v s t := by
  have hbyte : ∀ p, t.byte? p = if s.inDccm p then t.dccm.get? p.toNat else s.byte? p := fun p => by
    rw [h.frame, State.byte?_setCcm_dccm]; rfl
  refine ⟨fun j hj => ?_, fun p hp => ?_, by rw [h.frame]; rfl⟩
  · have hin := hd _ (mem_addrs.mpr ⟨j, hj, rfl⟩)
    rw [hbyte, if_pos hin, State.byte?_inDccm hin]
    have hat := h.bytes (a + BitVec.ofNat 32 j)
    rw [lastAt_store a v hn hj] at hat
    exact hat
  · rw [hbyte]
    split
    next hin =>
      have hat := h.bytes p
      rw [lastAt_zip_other a p n _ hp, Option.none_or, ite_self] at hat
      rw [State.byte?_inDccm hin]
      exact hat
    next => rfl

/-! ### A store to the DCCM -/

/-- Words of which none is left corrupt are not spoilt (R197). -/
theorem State.spoil_of_not_corrupt {cs : List (Word × Check)} (h : ∀ c ∈ cs, c.2 ≠ .corrupt) (k : Ccm) (s : State) :
    s.spoil k cs = s := by
  induction cs generalizing s with
  | nil => rfl
  | cons c cs ih =>
    have hc : (c.2 == Check.corrupt) = false := beq_eq_false_iff_ne.mpr (h c (by simp))
    have hrest := ih (fun d hd => h d (by simp [hd])) s
    unfold State.spoil at hrest ⊢
    rw [List.foldl_cons, hc, Bool.false_and]
    exact hrest

/-- No word is left corrupt when errors are reported. -/
theorem reportedChecks_not_corrupt (ws : List Word) (es : List Ecc) : ∀ c ∈ reportedChecks ws es, c.2 ≠ .corrupt := by
  induction ws generalizing es with
  | nil => exact fun c hc => absurd hc List.not_mem_nil
  | cons w ws ih =>
    intro c hc
    rcases List.mem_cons.mp hc with rfl | hc
    · cases es.head?.getD .none <;> simp [Ecc.reported]
    · exact ih _ c hc

/-- An aligned word store replaces its four bytes (R199). -/
theorem State.dccmStore_word {s : State} {a v : Word} (ha : a.toNat % 4 = 0) :
    s.dccmStore a 4 v = .ok () (s.setCcm .dccm (s.dccm.putBytes a (toBytes (v.setWidth 64) 4))) := by
  simp only [State.dccmStore, ha]; rfl

/-- A store that is not of an aligned word takes the other branch, which merges. -/
theorem merges_of_not_word {a : Word} {n : Nat} (h : ¬ (n = 4 ∧ a.toNat % 4 = 0)) :
    (decide (n = 4) && decide (a.toNat % 4 = 0)) = false := by
  rw [← Bool.decide_and]; exact decide_eq_false h

/-- Any other store whose words' checks `cs` are without a fatal one counts the corrected words and merges its bytes. -/
theorem State.dccmStore_merge {s u : State} {a v : Word} {n : Nat} {cs : List (Word × Check)}
    (hna : ¬ (n = 4 ∧ a.toNat % 4 = 0)) (hcs : State.checkWords (wordsOf a n) s = (cs, u))
    (hfatal : cs.any (fun c => c.2 == .fatal) = false) (hcorrupt : ∀ c ∈ cs, c.2 ≠ .corrupt) :
    s.dccmStore a n v =
      .ok () (State.dccmMerge (cutAt a n ((addrs a n).zip (toBytes (v.setWidth 64) n))) (u.countChecks .dccm cs)) := by
  simp only [State.dccmStore, merges_of_not_word hna, hcs, hfatal, Bool.false_eq_true, if_false,
    State.spoil_of_not_corrupt hcorrupt]

/-- A double error makes a store that merges fault at its address (R197). -/
theorem State.dccmStore_fault {s : State} {a v : Word} {n : Nat} (hna : ¬ (n = 4 ∧ a.toNat % 4 = 0)) (h : s.cecd = false)
    (hd : Ecc.double ∈ s.env.ecc.take (accessWords a n)) :
    s.dccmStore a n v = .trap (storeFault a) (s.afterChecks (accessWords a n)) := by
  rw [← length_wordsOf] at hd ⊢
  simp only [State.dccmStore, merges_of_not_word hna, State.checkWords_reported h, (reportedChecks_fatal _ _).mpr hd,
    Bool.false_eq_true, if_false, if_true]

/-- A store without a memory error merges its bytes (R656). -/
theorem State.dccmStore_clean {s : State} {a v : Word} {n : Nat} (hn : n ≤ 4) (hna : ¬ (n = 4 ∧ a.toNat % 4 = 0))
    (hd : ∀ p ∈ addrs a n, s.inDccm p = true) (he : s.env.ecc = []) (hm : s.env.dmaMid = []) :
    ∃ m, s.dccmStore a n v = .ok () (s.setCcm .dccm m) ∧ StoresMerged a n v s (s.setCcm .dccm m) := by
  have hmerged := State.dccmMerge_merged (cutAt a n ((addrs a n).zip (toBytes (v.setWidth 64) n))) hm
  rw [cutAt_flatten] at hmerged
  refine ⟨_, ?_, by rw [← hmerged.frame]; exact hmerged.storesMerged hn hd⟩
  rw [State.dccmStore_merge hna (State.checkWords_clean he _) (by simp) (by simp), State.countChecks_clean, ← hmerged.frame]

/-- A store whose words have no double error merges its bytes, and its single errors are counted (R197, R198). -/
theorem State.dccmStore_corrected {s : State} {a v : Word} {n : Nat} (hn : n ≤ 4) (hna : ¬ (n = 4 ∧ a.toNat % 4 = 0))
    (hd : ∀ p ∈ addrs a n, s.inDccm p = true) (hc : s.cecd = false) (hm : s.env.dmaMid = [])
    (he : Ecc.double ∉ s.env.ecc.take (accessWords a n)) :
    ∃ m, s.dccmStore a n v = .ok () ((s.afterCounted (accessWords a n)).setCcm .dccm m) ∧
      StoresMerged a n v (s.afterCounted (accessWords a n)) ((s.afterCounted (accessWords a n)).setCcm .dccm m) := by
  have hfatal : (reportedChecks (wordsOf a n) s.env.ecc).any (fun c => c.2 == .fatal) = false := by
    rw [← Bool.not_eq_true, reportedChecks_fatal, length_wordsOf]; exact he
  have hmerged := State.dccmMerge_merged (s := s.afterCounted (accessWords a n))
    (cutAt a n ((addrs a n).zip (toBytes (v.setWidth 64) n))) hm
  rw [cutAt_flatten] at hmerged
  refine ⟨_, ?_, by rw [← hmerged.frame]; exact hmerged.storesMerged hn hd⟩
  rw [State.dccmStore_merge hna (State.checkWords_reported hc _) hfatal (reportedChecks_not_corrupt _ _),
    State.countChecks_dccm, reportedChecks_corrected, length_wordsOf]
  rw [← hmerged.frame]; rfl

/-- An aligned word store puts its bytes at its address. -/
theorem State.stores_putBytes {s : State} {a v : Word} {n : Nat} (hn : n ≤ 4) (hd : ∀ p ∈ addrs a n, s.inDccm p = true) :
    Stores a n v s (s.setCcm .dccm (s.dccm.putBytes a (toBytes (v.setWidth 64) n))) := by
  refine ⟨fun j hj => ?_, fun p hp => ?_, rfl⟩
  · rw [State.byte?_setCcm_dccm, if_pos (hd _ (mem_addrs.mpr ⟨j, hj, rfl⟩)),
      Memory.get?_putBytes_at _ _ _ _ (by simpa using hj) (by simp; omega), toBytes_setWidth_getElem v hn hj]
  · rw [State.byte?_setCcm_dccm, Memory.get?_putBytes_other _ _ _ _ (by simpa using hp)]
    split
    next hin => rw [State.byte?_inDccm hin]
    next => rfl

/-- Replacing the DCCM's contents changes no other memory. -/
theorem State.setCcm_onlyWrites (s : State) (m : Memory) : OnlyWrites s (s.setCcm .dccm m) :=
  ⟨m, s.lsu, s.pic, s.sync, rfl⟩

/-- A store fault is no interrupt. -/
theorem storeFault_sync {a : Word} : (storeFault a).cause.getLsbD 31 = false := by
  show (7#32).getLsbD 31 = false
  decide

/-- The word is the width of four bytes. -/
theorem size_word_iff (z : Size) : z = .word ↔ z.bytes = 4 := by cases z <;> decide

/-- A store without a memory error of an aligned word, or of any width over initialised words, puts all its bytes. -/
theorem State.dccmStore_whole {s : State} {a v : Word} {n : Nat} (h : s.DccmReady a n) (hn : n ≤ 4)
    (hwhole : (n = 4 ∧ a.toNat % 4 = 0) ∨ ∀ p ∈ addrs a n, s.wordInit .dccm p = true) :
    ∃ m, s.dccmStore a n v = .ok () (s.setCcm .dccm m) ∧ Stores a n v s (s.setCcm .dccm m) := by
  by_cases hword : n = 4 ∧ a.toNat % 4 = 0
  · obtain ⟨rfl, ha⟩ := hword
    exact ⟨_, State.dccmStore_word ha, State.stores_putBytes hn (h.inDccm hn)⟩
  · obtain ⟨m, hm, hmerged⟩ := State.dccmStore_clean (v := v) hn hword (h.inDccm hn) h.ecc h.mid
    exact ⟨m, hm, hmerged.stores (hwhole.resolve_left hword)⟩

/-- Settles O15: an aligned word store replaces its bytes, and any other merges them into the initialised words, after the checks of
these words. -/
theorem storesToDccm : Obligations.StoresToDccm := by
  intro s i f hi
  have hn := (size_bytes_le f.size).2
  rw [size_word_iff]
  refine ⟨fun h hwhole => ?_, fun h hna => ?_, fun h hna => ⟨fun he => ?_, fun he hinit => ?_⟩⟩
  · obtain ⟨m, hm, hstores⟩ := State.dccmStore_whole (v := f.data) h hn hwhole
    obtain ⟨hpc, hcounts, honly⟩ := (s.setCcm_onlyWrites m).finish f.len f.events
    exact ⟨_, exec_store_ok hi ((State.memWrite_dccm (State.dataTarget_dccm true h)).trans hm), hpc, hstores.finish _ _, hcounts,
      honly, by simp, by simp, by simp⟩
  · obtain ⟨m, hm, hmerged⟩ := State.dccmStore_clean (v := f.data) hn hna (h.inDccm hn) h.ecc h.mid
    obtain ⟨hpc, hcounts, honly⟩ := (s.setCcm_onlyWrites m).finish f.len f.events
    obtain ⟨hstored, hothers, _⟩ := hmerged.finish f.len f.events
    exact ⟨_, exec_store_ok hi ((State.memWrite_dccm (State.dataTarget_dccm true h)).trans hm), hpc, hstored, hothers, hcounts,
      honly, by simp, by simp, by simp⟩
  · exact exec_store_trap hi ((State.memWrite_dccm (h.dataTarget true)).trans (State.dccmStore_fault hna h.checked he))
      storeFault_sync
  · obtain ⟨m, hm, hmerged⟩ := State.dccmStore_corrected (v := f.data) hn hna (h.inDccm hn) h.checked h.mid he
    obtain ⟨hstored, hothers, hiccm⟩ := (hmerged.stores hinit).finish f.len f.events
    obtain ⟨_, hpc, hcounts, hframe, _⟩ := State.finish_spec
      ((s.afterCounted (accessWords f.ea f.size.bytes)).setCcm .dccm m) f.len f.events
    exact ⟨_, exec_store_ok hi ((State.memWrite_dccm (h.dataTarget true)).trans hm), hpc, ⟨hstored, hothers, hiccm⟩,
      by rw [hframe]; rfl, by rw [hframe]; rfl, by rw [hframe]; rfl, by rw [State.finish_x]; rfl, hcounts⟩

end Sys2Proof.Machine
end

section
/-! PROOFS. Bus errors, fences, and what a fetch gives (20_memory.md R161-R164, R171, R184-R187, R197, R198, R220, R221). -/

namespace Sys2Proof.Machine

/-! ### The bus-error capture (R184-R187) -/

/-- Settles O21: the capture is taken once, is then locked, and a write of mdeau unlocks it. -/
theorem busErrorCapture : Obligations.BusErrorCapture := by
  intro s load a
  refine ⟨fun h => ?_, fun h => ?_, fun v => rfl⟩
  · have hmem : SameMemory s (s.reportBusError load a) := sameMemory_of (by simp) (by simp) (by simp) (by simp) (by simp)
    unfold State.reportBusError at hmem ⊢
    rw [h] at hmem ⊢
    exact ⟨rfl, rfl, rfl, hmem⟩
  · rw [State.reportBusError, if_pos h]

/-! ### Fences (R161, R162) -/

/-- What a sparse map whose values are replaced holds. -/
theorem Sparse.get?_map {α : Type} (f : α → α) (m : List (Nat × α)) (key : Nat) :
    Sparse.get? (m.map (fun e => (e.1, f e.2))) key = (Sparse.get? m key).map f := by
  induction m with
  | nil => rfl
  | cons e m ih =>
    simp only [List.map_cons, Sparse.get?, ih]
    split
    · rfl
    · split <;> rfl

/-- After an invalidation no line is valid (R162). -/
theorem ICache.tagAt_invalidate (ic : ICache) (key : Nat) : (ic.invalidate.tagAt key).valid = false := by
  unfold ICache.tagAt ICache.invalidate
  rw [Sparse.get?_map (fun t : TagEntry => { t with valid := false })]
  cases Sparse.get? ic.tags key <;> rfl

/-- What a fence does that retires once the bus is quiescent: it leaves the I-cache and the settings in use as they may be. -/
theorem State.quiesce_finish_spec (s : State) (icache : ICache) (sync : Sync) (es : List Nat) :
    let t := State.finish .word es { s.quiesce with icache := icache, sync := sync }
    t.pc = s.pc + 4#32 ∧ (∀ r, t.getReg r = s.getReg r) ∧ t.lsu = { wbuf := [], busOut := [] } ∧
      (s.env.replies = [] → SameMemory s t) ∧
      t.csr = { s.csr with
        minstret := s.csr.minstret + 1#64, mhpm := t.csr.mhpm, mdseac := t.csr.mdseac, mdseacLocked := t.csr.mdseacLocked } ∧
      t.iccm = s.iccm ∧ t.dccm = s.dccm ∧ t.pic = s.pic := by
  intro t
  have hbus := s.quiesce_frame
  obtain ⟨_, hpc, _, _, hmem⟩ := State.finish_spec { s.quiesce with icache := icache, sync := sync } .word es
  refine ⟨hpc.trans (by rw [← hbus.pc]; rfl), State.getReg_congr ?_, ?_, fun hr => ?_, ?_, ?_, ?_, ?_⟩
  · rw [State.finish_x]; exact hbus.x
  · rw [State.finish_lsu]; exact s.quiesce_lsu
  · have hsame := (s.quiesce_settled hr).1.sameMemory
    exact ⟨fun p => (hmem.data p).trans (hsame.data p), hmem.iccm.trans hsame.iccm⟩
  · have hcsr : t.csr = { s.quiesce.csr with minstret := s.quiesce.csr.minstret + 1#64, mhpm := t.csr.mhpm } :=
      State.retire_csr { s.quiesce with icache := icache, sync := sync } .word es
    rw [hcsr, hbus.csr]
  · rw [State.finish_iccm]; exact hbus.iccm
  · rw [State.finish_dccm]; exact hbus.dccm
  · rw [State.finish_pic]; exact hbus.pic

/-- Settles O27: both fences are the quiescent bus and a retirement; `fence.i` has emptied the I-cache before it. -/
theorem fencesDrain : Obligations.FencesDrain := by
  rintro s i (⟨fm, p, su, rs1, rd, rfl⟩ | ⟨imm, rs1, rd, rfl⟩)
  · obtain ⟨hpc, hreg, hlsu, hmem, hcsr, hrest⟩ := s.quiesce_finish_spec s.quiesce.icache
      { s.quiesce.sync with mracD := [], picOld := [] } [21]
    exact ⟨_, rfl, hpc, hreg, hlsu, fun _ => hmem, fun ⟨_, _, _, h⟩ => (by cases h), hcsr, hrest⟩
  · obtain ⟨hpc, hreg, hlsu, hmem, hcsr, hrest⟩ := s.quiesce_finish_spec s.quiesce.icache.invalidate s.fenceIOp.sync [22]
    refine ⟨_, rfl, hpc, hreg, hlsu, fun _ => hmem, fun _ key => ?_, hcsr, hrest⟩
    rw [State.finish_icache]
    exact ICache.tagAt_invalidate _ key

/-! ### The length of an encoding (R220, R221) -/

/-- The two low bits of an encoding, which say its length. -/
def Enc.quadrant : Enc → BitVec 2
  | .half c => c.extractLsb' 0 2
  | .word w => w.extractLsb' 0 2

/-- An encoding is of 32 bits if and only if its two low bits are 11: every 32-bit format ends in an opcode with these bits, and
every parcel in its quadrant. -/
theorem quadrant_encode (i : Instr) : Enc.quadrant (encode i) = 3#2 ↔ (encode i).len = .word := by
  cases i <;>
    simp (disch := decide) [-Nat.reduceAdd, encode, Enc.quadrant, Enc.len, encR, encI, encS, encB, encU, encJ, encCI, encCL, encCA,
      encCBS, encCB, encCJ, Laws.extract_append_low]

/-! ### A parcel from the ICCM (R171) -/

/-- The region of an ICCM address is the fetch's (R147). -/
theorem State.fetchRegionLocal_of_inIccm {s : State} (hc : s.cfg.valid = true) {a : Word} (h : s.inIccm a = true) :
    s.fetchRegionLocal (regionOf a) = true := by
  have hv := (Build.valid_iff.mp hc).1
  unfold State.inIccm at h
  unfold State.fetchRegionLocal
  cases hd : s.cfg.iccm with
  | none => rw [hd] at h; cases h
  | some b =>
    rw [hd] at h
    rw [Build.iccmValid, hd] at hv
    simp [Block.region_of_has hv h]

/-- A parcel whose two bytes lie in the ICCM is fetched there. -/
theorem State.fetchParcel_iccm {s : State} {p : Word} (hc : s.cfg.valid = true) (h0 : s.inIccm p = true)
    (h1 : s.inIccm (p + 1#32) = true) : s.fetchParcel p = s.fetchIccm p := by
  have hlast : s.inIccm (lastByte p 2) = true := h1
  rw [State.fetchParcel, if_pos (State.fetchRegionLocal_of_inIccm hc h0), h0, hlast]
  rfl

/-- Bit `j` of the value of some bytes is bit `j % 8` of byte `j / 8` (R148). -/
theorem getLsbD_ofBytes (bs : List Byte) {j : Nat} (hj : j < 64) :
    (ofBytes bs).getLsbD j = (bs[j / 8]?.getD 0#8).getLsbD (j % 8) := by
  induction bs generalizing j with
  | nil => simp [ofBytes]
  | cons b bs ih =>
    simp only [ofBytes, BitVec.getLsbD_or, BitVec.getLsbD_shiftLeft, BitVec.getLsbD_setWidth]
    by_cases h8 : j < 8
    · simp [h8, hj, Nat.div_eq_of_lt h8, Nat.mod_eq_of_lt h8]
    · have hdiv : j / 8 = (j - 8) / 8 + 1 := by omega
      have hmod : j % 8 = (j - 8) % 8 := by omega
      rw [ih (show j - 8 < 64 by omega), hdiv, List.getElem?_cons_succ, hmod, BitVec.getLsbD_of_ge b j (by omega)]
      simp [h8, hj]

/-- Two neighbouring bytes of a value. -/
theorem extract_ofBytes (bs : List Byte) {k : Nat} (hk : k + 1 < bs.length) (h6 : k ≤ 6) :
    (ofBytes bs).extractLsb' (8 * k) 16 = bs[k + 1] ++ bs[k] := by
  apply BitVec.eq_of_getLsbD_eq
  intro j hj
  rw [BitVec.getLsbD_extractLsb', getLsbD_ofBytes _ (by omega), BitVec.getLsbD_append]
  by_cases h8 : j < 8
  · have hdiv : (8 * k + j) / 8 = k := by omega
    have hmod : (8 * k + j) % 8 = j := by omega
    simp [hj, h8, hdiv, hmod, Nat.lt_of_succ_lt hk]
  · have hdiv : (8 * k + j) / 8 = k + 1 := by omega
    have hmod : (8 * k + j) % 8 = j - 8 := by omega
    simp [hj, h8, hdiv, hmod, hk]

/-- The value of two bytes. -/
theorem ofBytes_two (b0 b1 : Byte) : (ofBytes [b0, b1]).setWidth 16 = b1 ++ b0 := by
  rw [BitVec.setWidth_eq_extractLsb' (by decide)]
  exact extract_ofBytes [b0, b1] (k := 0) (by decide : 1 < 2) (by decide)

/-- A parcel of the ICCM read without an error is its two bytes. -/
theorem State.fetchIccm_clean {s : State} {p : Word} {b0 b1 : Byte} (he : s.env.ecc = []) (h0 : s.iccm.get? p.toNat = some b0)
    (h1 : s.iccm.get? (p + 1#32).toNat = some b1) : s.fetchIccm p = .ok (b1 ++ b0) s := by
  have hcheck : s.checkWord = (.clean, s) := by simp [State.checkWord, State.takeEcc, he]
  have hclean : ∀ q, corruptAt [(wordAddr p, .clean)] q = false := corruptAt_clean [wordAddr p]
  have hbytes : State.ccmBytes .iccm [(wordAddr p, .clean)] (addrs p 2) s = ([b0, b1], s) := by
    rw [State.ccmBytes_known (fun q _ => hclean q)]
    · simp [-BitVec.toNat_add, addrs, State.ccm, h0, h1]
    · simp [-BitVec.toNat_add, addrs, State.ccm, h0, h1]
  simp only [State.fetchIccm, hcheck, State.ccmValue, hbytes, ofBytes_two]

/-- A single error in a parcel of the ICCM is corrected and counted, and the parcel fetched again (R198). -/
theorem State.fetchIccm_single {s : State} {p : Word} {rest : List Ecc} (hc : s.cecd = false)
    (he : s.env.ecc = .single :: rest) : s.fetchIccm p = .again ((s.afterChecks 1).countCcmError .iccm) := by
  simp only [State.fetchIccm, State.checkWord_reported hc, he]; rfl

/-- A double error in a parcel of the ICCM is an access fault (R197). -/
theorem State.fetchIccm_double {s : State} {p : Word} {rest : List Ecc} (hc : s.cecd = false)
    (he : s.env.ecc = .double :: rest) : s.fetchIccm p = .fault (fetchFault p) (s.afterChecks 1) := by
  simp only [State.fetchIccm, State.checkWord_reported hc, he]; rfl

/-! ### A whole fetch (R171, R221) -/

/-- A fetch fault is no interrupt. -/
theorem fetchFault_sync {p : Word} : (fetchFault p).cause.getLsbD 31 = false := by
  show (1#32).getLsbD 31 = false
  decide

/-- A parcel that is an instruction by itself is the whole fetch. -/
theorem State.fetch_half {s : State} {c : BitVec 16} (hm : s.env.dmaMid = []) (h : s.fetchParcel s.pc = .ok c s)
    (hq : c.extractLsb' 0 2 ≠ 3#2) : s.fetch = .ok (.half c) s := by
  simp only [State.fetch, h, if_neg hq, State.dmaPoint_nil hm]

/-- The first parcel of a 32-bit instruction is followed by the second. -/
theorem State.fetch_word {s : State} {c d : BitVec 16} (hm : s.env.dmaMid = []) (h0 : s.fetchParcel s.pc = .ok c s)
    (hq : c.extractLsb' 0 2 = 3#2) (h1 : s.fetchParcel (s.pc + 2#32) = .ok d s) : s.fetch = .ok (.word (d ++ c)) s := by
  simp only [State.fetch, h0, if_pos hq, State.dmaPoint_nil hm, h1]

/-- An encoding of well-formed length whose bytes lie at the pc in the ICCM is fetched whole. -/
theorem State.fetch_iccm {s : State} {e : Enc} (hc : s.cfg.valid = true) (he : s.env.ecc = []) (hm : s.env.dmaMid = [])
    (hq : Enc.quadrant e = 3#2 ↔ e.len = .word)
    (hb : ∀ k : Nat, (hk : k < e.bytes.length) → s.inIccm (s.pc + BitVec.ofNat 32 k) = true ∧
      s.iccm.get? (s.pc + BitVec.ofNat 32 k).toNat = some e.bytes[k]) :
    s.fetch = .ok e s := by
  have hparcel : ∀ (k : Nat) (hk : k + 1 < e.bytes.length),
      s.fetchParcel (s.pc + BitVec.ofNat 32 k) = .ok (e.bytes[k + 1] ++ e.bytes[k]) s := by
    intro k hk
    have hnext : s.pc + BitVec.ofNat 32 k + 1#32 = s.pc + BitVec.ofNat 32 (k + 1) := by
      rw [BitVec.add_assoc, BitVec.ofNat_add]
    obtain ⟨hin0, hget0⟩ := hb k (by omega)
    obtain ⟨hin1, hget1⟩ := hb (k + 1) hk
    rw [← hnext] at hin1 hget1
    rw [State.fetchParcel_iccm hc hin0 hin1, State.fetchIccm_clean he hget0 hget1]
  have hfirst : ∀ h1 : 1 < e.bytes.length, s.fetchParcel s.pc = .ok (e.bytes[1] ++ e.bytes[0]) s := fun h1 => by
    have h := hparcel 0 h1
    rwa [BitVec.add_zero] at h
  cases e with
  | half c =>
    have hjoin : c.extractLsb' 8 8 ++ c.extractLsb' 0 8 = c := by
      rw [Laws.extract_join c 8 8 0 8 rfl]; exact Laws.extract_all c
    have h0 : s.fetchParcel s.pc = .ok (c.extractLsb' 8 8 ++ c.extractLsb' 0 8) s := hfirst (by decide : 1 < 2)
    rw [hjoin] at h0
    exact State.fetch_half hm h0 fun h3 => by cases hq.mp h3
  | word w =>
    have hlow : w.extractLsb' 8 8 ++ w.extractLsb' 0 8 = w.extractLsb' 0 16 := Laws.extract_join w 8 8 0 8 rfl
    have hhigh : w.extractLsb' 24 8 ++ w.extractLsb' 16 8 = w.extractLsb' 16 16 := Laws.extract_join w 24 8 16 8 rfl
    have hjoin : w.extractLsb' 16 16 ++ w.extractLsb' 0 16 = w := by
      rw [Laws.extract_join w 16 16 0 16 rfl]; exact Laws.extract_all w
    have h0 : s.fetchParcel s.pc = .ok (w.extractLsb' 8 8 ++ w.extractLsb' 0 8) s := hfirst (by decide : 1 < 4)
    have h1 : s.fetchParcel (s.pc + 2#32) = .ok (w.extractLsb' 24 8 ++ w.extractLsb' 16 8) s := hparcel 2 (by decide : 3 < 4)
    rw [hlow] at h0
    rw [hhigh] at h1
    have hthree : (w.extractLsb' 0 16).extractLsb' 0 2 = 3#2 := by
      rw [Laws.extract_extract w 0 16 0 2 (by decide)]; exact hq.mpr rfl
    rw [State.fetch_word hm h0 hthree h1, hjoin]

/-- A fetch that faults raises the exception of its fault, unless a trigger fires. -/
theorem State.runInstr_fault {s u : State} {e : Exc} (h : s.fetch = .fault e u) (ht : u.triggers .none = .no) :
    s.runInstr = (true, .next (u.takeException e)) := by
  simp only [State.runInstr, h, State.earlyException, ht]

/-- A fault of the first parcel is the fetch's. -/
theorem State.fetch_fault {s u : State} {e : Exc} (h : s.fetchParcel s.pc = .fault e u) : s.fetch = .fault e u := by
  simp only [State.fetch, h]

/-- Settles O34: parcels of the ICCM are its bytes, and an error in the first is corrected and counted, or faults. -/
theorem fetchesFromIccm : Obligations.FetchesFromIccm := by
  refine ⟨fun s i _ hc he hm hb => State.fetch_iccm hc he hm (quadrant_encode i) hb,
    fun s rest hc hcecd h0 h1 => ⟨fun he => ?_, fun he ht => ?_⟩⟩
  · have hparcel := (State.fetchParcel_iccm hc h0 h1).trans (State.fetchIccm_single hcecd he)
    have hagain : s.fetch = .again ((s.afterChecks 1).countCcmError .iccm) := by simp only [State.fetch, hparcel]
    rw [State.runInstr, hagain]; rfl
  · have hparcel := (State.fetchParcel_iccm hc h0 h1).trans (State.fetchIccm_double hcecd he)
    exact ⟨_, State.runInstr_fault (State.fetch_fault hparcel) ht,
      State.takeException_spec (s.afterChecks 1) (e := fetchFault s.pc) fetchFault_sync⟩

/-- Settles O35: rejected bits and a fetch outside the ICCM in its region each raise their exception before execution. -/
theorem rejectedFetches : Obligations.RejectedFetches := by
  refine ⟨fun s s1 enc r hf hd ht => ?_, fun s hlocal hout ht => ?_⟩
  · refine ⟨_, ?_, State.takeException_spec (s1.traceInsn enc.bits) (e := illegal enc.bits)
      (show (2#32).getLsbD 31 = false by decide)⟩
    simp only [State.runInstr, hf, hd, State.earlyException, ht]
  · have hparcel : s.fetchParcel s.pc = .fault (fetchFault s.pc) s := by
      rw [State.fetchParcel, if_pos hlocal, hout]; rfl
    exact ⟨_, State.runInstr_fault (State.fetch_fault hparcel) ht,
      State.takeException_spec s (e := fetchFault s.pc) fetchFault_sync⟩

end Sys2Proof.Machine
end

section
/-! PROOFS. A line fill of the I-cache serves the fetches of its line (20_memory.md R171, R175, R196). -/

namespace Sys2Proof.Machine

/-! ### Addresses of a line -/

/-- A cache of a legal build has at least 64 sets (R7, R175). -/
theorem Build.sets_ge {c : Build} (hc : c.valid = true) : 64 ≤ Build.sets c := by
  obtain ⟨_, _, _, _, hargs⟩ := Build.valid_iff.mp hc
  unfold Build.sets
  cases hk : c.icacheKB with
  | none => decide
  | some kb =>
    simp only [Build.argsValid, hk, Option.all_some, Bool.and_eq_true] at hargs
    obtain ⟨⟨⟨⟨⟨⟨_, _⟩, hkb⟩, _⟩, _⟩, _⟩, _⟩ := hargs
    simp only [List.contains_eq_mem, List.mem_cons, List.not_mem_nil, or_false, decide_eq_true_eq] at hkb
    show 64 ≤ kb * 4
    omega

/-- Addresses with the same line address lie in the same 64 bytes. -/
theorem div_eq_of_line_eq {p q : Word} (h : q &&& 0xFFFFFFC0#32 = p &&& 0xFFFFFFC0#32) : q.toNat / 64 = p.toNat / 64 := by
  have hq : (q &&& 0xFFFFFFC0#32).toNat = q.toNat / 64 * 64 := toNat_and_highMask q 6
  have hp : (p &&& 0xFFFFFFC0#32).toNat = p.toNat / 64 * 64 := toNat_and_highMask p 6
  rw [h, hp] at hq
  omega

/-- The addresses of a line have one set and one tag. -/
theorem setOf_tagOf_of_line_eq (c : Build) {p q : Word} (h : q.toNat / 64 = p.toNat / 64) :
    Build.setOf c q = Build.setOf c p ∧ Build.tagOf c q = Build.tagOf c p := by
  unfold Build.setOf Build.tagOf
  rw [← Nat.div_div_eq_div_mul, ← Nat.div_div_eq_div_mul, h]
  exact ⟨rfl, rfl⟩

/-- The word of an address, counted from the start of its line. -/
theorem line_add_chunk {p q : Word} (h : q &&& 0xFFFFFFC0#32 = p &&& 0xFFFFFFC0#32) :
    (p &&& 0xFFFFFFC0#32) + BitVec.ofNat 32 (4 * (q.toNat / 4 % 16)) = wordAddr q := by
  have hq : (q &&& 0xFFFFFFC0#32).toNat = q.toNat / 64 * 64 := toNat_and_highMask q 6
  have := q.isLt
  apply BitVec.eq_of_toNat_eq
  rw [← h, BitVec.toNat_add, hq, toNat_wordAddr, BitVec.toNat_ofNat]
  omega

/-- An even address is the lower or the upper half of its word, by its bit 1. -/
theorem even_eq_wordAddr_add {q : Word} (h : q.getLsbD 0 = false) :
    q = wordAddr q + BitVec.ofNat 32 (if q.getLsbD 1 then 2 else 0) := by
  rw [BitVec.getLsbD, Nat.testBit_zero, decide_eq_false_iff_not] at h
  have hone : q.getLsbD 1 = decide (q.toNat / 2 % 2 = 1) := by
    rw [BitVec.getLsbD, Nat.testBit_succ, Nat.testBit_zero]
  have := q.isLt
  apply BitVec.eq_of_toNat_eq
  rw [hone, BitVec.toNat_add, toNat_wordAddr, BitVec.toNat_ofNat]
  simp only [decide_eq_true_eq]
  split <;> omega

/-! ### Check bits (R196) -/

/-- A parity bit, packed with another into the check bits of a chunk pair, is read back. -/
theorem parity_unpacked (x y hi : Bool) :
    (if hi then (((if x then 1#5 else 0#5).setWidth 1 ++ (if y then 1#5 else 0#5).setWidth 1).setWidth 10).extractLsb' 1 1
      else (((if x then 1#5 else 0#5).setWidth 1 ++ (if y then 1#5 else 0#5).setWidth 1).setWidth 10).extractLsb' 0 1).setWidth 5 =
      if (if hi then x else y) then 1#5 else 0#5 := by
  revert x y hi; decide

/-- The check bits stored with a chunk pair are those of each half, in a parity build as in an ECC build. -/
theorem halfCheck_pairCheck (c : Build) (d : BitVec 32) (hi : Bool) :
    Build.halfCheck c (Build.pairCheck c d) hi =
      Build.chunkCheck c (if hi then d.extractLsb' 16 16 else d.extractLsb' 0 16) := by
  unfold Build.halfCheck Build.pairCheck
  cases he : c.icacheEcc with
  | true =>
    cases hi with
    | true => exact (Laws.extract_append_high _ _ 5 5 (le_refl 5)).trans (Laws.extract_all _)
    | false => exact (Laws.extract_append_low _ _ 0 5 (le_refl 5)).trans (Laws.extract_all _)
  | false =>
    simp only [Build.chunkCheck, he, Bool.false_eq_true, if_false, apply_ite (parity · 16)]
    exact parity_unpacked _ _ hi

/-! ### Filling a line -/

/-- Filling chunks from a key on leaves the keys below it alone. -/
theorem fillData_below (c : Build) (m : List (Nat × (BitVec 32 × BitVec 10))) (key j : Nat) (ds : List (BitVec 32))
    (h : j < key) : Sparse.get? (fillData c m key ds) j = Sparse.get? m j := by
  induction ds generalizing m key with
  | nil => rfl
  | cons d ds ih => rw [fillData, ih _ _ (by omega), Sparse.get?_put_other _ _ _ _ (by omega)]

/-- Filling chunks stores each with its check bits. -/
theorem fillData_at (c : Build) (m : List (Nat × (BitVec 32 × BitVec 10))) (key j : Nat) {ds : List (BitVec 32)} {d : BitVec 32}
    (h : ds[j]? = some d) : Sparse.get? (fillData c m key ds) (key + j) = some (d, Build.pairCheck c d) := by
  induction ds generalizing m key j with
  | nil => cases h
  | cons e ds ih =>
    cases j with
    | zero =>
      cases h
      rw [fillData, fillData_below _ _ _ _ _ (by omega)]; exact Sparse.get?_put_same _ _ _
    | succ j =>
      have hrest := ih (Sparse.put m key (e, Build.pairCheck c e)) (key + 1) j h
      rw [show key + 1 + j = key + (j + 1) by omega] at hrest
      exact hrest

/-! A line fill changes the arrays of the I-cache only. -/

section
variable (s : State) (p : Word) (way : BitVec 2) (lru : BitVec 3) (r : Reply)

@[simp] theorem State.icFill_cfg : (s.icFill p way lru r).cfg = s.cfg := by simp only [State.icFill]
@[simp] theorem State.icFill_env : (s.icFill p way lru r).env = s.env := by simp only [State.icFill]
@[simp] theorem State.icFill_x : (s.icFill p way lru r).x = s.x := by simp only [State.icFill]
@[simp] theorem State.icFill_csr : (s.icFill p way lru r).csr = s.csr := by simp only [State.icFill]
@[simp] theorem State.icFill_iccm : (s.icFill p way lru r).iccm = s.iccm := by simp only [State.icFill]
@[simp] theorem State.icFill_dccm : (s.icFill p way lru r).dccm = s.dccm := by simp only [State.icFill]
@[simp] theorem State.icFill_soc : (s.icFill p way lru r).soc = s.soc := by simp only [State.icFill]

theorem State.icFill_data : (s.icFill p way lru r).icache.data =
    fillData s.cfg s.icache.data (Build.chunkKey s.cfg way.toNat (Build.setOf s.cfg p) 0) (s.lineWords r p) := by
  simp only [State.icFill]

theorem State.icFill_tags : (s.icFill p way lru r).icache.tags =
    Sparse.put s.icache.tags (Build.lineKey s.cfg way.toNat (Build.setOf s.cfg p))
      { tag := Build.tagOf s.cfg p, check := Build.tagCheck s.cfg (Build.tagOf s.cfg p), valid := true } := by
  simp only [State.icFill]

end

/-- The tags after a line fill: the way's own in the set, and the others as before. -/
theorem State.tagAt_icFill {s : State} (hc : s.cfg.valid = true) (p : Word) (way : BitVec 2) (lru : BitVec 3) (r : Reply)
    (w : Nat) :
    (s.icFill p way lru r).icache.tagAt (Build.lineKey s.cfg w (Build.setOf s.cfg p)) =
      if w = way.toNat then { tag := Build.tagOf s.cfg p, check := Build.tagCheck s.cfg (Build.tagOf s.cfg p), valid := true }
      else s.icache.tagAt (Build.lineKey s.cfg w (Build.setOf s.cfg p)) := by
  have hsets := Build.sets_ge hc
  unfold ICache.tagAt
  rw [State.icFill_tags]
  split
  next hw => rw [hw]; simp
  next hw =>
    rw [Sparse.get?_put_other]
    unfold Build.lineKey
    intro hkey
    exact hw (Nat.eq_of_mul_eq_mul_right (by omega : 0 < Build.sets s.cfg) (by omega))

/-- The way that alone satisfies a test is the one found. -/
theorem find?_eq_some_of_unique {l : List Nat} {f : Nat → Bool} {a : Nat} (ha : a ∈ l)
    (hf : ∀ w ∈ l, f w = true ↔ w = a) : l.find? f = some a := by
  cases h : l.find? f with
  | none => exact absurd ((hf a ha).mpr rfl) (List.find?_eq_none.mp h a ha)
  | some b => rw [(hf b (List.mem_of_find?_eq_some h)).mp (List.find?_some h)]

/-- After a fill on a miss the filled way alone holds the line. -/
theorem State.icHit_icFill {s : State} (hc : s.cfg.valid = true) {p q : Word} (hline : q.toNat / 64 = p.toNat / 64)
    (hmiss : s.icHit p = none) (way : BitVec 2) (lru : BitVec 3) (r : Reply) :
    (s.icFill p way lru r).icHit q = some way.toNat := by
  obtain ⟨hset, htag⟩ := setOf_tagOf_of_line_eq s.cfg hline
  have hway : way.toNat ∈ [0, 1, 2, 3] := by
    have := way.isLt
    simp only [List.mem_cons, List.not_mem_nil, or_false]
    omega
  unfold State.icHit at hmiss ⊢
  refine find?_eq_some_of_unique hway fun w hw => ?_
  have hold := List.find?_eq_none.mp hmiss w hw
  simp only [State.icFill_cfg, hset, htag, State.tagAt_icFill hc]
  split
  next hw => simp [hw]
  next hw => exact ⟨fun h => absurd h hold, fun h => absurd h hw⟩

/-- A fill leaves no tag error in a set that had none. -/
theorem State.icTagError_icFill {s : State} (hc : s.cfg.valid = true) {p : Word}
    (hgood : s.icTagError (Build.setOf s.cfg p) = false) (way : BitVec 2) (lru : BitVec 3) (r : Reply) :
    (s.icFill p way lru r).icTagError (Build.setOf s.cfg p) = false := by
  simp only [State.icTagError, List.any_eq_false, State.icFill_cfg, State.tagAt_icFill hc] at hgood ⊢
  intro w hw
  split
  next => simp
  next => exact hgood w hw

/-! ### The parcels of a filled line -/

/-- The words of a line that the SoC answers as memory. -/
theorem State.lineWords_mem (s : State) (a : Word) {k : Nat} (hk : k < 16) :
    (s.lineWords .mem a)[k]? =
      some ((ofBytes ((addrs ((a &&& 0xFFFFFFC0#32) + BitVec.ofNat 32 (4 * k)) 4).map s.socByte)).setWidth 32) := by
  simp only [State.lineWords, ite_self, List.getElem?_map, List.getElem?_range hk, Option.map_some]
  rfl

/-- The word of an address as the SoC holds it. -/
def State.socWord (s : State) (a : Word) : BitVec 32 := (ofBytes ((addrs (wordAddr a) 4).map s.socByte)).setWidth 32

/-- Two neighbouring bytes of a SoC word. -/
theorem State.extract_socWord (s : State) (a : Word) {k : Nat} (hk : k ≤ 2) :
    (s.socWord a).extractLsb' (8 * k) 16 =
      s.socByte (wordAddr a + BitVec.ofNat 32 (k + 1)) ++ s.socByte (wordAddr a + BitVec.ofNat 32 k) := by
  rw [State.socWord, BitVec.setWidth_eq_extractLsb' (by decide), Laws.extract_extract _ _ _ _ _ (by omega), Nat.zero_add,
    extract_ofBytes _ (by simp; omega) (by omega)]
  interval_cases k <;> simp [addrs, BitVec.add_assoc]

/-- The half of its word that an even address names is the parcel there. -/
theorem State.parcel_socWord (s : State) {q : Word} (heven : q.getLsbD 0 = false) :
    (if q.getLsbD 1 then (s.socWord q).extractLsb' 16 16 else (s.socWord q).extractLsb' 0 16) =
      s.socByte (q + 1#32) ++ s.socByte q := by
  have hq := even_eq_wordAddr_add heven
  have hpair := s.extract_socWord q (k := if q.getLsbD 1 then 2 else 0) (by split <;> decide)
  rw [BitVec.ofNat_add, ← BitVec.add_assoc, ← hq] at hpair
  rw [← hpair]
  cases q.getLsbD 1 <;> rfl

/-- The word of a filled line that holds an address, with its check bits. -/
theorem State.dataAt_icFill (s : State) {p q : Word} (hline : q &&& 0xFFFFFFC0#32 = p &&& 0xFFFFFFC0#32) (way : BitVec 2)
    (lru : BitVec 3) :
    (s.icFill p way lru .mem).icache.dataAt (Build.chunkKey s.cfg way.toNat (Build.setOf s.cfg q) (q.toNat / 4 % 16)) =
      (s.socWord q, Build.pairCheck s.cfg (s.socWord q)) := by
  have hword := s.lineWords_mem p (Nat.mod_lt (q.toNat / 4) (by decide : 0 < 16))
  rw [line_add_chunk hline] at hword
  rw [(setOf_tagOf_of_line_eq s.cfg (div_eq_of_line_eq hline)).1]
  have hat := fillData_at s.cfg s.icache.data (Build.chunkKey s.cfg way.toNat (Build.setOf s.cfg p) 0) _ hword
  rw [← State.icFill_data s p way lru] at hat
  exact congrArg (Option.getD · (0, 0)) hat

/-- A parcel of a filled line: the SoC's bytes there, with their check bits right. -/
theorem State.icParcel_icFill (s : State) {p q : Word} (heven : q.getLsbD 0 = false)
    (hline : q &&& 0xFFFFFFC0#32 = p &&& 0xFFFFFFC0#32) (way : BitVec 2) (lru : BitVec 3) :
    (s.icFill p way lru .mem).icParcel way.toNat q = (s.socByte (q + 1#32) ++ s.socByte q, true) := by
  have hdata := s.dataAt_icFill hline way lru
  simp only [State.icParcel, State.icFill_cfg, hdata, halfCheck_pairCheck, s.parcel_socWord heven, beq_self_eq_true]

/-- A fetch that hits without a cache error gives the parcel the cache holds, and changes nothing. -/
theorem State.fetchCached_hit {s : State} {q : Word} {way : Nat} {h : BitVec 16} (hhit : s.icHit q = some way)
    (hparcel : s.icParcel way q = (h, true)) (htag : s.icTagError (Build.setOf s.cfg q) = false) (herr : s.env.icErr = false) :
    s.fetchCached q = .ok h s := by
  simp only [State.fetchCached, hhit, hparcel, htag, herr]; rfl

/-- A fetch that misses without a cache error takes the parcel from the SoC, which answers as memory, and fills the line. -/
theorem State.fetchCached_miss {s : State} {p : Word} (hmiss : s.icHit p = none)
    (htag : s.icTagError (Build.setOf s.cfg p) = false) (herr : s.env.icErr = false) (hr : s.env.replies = []) :
    s.fetchCached p = .ok (s.socByte (p + 1#32) ++ s.socByte p) (s.icFill p s.env.icWay s.env.icLru .mem) := by
  have hreply : s.takeReply = (.mem, s) := by simp only [State.takeReply, hr]
  rw [← ofBytes_two]
  simp only [State.fetchCached, hmiss, htag, herr, hreply]; rfl

/-- Settles O54: the missing fetch fills the line, in which each later fetch hits. -/
theorem iCacheServesFilledLine : Obligations.ICacheServesFilledLine := by
  intro s p hc _ hmiss htag hr herr
  refine ⟨_, State.fetchCached_miss hmiss htag herr hr, fun q heven hline => ?_, by simp, by simp, by simp, by simp, by simp⟩
  have hdiv := div_eq_of_line_eq hline
  have hset := (setOf_tagOf_of_line_eq s.cfg hdiv).1
  exact State.fetchCached_hit (State.icHit_icFill hc hdiv hmiss _ _ _) (s.icParcel_icFill heven hline _ _)
    (by rw [State.icFill_cfg, hset, State.icTagError_icFill hc htag]) (by rw [State.icFill_env, herr])

end Sys2Proof.Machine
end

section
/-! PROOFS. The DMA port (20_memory.md R190-R194, R197, R198). -/

namespace Sys2Proof.Machine

/-! ### Bytes of two words -/

/-- An address above another, counted from the next one. -/
theorem add_ofNat_succ (a : Word) (m : Nat) : a + BitVec.ofNat 32 (m + 1) = a + 1#32 + BitVec.ofNat 32 m := by
  rw [BitVec.ofNat_add, BitVec.add_assoc, BitVec.add_comm 1#32]

/-- Consecutive addresses, cut in two. -/
theorem addrs_add (a : Word) (m n : Nat) : addrs a (m + n) = addrs a m ++ addrs (a + BitVec.ofNat 32 m) n := by
  induction m generalizing a with
  | zero => simp [addrs]
  | succ m ih =>
    rw [Nat.succ_add, addrs, addrs, ih, add_ofNat_succ a m]; rfl

/-- Bytes written in two parts, one after the other. -/
theorem Memory.putBytes_append (m : Memory) (a : Word) (bs cs : List Byte) :
    m.putBytes a (bs ++ cs) = (m.putBytes a bs).putBytes (a + BitVec.ofNat 32 bs.length) cs := by
  induction bs generalizing m a with
  | nil => simp [Memory.putBytes]
  | cons b bs ih =>
    rw [List.length_cons, add_ofNat_succ]
    exact ih _ _

/-- The bytes of the word at byte `i` of a value. -/
theorem toBytes_extract_getElem (v : BitVec 64) (i : Nat) {j : Nat} (hj : j < 4) :
    (toBytes ((v.extractLsb' (8 * i) 32).setWidth 64) 4)[j]'(by simpa using hj) = v.extractLsb' (8 * (i + j)) 8 := by
  rw [toBytes_setWidth_getElem _ (by decide) hj, Laws.extract_extract _ _ _ _ _ (by omega), Nat.mul_add]

/-- The bytes of a value's lower word. -/
theorem toBytes_low (v : BitVec 64) : toBytes ((v.extractLsb' 0 32).setWidth 64) 4 = toBytes v 4 := by
  refine List.ext_getElem (by simp) fun j hj _ => ?_
  rw [toBytes_extract_getElem v 0 (by simpa using hj), toBytes_getElem, Nat.zero_add]

/-- The bytes of a double-word are those of its two words. -/
theorem toBytes_words (v : BitVec 64) :
    toBytes v 8 = toBytes v 4 ++ toBytes ((v.extractLsb' 32 32).setWidth 64) 4 := by
  refine List.ext_getElem (by simp) fun j hj _ => ?_
  rw [toBytes_length] at hj
  rw [toBytes_getElem, List.getElem_append]
  split
  next => rw [toBytes_getElem]
  next hge =>
    rw [toBytes_length] at hge
    have hat := toBytes_extract_getElem v 4 (j := j - 4) (by omega)
    rw [show 4 + (j - 4) = j by omega] at hat
    simpa only [toBytes_length] using hat.symm

/-- A value of at most four bytes fits in a word. -/
theorem ofBytes_setWidth_word {bs : List Byte} (h : bs.length ≤ 4) : ((ofBytes bs).setWidth 32).setWidth 64 = ofBytes bs := by
  apply BitVec.eq_of_getLsbD_eq
  intro j hj
  rw [BitVec.getLsbD_setWidth, BitVec.getLsbD_setWidth, getLsbD_ofBytes _ hj]
  by_cases h32 : j < 32
  · simp [hj, h32]
  · simp [hj, h32, List.getElem?_eq_none (show bs.length ≤ j / 8 by omega)]

/-- The value of two words' bytes. -/
theorem ofBytes_words {bs : List Byte} (h : bs.length = 4) (cs : List Byte) :
    (ofBytes cs).setWidth 32 ++ (ofBytes bs).setWidth 32 = ofBytes (bs ++ cs) := by
  apply BitVec.eq_of_getLsbD_eq
  intro j hj
  rw [BitVec.getLsbD_append, getLsbD_ofBytes _ hj, BitVec.getLsbD_setWidth, BitVec.getLsbD_setWidth,
    getLsbD_ofBytes bs hj, getLsbD_ofBytes cs (by omega)]
  by_cases h32 : j < 32
  · simp [h32, List.getElem?_append_left (show j / 8 < bs.length by omega)]
  · have hdiv : j / 8 - bs.length = (j - 32) / 8 := by omega
    have hmod : j % 8 = (j - 32) % 8 := by omega
    have hin : j - 32 < 32 := by omega
    simp [h32, hin, hmod, List.getElem?_append_right (show bs.length ≤ j / 8 by omega), hdiv]

/-! ### Which requests are accepted (R190, R191) -/

theorem DmaReq.legal_iff (r : DmaReq) : r.legal = true ↔ r.Allowed := by
  unfold DmaReq.legal DmaReq.Allowed
  simp [or_assoc]

/-- The ICCM and the DCCM do not overlap (R8). -/
theorem State.not_inIccm_of_inDccm {s : State} (hc : s.cfg.valid = true) {a : Word} (h : s.inDccm a = true) :
    s.inIccm a = false := by
  obtain ⟨_, _, _, hapart, _⟩ := Build.valid_iff.mp hc
  simp only [Build.disjoint, Build.blocks, decide_eq_true_eq, List.pairwise_append] at hapart
  obtain ⟨⟨_, _, hapart⟩, _⟩ := hapart
  cases hi : s.cfg.iccm with
  | none => simp [State.inIccm, hi]
  | some b =>
    cases hd : s.cfg.dccm with
    | none => simp [State.inDccm, hd] at h
    | some c =>
      have hp : b.apart c = true := hapart b (by simp [hi]) c (by simp [hd])
      simp only [State.inDccm, hd, Option.any_some, Block.has, Bool.and_eq_true, decide_eq_true_eq] at h
      simp only [Block.apart, Bool.or_eq_true, decide_eq_true_eq] at hp
      simp only [State.inIccm, hi, Option.any_some, Block.has]
      rw [Bool.and_eq_false_iff]
      simp only [decide_eq_false_iff_not]
      omega

/-- A request that lies in a memory is served there. -/
theorem State.dmaTarget_inside {s : State} (hc : s.cfg.valid = true) {r : DmaReq} {k : Ccm} (h0 : s.inCcm k r.addr = true)
    (h1 : s.inCcm k (lastByte r.addr r.bytes) = true) : s.dmaTarget r = some k := by
  unfold State.dmaTarget
  cases k with
  | iccm =>
    rw [State.inCcm] at h0 h1
    simp only [h0, h1]; rfl
  | dccm =>
    rw [State.inCcm] at h0 h1
    simp only [State.not_inIccm_of_inDccm hc h0, h0, h1]; rfl

/-- A request that lies in neither memory has no target. -/
theorem State.dmaTarget_outside {s : State} {r : DmaReq}
    (hi : ¬ (s.inIccm r.addr = true ∧ s.inIccm (lastByte r.addr r.bytes) = true))
    (hd : ¬ (s.inDccm r.addr = true ∧ s.inDccm (lastByte r.addr r.bytes) = true)) : s.dmaTarget r = none := by
  simp only [State.dmaTarget, Bool.and_eq_true, if_neg hi, if_neg hd]

/-! ### One serving of the head of the FIFO (R192, R194) -/

section
variable {s u : State} {r : DmaReq} {rest : List DmaReq} {k : Ccm} {d : BitVec 32}

/-- A request that is not accepted is answered with an error. -/
theorem State.dmaServe_rejected (hf : s.dma.fifo = r :: rest) (h : r.legal = false ∨ s.dmaTarget r = none) :
    s.dmaServe = { s with dma := { fifo := rest, half := none, resp := some dmaError } } := by
  have hanswer : s.dmaServe = s.dmaAnswer dmaError := by
    unfold State.dmaServe
    simp only [hf]
    cases hl : r.legal with
    | false => rfl
    | true =>
      rw [h.resolve_left (by rw [hl]; decide)]
      rfl
  rw [hanswer, State.dmaAnswer, hf]; rfl

/-- The only word of a request is served, and the request answered. -/
theorem State.dmaServe_single (hf : s.dma.fifo = r :: rest) (hh : s.dma.half = none) (hl : r.legal = true)
    (hk : s.dmaTarget r = some k) (hn : r.bytes ≤ 4)
    (hw : s.dmaWord k r.write r.addr r.bytes (r.data.extractLsb' 0 32) = (some d, u)) :
    s.dmaServe = u.dmaAnswer { err := false, data := d.setWidth 64 } := by
  have h8 : ¬ r.bytes = 8 := by omega
  simp only [State.dmaServe, hf, hl, hk, hh, Nat.min_eq_left hn, hw, Bool.not_true, Bool.false_eq_true, if_false, if_neg h8]

/-- A double error in the only word of a request. -/
theorem State.dmaServe_error (hf : s.dma.fifo = r :: rest) (hh : s.dma.half = none) (hl : r.legal = true)
    (hk : s.dmaTarget r = some k) (hn : r.bytes ≤ 4)
    (hw : s.dmaWord k r.write r.addr r.bytes (r.data.extractLsb' 0 32) = (none, u)) :
    s.dmaServe = u.dmaAnswer dmaError := by
  simp only [State.dmaServe, hf, hl, hk, hh, Nat.min_eq_left hn, hw, Bool.not_true, Bool.false_eq_true, if_false]

/-- The first word of a double-word request is served and kept. -/
theorem State.dmaServe_first (hf : s.dma.fifo = r :: rest) (hh : s.dma.half = none) (hl : r.legal = true)
    (hk : s.dmaTarget r = some k) (hn : r.bytes = 8)
    (hw : s.dmaWord k r.write r.addr 4 (r.data.extractLsb' 0 32) = (some d, u)) :
    s.dmaServe = { u with dma := { u.dma with half := some d } } := by
  simp only [State.dmaServe, hf, hl, hk, hh, hn, Nat.reduceLeDiff, Nat.min_eq_right, hw, Bool.not_true, Bool.false_eq_true,
    if_false, if_true]

/-- The second word of a double-word request is served, and the request answered. -/
theorem State.dmaServe_second {lo : BitVec 32} (hf : s.dma.fifo = r :: rest) (hh : s.dma.half = some lo) (hl : r.legal = true)
    (hk : s.dmaTarget r = some k)
    (hw : s.dmaWord k r.write (r.addr + 4#32) 4 (r.data.extractLsb' 32 32) = (some d, u)) :
    s.dmaServe = u.dmaAnswer { err := false, data := d ++ lo } := by
  simp only [State.dmaServe, hf, hl, hk, hh, hw, Bool.not_true, Bool.false_eq_true, if_false]

end

/-! ### What serving one word does -/

/-- A write of a word replaces its bytes and answers 0 (R192). -/
theorem State.dmaWord_write (s : State) (k : Ccm) (a : Word) (n : Nat) (v : BitVec 32) :
    s.dmaWord k true a n v = (some 0#32, s.setCcm k ((s.ccm k).putBytes a (toBytes (v.setWidth 64) n))) := rfl

/-- The bytes that a memory holds from an address on, 0 where none is known. -/
def State.ccmHeld (s : State) (k : Ccm) (a : Word) (n : Nat) : List Byte :=
  (addrs a n).map (fun p => ((s.ccm k).get? p.toNat).getD 0)

@[simp] theorem State.length_ccmHeld (s : State) (k : Ccm) (a : Word) (n : Nat) : (s.ccmHeld k a n).length = n := by
  simp [State.ccmHeld]

/-- A read of known bytes without a memory error gives them and changes nothing (R192). -/
theorem State.dmaWord_read {s : State} {k : Ccm} {a : Word} {n : Nat} (he : s.env.ecc = [])
    (hb : ∀ p ∈ addrs a n, ((s.ccm k).get? p.toNat).isSome = true) (v : BitVec 32) :
    s.dmaWord k false a n v = (some ((ofBytes (s.ccmHeld k a n)).setWidth 32), s) := by
  have hclean : ((wordsOf a n).map (fun w => (w, Check.clean))).any (fun c => c.2 == Check.fatal) = false := by simp
  have hbytes := State.ccmBytes_known (cs := (wordsOf a n).map (fun w => (w, .clean))) (fun p _ => corruptAt_clean _ p) hb
  simp only [State.dmaWord, State.checkWords_clean he, hclean, State.countChecks_clean, State.ccmValue, hbytes, Bool.false_eq_true,
    if_false]
  rfl

/-- An aligned access of at most a word touches one word. -/
theorem wordsOf_aligned {a : Word} {n : Nat} (hn : n = 1 ∨ n = 2 ∨ n = 4) (ha : a.toNat % n = 0) :
    wordsOf a n = [wordAddr a] := by
  have hlast : wordAddr (a + BitVec.ofNat 32 (n - 1)) = wordAddr a := by
    apply BitVec.eq_of_toNat_eq
    have := a.isLt
    rw [toNat_wordAddr, toNat_wordAddr, BitVec.toNat_add, BitVec.toNat_ofNat]
    rcases hn with rfl | rfl | rfl <;> omega
  simp only [wordsOf, hlast, if_true]

/-- A double error in a read of one word (R192, R197). -/
theorem State.dmaWord_double {s : State} {k : Ccm} {a : Word} {n : Nat} {more : List Ecc} (hn : n = 1 ∨ n = 2 ∨ n = 4)
    (ha : a.toNat % n = 0) (hc : s.cecd = false) (he : s.env.ecc = .double :: more) (v : BitVec 32) :
    s.dmaWord k false a n v = (none, s.afterChecks 1) := by
  simp only [State.dmaWord, wordsOf_aligned hn ha, State.checkWords_reported hc, he]
  rfl

/-- A single error in a read of one word of known bytes is corrected and counted (R192, R198). -/
theorem State.dmaWord_single {s : State} {k : Ccm} {a : Word} {n : Nat} {more : List Ecc} (hn : n = 1 ∨ n = 2 ∨ n = 4)
    (ha : a.toNat % n = 0) (hc : s.cecd = false) (he : s.env.ecc = .single :: more)
    (hb : ∀ p ∈ addrs a n, ((s.ccm k).get? p.toNat).isSome = true) (v : BitVec 32) :
    s.dmaWord k false a n v =
      (some ((ofBytes (s.ccmHeld k a n)).setWidth 32), (s.afterChecks 1).countCcmError k) := by
  have hcs : State.checkWords (wordsOf a n) s = ([(wordAddr a, .corrected)], s.afterChecks 1) := by
    rw [wordsOf_aligned hn ha, State.checkWords_reported hc, he]; rfl
  have hccm : ((s.afterChecks 1).countCcmError k).ccm k = s.ccm k := by cases k <;> rfl
  have hbytes := State.ccmBytes_known (s := (s.afterChecks 1).countCcmError k) (k := k) (cs := [(wordAddr a, .corrected)])
    (ps := addrs a n) (fun p _ => by simp [corruptAt]) (by rw [hccm]; exact hb)
  rw [hccm] at hbytes
  have hcount : State.countChecks k [(wordAddr a, .corrected)] (s.afterChecks 1) = (s.afterChecks 1).countCcmError k := rfl
  simp only [State.dmaWord, hcs, hcount, State.ccmValue, hbytes]
  rfl

/-! ### A whole request -/

/-- Where a request lies is the build's matter (R142). -/
theorem State.dmaTarget_congr {s t : State} (h : t.cfg = s.cfg) (r : DmaReq) : t.dmaTarget r = s.dmaTarget r := by
  simp only [State.dmaTarget, State.inIccm, State.inDccm, h]; rfl

/-- The port after a request is answered: the next one at the head. -/
def Dma.after (rest : List DmaReq) (err : Bool) (d : BitVec 64) : Dma :=
  { fifo := rest, half := none, resp := some { err := err, data := d } }

section
variable {s : State} {r : DmaReq} {rest : List DmaReq} {k : Ccm}

/-- The answer to the request at the head of the FIFO. -/
theorem State.dmaAnswer_eq (hf : s.dma.fifo = r :: rest) (err : Bool) (d : BitVec 64) :
    s.dmaAnswer { err := err, data := d } = { s with dma := Dma.after rest err d } := by
  rw [State.dmaAnswer, hf]; rfl

/-- A served write has put its bytes, whether in one serving or in two, and is answered without an error. -/
theorem State.dmaServeN_write (hf : s.dma.fifo = r :: rest) (hh : s.dma.half = none) (ha : r.Allowed)
    (hk : s.dmaTarget r = some k) (hw : r.write = true) :
    State.dmaServeN ((r.bytes + 3) / 4) s =
      { s.setCcm k ((s.ccm k).putBytes r.addr (toBytes r.data r.bytes)) with dma := Dma.after rest false 0#64 } := by
  have hl := r.legal_iff.mpr ha
  rcases ha.1 with hn | hn | ⟨hread, _⟩
  · have hword : s.dmaWord k r.write r.addr r.bytes (r.data.extractLsb' 0 32) =
        (some 0#32, s.setCcm k ((s.ccm k).putBytes r.addr (toBytes r.data 4))) := by
      rw [hw, hn, State.dmaWord_write, toBytes_low]
    rw [hn]
    show s.dmaServe = _
    rw [State.dmaServe_single hf hh hl hk (by omega) hword,
      State.dmaAnswer_eq (r := r) (rest := rest) (by rw [State.setCcm_dma, hf])]
    rfl
  · have hfirst : s.dmaWord k r.write r.addr 4 (r.data.extractLsb' 0 32) =
        (some 0#32, s.setCcm k ((s.ccm k).putBytes r.addr (toBytes r.data 4))) := by
      rw [hw, State.dmaWord_write, toBytes_low]
    have hmem : (s.ccm k).putBytes r.addr (toBytes r.data 8) =
        ((s.ccm k).putBytes r.addr (toBytes r.data 4)).putBytes (r.addr + 4#32)
          (toBytes ((r.data.extractLsb' 32 32).setWidth 64) 4) := by
      rw [toBytes_words, Memory.putBytes_append, toBytes_length]
    rw [hn, hmem]
    show s.dmaServe.dmaServe = _
    rw [State.dmaServe_first hf hh hl hk hn hfirst]
    generalize hu : ({ (s.setCcm k ((s.ccm k).putBytes r.addr (toBytes r.data 4))) with
      dma := { (s.setCcm k ((s.ccm k).putBytes r.addr (toBytes r.data 4))).dma with half := some 0#32 } } : State) = u
    have hfu : u.dma.fifo = r :: rest := by rw [← hu]; simp [hf]
    have hhu : u.dma.half = some 0#32 := by rw [← hu]
    have hku : u.dmaTarget r = some k := by rw [State.dmaTarget_congr (s := s) (by rw [← hu]; simp), hk]
    rw [State.dmaServe_second hfu hhu hl hku (by rw [hw]; exact State.dmaWord_write _ _ _ _ _),
      State.dmaAnswer_eq (r := r) (rest := rest) (by rw [State.setCcm_dma, hfu]), ← hu]
    cases k <;> rfl
  · rw [hw] at hread; cases hread

/-- A served read of known bytes without a memory error gives them, whether in one serving or in two. -/
theorem State.dmaServeN_read (hf : s.dma.fifo = r :: rest) (hh : s.dma.half = none) (ha : r.Allowed)
    (hk : s.dmaTarget r = some k) (hw : r.write = false) (he : s.env.ecc = [])
    (hb : ∀ p ∈ addrs r.addr r.bytes, ((s.ccm k).get? p.toNat).isSome = true) :
    State.dmaServeN ((r.bytes + 3) / 4) s =
      { s with dma := Dma.after rest false (ofBytes (s.ccmHeld k r.addr r.bytes)) } := by
  have hl := r.legal_iff.mpr ha
  by_cases hn : r.bytes = 8
  · rw [hn] at hb ⊢
    rw [addrs_add r.addr 4 4] at hb
    have hfirst := State.dmaWord_read he (fun p hp => hb p (List.mem_append_left _ hp)) (r.data.extractLsb' 0 32)
    rw [← hw] at hfirst
    show s.dmaServe.dmaServe = _
    rw [State.dmaServe_first hf hh hl hk hn hfirst]
    generalize hu : ({ s with dma := { s.dma with half := some ((ofBytes (s.ccmHeld k r.addr 4)).setWidth 32) } } : State) = u
    have hccm : u.ccm k = s.ccm k := by rw [← hu]; rfl
    have hsecond : u.dmaWord k r.write (r.addr + 4#32) 4 (r.data.extractLsb' 32 32) =
        (some ((ofBytes (s.ccmHeld k (r.addr + 4#32) 4)).setWidth 32), u) := by
      have hread := State.dmaWord_read (s := u) (k := k) (a := r.addr + 4#32) (n := 4) (by rw [← hu]; exact he)
        (fun p hp => by rw [hccm]; exact hb p (List.mem_append_right _ hp)) (r.data.extractLsb' 32 32)
      rw [hw, hread, State.ccmHeld, hccm]; rfl
    have hfu : u.dma.fifo = r :: rest := by rw [← hu]; exact hf
    have hhu : u.dma.half = some ((ofBytes (s.ccmHeld k r.addr 4)).setWidth 32) := by rw [← hu]
    have hku : u.dmaTarget r = some k := by rw [State.dmaTarget_congr (s := s) (by rw [← hu]), hk]
    have hheld : s.ccmHeld k r.addr 8 = s.ccmHeld k r.addr 4 ++ s.ccmHeld k (r.addr + 4#32) 4 := by
      rw [State.ccmHeld, addrs_add r.addr 4 4, List.map_append]; rfl
    rw [State.dmaServe_second hfu hhu hl hku hsecond, ofBytes_words (by simp), ← hheld, State.dmaAnswer_eq hfu, ← hu]
  · have hword := State.dmaWord_read he hb (r.data.extractLsb' 0 32)
    rw [← hw] at hword
    have hle : r.bytes ≤ 4 ∧ (r.bytes + 3) / 4 = 1 := by
      have := ha.1
      omega
    rw [hle.2]
    show s.dmaServe = _
    rw [State.dmaServe_single hf hh hl hk hle.1 hword, ofBytes_setWidth_word (by simpa using hle.1), State.dmaAnswer_eq hf]

/-- A served request of one word has a width of 1, 2 or 4 bytes (R191). -/
theorem DmaReq.Allowed.bytes_of_le (ha : r.Allowed) (hn : r.bytes ≤ 4) :
    (r.bytes = 1 ∨ r.bytes = 2 ∨ r.bytes = 4) ∧ (r.bytes + 3) / 4 = 1 := by
  have := ha.1
  omega

/-- A served read of one word with a double error is answered with an error. -/
theorem State.dmaServeN_double {more : List Ecc} (hf : s.dma.fifo = r :: rest) (hh : s.dma.half = none) (ha : r.Allowed)
    (hk : s.dmaTarget r = some k) (hw : r.write = false) (hn : r.bytes ≤ 4) (hc : s.cecd = false)
    (he : s.env.ecc = .double :: more) :
    State.dmaServeN ((r.bytes + 3) / 4) s = { s.afterChecks 1 with dma := Dma.after rest true 0#64 } := by
  obtain ⟨hbytes, hone⟩ := ha.bytes_of_le hn
  have hword := State.dmaWord_double (k := k) hbytes ha.2 hc he (r.data.extractLsb' 0 32)
  rw [← hw] at hword
  rw [hone]
  exact (State.dmaServe_error hf hh (r.legal_iff.mpr ha) hk hn hword).trans
    (State.dmaAnswer_eq (s := s.afterChecks 1) hf true 0#64)

/-- A served read of one word of known bytes with a single error gives them, and the error is counted. -/
theorem State.dmaServeN_single {more : List Ecc} (hf : s.dma.fifo = r :: rest) (hh : s.dma.half = none) (ha : r.Allowed)
    (hk : s.dmaTarget r = some k) (hw : r.write = false) (hn : r.bytes ≤ 4) (hc : s.cecd = false)
    (he : s.env.ecc = .single :: more)
    (hb : ∀ p ∈ addrs r.addr r.bytes, ((s.ccm k).get? p.toNat).isSome = true) :
    State.dmaServeN ((r.bytes + 3) / 4) s =
      { (s.afterChecks 1).countCcmError k with dma := Dma.after rest false (ofBytes (s.ccmHeld k r.addr r.bytes)) } := by
  obtain ⟨hbytes, hone⟩ := ha.bytes_of_le hn
  have hword := State.dmaWord_single hbytes ha.2 hc he hb (r.data.extractLsb' 0 32)
  rw [← hw] at hword
  have hfifo : ((s.afterChecks 1).countCcmError k).dma.fifo = r :: rest := by cases k <;> exact hf
  rw [hone]
  show s.dmaServe = _
  rw [State.dmaServe_single hf hh (r.legal_iff.mpr ha) hk hn hword, ofBytes_setWidth_word (by simpa using hn),
    State.dmaAnswer_eq hfifo]

end

/-- The error counters after an error of one memory: the counter of the other has not moved (R198). -/
theorem State.countCcmError_counts (s : State) (k : Ccm) :
    (s.countCcmError k).csr.miccmect = counted s.csr.miccmect (if k = .iccm then 1 else 0) ∧
      (s.countCcmError k).csr.mdccmect = counted s.csr.mdccmect (if k = .dccm then 1 else 0) := by
  cases k with
  | iccm => exact ⟨rfl, (counted_zero _).symm⟩
  | dccm => exact ⟨(counted_zero _).symm, rfl⟩

/-- Settles O52: a request is rejected, or lies in one memory and is served there in one or two words. -/
theorem dmaAccesses : Obligations.DmaAccesses := by
  intro s r rest hc hf hh answered last inside
  refine ⟨fun h => State.dmaServe_rejected hf ?_, fun k ha hin => ?_⟩
  · rcases h with h | ⟨hi, hd⟩
    · exact .inl (Bool.eq_false_iff.mpr (r.legal_iff.not.mpr h))
    · exact .inr (State.dmaTarget_outside hi hd)
  · intro t held
    have hk : s.dmaTarget r = some k := State.dmaTarget_inside hc hin.1 hin.2
    refine ⟨fun hw => ?_, fun hw he hb => State.dmaServeN_read hf hh ha hk hw he hb,
      fun more hw hn hcecd => ⟨fun he => ?_, fun he hb => ?_⟩⟩
    · have ht : t = _ := State.dmaServeN_write hf hh ha hk hw
      have hlen : (toBytes r.data r.bytes).length = r.bytes := toBytes_length _ _
      have hccm : t.ccm k = (s.ccm k).putBytes r.addr (toBytes r.data r.bytes) := by rw [ht]; cases k <;> rfl
      refine ⟨by rw [ht]; rfl, fun j hj => ?_, fun p hp => ?_, ?_⟩
      · rw [hccm, Memory.get?_putBytes_at _ _ _ _ (by omega) (by have := ha.1; omega), toBytes_getElem]
      · rw [hccm, Memory.get?_putBytes_other _ _ _ _ (by rw [hlen]; exact hp)]
      · rw [hccm, ht]; cases k <;> rfl
    · exact State.dmaServeN_double hf hh ha hk hw hn hcecd he
    · have ht : t = _ := State.dmaServeN_single hf hh ha hk hw hn hcecd he hb
      obtain ⟨hi, hd⟩ := (s.afterChecks 1).countCcmError_counts k
      exact ⟨by rw [ht]; rfl, by rw [ht]; exact hi, by rw [ht]; exact hd⟩

end Sys2Proof.Machine
end

section
/-! PROOFS. The decoder and the encoder (30_encoding.md R221-R234). -/

namespace Sys2Proof.Laws

/-! ### Decoding what the encoder wrote -/

/-- The round trip of every instruction: its own lemma, one arm each. -/
theorem roundTrip : ∀ i : Instr, RoundTrip.Statement i
  | .ecall => RoundTrip.ecall
  | .ebreak => RoundTrip.ebreak
  | .mret => RoundTrip.mret
  | .wfi => RoundTrip.wfi
  | .lui .. => RoundTrip.lui _ _
  | .auipc .. => RoundTrip.auipc _ _
  | .addi .. => RoundTrip.addi _ _ _
  | .slti .. => RoundTrip.slti _ _ _
  | .sltiu .. => RoundTrip.sltiu _ _ _
  | .xori .. => RoundTrip.xori _ _ _
  | .ori .. => RoundTrip.ori _ _ _
  | .andi .. => RoundTrip.andi _ _ _
  | .slli .. => RoundTrip.slli _ _ _
  | .srli .. => RoundTrip.srli _ _ _
  | .srai .. => RoundTrip.srai _ _ _
  | .add .. => RoundTrip.add _ _ _
  | .sub .. => RoundTrip.sub _ _ _
  | .sll .. => RoundTrip.sll _ _ _
  | .slt .. => RoundTrip.slt _ _ _
  | .sltu .. => RoundTrip.sltu _ _ _
  | .xor .. => RoundTrip.xor _ _ _
  | .srl .. => RoundTrip.srl _ _ _
  | .sra .. => RoundTrip.sra _ _ _
  | .or .. => RoundTrip.or _ _ _
  | .and .. => RoundTrip.and _ _ _
  | .jal .. => RoundTrip.jal _ _
  | .jalr .. => RoundTrip.jalr _ _ _
  | .beq .. => RoundTrip.beq _ _ _
  | .bne .. => RoundTrip.bne _ _ _
  | .blt .. => RoundTrip.blt _ _ _
  | .bge .. => RoundTrip.bge _ _ _
  | .bltu .. => RoundTrip.bltu _ _ _
  | .bgeu .. => RoundTrip.bgeu _ _ _
  | .lb .. => RoundTrip.lb _ _ _
  | .lh .. => RoundTrip.lh _ _ _
  | .lw .. => RoundTrip.lw _ _ _
  | .lbu .. => RoundTrip.lbu _ _ _
  | .lhu .. => RoundTrip.lhu _ _ _
  | .sb .. => RoundTrip.sb _ _ _
  | .sh .. => RoundTrip.sh _ _ _
  | .sw .. => RoundTrip.sw _ _ _
  | .mul .. => RoundTrip.mul _ _ _
  | .mulh .. => RoundTrip.mulh _ _ _
  | .mulhsu .. => RoundTrip.mulhsu _ _ _
  | .mulhu .. => RoundTrip.mulhu _ _ _
  | .div .. => RoundTrip.div _ _ _
  | .divu .. => RoundTrip.divu _ _ _
  | .rem .. => RoundTrip.rem _ _ _
  | .remu .. => RoundTrip.remu _ _ _
  | .fence .. => RoundTrip.fence _ _ _ _ _
  | .fenceI .. => RoundTrip.fenceI _ _ _
  | .csrrw .. => RoundTrip.csrrw _ _ _
  | .csrrs .. => RoundTrip.csrrs _ _ _
  | .csrrc .. => RoundTrip.csrrc _ _ _
  | .csrrwi .. => RoundTrip.csrrwi _ _ _
  | .csrrsi .. => RoundTrip.csrrsi _ _ _
  | .csrrci .. => RoundTrip.csrrci _ _ _
  | .cAddi4spn .. => RoundTrip.cAddi4spn _ _
  | .cLw .. => RoundTrip.cLw _ _ _
  | .cSw .. => RoundTrip.cSw _ _ _
  | .cNop .. => RoundTrip.cNop _
  | .cAddi .. => RoundTrip.cAddi _ _
  | .cJal .. => RoundTrip.cJal _
  | .cLi .. => RoundTrip.cLi _ _
  | .cAddi16sp .. => RoundTrip.cAddi16sp _
  | .cLui .. => RoundTrip.cLui _ _
  | .cSrli .. => RoundTrip.cSrli _ _
  | .cSrai .. => RoundTrip.cSrai _ _
  | .cAndi .. => RoundTrip.cAndi _ _
  | .cSub .. => RoundTrip.cSub _ _
  | .cXor .. => RoundTrip.cXor _ _
  | .cOr .. => RoundTrip.cOr _ _
  | .cAnd .. => RoundTrip.cAnd _ _
  | .cJ .. => RoundTrip.cJ _
  | .cBeqz .. => RoundTrip.cBeqz _ _
  | .cBnez .. => RoundTrip.cBnez _ _
  | .cSlli .. => RoundTrip.cSlli _ _
  | .cLwsp .. => RoundTrip.cLwsp _ _
  | .cEbreak => RoundTrip.cEbreak
  | .cJr .. => RoundTrip.cJr _
  | .cJalr .. => RoundTrip.cJalr _
  | .cMv .. => RoundTrip.cMv _ _
  | .cAdd .. => RoundTrip.cAdd _ _
  | .cSwsp .. => RoundTrip.cSwsp _ _

/-- Decoding the bytes of an encoding whose low bits give its length is decoding its bits; the bytes behind it are left. -/
theorem decodeBytes_bytes_append {e : Enc} (he : Machine.Enc.quadrant e = 3#2 ↔ e.len = .word) (rest : List Byte) :
    decodeBytes (e.bytes ++ rest) = (decode e).map (·, rest) := by
  cases e with
  | half c =>
    have hq : c.extractLsb' 0 2 ≠ 3#2 := fun h => by cases he.mp h
    have hlow : (c.extractLsb' 0 8).extractLsb' 0 2 = c.extractLsb' 0 2 := extract_extract c 0 8 0 2 (by decide)
    have hjoin : c.extractLsb' 8 8 ++ c.extractLsb' 0 8 = c := by
      rw [extract_join c 8 8 0 8 rfl]; exact extract_all c
    simp only [Enc.bytes, List.cons_append, List.nil_append, decodeBytes, hlow, if_neg hq, hjoin, decode]
  | word w =>
    have hq : w.extractLsb' 0 2 = 3#2 := he.mpr rfl
    have hlow : (w.extractLsb' 0 8).extractLsb' 0 2 = w.extractLsb' 0 2 := extract_extract w 0 8 0 2 (by decide)
    have hjoin : w.extractLsb' 24 8 ++ w.extractLsb' 16 8 ++ w.extractLsb' 8 8 ++ w.extractLsb' 0 8 = w := by
      rw [extract_join w 24 8 16 8 rfl, extract_join w 16 (8 + 8) 8 8 rfl, extract_join w 8 (8 + 8 + 8) 0 8 rfl]
      exact extract_all w
    simp only [Enc.bytes, List.cons_append, List.nil_append, decodeBytes, hlow, if_pos hq, hjoin, decode]

/-- Settles O1: the round trip of each instruction, and the length that its low bits give. -/
theorem decodeEncode : Obligations.DecodeEncode := by
  intro i hi
  have hbits : decode (encode i) = .ok i := roundTrip i hi
  refine ⟨hbits, fun rest => ?_⟩
  rw [decodeBytes_bytes_append (Machine.quadrant_encode i), hbits]
  rfl

/-! ### A word or a parcel is put together from its fields (R222, R223, R230, R233) -/

theorem encR_eq {w : BitVec 32} {f7 : BitVec 7} {rs2 rs1 : Reg} {f3 : BitVec 3} {rd : Reg} {op : BitVec 7}
    (hf7 : w.extractLsb' 25 7 = f7) (hrs2 : w.extractLsb' 20 5 = rs2) (hrs1 : w.extractLsb' 15 5 = rs1)
    (hf3 : w.extractLsb' 12 3 = f3) (hrd : w.extractLsb' 7 5 = rd) (hop : w.extractLsb' 0 7 = op) :
    encR f7 rs2 rs1 f3 rd op = .word w := by
  subst hf7 hrs2 hrs1 hf3 hrd hop
  simp (disch := decide) [-Nat.reduceAdd, encR, extract_join]

theorem encI_eq {w : BitVec 32} {imm : BitVec 12} {rs1 : Reg} {f3 : BitVec 3} {rd : Reg} {op : BitVec 7}
    (himm : w.extractLsb' 20 12 = imm) (hrs1 : w.extractLsb' 15 5 = rs1) (hf3 : w.extractLsb' 12 3 = f3)
    (hrd : w.extractLsb' 7 5 = rd) (hop : w.extractLsb' 0 7 = op) : encI imm rs1 f3 rd op = .word w := by
  subst himm hrs1 hf3 hrd hop
  simp (disch := decide) [-Nat.reduceAdd, encI, extract_join]

theorem encS_eq {w : BitVec 32} {rs2 rs1 : Reg} {f3 : BitVec 3} {op : BitVec 7} (hrs2 : w.extractLsb' 20 5 = rs2)
    (hrs1 : w.extractLsb' 15 5 = rs1) (hf3 : w.extractLsb' 12 3 = f3) (hop : w.extractLsb' 0 7 = op) :
    encS (immS w) rs2 rs1 f3 op = .word w := by
  subst hrs2 hrs1 hf3 hop
  simp (disch := decide) [-Nat.reduceAdd, encS, immS,
    extract_append_low, extract_append_high, extract_extract, extract_join]

theorem encB_eq {w : BitVec 32} {rs2 rs1 : Reg} {f3 : BitVec 3} (hrs2 : w.extractLsb' 20 5 = rs2)
    (hrs1 : w.extractLsb' 15 5 = rs1) (hf3 : w.extractLsb' 12 3 = f3) (hop : w.extractLsb' 0 7 = 0x63#7) :
    encB (immB w) rs2 rs1 f3 = .word w := by
  subst hrs2 hrs1 hf3
  simp (disch := decide) [-Nat.reduceAdd, encB, immB, ← hop,
    extract_append_low, extract_append_high, extract_extract, extract_join]

theorem encU_eq {w : BitVec 32} {op : BitVec 7} (hop : w.extractLsb' 0 7 = op) :
    encU (w.extractLsb' 12 20) (w.extractLsb' 7 5) op = .word w := by
  subst hop
  simp (disch := decide) [-Nat.reduceAdd, encU, extract_join]

theorem encJ_eq {w : BitVec 32} {op : BitVec 7} (hop : w.extractLsb' 0 7 = op) :
    encJ (immJ w) (w.extractLsb' 7 5) op = .word w := by
  subst hop
  simp (disch := decide) [-Nat.reduceAdd, encJ, immJ,
    extract_append_low, extract_append_high, extract_extract, extract_join]

theorem encCI_eq {c : BitVec 16} {f3 : BitVec 3} {b12 : BitVec 1} {rd lo : BitVec 5} {q : BitVec 2}
    (hf3 : c.extractLsb' 13 3 = f3) (hb : c.extractLsb' 12 1 = b12) (hrd : c.extractLsb' 7 5 = rd)
    (hlo : c.extractLsb' 2 5 = lo) (hq : c.extractLsb' 0 2 = q) : encCI f3 b12 rd lo q = .half c := by
  subst hf3 hb hrd hlo hq
  simp (disch := decide) [-Nat.reduceAdd, encCI, extract_join]

theorem encCL_eq {c : BitVec 16} {f3 : BitVec 3} (hf3 : c.extractLsb' 13 3 = f3) (hq : c.extractLsb' 0 2 = 0#2) :
    encCL f3 (immCl c) (c.extractLsb' 7 3) (c.extractLsb' 2 3) = .half c := by
  subst hf3
  simp (disch := decide) [-Nat.reduceAdd, encCL, immCl, ← hq,
    extract_append_low, extract_append_high, extract_extract, extract_join]

theorem encCBS_eq {c : BitVec 16} {b12 : BitVec 1} {f2 : BitVec 2} {lo : BitVec 5} (hf3 : c.extractLsb' 13 3 = 4#3)
    (hb : c.extractLsb' 12 1 = b12) (hf2 : c.extractLsb' 10 2 = f2) (hlo : c.extractLsb' 2 5 = lo)
    (hq : c.extractLsb' 0 2 = 1#2) : encCBS b12 f2 (c.extractLsb' 7 3) lo = .half c := by
  subst hb hf2 hlo
  simp (disch := decide) [-Nat.reduceAdd, encCBS, ← hf3, ← hq, extract_join]

theorem encCA_eq {c : BitVec 16} {g2 : BitVec 2} (hf3 : c.extractLsb' 13 3 = 4#3) (hb : c.extractLsb' 12 1 = 0#1)
    (hf2 : c.extractLsb' 10 2 = 3#2) (hg : c.extractLsb' 5 2 = g2) (hq : c.extractLsb' 0 2 = 1#2) :
    encCA g2 (c.extractLsb' 7 3) (c.extractLsb' 2 3) = .half c := by
  have hhigh : c.extractLsb' 10 6 = 0x23#6 := by
    rw [← extract_join c 12 4 10 2 rfl, ← extract_join c 13 3 12 1 rfl, hf3, hb, hf2]; rfl
  subst hg
  simp (disch := decide) [-Nat.reduceAdd, encCA, ← hhigh, ← hq, extract_join]

theorem encCB_eq {c : BitVec 16} {f3 : BitVec 3} (hf3 : c.extractLsb' 13 3 = f3) (hq : c.extractLsb' 0 2 = 1#2) :
    encCB f3 (c.extractLsb' 7 3) (immCb c) = .half c := by
  subst hf3
  simp (disch := decide) [-Nat.reduceAdd, encCB, immCb, ← hq,
    extract_append_low, extract_append_high, extract_extract, extract_join]

theorem encCJ_eq {c : BitVec 16} {f3 : BitVec 3} (hf3 : c.extractLsb' 13 3 = f3) (hq : c.extractLsb' 0 2 = 1#2) :
    encCJ f3 (immCj c) = .half c := by
  subst hf3
  simp (disch := decide) [-Nat.reduceAdd, encCJ, immCj, ← hq,
    extract_append_low, extract_append_high, extract_extract, extract_join]

theorem encode_cAddi4spn_eq {c : BitVec 16} (hf3 : c.extractLsb' 13 3 = 0#3) (hq : c.extractLsb' 0 2 = 0#2) :
    encode (.cAddi4spn (c.extractLsb' 2 3) (immCiw c)) = .half c := by
  simp (disch := decide) [-Nat.reduceAdd, encode, immCiw, ← hf3, ← hq,
    extract_append_low, extract_append_high, extract_extract, extract_join]

theorem encode_cAddi16sp_eq {c : BitVec 16} (hf3 : c.extractLsb' 13 3 = 3#3) (hrd : c.extractLsb' 7 5 = 2#5)
    (hq : c.extractLsb' 0 2 = 1#2) : encode (.cAddi16sp (immC16sp c)) = .half c := by
  simp (disch := decide) [-Nat.reduceAdd, encode, immC16sp, ← hf3, ← hrd, ← hq,
    extract_append_low, extract_append_high, extract_extract, extract_join]

theorem encode_cSwsp_eq {c : BitVec 16} (hf3 : c.extractLsb' 13 3 = 6#3) (hq : c.extractLsb' 0 2 = 2#2) :
    encode (.cSwsp (c.extractLsb' 2 5) (immCSwsp c)) = .half c := by
  simp (disch := decide) [-Nat.reduceAdd, encode, immCSwsp, ← hf3, ← hq,
    extract_append_low, extract_append_high, extract_extract, extract_join]

theorem encode_cLwsp_eq {c : BitVec 16} (hf3 : c.extractLsb' 13 3 = 2#3) (hq : c.extractLsb' 0 2 = 2#2) :
    encode (.cLwsp (c.extractLsb' 7 5) (immCLwsp c)) = .half c := by
  refine encCI_eq hf3 ?_ rfl ?_ hq <;>
    simp (disch := decide) [-Nat.reduceAdd, immCLwsp,
      extract_append_low, extract_append_high, extract_extract, extract_join]

theorem immCi_high (c : BitVec 16) : (immCi c).extractLsb' 5 1 = c.extractLsb' 12 1 := by
  rw [immCi, extract_append_high _ _ _ _ (by decide)]; exact extract_all _

theorem immCi_low (c : BitVec 16) : (immCi c).extractLsb' 0 5 = c.extractLsb' 2 5 := by
  rw [immCi, extract_append_low _ _ _ _ (by decide)]; exact extract_all _

theorem encCI_immCi {c : BitVec 16} {f3 : BitVec 3} {rd : Reg} (hf3 : c.extractLsb' 13 3 = f3)
    (hrd : c.extractLsb' 7 5 = rd) (hq : c.extractLsb' 0 2 = 1#2) :
    encCI f3 ((immCi c).extractLsb' 5 1) rd ((immCi c).extractLsb' 0 5) 1#2 = .half c :=
  encCI_eq hf3 (immCi_high c).symm hrd (immCi_low c).symm hq

/-! ### Results that encode back -/

/-- What a decoding result accepts is well formed and encodes to the bits it was read from. -/
def Faithful (e : Enc) (r : Except Reject Instr) : Prop := ∀ i, r = .ok i → i.wf = true ∧ encode i = e

theorem Faithful.error {e : Enc} {r : Reject} : Faithful e (.error r) := fun _ h => by cases h

theorem Faithful.ok {e : Enc} {i : Instr} (hwf : i.wf = true) (henc : encode i = e) : Faithful e (.ok i) :=
  fun _ h => by cases h; exact ⟨hwf, henc⟩

theorem Faithful.ite {e : Enc} {p : Prop} [Decidable p] {a b : Except Reject Instr} (ha : p → Faithful e a)
    (hb : ¬ p → Faithful e b) : Faithful e (if p then a else b) := by
  split
  · exact ha ‹_›
  · exact hb ‹_›

theorem Faithful.unlessReserved {e : Enc} {reserved : Bool} {i : Instr} (hwf : reserved = false → i.wf = true)
    (henc : reserved = false → encode i = e) : Faithful e (unlessReserved reserved i) := by
  cases reserved with
  | true => exact .error
  | false => exact .ok (hwf rfl) (henc rfl)

/-- A row of a table that a field selects, in front of the rows after it. -/
theorem Faithful.row {e : Enc} {n : Nat} {field code : BitVec n} {i : Instr} {rest : Except Reject Instr}
    (hrest : field ≠ code → Faithful e rest) (hwf : i.wf = true := by rfl)
    (henc : field = code → encode i = e := by rintro rfl; rfl) :
    Faithful e (if field = code then .ok i else rest) :=
  .ite (fun h => .ok hwf (henc h)) hrest

/-- A row of a table in which every value of the field is taken. -/
theorem Faithful.rowOfFull {e : Enc} {n : Nat} {field code : BitVec n} {i rest : Instr}
    (hrest : field ≠ code → Faithful e (.ok rest)) (hwf : i.wf = true := by rfl)
    (henc : field = code → encode i = e := by rintro rfl; rfl) :
    Faithful e (.ok (if field = code then i else rest)) := by
  rw [apply_ite Except.ok]
  exact .row hrest hwf henc

/-! ### The 32-bit rows by funct3 and funct7 (R225-R227) -/

/-- The last of the eight values of funct3. -/
theorem funct3_eq_seven {f3 : BitVec 3} (h0 : f3 ≠ 0#3) (h1 : f3 ≠ 1#3) (h2 : f3 ≠ 2#3) (h3 : f3 ≠ 3#3) (h4 : f3 ≠ 4#3)
    (h5 : f3 ≠ 5#3) (h6 : f3 ≠ 6#3) : f3 = 7#3 := by bv_omega

theorem decodeLoad_faithful (f3 : BitVec 3) (rd rs1 : Reg) (imm : BitVec 12) :
    Faithful (encI imm rs1 f3 rd 0x03#7) (decodeLoad f3 rd rs1 imm) :=
  .row fun _ => .row fun _ => .row fun _ => .row fun _ => .row fun _ => .error

theorem decodeStore_faithful (f3 : BitVec 3) (rs1 rs2 : Reg) (imm : BitVec 12) :
    Faithful (encS imm rs2 rs1 f3 0x23#7) (decodeStore f3 rs1 rs2 imm) :=
  .row fun _ => .row fun _ => .row fun _ => .error

theorem decodeBranch_faithful (f3 : BitVec 3) (rs1 rs2 : Reg) (imm : BitVec 12) :
    Faithful (encB imm rs2 rs1 f3) (decodeBranch f3 rs1 rs2 imm) :=
  .row fun _ => .row fun _ => .row fun _ => .row fun _ => .row fun _ => .row fun _ => .error

/-- The immediate of a shift is funct7 and the shift amount. -/
theorem decodeOpImm_faithful (f7 : BitVec 7) (f3 : BitVec 3) (rd rs1 : Reg) (shamt : BitVec 5) :
    Faithful (encR f7 shamt rs1 f3 rd 0x13#7) (decodeOpImm f7 f3 rd rs1 (f7 ++ shamt) shamt) :=
  .row fun h0 => .row fun h2 => .row fun h3 => .row fun h4 => .row fun h6 => .row fun h7 =>
    .ite (by rintro rfl; exact .row fun _ => .error) fun h1 => by
      obtain rfl : f3 = 5#3 := by bv_omega
      exact .row fun _ => .row fun _ => .error

theorem decodeOp_faithful (f7 : BitVec 7) (f3 : BitVec 3) (rd rs1 rs2 : Reg) :
    Faithful (encR f7 rs2 rs1 f3 rd 0x33#7) (decodeOp f7 f3 rd rs1 rs2) := by
  refine .ite ?base fun _ => .ite ?alternate fun _ => .ite ?multiply fun _ => .error
  case base =>
    rintro rfl
    exact .rowOfFull fun h0 => .rowOfFull fun h1 => .rowOfFull fun h2 => .rowOfFull fun h3 => .rowOfFull fun h4 =>
      .rowOfFull fun h5 => .rowOfFull fun h6 => .ok rfl (by rw [funct3_eq_seven h0 h1 h2 h3 h4 h5 h6]; rfl)
  case alternate =>
    rintro rfl
    exact .row fun _ => .row fun _ => .error
  case multiply =>
    rintro rfl
    exact .rowOfFull fun h0 => .rowOfFull fun h1 => .rowOfFull fun h2 => .rowOfFull fun h3 => .rowOfFull fun h4 =>
      .rowOfFull fun h5 => .rowOfFull fun h6 => .ok rfl (by rw [funct3_eq_seven h0 h1 h2 h3 h4 h5 h6]; rfl)

/-- The rows of funct3 = 0 are whole words; the others are of the I format. -/
theorem decodeSystem_faithful {w : BitVec 32} {f3 : BitVec 3} {rd rs1 : Reg} {csr : BitVec 12}
    (h : encI csr rs1 f3 rd 0x73#7 = .word w) : Faithful (.word w) (decodeSystem w f3 rd rs1 csr) := by
  have hcsr : ∀ {code : BitVec 3} {i : Instr}, encode i = encI csr rs1 code rd 0x73#7 → f3 = code → encode i = .word w :=
    fun hi hf => by rw [hi, ← hf, h]
  exact .row (henc := hcsr rfl) fun _ => .row (henc := hcsr rfl) fun _ => .row (henc := hcsr rfl) fun _ =>
    .row (henc := hcsr rfl) fun _ => .row (henc := hcsr rfl) fun _ => .row (henc := hcsr rfl) fun _ =>
    .row fun _ => .row fun _ => .row fun _ => .row fun _ => .error

theorem decode32_faithful (w : BitVec 32) : Faithful (.word w) (decode32 w) := by
  refine .row (henc := encU_eq) fun _ => .row (henc := encU_eq) fun _ => .row (henc := encJ_eq) fun _ =>
    .ite (fun hop => .row (henc := fun hf3 => encI_eq rfl rfl hf3 rfl hop) fun _ => .error) fun _ =>
    .ite ?branch fun _ => .ite ?load fun _ => .ite ?store fun _ => .ite ?opImm fun _ => .ite ?op fun _ =>
    .ite ?miscMem fun _ => .ite ?system fun _ => .ite (fun _ => .error) fun _ => .error
  case branch => exact fun hop => encB_eq rfl rfl rfl hop ▸ decodeBranch_faithful _ _ _ _
  case load => exact fun hop => encI_eq rfl rfl rfl rfl hop ▸ decodeLoad_faithful _ _ _ _
  case store => exact fun hop => encS_eq rfl rfl rfl hop ▸ decodeStore_faithful _ _ _ _
  case opImm =>
    intro hop
    have himm : w.extractLsb' 25 7 ++ w.extractLsb' 20 5 = w.extractLsb' 20 12 := extract_join w 25 7 20 5 rfl
    have h := decodeOpImm_faithful (w.extractLsb' 25 7) (w.extractLsb' 12 3) (w.extractLsb' 7 5) (w.extractLsb' 15 5)
      (w.extractLsb' 20 5)
    rwa [encR_eq rfl rfl rfl rfl rfl hop, himm] at h
  case op => exact fun hop => encR_eq rfl rfl rfl rfl rfl hop ▸ decodeOp_faithful _ _ _ _ _
  case miscMem =>
    intro hop
    have hfence : w.extractLsb' 20 12 = w.extractLsb' 28 4 ++ w.extractLsb' 24 4 ++ w.extractLsb' 20 4 := by
      rw [extract_join w 28 4 24 4 rfl, extract_join w 24 (4 + 4) 20 4 rfl]
    exact .row (henc := fun hf3 => encI_eq hfence rfl hf3 rfl hop) fun _ =>
      .row (henc := fun hf3 => encI_eq rfl rfl hf3 rfl hop) fun _ => .error
  case system => exact fun hop => decodeSystem_faithful (encI_eq rfl rfl rfl rfl hop)

/-! ### The 16-bit rows by quadrant and funct3 (R231, R234) -/

/-- The bit that a shift amount leaves out, where it is not reserved. -/
theorem eq_zero_of_beq_one {b : BitVec 1} (h : (b == 1#1) = false) : b = 0#1 := by
  have := ne_of_beq_false h
  bv_omega

theorem decodeQ0_faithful {c : BitVec 16} (hq : c.extractLsb' 0 2 = 0#2) :
    Faithful (.half c) (decodeQ0 c (c.extractLsb' 13 3)) := by
  refine .ite ?addi4spn fun _ => .row (henc := fun hf3 => encCL_eq hf3 hq) fun _ =>
    .row (henc := fun hf3 => encCL_eq hf3 hq) fun _ => .error
  case addi4spn =>
    exact fun hf3 => .ite (fun _ => .error) fun _ =>
      .unlessReserved (fun hz => by simpa [Instr.wf] using hz) fun _ => encode_cAddi4spn_eq hf3 hq

theorem decodeCA_faithful {c : BitVec 16} (hf3 : c.extractLsb' 13 3 = 4#3) (hq : c.extractLsb' 0 2 = 1#2) :
    Faithful (.half c) (decodeCA c) := by
  refine .ite ?srli fun _ => .ite ?srai fun _ => .row ?registers (henc := ?andi)
  case srli => exact fun hf2 => .unlessReserved (fun _ => rfl) fun hb => encCBS_eq hf3 (eq_zero_of_beq_one hb) hf2 rfl hq
  case srai => exact fun hf2 => .unlessReserved (fun _ => rfl) fun hb => encCBS_eq hf3 (eq_zero_of_beq_one hb) hf2 rfl hq
  case andi => exact fun hf2 => encCBS_eq hf3 (immCi_high c).symm hf2 (immCi_low c).symm hq
  case registers =>
    intro hn2
    refine .ite (fun _ => .error) fun hb1 => ?_
    have hb : c.extractLsb' 12 1 = 0#1 := by bv_omega
    have hf2 : c.extractLsb' 10 2 = 3#2 := by bv_omega
    exact .row (henc := fun hg => encCA_eq hf3 hb hf2 hg hq) fun h0 =>
      .row (henc := fun hg => encCA_eq hf3 hb hf2 hg hq) fun h1 =>
      .row (henc := fun hg => encCA_eq hf3 hb hf2 hg hq) fun h2 =>
      .ok rfl (encCA_eq hf3 hb hf2 (by bv_omega) hq)

theorem decodeQ1_faithful {c : BitVec 16} (hq : c.extractLsb' 0 2 = 1#2) :
    Faithful (.half c) (decodeQ1 c (c.extractLsb' 13 3)) := by
  refine .ite ?addi fun h0 => .row (henc := fun hf3 => encCJ_eq hf3 hq) fun h1 =>
    .row (henc := fun hf3 => encCI_immCi hf3 rfl hq) fun h2 => .ite ?lui fun h3 =>
    .ite (fun hf3 => decodeCA_faithful hf3 hq) fun h4 => .row (henc := fun hf3 => encCJ_eq hf3 hq) fun h5 =>
    .row (henc := fun hf3 => encCB_eq hf3 hq) fun h6 => .ok rfl (encCB_eq (funct3_eq_seven h0 h1 h2 h3 h4 h5 h6) hq)
  case addi =>
    exact fun hf3 => .row (henc := fun hrd => encCI_immCi hf3 hrd hq) fun hrd =>
      .ok (by simpa [Instr.wf] using hrd) (encCI_immCi hf3 rfl hq)
  case lui =>
    exact fun hf3 => .ite
      (fun hrd => .unlessReserved (fun hz => by simpa [Instr.wf] using hz) fun _ => encode_cAddi16sp_eq hf3 hrd hq)
      (fun hrd => .unlessReserved (fun hz => by simpa [Instr.wf, hrd] using hz) fun _ => encCI_immCi hf3 rfl hq)

theorem decodeQ2_faithful {c : BitVec 16} (hq : c.extractLsb' 0 2 = 2#2) :
    Faithful (.half c) (decodeQ2 c (c.extractLsb' 13 3)) := by
  refine .ite ?slli fun _ => .ite ?lwsp fun _ => .ite ?register fun _ =>
    .row (henc := fun hf3 => encode_cSwsp_eq hf3 hq) fun _ => .error
  case slli =>
    exact fun hf3 => .unlessReserved (fun _ => rfl) fun hb =>
      encCI_eq hf3 (eq_zero_of_beq_one hb) rfl rfl hq
  case lwsp =>
    exact fun hf3 => .unlessReserved (fun hz => by simpa [Instr.wf] using hz) fun _ => encode_cLwsp_eq hf3 hq
  case register =>
    intro hf3
    refine .ite (fun hb => .ite ?jr ?mv) fun hb0 => ?_
    case jr =>
      exact fun hrs2 => .unlessReserved (fun hz => by simpa [Instr.wf] using hz) fun _ => encCI_eq hf3 hb rfl hrs2 hq
    case mv => exact fun hrs2 => .ok (by simpa [Instr.wf] using hrs2) (encCI_eq hf3 hb rfl rfl hq)
    have hb : c.extractLsb' 12 1 = 1#1 := by bv_omega
    refine .ite (fun hrs2 => .row ?jalr (henc := ?ebreak)) ?add
    case ebreak => exact fun hrd => encCI_eq hf3 hb hrd hrs2 hq
    case jalr => exact fun hrd => .ok (by simpa [Instr.wf] using hrd) (encCI_eq hf3 hb rfl hrs2 hq)
    case add => exact fun hrs2 => .ok (by simpa [Instr.wf] using hrs2) (encCI_eq hf3 hb rfl rfl hq)

theorem decode16_faithful (c : BitVec 16) : Faithful (.half c) (decode16 c) :=
  .ite decodeQ0_faithful fun _ => .ite decodeQ1_faithful fun _ => .ite decodeQ2_faithful fun _ => .error

/-- Settles O2: every row of the decoder's tables is put together again from the fields it was told by and read from. -/
theorem encodeDecode : Obligations.EncodeDecode
  | .half c => decode16_faithful c
  | .word w => decode32_faithful w

end Sys2Proof.Laws
end

section
/-! PROOFS. The compressed computations with an immediate (44_compressed.md R351-R370), and the instruction a step runs
(30_encoding.md R236, 60_exceptions.md R475). -/

namespace Sys2Proof.Machine

/-! ### Scaled immediates and shifts as arithmetic -/

/-- A field with zero bits below it, sign-extended, is the signed field scaled. -/
theorem signExtend_append_zero {n : Nat} (x : BitVec n) (k m : Nat) :
    (x ++ 0#k).signExtend m = BitVec.ofInt m (2 ^ k * x.toInt) := by
  rw [BitVec.signExtend, BitVec.toInt_append_zero, mul_comm]

/-- A field with zero bits below it, zero-extended, is the unsigned field scaled. -/
theorem setWidth_append_zero {n : Nat} (x : BitVec n) (k m : Nat) :
    (x ++ 0#k).setWidth m = BitVec.ofNat m (2 ^ k * x.toNat) := by
  apply BitVec.eq_of_toNat_eq
  simp [BitVec.toNat_append, Nat.shiftLeft_eq, mul_comm]

theorem shiftLeft_eq_ofNat (x : Word) (k : Nat) : x <<< k = BitVec.ofNat 32 (x.toNat * 2 ^ k) := by
  apply BitVec.eq_of_toNat_eq
  rw [BitVec.toNat_shiftLeft, BitVec.toNat_ofNat, Nat.shiftLeft_eq]

theorem ushiftRight_eq_ofNat (x : Word) (k : Nat) : x >>> k = BitVec.ofNat 32 (x.toNat / 2 ^ k) := by
  rw [← Nat.shiftRight_eq_div_pow, ← BitVec.toNat_ushiftRight, BitVec.ofNat_toNat, BitVec.setWidth_eq]

theorem sshiftRight_eq_ofInt (x : Word) (k : Nat) : x.sshiftRight k = BitVec.ofInt 32 (x.toInt / 2 ^ k) := by
  rw [BitVec.sshiftRight, Int.shiftRight_eq_div_pow]
  norm_cast

/-! ### Computations -/

/-- An instruction that is an ALU operation computes its value. -/
theorem Computes.aluOp {s : State} {len : Len} {rd : Reg} {v w : Word} (h : v = w) :
    Computes (.next (s.aluOp len rd v)) len 15 rd w s :=
  h ▸ ⟨_, rfl, s.aluOp_spec len rd v⟩

/-- Settles O8: each form is an ALU operation of length 2 on its scaled immediate; c.nop is one that writes x0. -/
theorem compressedImmediate : Obligations.CompressedImmediate := by
  intro s rd c imm nz sh r
  refine ⟨.aluOp ?addi4spn, ⟨_, rfl, s.aluOp_spec .half 0#5 0#32⟩, .aluOp rfl, .aluOp rfl, .aluOp ?addi16sp, .aluOp ?lui,
    .aluOp (ushiftRight_eq_ofNat _ _), .aluOp (sshiftRight_eq_ofInt _ _), .aluOp rfl, .aluOp (shiftLeft_eq_ofNat _ _)⟩
  case addi4spn => exact congrArg (s.getReg 2#5 + ·) (setWidth_append_zero nz 2 32)
  case addi16sp => exact congrArg (s.getReg 2#5 + ·) (signExtend_append_zero imm 4 32)
  case lui => exact signExtend_append_zero imm 12 32

/-! ### The instruction of a step -/

/-- A fetch that the decoder accepts, with no trigger firing, is followed by the instruction's own effect. -/
theorem State.runInstr_exec {s t : State} {enc : Enc} {i : Instr} (hf : s.fetch = .ok enc t) (hd : decode enc = .ok i)
    (ht : (t.traceInsn enc.bits).triggers ((t.traceInsn enc.bits).memOp i) = .no) :
    s.runInstr = (true, exec i (t.traceInsn enc.bits)) := by
  simp only [State.runInstr, hf, hd, State.runDecoded, ht]

/-- When nothing is asked for, no interrupt is to be taken and the hart is not in PAUSE, it runs an instruction (R475). -/
theorem State.Ready.hartStep {s : State} (h : s.Ready) (hi : s.interruptNow = none) (hp : s.paused = false) :
    s.hartStep = s.runInstr := by
  simp [State.hartStep, h.running, State.runningStep, h.halt, h.pmu, h.nmi, hi, hp]

/-- A step without events of a hart that is ready is the hart's step and its end. -/
theorem step_of_ready {s : State} (he : s.beginStep.env.events = []) (h : s.beginStep.Ready) :
    step s = finishStep s.beginStep.hartStep := by
  have hevents : s.beginStep.applyEvents s.beginStep.env.events = some s.beginStep := by
    rw [he]; exact h.settleResets
  simp [step, State.stepOnce, hevents, State.afterEvents, h.test, h.reset]

/-- Settles O33: no event and nothing of higher priority comes before the instruction. -/
theorem stepRunsDecoded : Obligations.StepRunsDecoded := by
  intro s s1 enc i he hr hi hp hf hd ht
  have hstep : step s = finishStep (true, exec i (s1.traceInsn enc.bits)) := by
    rw [step_of_ready he hr, hr.hartStep hi hp, State.runInstr_exec hf hd ht]
  exact ⟨hstep, fun t hx => by rw [hstep, hx]; rfl⟩

end Sys2Proof.Machine
end

section
/-! PROOFS. The integer computational instructions (40_integer_computational.md R261-R281). -/

namespace Sys2Proof.Machine

/-! ### Comparisons and shift amounts as arithmetic -/

/-- The 0 or 1 of a comparison that is decided (R264, R265). -/
theorem bitWord_decide (p : Prop) [Decidable p] : bitWord (decide p) = if p then 1#32 else 0#32 := by
  simp only [bitWord, decide_eq_true_eq]

theorem sltWord_eq_ite (a b : Word) : sltWord a b = if a.toInt < b.toInt then 1#32 else 0#32 := by
  rw [sltWord, BitVec.slt_eq_decide, bitWord_decide]

theorem sltuWord_eq_ite (a b : Word) : sltuWord a b = if a.toNat < b.toNat then 1#32 else 0#32 := by
  rw [sltuWord, BitVec.ult_eq_decide, bitWord_decide]

/-- The low five bits of a register, by which it is an amount to shift by (R274, R278, R279). -/
theorem toNat_extractLsb'_five (b : Word) : (b.extractLsb' 0 5).toNat = b.toNat % 32 := by
  rw [BitVec.extractLsb'_toNat, Nat.shiftRight_zero]

/-! ### Each instruction is an ALU operation on its operands -/

/-- Settles O4: each is an ALU operation of length 4; only the comparisons and the shifts need arithmetic. -/
theorem aluRegister : Obligations.AluRegister := by
  intro s rd rs1 rs2 a b k
  have hk : k = b.toNat % 32 := toNat_extractLsb'_five b
  refine ⟨⟨.aluOp rfl, rfl⟩, ⟨.aluOp rfl, rfl⟩, ⟨.aluOp ?sll, rfl⟩, ⟨.aluOp (sltWord_eq_ite a b), rfl⟩,
    ⟨.aluOp (sltuWord_eq_ite a b), rfl⟩, ⟨.aluOp rfl, rfl⟩, ⟨.aluOp ?srl, rfl⟩, ⟨.aluOp ?sra, rfl⟩, ⟨.aluOp rfl, rfl⟩,
    ⟨.aluOp rfl, rfl⟩⟩
  case sll => rw [hk]; exact shiftLeft_eq_ofNat a _
  case srl => rw [hk]; exact ushiftRight_eq_ofNat a _
  case sra => rw [hk]; exact sshiftRight_eq_ofInt a _

/-- Settles O5: each is an ALU operation of length 4 on its extended immediate; the shifts take their amount from the word itself. -/
theorem aluImmediate : Obligations.AluImmediate := by
  intro s rd rs1 imm sh up a b
  exact ⟨⟨.aluOp rfl, rfl⟩, ⟨.aluOp rfl, rfl⟩, ⟨.aluOp rfl, rfl⟩, ⟨.aluOp (sltWord_eq_ite a b), rfl⟩,
    ⟨.aluOp (sltuWord_eq_ite a b), rfl⟩, ⟨.aluOp rfl, rfl⟩, ⟨.aluOp rfl, rfl⟩, ⟨.aluOp rfl, rfl⟩,
    ⟨.aluOp (shiftLeft_eq_ofNat a _), rfl⟩, ⟨.aluOp (ushiftRight_eq_ofNat a _), rfl⟩,
    ⟨.aluOp (sshiftRight_eq_ofInt a _), rfl⟩⟩

end Sys2Proof.Machine
end

section
/-! PROOFS. Control transfer (41_control_transfer.md R300-R309, 44_compressed.md R356, R367-R369, R372, R375). -/

namespace Sys2Proof.Machine

/-! ### Targets -/

/-- An offset with bit 0 left out of the instruction, sign-extended, is twice its signed field (R301, R233). -/
theorem signExtend_append_bit_zero {n : Nat} (x : BitVec n) :
    (x ++ 0#1).signExtend 32 = BitVec.ofInt 32 (2 * x.toInt) := signExtend_append_zero x 1 32

/-- The compressed register jumps add no offset (R372, R375). -/
theorem State.jumpTarget_zero (s : State) (rs1 : Reg) : s.jumpTarget rs1 0#32 = s.getReg rs1 &&& 0xFFFFFFFE#32 := by
  rw [State.jumpTarget, BitVec.add_zero]

/-! ### Unconditional transfers -/

/-- A value that is sent to x0 is discarded (R20), so it does not matter which. -/
theorem Retires.discard {len : Len} {es open_ : List Nat} {v next : Word} {s t : State}
    (h : Retires len es open_ 0#5 v next s t) (w : Word) : Retires len es open_ 0#5 w next s t :=
  { h with reg := fun r => by simpa using h.reg r }

/-- An unconditional transfer links the sequential address and goes to its target. -/
theorem State.jumpOp_retires (s : State) (len : Len) (rd : Reg) {target next : Word} (h : target = next) :
    ∃ t, Host.Outcome.next (s.jumpOp len rd target) = (.next t : Host.Outcome State Fault Refusal) ∧
      Retires len [] [15, 24, 26] rd (s.pc + len.bytes) next s t :=
  h ▸ ⟨_, rfl, s.jumpOp_spec len rd target⟩

/-- An unconditional transfer that links to x0 writes no register. -/
theorem State.jumpOp_zero_retires (s : State) (len : Len) {target next : Word} (h : target = next) :
    ∃ t, Host.Outcome.next (s.jumpOp len 0#5 target) = (.next t : Host.Outcome State Fault Refusal) ∧
      Retires len [] [15, 24, 26] 0#5 0#32 next s t :=
  h ▸ ⟨_, rfl, (s.jumpOp_spec len 0#5 target).discard 0#32⟩

/-- Settles O10: each is a jump whose target is the scaled offset from the pc, or the register's value with bit 0 cleared. -/
theorem jumps : Obligations.Jumps := by
  intro s rd rs1 off imm c
  have hoff {n : Nat} (x : BitVec n) : s.pc + (x ++ 0#1).signExtend 32 = s.pc + BitVec.ofInt 32 (2 * x.toInt) :=
    congrArg (s.pc + ·) (signExtend_append_bit_zero x)
  exact ⟨s.jumpOp_retires .word rd (hoff off), s.jumpOp_retires .word rd rfl, s.jumpOp_zero_retires .half (hoff c),
    s.jumpOp_retires .half ra (hoff c), s.jumpOp_zero_retires .half (s.jumpTarget_zero rs1),
    s.jumpOp_retires .half ra (s.jumpTarget_zero rs1)⟩

/-! ### Conditional branches -/

theorem condEq_iff (a b : Word) : condEq a b = true ↔ a = b := beq_iff_eq

theorem condNe_iff (a b : Word) : condNe a b = true ↔ a ≠ b := bne_iff_ne

theorem condLt_iff (a b : Word) : condLt a b = true ↔ a.toInt < b.toInt := BitVec.slt_iff_toInt_lt

theorem condGe_iff (a b : Word) : condGe a b = true ↔ b.toInt ≤ a.toInt := by
  rw [condGe, BitVec.slt_eq_decide, Bool.not_eq_true', decide_eq_false_iff_not, not_lt]

theorem condLtu_iff (a b : Word) : condLtu a b = true ↔ a.toNat < b.toNat := BitVec.ult_iff_toNat_lt

theorem condGeu_iff (a b : Word) : condGeu a b = true ↔ b.toNat ≤ a.toNat := by
  rw [condGeu, BitVec.ult_eq_decide, Bool.not_eq_true', decide_eq_false_iff_not, not_lt]

/-- A branch operation whose flag decides the condition branches on it, by twice its signed field. -/
theorem Branches.branchOp {s : State} {len : Len} {taken : Bool} {p : Prop} {n : Nat} {x : BitVec n}
    (h : taken = true ↔ p) :
    Branches (.next (s.branchOp len taken ((x ++ 0#1).signExtend 32))) len p (2 * x.toInt) s := by
  have hspec := s.branchOp_spec len taken ((x ++ 0#1).signExtend 32)
  rw [signExtend_append_bit_zero] at hspec ⊢
  refine ⟨_, rfl, fun hp => ?taken, fun hp => ?notTaken⟩
  case taken =>
    obtain rfl := h.mpr hp
    exact hspec
  case notTaken =>
    obtain rfl := Bool.eq_false_of_not_eq_true (mt h.mp hp)
    exact hspec

/-- Settles O11: each is a branch operation on the flag of its own condition. -/
theorem conditionalBranches : Obligations.ConditionalBranches := by
  intro s rs1 rs2 imm c ci a b off enc encC
  exact ⟨⟨.branchOp (condEq_iff a b), rfl⟩, ⟨.branchOp (condNe_iff a b), rfl⟩, ⟨.branchOp (condLt_iff a b), rfl⟩,
    ⟨.branchOp (condGe_iff a b), rfl⟩, ⟨.branchOp (condLtu_iff a b), rfl⟩, ⟨.branchOp (condGeu_iff a b), rfl⟩,
    ⟨.branchOp (condEq_iff _ 0#32), rfl⟩, ⟨.branchOp (condNe_iff _ 0#32), rfl⟩⟩

end Sys2Proof.Machine
end

section
/-! PROOFS. Words of the encoding tables (30_encoding.md R221-R234, 95_test_vectors.md 2.1). -/

namespace Sys2Proof.Laws

/-- The bits a well-formed instruction is encoded as decode to it, so a word is checked against the encoder's table row. -/
theorem decode_of_encode_eq {e : Enc} {i : Instr} (hwf : i.wf = true) (he : encode i = e) : decode e = .ok i :=
  he ▸ (decodeEncode i hwf).1

/-- A parcel of quadrant 2 with funct3 010 and rd = x0 is the reserved c.lwsp (R234). -/
theorem decode_cLwsp_zero {c : BitVec 16} (hq : c.extractLsb' 0 2 = 2#2) (hf3 : c.extractLsb' 13 3 = 2#3)
    (hrd : c.extractLsb' 7 5 = 0#5) : decode (.half c) = .error .reserved16 := by
  simp [decode, decode16, decodeQ2, unlessReserved, hq, hf3, hrd]

/-- Every word whose low five bits are ones has a length code above 32 bits (R221): no row of the opcode table ends so. -/
theorem decode_longEncoding {w : BitVec 32} (h : w.extractLsb' 0 5 = 0x1F#5) : decode (.word w) = .error .longEncoding := by
  have hlen : w.extractLsb' 2 3 = 7#3 :=
    (extract_extract w 0 5 2 3 (by decide)).symm.trans (by rw [h]; rfl)
  have hop (op : BitVec 7) (hne : op.extractLsb' 0 5 ≠ 0x1F#5) : w.extractLsb' 0 7 ≠ op := by
    rintro rfl
    exact hne ((extract_extract w 0 7 0 5 (by decide)).trans h)
  simp [decode, decode32, hop, hlen]

/-- Settles O3: each accepted word is what the encoder writes for its instruction; the others are the all-zero parcel, the reserved
c.lwsp and a length code above 32 bits. -/
theorem decodeWords : Obligations.DecodeWords := by
  unfold Obligations.DecodeWords
  exact ⟨decode_of_encode_eq rfl rfl, decode_of_encode_eq rfl rfl, decode_of_encode_eq rfl rfl, decode_of_encode_eq rfl rfl,
    decode_of_encode_eq rfl rfl, decode_of_encode_eq rfl rfl, decode_of_encode_eq rfl rfl, decode_of_encode_eq rfl rfl,
    decode_of_encode_eq rfl rfl, decode_of_encode_eq rfl rfl, decode_of_encode_eq rfl rfl, decode_of_encode_eq rfl rfl,
    rfl, decode_cLwsp_zero rfl rfl rfl, decode_longEncoding rfl⟩

end Sys2Proof.Laws
end

section
/-! PROOFS. Multiplication and division (43_mul_div.md R340-R349). -/

namespace Sys2Proof.Machine

/-- A multiplication or division computes its value and counts its event. -/
theorem Computes.mulOp {s : State} {event : Nat} {rd : Reg} {v w : Word} (h : v = w) :
    Computes (.next (s.mulOp event rd v)) .word event rd w s :=
  h ▸ ⟨_, rfl, s.mulOp_spec event rd v⟩

/-! ### The halves of a product -/

/-- The low half of the product of the signed values is the product of the words (R341). -/
theorem mul_eq_ofInt (a b : Word) : a * b = BitVec.ofInt 32 (a.toInt * b.toInt) := by
  rw [BitVec.ofInt_mul, BitVec.ofInt_toInt, BitVec.ofInt_toInt]

/-- Bits 63:32 of an integer are those of its 64-bit word, whatever its sign (R342-R344). -/
theorem highWord_eq_extractLsb' (p : Int) : highWord p = (BitVec.ofInt 64 p).extractLsb' 32 32 := by
  apply BitVec.eq_of_toNat_eq
  rw [highWord, BitVec.toNat_ofInt, BitVec.extractLsb'_toNat, BitVec.toNat_ofInt, Nat.shiftRight_eq_div_pow]
  omega

/-- The same for a product of unsigned values (R344). -/
theorem highWord_natCast (n : Nat) : highWord n = (BitVec.ofNat 64 n).extractLsb' 32 32 := by
  rw [highWord_eq_extractLsb', BitVec.ofInt_natCast]

/-- Settles O6: each writes a half of the exact product of its operands' values. -/
theorem multiply : Obligations.Multiply := by
  intro s rd rs1 rs2 a b
  exact ⟨⟨.mulOp (mul_eq_ofInt a b), rfl⟩, ⟨.mulOp (highWord_eq_extractLsb' _), rfl⟩,
    ⟨.mulOp (highWord_eq_extractLsb' _), rfl⟩, ⟨.mulOp (highWord_natCast (a.toNat * b.toNat)), rfl⟩⟩

/-! ### Division by zero and the signed overflow -/

theorem divSigned_zero (a : Word) : divSigned a 0#32 = 0xFFFFFFFF#32 := if_pos rfl

theorem divUnsigned_zero (a : Word) : divUnsigned a 0#32 = 0xFFFFFFFF#32 := if_pos rfl

theorem remSigned_zero (a : Word) : remSigned a 0#32 = a := if_pos rfl

theorem remUnsigned_zero (a : Word) : remUnsigned a 0#32 = a := if_pos rfl

theorem divSigned_overflow : divSigned 0x80000000#32 0xFFFFFFFF#32 = 0x80000000#32 := by decide

theorem remSigned_overflow : remSigned 0x80000000#32 0xFFFFFFFF#32 = 0#32 := by decide

/-! ### The ordinary quotients and remainders fit in a word -/

/-- Only -2^31 / -1 leaves the signed range (R345). -/
theorem toInt_divSigned {a b : Word} (hb : b ≠ 0#32) (hov : ¬ (a = 0x80000000#32 ∧ b = 0xFFFFFFFF#32)) :
    (divSigned a b).toInt = a.toInt.tdiv b.toInt := by
  rw [divSigned, if_neg hb, if_neg hov, BitVec.toInt_ofInt, ← BitVec.toInt_sdiv]
  exact BitVec.toInt_sdiv_of_ne_or_ne a b (not_and_or.mp hov)

/-- What the quotient toward zero leaves is smaller than the divisor, so it is always in range (R347). -/
theorem toInt_remSigned {a b : Word} (hb : b ≠ 0#32) (hov : ¬ (a = 0x80000000#32 ∧ b = 0xFFFFFFFF#32)) :
    (remSigned a b).toInt = a.toInt - b.toInt * a.toInt.tdiv b.toInt := by
  rw [remSigned, if_neg hb, if_neg hov, ← Int.tmod_def, ← BitVec.toInt_srem, BitVec.ofInt_toInt]

theorem toNat_divUnsigned {a b : Word} (hb : b ≠ 0#32) : (divUnsigned a b).toNat = a.toNat / b.toNat := by
  rw [divUnsigned, if_neg hb, ← BitVec.toNat_udiv, BitVec.ofNat_toNat, BitVec.setWidth_eq]

theorem toNat_remUnsigned {a b : Word} (hb : b ≠ 0#32) : (remUnsigned a b).toNat = a.toNat % b.toNat := by
  rw [remUnsigned, if_neg hb, ← BitVec.toNat_umod, BitVec.ofNat_toNat, BitVec.setWidth_eq]

/-- Settles O7: each writes the quotient or the remainder its own cases name. -/
theorem divide : Obligations.Divide := by
  intro s rd rs1 rs2 a b
  refine ⟨⟨divSigned a b, .mulOp rfl, ?divZero, ?divOverflow, toInt_divSigned⟩,
    ⟨divUnsigned a b, .mulOp rfl, ?divuZero, toNat_divUnsigned⟩,
    ⟨remSigned a b, .mulOp rfl, ?remZero, ?remOverflow, toInt_remSigned⟩,
    ⟨remUnsigned a b, .mulOp rfl, ?remuZero, toNat_remUnsigned⟩, rfl, rfl, rfl, rfl⟩
  case divZero => exact fun hb => by rw [hb, divSigned_zero]
  case divuZero => exact fun hb => by rw [hb, divUnsigned_zero]
  case remZero => exact fun hb => by rw [hb, remSigned_zero]
  case remuZero => exact fun hb => by rw [hb, remUnsigned_zero]
  case divOverflow => exact fun ha hb => by rw [ha, hb, divSigned_overflow]
  case remOverflow => exact fun ha hb => by rw [ha, hb, remSigned_overflow]

end Sys2Proof.Machine
end

section
/-! PROOFS. The compressed computations on registers (44_compressed.md R363-R366, R373, R376), and `ebreak` with `c.ebreak`
(44_compressed.md R374, 45_system_csr_fence.md R410, R612, R613). -/

namespace Sys2Proof.Machine

/-! ### Compressed computations on registers -/

/-- Settles O9: each is an ALU operation of length 2 on the registers its fields name, and its row of the encoder is its format. -/
theorem compressedRegister : Obligations.CompressedRegister := by
  intro s rd rs2 c d r q
  exact ⟨⟨.aluOp rfl, rfl⟩, ⟨.aluOp rfl, rfl⟩, ⟨.aluOp rfl, rfl⟩, ⟨.aluOp rfl, rfl⟩, ⟨.aluOp rfl, rfl⟩, ⟨.aluOp rfl, rfl⟩⟩

/-! ### Events counted before an exception or a halt -/

/-- Counting events changes the state in the event counters only. -/
theorem State.countEvents_eq (s : State) (es : List Nat) :
    s.countEvents es = { s with csr := { s.csr with mhpm := (s.countEvents es).csr.mhpm } } := by
  unfold State.countEvents
  split <;> rfl

/-- Events counted first and events counted after them are counted together. -/
theorem Counted.of_countEvents {s t : State} {es fs open_ : List Nat} (h : Counted (s.countEvents es) t fs open_) :
    Counted s t (es ++ fs) open_ := by
  intro i hi
  have hsel : (s.countEvents es).csr.mhpmevent = s.csr.mhpmevent := by rw [State.countEvents_csr]
  have hen : (s.countEvents es).counting = s.counting := by rw [State.countEvents_eq]; rfl
  have hlater := h i (by rw [hsel]; exact hi)
  rw [hsel, hen, State.countEvents_get] at hlater
  rw [hlater, List.count_append, BitVec.ofNat_add, ← BitVec.add_assoc]
  split <;> rfl

/-- An exception of an instruction that counts its own events first counts them besides its own. -/
theorem Traps.of_countEvents {s t : State} {cause tval target : Word} {es fs : List Nat}
    (h : Traps cause tval target fs (s.countEvents es) t) : Traps cause tval target (es ++ fs) s t := by
  have hcounts := h.counts.of_countEvents
  rw [State.countEvents_eq] at h
  obtain ⟨hmepc, hmcause, hmtval, hmpie, hmie, hmstatus, hpc, _, hframe, hmem⟩ := h
  exact ⟨hmepc, hmcause, hmtval, hmpie, hmie, hmstatus, hpc, hcounts, hframe, hmem.data, hmem.iccm⟩

/-! ### `ebreak` and `c.ebreak` -/

/-- Both forms are the common ebreak operation (R374). -/
theorem exec_ebreakOp {i : Instr} (h : i = .ebreak ∨ i = .cEbreak) (s : State) : exec i s = .next s.ebreakOp := by
  rcases h with rfl | rfl <;> rfl

/-- With dcsr.ebreakm = 0 it counts event 19 and takes the breakpoint exception (R410). -/
theorem State.ebreakOp_exception {s : State} (h : s.ebreakm = false) :
    s.ebreakOp = (s.countEvents [19]).takeException (breakpoint s.pc) := by
  rw [State.ebreakOp, h]; rfl

/-- With dcsr.ebreakm = 1 it enters Debug Mode with cause 1, having counted on the event counters at most (R574, R612). -/
theorem State.ebreakOp_debug {s : State} (h : s.ebreakm = true) :
    ∃ counters, s.ebreakOp = State.enterDebug 1#3 true { s with csr := { s.csr with mhpm := counters } } := by
  rw [State.ebreakOp, if_pos h]
  split
  · exact ⟨s.csr.mhpm, rfl⟩
  · exact ⟨_, congrArg (State.enterDebug 1#3 true) (s.countEvents_eq [19])⟩

/-- Debug Mode is entered with both buffers empty and every transaction answered (R613). -/
theorem State.enterDebug_lsu (s : State) (c : BitVec 3) (core : Bool) :
    (s.enterDebug c core).lsu = { wbuf := [], busOut := [] } := by
  have hlsu := s.quiesce_lsu
  unfold State.enterDebug
  dsimp only
  split <;> exact hlsu

/-- A core debug halt action is on record as a reason to be halted (R613). -/
theorem State.enterDebug_dbgHalt (s : State) (c : BitVec 3) : (s.enterDebug c true).hart.dbgHalt = true :=
  Bool.or_true _

/-- The breakpoint output tells of an ebreak (R613, cause 1). -/
theorem State.enterDebug_brkpt (s : State) (core : Bool) : (s.enterDebug 1#3 core).outs.brkpt = true := by
  simp [State.enterDebug]

/-- A breakpoint is no interrupt (R431). -/
theorem breakpoint_sync (pc : Word) : (breakpoint pc).cause.getLsbD 31 = false := by
  show (3#32).getLsbD 31 = false
  decide

/-- Settles O23: event 19 is counted, then the exception is taken at the instruction's own address. -/
theorem ebreakRaises : Obligations.EbreakRaises := by
  intro s i hi hm
  have htrap := ((s.countEvents [19]).takeException_spec (breakpoint_sync s.pc)).of_countEvents
  rw [State.countEvents_csr] at htrap
  exact ⟨_, by rw [exec_ebreakOp hi, State.ebreakOp_exception hm], htrap⟩

/-- Settles O24: counting has changed none of the fields named, and entering Debug Mode drains the buffers and keeps the trap CSRs. -/
theorem ebreakEntersDebugMode : Obligations.EbreakEntersDebugMode := by
  intro s i hi hm
  obtain ⟨counters, hop⟩ := State.ebreakOp_debug hm
  refine ⟨_, (exec_ebreakOp hi s).trans (congrArg Host.Outcome.next hop), rfl, State.enterDebug_dbgHalt _ _, ?dpc, ?dcsr,
    State.enterDebug_lsu _ _ _, fun r => State.getReg_congr (State.enterDebug_x _ _ _) r, ?mepc, ?mcause, ?mtval, ?mstatus,
    ?minstret, State.enterDebug_brkpt _ _⟩
  case dcsr => rw [State.enterDebug_csr]; rfl
  all_goals rw [State.enterDebug_csr]

end Sys2Proof.Machine
end

section
/-! PROOFS. The system and CSR instructions (45_system_csr_fence.md R403-R417). -/

namespace Sys2Proof.Machine

/-! ### `ecall`, `mret`, `wfi` -/

/-- Settles O22: event 20 is counted, then the exception is taken. -/
theorem ecallRaises : Obligations.EcallRaises := by
  refine ⟨rfl, fun s => ⟨_, rfl, ?_⟩⟩
  have htrap := ((s.countEvents [20]).takeException_spec (e := ⟨11#32, 0#32⟩) (by decide)).of_countEvents
  rw [State.countEvents_csr] at htrap
  exact htrap

/-- Settles O26: it retires as an ALU operation whose destination is x0. -/
theorem wfiIsNop : Obligations.WfiIsNop :=
  ⟨rfl, fun s => ⟨s.aluOp .word 0#5 0#32, rfl, State.aluOp_spec s .word 0#5 0#32⟩⟩

/-- mie takes mpie on mret (R447). -/
theorem mstatusReturn_mie (m : Word) : (mstatusReturn m).getLsbD 3 = m.getLsbD 7 := by
  unfold mstatusReturn
  cases h : m.getLsbD 7 <;> simp

/-- mpie is set by mret (R447). -/
theorem mstatusReturn_mpie (m : Word) : (mstatusReturn m).getLsbD 7 = true := by
  unfold mstatusReturn
  simp

/-- mret keeps the other bits of mstatus (R447). -/
theorem mstatusReturn_rest (m : Word) : mstatusReturn m &&& ~~~0x88#32 = m &&& ~~~0x88#32 := by
  unfold mstatusReturn
  rw [BitVec.or_assoc, and_or_mask, show (~~~0x88#32 &&& ~~~0x88#32 : Word) = ~~~0x88#32 from rfl]
  cases m.getLsbD 7 <;> exact BitVec.or_zero

/-- Retiring changes minstret and the event counters only. -/
theorem State.retire_eq (s : State) (len : Len) (es : List Nat) :
    s.retire len es =
      { s with csr := { s.csr with minstret := s.csr.minstret + 1#64, mhpm := (s.retire len es).csr.mhpm } } :=
  State.countEvents_eq s.bumpInstret (4 :: Len.event len :: es)

/-- Settles O25: the retirement changes counters only, the return mstatus and the pc. -/
theorem mretReturns : Obligations.MretReturns := by
  refine ⟨rfl, fun s => ⟨(s.retire .word [23]).returnFromTrap, rfl, ?_⟩⟩
  have hcounts : Counted s (s.retire .word [23]).returnFromTrap [4, 6, 23] [] := State.retire_counted s .word [23] []
  rw [State.retire_eq] at hcounts ⊢
  exact ⟨rfl, mstatusReturn_mie _, mstatusReturn_mpie _, mstatusReturn_rest _, hcounts,
    sameMemory_of rfl rfl rfl rfl rfl, rfl⟩

/-! ### The CSR instructions are `csrOp` -/

/-- Every CSR instruction is the common CSR operation on its form (R403-R408). -/
theorem exec_csrOf {s : State} {i : Instr} {f : CsrForm} (h : s.csrOf i = some f) :
    exec i s = .next (s.csrOp i f.rd f.csr f.write f.new) := by
  cases i <;> cases h <;> rfl

/-- No access to an address without a CSR, to a CSR of Debug Mode, or by a write to a read-only address (R412, R413, R416). -/
theorem csrLegal_eq_none {a : BitVec 12} {write : Bool}
    (h : csrAt a = none ∨ (∃ n, csrAt a = some n ∧ n.debugOnly = true) ∨ (write = true ∧ a.extractLsb' 10 2 = 3#2)) :
    csrLegal a write = none := by
  unfold csrLegal
  rcases h with hnone | ⟨n, hn, hdebug⟩ | ⟨hwrite, hro⟩
  · rw [hnone]
  · simp [hn, hdebug]
  · cases csrAt a <;> simp [hwrite, hro]

/-- Every other access is to the CSR at the address. -/
theorem csrLegal_eq_some {a : BitVec 12} {write : Bool} {n : CsrName} (hn : csrAt a = some n) (hdebug : n.debugOnly = false)
    (hro : write = true → a.extractLsb' 10 2 ≠ 3#2) : csrLegal a write = some n := by
  unfold csrLegal
  cases write
  · simp [hn, hdebug]
  · simp [hn, hdebug, hro rfl]

/-- Settles O28: the access is refused, and the exception is Illegal instruction with the instruction's bits. -/
theorem illegalCsrAccess : Obligations.IllegalCsrAccess := by
  intro s i f hf hillegal
  refine ⟨s.takeException (illegal (encode i).bits), ?_, State.takeException_spec s (e := illegal _) ?_⟩
  · rw [exec_csrOf hf, State.csrOp, csrLegal_eq_none hillegal]
  · show (2#32).getLsbD 31 = false
    decide

/-! ### A CSR instruction between its retirement and its write (R417) -/

/-- A CSR instruction that has read CSR `n`, retired and gone on, and not yet written. -/
def State.csrRetired (s : State) (n : CsrName) (rd : Reg) (write : Bool) : State :=
  ((s.csrReadDone n).retireCsr rd write (decide (n = .mgpmc))).advance .word

/-- A legal CSR instruction retires, then writes if it does, then sets rd. -/
theorem State.csrOp_legal {s : State} {i : Instr} {rd : Reg} {a : BitVec 12} {write : Bool} {new : Word → Word} {n : CsrName}
    (h : csrLegal a write = some n) :
    s.csrOp i rd a write new =
      (if write then (s.csrRetired n rd write).csrWrite false n (new (s.csrRead n)) else s.csrRetired n rd write).setReg rd
        (s.csrRead n) := by
  rw [State.csrOp, h]; rfl

/-- Reading a CSR takes a free value at most. -/
theorem State.csrReadDone_eq (s : State) (n : CsrName) : ∃ d, s.csrReadDone n = { s with draws := d } := by
  unfold State.csrReadDone
  split
  · exact ⟨s.draws + 1, rfl⟩
  · exact ⟨s.draws, rfl⟩

/-- Counting a retirement and its events changes minstret and the event counters only. -/
theorem State.bumpInstret_addEvents_eq (s : State) (es : List Nat) :
    s.bumpInstret.addEvents es =
      { s with csr := { s.csr with minstret := s.csr.minstret + 1#64, mhpm := (s.addEvents es).csr.mhpm } } := rfl

/-- Retiring a CSR instruction takes free values and counts, whether or not its events are counted (R417, R577). -/
theorem State.retireCsr_eq (s : State) (rd : Reg) (write mgpmc : Bool) :
    ∃ d counters, s.retireCsr rd write mgpmc =
      { s with draws := d, csr := { s.csr with minstret := s.csr.minstret + 1#64, mhpm := counters } } := by
  unfold State.retireCsr
  dsimp only
  split
  · split
    · rw [State.bumpInstret_addEvents_eq]
      exact ⟨_, _, rfl⟩
    · exact ⟨_, s.csr.mhpm, rfl⟩
  · exact ⟨_, _, congrArg State.draw (s.retire_eq _ _)⟩

/-- Up to its write a CSR instruction takes free values, counts and advances the pc. -/
theorem State.csrRetired_eq (s : State) (n : CsrName) (rd : Reg) (write : Bool) :
    ∃ d counters, s.csrRetired n rd write =
      { s with
        draws := d, pc := s.pc + 4#32
        csr := { s.csr with minstret := s.csr.minstret + 1#64, mhpm := counters } } := by
  obtain ⟨d, hread⟩ := s.csrReadDone_eq n
  obtain ⟨d', counters, hretire⟩ := State.retireCsr_eq { s with draws := d } rd write (decide (n = .mgpmc))
  exact ⟨d', counters, by rw [State.csrRetired, hread, hretire]; rfl⟩

/-- At most the event itself is counted where its counting is open. -/
theorem State.not_mem_openEvent {k e : Nat} (h : k ≠ e) (s : State) : k ∉ s.openEvent e := by
  unfold State.openEvent
  split <;> simp [h]

/-- The events of a CSR instruction that does not write mgpmc; whether it counts as event 15 is open (R580; log 33). -/
theorem State.retireCsr_counted {write mgpmc : Bool} (h : (write && mgpmc) = false) (s : State) (rd : Reg) :
    Counted s (s.retireCsr rd write mgpmc) [4, 6, csrEvent rd write] [15] := by
  have hretire : s.retireCsr rd write mgpmc = (s.retire .word (csrEvent rd write :: s.openEvent 15)).draw := by
    rw [State.retireCsr, h]; rfl
  rw [hretire]
  intro i hi
  have hopen : (s.csr.mhpmevent[i]).toNat ∉ s.openEvent 15 := State.not_mem_openEvent (by simpa using hi) s
  have hcount := State.retire_counted s .word (csrEvent rd write :: s.openEvent 15) [15] i hi
  rwa [show 4 :: Len.event .word :: csrEvent rd write :: s.openEvent 15 = [4, 6, csrEvent rd write] ++ s.openEvent 15 from rfl,
    count_append_of_not_mem hopen] at hcount

/-- The events of a CSR instruction up to its write, unless it writes mgpmc (R577, R580). -/
theorem State.csrRetired_counted {n : CsrName} {write : Bool} (h : write = true → n ≠ .mgpmc) (s : State) (rd : Reg) :
    Counted s (s.csrRetired n rd write) [4, 6, csrEvent rd write] [15] := by
  obtain ⟨d, hread⟩ := s.csrReadDone_eq n
  have hnot : (write && decide (n = .mgpmc)) = false := by
    cases write
    · rfl
    · exact decide_eq_false (h rfl)
  rw [State.csrRetired, hread]
  exact fun i hi => State.retireCsr_counted hnot { s with draws := d } rd i hi

/-- A register write changes the registers only. -/
theorem State.setReg_eq (s : State) (rd : Reg) (v : Word) : s.setReg rd v = { s with x := (s.setReg rd v).x } := by
  unfold State.setReg
  split <;> rfl

/-- Settles O29: retired and not written, the state differs by rd alone from one that has only retired. -/
theorem csrReads : Obligations.CsrReads := by
  intro s i f n hf hn hdebug hwrite
  refine ⟨(s.csrRetired n f.rd false).setReg f.rd (s.csrRead n), ?_, ?_⟩
  · rw [exec_csrOf hf, State.csrOp_legal (csrLegal_eq_some hn hdebug (by simp [hwrite])), hwrite]; rfl
  · have hcounts : Counted s (s.csrRetired n f.rd false) [4, 6, 16] [15] :=
      State.csrRetired_counted (write := false) (by simp) s f.rd
    have hreg := fun r => State.getReg_setReg (s.csrRetired n f.rd false) f.rd (s.csrRead n) r
    obtain ⟨d, counters, hu⟩ := s.csrRetired_eq n f.rd false
    rw [hu] at hcounts hreg ⊢
    rw [State.setReg_eq] at hreg ⊢
    exact ⟨hreg, rfl, fun j hj => hcounts j hj, rfl, sameMemory_of rfl rfl rfl rfl rfl⟩

/-- Settles O30: the state between is `csrRetired`. -/
theorem csrWrites : Obligations.CsrWrites := by
  intro s i f n hf hn hdebug hwrite hro
  refine ⟨_, s.csrRetired n f.rd true, exec_csrOf hf, ?_, ?_⟩
  · rw [State.csrOp_legal (csrLegal_eq_some hn hdebug fun _ => hro), hwrite]; rfl
  · have hcounts : n ≠ .mgpmc → Counted s (s.csrRetired n f.rd true) [4, 6, if f.rd = 0#5 then 18 else 17] [15] :=
      fun hne => s.csrRetired_counted (fun _ => hne) f.rd
    obtain ⟨d, counters, hu⟩ := s.csrRetired_eq n f.rd true
    rw [hu] at hcounts ⊢
    exact ⟨rfl, fun r => rfl, rfl, hcounts⟩

end Sys2Proof.Machine
end

section
/-! PROOFS. What writing a CSR leaves alone (10_state.md, 45_system_csr_fence.md R415, R417, R607). -/

namespace Sys2Proof.Machine

/-! ### A write is to the CSRs only -/

/-- The CSRs whose write is a command. -/
def CsrName.IsCommand (n : CsrName) : Prop := n = .mcpc ∨ n = .dmst ∨ n = .mpmc ∨ n = .dicago ∨ n = .meicpct

/-- A write that is no command changes the CSRs, and the record of what the step has written, and nothing else. -/
theorem State.csrWrite_eq {n : CsrName} (h : ¬ n.IsCommand) (s : State) (dbg : Bool) (v : Word) :
    ∃ c y, s.csrWrite dbg n v = { s with csr := c, sync := y } := by
  cases n
  case mcpc | dmst | mpmc | dicago | meicpct => simp [CsrName.IsCommand] at h
  case tdata1 =>
    cases hw : legalTdata1 dbg s.csr.tdata1 s.csr.tselect v with
    | none => exact ⟨_, _, by rw [State.csrWrite, hw]⟩
    | some w => exact ⟨_, _, by rw [State.csrWrite, hw]; rfl⟩
  case tdata2 =>
    rw [State.csrWrite]
    split <;> exact ⟨_, _, rfl⟩
  case mitcnt0 | mitcnt1 => cases dbg <;> exact ⟨_, _, rfl⟩
  all_goals exact ⟨_, _, rfl⟩

/-! ### The counters -/

/-- A write to the low half of a counter keeps the high half (R50). -/
theorem setLow_high (c : BitVec 64) (v : Word) : (setLow c v).extractLsb' 32 32 = c.extractLsb' 32 32 := by
  rw [setLow, Laws.extract_append_high _ _ _ _ (le_refl 32), BitVec.extractLsb'_eq_self]

/-- A write to the high half of a counter keeps the low half (R50). -/
theorem setHigh_low (c : BitVec 64) (v : Word) : (setHigh c v).setWidth 32 = c.setWidth 32 := by
  rw [setHigh, BitVec.setWidth_append_eq_right, BitVec.setWidth_eq_extractLsb' (by decide)]

/-- A write to an event counter changes no other (R50). -/
theorem State.writeHpm_mhpm (s : State) (dbg high : Bool) (i j : Fin 4) (v : Word) :
    (s.writeHpm dbg high i v).csr.mhpm[j] = if i = j then setHalf high v s.csr.mhpm[i] else s.csr.mhpm[j] := by
  simp only [State.writeHpm, Fin.getElem_fin, Vector.getElem_set, Fin.ext_iff]

/-- mcycle is read by its two halves only (R50). -/
theorem State.csrRead_withMcycle {m : CsrName} (hlow : m ≠ .mcycle) (hhigh : m ≠ .mcycleh) (hmip : m ≠ .mip) (s : State)
    (c : BitVec 64) (y : Sync) : State.csrRead { s with csr := { s.csr with mcycle := c }, sync := y } m = s.csrRead m := by
  cases m <;> first | contradiction | rfl

/-- minstret is read by its two halves only (R50). -/
theorem State.csrRead_withMinstret {m : CsrName} (hlow : m ≠ .minstret) (hhigh : m ≠ .minstreth) (s : State)
    (c : BitVec 64) : State.csrRead { s with csr := { s.csr with minstret := c } } m = s.csrRead m := by
  cases m <;> first | contradiction | rfl

/-- The event counters are read by their halves only (R50). -/
theorem State.csrRead_withMhpm {m : CsrName} (hlow : ∀ i, m ≠ .mhpmcounter i) (hhigh : ∀ i, m ≠ .mhpmcounterh i)
    (hmip : m ≠ .mip) (s : State) (c : Vector (BitVec 64) 4) (y : Sync) :
    State.csrRead { s with csr := { s.csr with mhpm := c }, sync := y } m = s.csrRead m := by
  cases m
  case mip => contradiction
  case mhpmcounter i => exact absurd rfl (hlow i)
  case mhpmcounterh i => exact absurd rfl (hhigh i)
  all_goals rfl

/-- A write to a half of mcycle leaves the other half and every other CSR (R50). -/
theorem State.csrRead_csrWrite_mcycle {n m : CsrName} (hn : n = .mcycle ∨ n = .mcycleh) (hm : m ≠ n) (hmip : m ≠ .mip)
    (s : State) (dbg : Bool) (v : Word) : (s.csrWrite dbg n v).csrRead m = s.csrRead m := by
  rcases hn with rfl | rfl
  · by_cases hhigh : m = .mcycleh
    · subst hhigh; exact setLow_high _ v
    · exact s.csrRead_withMcycle hm hhigh hmip _ _
  · by_cases hlow : m = .mcycle
    · subst hlow; exact setHigh_low _ v
    · exact s.csrRead_withMcycle hlow hm hmip _ _

/-- A write to a half of minstret leaves the other half and every other CSR (R50). -/
theorem State.csrRead_csrWrite_minstret {n m : CsrName} (hn : n = .minstret ∨ n = .minstreth) (hm : m ≠ n) (s : State)
    (dbg : Bool) (v : Word) (hret : ¬ (dbg = true ∧ n = .minstret)) : (s.csrWrite dbg n v).csrRead m = s.csrRead m := by
  rcases hn with rfl | rfl
  · have hdbg : dbg = false := by simpa using hret
    subst hdbg
    by_cases hhigh : m = .minstreth
    · subst hhigh; exact setLow_high _ v
    · exact s.csrRead_withMinstret hm hhigh _
  · by_cases hlow : m = .minstret
    · subst hlow; exact setHigh_low _ v
    · exact s.csrRead_withMinstret hlow hm _

/-- The low half of an event counter after a write to another half (R50). -/
theorem State.writeHpm_low {high : Bool} {i j : Fin 4} (h : i = j → high = true) (s : State) (dbg : Bool) (v : Word) :
    (s.writeHpm dbg high i v).csrRead (.mhpmcounter j) = s.csrRead (.mhpmcounter j) := by
  refine (congrArg (BitVec.setWidth 32) (s.writeHpm_mhpm dbg high i j v)).trans ?_
  split
  · next hij =>
    rw [h hij, ← hij]
    exact setHigh_low _ v
  · rfl

/-- The high half of an event counter after a write to another half (R50). -/
theorem State.writeHpm_high {high : Bool} {i j : Fin 4} (h : i = j → high = false) (s : State) (dbg : Bool) (v : Word) :
    (s.writeHpm dbg high i v).csrRead (.mhpmcounterh j) = s.csrRead (.mhpmcounterh j) := by
  refine (congrArg (BitVec.extractLsb' 32 32) (s.writeHpm_mhpm dbg high i j v)).trans ?_
  split
  · next hij =>
    rw [h hij, ← hij]
    exact setLow_high _ v
  · rfl

/-- A write to a half of an event counter leaves the other half and every other CSR (R50). -/
theorem State.csrRead_csrWrite_mhpm {n m : CsrName} {i : Fin 4} (hn : n = .mhpmcounter i ∨ n = .mhpmcounterh i) (hm : m ≠ n)
    (hmip : m ≠ .mip) (s : State) (dbg : Bool) (v : Word) : (s.csrWrite dbg n v).csrRead m = s.csrRead m := by
  have hwrite : ∃ high, s.csrWrite dbg n v = s.writeHpm dbg high i v ∧
      n = if high then .mhpmcounterh i else .mhpmcounter i := by
    rcases hn with rfl | rfl
    · exact ⟨false, rfl, rfl⟩
    · exact ⟨true, rfl, rfl⟩
  obtain ⟨high, hw, rfl⟩ := hwrite
  rw [hw]
  by_cases hlow : ∃ j, m = .mhpmcounter j
  · obtain ⟨j, rfl⟩ := hlow
    refine s.writeHpm_low (fun hij => ?_) dbg v
    cases high with
    | false => exact absurd (hij ▸ rfl) hm
    | true => rfl
  · by_cases hhigh : ∃ j, m = .mhpmcounterh j
    · obtain ⟨j, rfl⟩ := hhigh
      refine s.writeHpm_high (fun hij => ?_) dbg v
      cases high with
      | false => rfl
      | true => exact absurd (hij ▸ rfl) hm
    · exact s.csrRead_withMhpm (fun j e => hlow ⟨j, e⟩) (fun j e => hhigh ⟨j, e⟩) hmip _ _

/-- A write to an event selector leaves every other CSR (R53). -/
theorem State.csrRead_csrWrite_mhpmevent {m : CsrName} {i : Fin 4} (hm : m ≠ .mhpmevent i) (s : State) (dbg : Bool) (v : Word) :
    (s.csrWrite dbg (.mhpmevent i) v).csrRead m = s.csrRead m := by
  cases m
  case mhpmevent j =>
    have hij : i.val ≠ j.val := fun e => hm (Fin.ext e ▸ rfl)
    exact congrArg (BitVec.setWidth 32) (Vector.getElem_set_ne i.isLt j.isLt hij)
  all_goals rfl

/-! ### The triggers, the timers and the PIC -/

/-- A write to the selected trigger leaves every other CSR (R621). -/
theorem State.csrRead_csrWrite_tdata {n m : CsrName} (hn : n = .tdata1 ∨ n = .tdata2) (hm : m ≠ n) (s : State) (dbg : Bool)
    (v : Word) : (s.csrWrite dbg n v).csrRead m = s.csrRead m := by
  rcases hn with rfl | rfl
  · rw [State.csrWrite]
    split
    · cases m <;> first | contradiction | rfl
    · rfl
  · rw [State.csrWrite]
    split
    · rfl
    · cases m <;> first | contradiction | rfl

/-- Selecting another trigger changes what tdata1 and tdata2 read, and no other CSR (R100). -/
theorem State.csrRead_csrWrite_tselect {m : CsrName} (hm : m ≠ .tselect) (h1 : m ≠ .tdata1) (h2 : m ≠ .tdata2) (s : State)
    (dbg : Bool) (v : Word) : (s.csrWrite dbg .tselect v).csrRead m = s.csrRead m := by
  cases m <;> first | contradiction | rfl

/-- A write to a register of an internal timer leaves every other CSR but mip (R540-R543). -/
theorem State.csrRead_csrWrite_timer {n m : CsrName}
    (hn : n ∈ [.mitcnt0, .mitcnt1, .mitb0, .mitb1, .mitctl0, .mitctl1]) (hm : m ≠ n) (hmip : m ≠ .mip) (s : State)
    (dbg : Bool) (v : Word) : (s.csrWrite dbg n v).csrRead m = s.csrRead m := by
  simp only [List.mem_cons, List.not_mem_nil, or_false] at hn
  rcases hn with rfl | rfl | hn
  · cases dbg
    · cases m <;> first | contradiction | rfl
    · cases m <;> first | contradiction | rfl
  · cases dbg
    · cases m <;> first | contradiction | rfl
    · cases m <;> first | contradiction | rfl
  · rcases hn with rfl | rfl | rfl | rfl
    all_goals cases m <;> first | contradiction | rfl

/-- A write to a PIC register leaves every other CSR but mip, and meihap with its base (R80-R85). -/
theorem State.csrRead_csrWrite_pic {n m : CsrName} (hn : n ∈ [.meivt, .meipt, .meicidpl, .meicurpl]) (hm : m ≠ n)
    (hmip : m ≠ .mip) (hmeihap : ¬ (n = .meivt ∧ m = .meihap)) (s : State) (dbg : Bool) (v : Word) :
    (s.csrWrite dbg n v).csrRead m = s.csrRead m := by
  simp only [List.mem_cons, List.not_mem_nil, or_false] at hn
  rcases hn with rfl | rfl | rfl | rfl
  · have hbase : m ≠ .meihap := fun e => hmeihap ⟨rfl, e⟩
    cases m <;> first | contradiction | rfl
  all_goals cases m <;> first | contradiction | rfl

/-- A write to a register of the machine's traps leaves every other CSR (R40-R46). -/
theorem State.csrRead_csrWrite_trap {n m : CsrName}
    (hn : n ∈ [.mstatus, .mie, .mtvec, .mscratch, .mepc, .mcause, .mtval]) (hm : m ≠ n) (s : State)
    (dbg : Bool) (v : Word) : (s.csrWrite dbg n v).csrRead m = s.csrRead m := by
  simp only [List.mem_cons, List.not_mem_nil, or_false] at hn
  rcases hn with rfl | rfl | rfl | rfl | rfl | rfl | rfl
  all_goals cases m <;> first | contradiction | rfl

/-- A write to a register of the core's features or errors leaves every other CSR but mip (R60-R95). -/
theorem State.csrRead_csrWrite_platform {n m : CsrName}
    (hn : n ∈ [.mrac, .mgpmc, .micect, .miccmect, .mdccmect, .mcgc, .mfdc, .mdeau]) (hm : m ≠ n) (hmip : m ≠ .mip)
    (s : State) (dbg : Bool) (v : Word) : (s.csrWrite dbg n v).csrRead m = s.csrRead m := by
  simp only [List.mem_cons, List.not_mem_nil, or_false] at hn
  rcases hn with rfl | rfl | rfl | rfl | rfl | rfl | rfl | rfl
  all_goals cases m <;> first | contradiction | rfl

/-- A write to a register of Debug Mode leaves every other CSR (R87-R90, R102, R104). -/
theorem State.csrRead_csrWrite_debug {n m : CsrName}
    (hn : n ∈ [.dcsr, .dpc, .dicawics, .dicad0, .dicad1]) (hm : m ≠ n) (s : State)
    (dbg : Bool) (v : Word) : (s.csrWrite dbg n v).csrRead m = s.csrRead m := by
  simp only [List.mem_cons, List.not_mem_nil, or_false] at hn
  rcases hn with rfl | rfl | rfl | rfl | rfl
  all_goals cases m <;> first | contradiction | rfl

/-! ### Reads after writes -/

/-- CSR `m` reads a register that a write of `n` changes, or is mip, which reads levels of the whole core. -/
def CsrName.Follows (m n : CsrName) : Prop :=
  m = .mip ∨ (n = .tselect ∧ (m = .tdata1 ∨ m = .tdata2)) ∨ (n = .meivt ∧ m = .meihap)

/-- A write that is no command leaves every other CSR as it reads, but for those that follow it. -/
theorem State.csrRead_csrWrite {n m : CsrName} (h : ¬ n.IsCommand) (hm : m ≠ n) (hf : ¬ m.Follows n) (s : State)
    (dbg : Bool) (v : Word) (hret : ¬ (dbg = true ∧ n = .minstret)) :
    (s.csrWrite dbg n v).csrRead m = s.csrRead m := by
  simp only [CsrName.Follows, not_or] at hf
  obtain ⟨hmip, htdata, hmeihap⟩ := hf
  cases n
  case mcpc | dmst | mpmc | dicago | meicpct => simp [CsrName.IsCommand] at h
  case mcycle | mcycleh => exact s.csrRead_csrWrite_mcycle (by simp) hm hmip dbg v
  case minstret | minstreth => exact s.csrRead_csrWrite_minstret (by simp) hm dbg v hret
  case mhpmcounter i => exact s.csrRead_csrWrite_mhpm (.inl rfl) hm hmip dbg v
  case mhpmcounterh i => exact s.csrRead_csrWrite_mhpm (.inr rfl) hm hmip dbg v
  case mhpmevent i => exact s.csrRead_csrWrite_mhpmevent hm dbg v
  case tdata1 | tdata2 => exact s.csrRead_csrWrite_tdata (by simp) hm dbg v
  case tselect =>
    exact s.csrRead_csrWrite_tselect hm (fun e => htdata ⟨rfl, .inl e⟩) (fun e => htdata ⟨rfl, .inr e⟩) dbg v
  case mitcnt0 | mitcnt1 | mitb0 | mitb1 | mitctl0 | mitctl1 => exact s.csrRead_csrWrite_timer (by simp) hm hmip dbg v
  case meivt | meipt | meicidpl | meicurpl => exact s.csrRead_csrWrite_pic (by simp) hm hmip hmeihap dbg v
  case mstatus | mie | mtvec | mscratch | mepc | mcause | mtval => exact s.csrRead_csrWrite_trap (by simp) hm dbg v
  case mrac | mgpmc | micect | miccmect | mdccmect | mcgc | mfdc | mdeau =>
    exact s.csrRead_csrWrite_platform (by simp) hm hmip dbg v
  case dcsr | dpc | dicawics | dicad0 | dicad1 => exact s.csrRead_csrWrite_debug (by simp) hm dbg v
  all_goals rfl

/-- Settles O32: the reads by `csrRead_csrWrite`, the rest because a write is to the CSRs only. -/
theorem csrWriteFrame : Obligations.CsrWriteFrame := by
  intro s v n dbg hmcpc hdmst hmpmc hdicago hmeicpct hret t
  have hn : ¬ n.IsCommand := by simp [CsrName.IsCommand, hmcpc, hdmst, hmpmc, hdicago, hmeicpct]
  refine ⟨fun m hm hmip htdata hmeihap => s.csrRead_csrWrite hn hm ?_ dbg v hret, ?_⟩
  · simp only [CsrName.Follows, not_or]
    exact ⟨hmip, htdata, hmeihap⟩
  · obtain ⟨c, y, hw⟩ := s.csrWrite_eq hn dbg v
    rw [show t = { s with csr := c, sync := y } from hw]
    exact ⟨fun r => rfl, rfl, rfl, rfl, rfl, rfl, rfl, rfl, rfl⟩

end Sys2Proof.Machine
end

section
/-! PROOFS. The cycle counter and the clock events of the event counters (62_timers_power_perf.md R574-R580, R417). -/

namespace Sys2Proof.Machine

/-! ### mcycle by itself -/

/-- What the cycles of mcycle depend on: whether it counts, what it holds, and this step's write to one of its halves. -/
structure CycleView where
  counts : Bool
  mcycle : BitVec 64
  write : Option CounterWrite

/-- One cycle of mcycle (R417, R574). -/
def CycleView.tick (c : CycleView) : CycleView :=
  if c.counts then
    match c.write with
    | none => { c with mcycle := c.mcycle + 1#64 }
    | some w => { c with mcycle := (w.add (· + 1#64)).value, write := some (w.add (· + 1#64)) }
  else c

theorem CycleView.tick_stopped {c : CycleView} (h : c.counts = false) : c.tick = c := by
  rw [CycleView.tick, h]; rfl

theorem CycleView.tick_unwritten {c : CycleView} (h : c.counts = true) (hw : c.write = none) :
    c.tick = { c with mcycle := c.mcycle + 1#64 } := by
  rw [CycleView.tick, h, hw]; rfl

theorem CycleView.tick_written {c : CycleView} {w : CounterWrite} (h : c.counts = true) (hw : c.write = some w) :
    c.tick = { c with mcycle := (w.add (· + 1#64)).value, write := some (w.add (· + 1#64)) } := by
  rw [CycleView.tick, h, hw]; rfl

/-- No cycle counts on a stopped mcycle. -/
theorem CycleView.ticks_stopped {c : CycleView} (h : c.counts = false) (n : Nat) : CycleView.tick^[n] c = c :=
  Function.iterate_fixed (CycleView.tick_stopped h) n

/-- Every cycle counts on an mcycle that the step has not written. -/
theorem CycleView.ticks_unwritten {c : CycleView} (h : c.counts = true) (hw : c.write = none) (n : Nat) :
    (CycleView.tick^[n] c).mcycle = c.mcycle + BitVec.ofNat 64 n := by
  induction n generalizing c with
  | zero => exact (BitVec.add_zero _).symm
  | succ n ih =>
    have hrest := ih (c := { c with mcycle := c.mcycle + 1#64 }) h hw
    rw [Function.iterate_succ_apply, CycleView.tick_unwritten h hw, hrest, BitVec.add_assoc, ← BitVec.ofNat_add,
      Nat.add_comm 1 n]

/-- Over an mcycle that the step has written every cycle counts beneath the written half (R417). -/
theorem CycleView.ticks_written {c : CycleView} {w : CounterWrite} (h : c.counts = true) (hw : c.write = some w) (n : Nat) :
    (CycleView.tick^[n + 1] c).mcycle = (w.add (· + BitVec.ofNat 64 (n + 1))).value := by
  induction n generalizing c w with
  | zero => rw [Function.iterate_one, CycleView.tick_written h hw]
  | succ n ih =>
    have hrest := ih (c := { c with mcycle := (w.add (· + 1#64)).value, write := some (w.add (· + 1#64)) }) h rfl
    rw [Function.iterate_succ_apply, CycleView.tick_written h hw, hrest]
    simp only [CounterWrite.add, BitVec.add_assoc, ← BitVec.ofNat_add, Nat.add_comm 1]

/-! ### A cycle of the machine -/

/-- mcycle as a state has it. -/
def State.cycleView (s : State) : CycleView where
  counts := s.cycleCounts
  mcycle := s.csr.mcycle
  write := s.sync.wrote.filter (fun w => w.event.isNone)

/-- mcycle counts beneath a half that the step has written (R417). -/
theorem State.addCycle_written {s : State} {w : CounterWrite} (h : s.sync.wrote = some w) (he : w.event = none) :
    s.addCycle = { s with
      csr := { s.csr with mcycle := (w.add (· + 1#64)).value }
      sync := { s.sync with wrote := some (w.add (· + 1#64)) } } := by
  obtain ⟨e, high, v, old⟩ := w
  cases he
  rw [State.addCycle, h]

/-- mcycle counts one if the step has not written it (R574). -/
theorem State.addCycle_unwritten {s : State} (h : ∀ w, s.sync.wrote = some w → w.event ≠ none) :
    s.addCycle = { s with csr := { s.csr with mcycle := s.csr.mcycle + 1#64 } } := by
  unfold State.addCycle
  split
  · next hw => exact absurd rfl (h _ hw)
  · rfl

/-- A write to mcycle is in the view. -/
theorem State.cycleView_written {s : State} {w : CounterWrite} (h : s.sync.wrote = some w) (he : w.event = none) :
    s.cycleView.write = some w := by
  simp [State.cycleView, h, he]

/-- A write to an event counter is not. -/
theorem State.cycleView_unwritten {s : State} (h : ∀ w, s.sync.wrote = some w → w.event ≠ none) :
    s.cycleView.write = none := by
  simpa [State.cycleView, Option.filter_eq_none_iff] using h

/-- Counting events leaves mcycle alone. -/
theorem State.addHpm_cycleView (s : State) (k : Nat → Nat) : (s.addHpm k).cycleView = s.cycleView := by
  unfold State.addHpm
  dsimp only
  split
  · next hw => simp only [State.cycleView, hw]; rfl
  · rfl

/-- Where it counts, one cycle of mcycle is a tick of its view. -/
theorem State.addCycle_cycleView {s : State} (hc : s.cycleCounts = true) : s.addCycle.cycleView = s.cycleView.tick := by
  by_cases h : ∃ w, s.sync.wrote = some w ∧ w.event = none
  · obtain ⟨w, hw, he⟩ := h
    rw [CycleView.tick_written hc (State.cycleView_written hw he), State.addCycle_written hw he]
    simp only [State.cycleView, Option.filter_some, CounterWrite.add, he, Option.isNone_none, if_true]
    rfl
  · have hnone : ∀ w, s.sync.wrote = some w → w.event ≠ none := fun w hw he => h ⟨w, hw, he⟩
    rw [CycleView.tick_unwritten hc (State.cycleView_unwritten hnone), State.addCycle_unwritten hnone]
    rfl

/-- One cycle of the counters is a tick of the view of mcycle. -/
theorem State.tickCounters_cycleView (s : State) : s.tickCounters.cycleView = s.cycleView.tick := by
  have hcycle : (if s.cycleCounts then s.addCycle else s).cycleView = s.cycleView.tick := by
    split
    · next hc => exact State.addCycle_cycleView hc
    · next hc => exact (CycleView.tick_stopped (Bool.eq_false_iff.mpr hc)).symm
  rw [← hcycle]
  unfold State.tickCounters
  dsimp only
  split
  · exact State.addHpm_cycleView _ _
  · rfl

/-- The timers, PAUSE and the gateways leave mcycle alone. -/
theorem State.tick_cycleView (s : State) (commit : Bool) : (s.tick commit).cycleView = s.cycleView.tick := by
  rw [← s.tickCounters_cycleView]
  show ((s.tickCounters.tickTimers commit).tickPause).cycleView = _
  unfold State.tickPause
  split <;> rfl

theorem State.ticks_cycleView (n k : Nat) (s : State) : (State.ticks n k s).cycleView = CycleView.tick^[n] s.cycleView := by
  induction n generalizing k s with
  | zero => rfl
  | succ n ih => rw [State.ticks, ih, State.tick_cycleView, ← Function.iterate_succ_apply]

theorem State.microCount_cycleView (s : State) : s.microCount.cycleView = s.cycleView := by
  unfold State.microCount
  split
  · exact s.addHpm_cycleView _
  · rfl

/-- The cycles of a step are that many ticks of mcycle (R540). -/
theorem State.clock_cycleView (s : State) : s.clock.cycleView = CycleView.tick^[s.env.extraCycles + 1] s.cycleView := by
  rw [State.clock, State.ticks_cycleView, State.microCount_cycleView]

/-- When mcycle counts (R574). -/
theorem State.cycleCounts_iff (s : State) :
    s.cycleCounts = true ↔ s.hart.activity = .running ∨ (s.hart.activity = .dbHalt ∧ s.stopcount = false) := by
  unfold State.cycleCounts
  cases s.hart.activity <;> simp

/-- What a written counter holds, by its halves. -/
theorem CounterWrite.value_eq (w : CounterWrite) :
    w.value = if w.high then w.v ++ w.old.extractLsb' 0 32 else w.old.extractLsb' 32 32 ++ w.v := rfl

/-! ### The clock events of an event counter -/

/-- A cycle of mcycle changes it and the record of the step's write to it, if there is one. -/
theorem State.addCycle_eq (s : State) : ∃ c y, y.map (·.event) = s.sync.wrote.map (·.event) ∧
    s.addCycle = { s with csr := { s.csr with mcycle := c }, sync := { s.sync with wrote := y } } := by
  unfold State.addCycle
  split
  · next hw => exact ⟨_, _, by rw [hw]; rfl, rfl⟩
  · exact ⟨_, _, rfl, rfl⟩

/-- An event counter that the step has not written takes its events (R575). -/
theorem State.addHpm_get {s : State} {i : Fin 4} (h : s.sync.wrote.map (·.event) ≠ some (some i)) (k : Nat → Nat) :
    (s.addHpm k).csr.mhpm[i] = hpmOne s.csr.mhpmevent[i] s.csr.mhpm[i] k := by
  unfold State.addHpm
  dsimp only
  split
  · next j high v old hw =>
    have hji : j.val ≠ i.val := fun e => h (by rw [hw, Fin.ext e]; rfl)
    exact (Vector.getElem_set_ne j.isLt i.isLt hji).trans (hpmAdd_get _ _ _ i)
  · exact hpmAdd_get _ _ _ i

/-- When the events of a cycle count: by mgpmc as the step found it (R576, R577). -/
theorem State.countingCycles_iff (s : State) :
    s.countingCycles = true ↔ s.cycleCounts = true ∧ s.sync.mgpmcOld.getD s.csr.mgpmc = 1#1 := by
  unfold State.countingCycles State.counting
  rw [Bool.and_eq_true, beq_iff_eq, and_comm]
  rfl

/-- Event `e` occurs in a cycle (R580): a clock, one with interrupts off, one with interrupts off and one pending. -/
def State.ClockEvent (s : State) (e : BitVec 6) : Prop :=
  e = 1#6 ∨ (e = 49#6 ∧ s.mieOn = false) ∨ (e = 50#6 ∧ s.mieOn = false ∧ s.mip &&& s.csr.mie ≠ 0#32)

theorem State.cycleEvents_of_clockEvent {s : State} {e : BitVec 6} (h : s.ClockEvent e) : s.cycleEvents e.toNat = 1 := by
  rcases h with rfl | ⟨rfl, hmie⟩ | ⟨rfl, hmie, hpending⟩
  · rfl
  · simp [State.cycleEvents, hmie]
  · simp [State.cycleEvents, hmie, hpending]

theorem State.cycleEvents_of_not_clockEvent {s : State} {e : BitVec 6} (h : ¬ s.ClockEvent e) : s.cycleEvents e.toNat = 0 := by
  simp only [State.ClockEvent, not_or, not_and, Bool.not_eq_false, ne_eq, not_not] at h
  obtain ⟨h1, h49, h50⟩ := h
  have hsel : ∀ k : BitVec 6, e.toNat = k.toNat → e = k := fun k => BitVec.eq_of_toNat_eq
  unfold State.cycleEvents
  split
  · next he => exact absurd (hsel 1#6 he) h1
  · split
    · next he => rw [if_pos (h49 (hsel 49#6 he))]
    · split
      · next he => cases hmie : s.mieOn <;> simp [h50 (hsel 50#6 he), hmie]
      · rfl

/-- A counter counts one for its clock event; selector 0 names none (R575). -/
theorem State.hpmOne_of_clockEvent {s : State} {e : BitVec 6} (h : s.ClockEvent e) (c : BitVec 64) :
    hpmOne e c s.cycleEvents = c + 1#64 := by
  have hne : e ≠ 0#6 := by
    rintro rfl
    simp [State.ClockEvent] at h
  rw [hpmOne, if_neg hne, State.cycleEvents_of_clockEvent h]

theorem State.hpmOne_of_not_clockEvent {s : State} {e : BitVec 6} (h : ¬ s.ClockEvent e) (c : BitVec 64) :
    hpmOne e c s.cycleEvents = c := by
  rw [hpmOne, State.cycleEvents_of_not_clockEvent h]
  split
  · rfl
  · exact BitVec.add_zero c

/-- One cycle of an event counter that the step has not written (R576). -/
theorem State.tickCounters_get {s : State} {i : Fin 4} (h : s.sync.wrote.map (·.event) ≠ some (some i)) :
    s.tickCounters.csr.mhpm[i] =
      if s.countingCycles then hpmOne s.csr.mhpmevent[i] s.csr.mhpm[i] s.cycleEvents else s.csr.mhpm[i] := by
  have hcycle : ∃ c y, y.map (·.event) = s.sync.wrote.map (·.event) ∧ (if s.cycleCounts then s.addCycle else s) =
      { s with csr := { s.csr with mcycle := c }, sync := { s.sync with wrote := y } } := by
    split
    · exact s.addCycle_eq
    · exact ⟨_, _, rfl, rfl⟩
  obtain ⟨c, y, hy, hs1⟩ := hcycle
  unfold State.tickCounters
  dsimp only
  rw [hs1]
  split
  · exact State.addHpm_get (hy ▸ h) _
  · rfl

/-- Settles O46: the cycles of a step are ticks of the view of mcycle; the clock events of a cycle are those of its selector. -/
theorem cycleCounter : Obligations.CycleCounter := by
  intro s n counts
  have hcounts : s.cycleCounts = true ↔ counts := s.cycleCounts_iff
  have hclock : s.clock.csr.mcycle = (CycleView.tick^[s.env.extraCycles + 1] s.cycleView).mcycle :=
    congrArg CycleView.mcycle s.clock_cycleView
  refine ⟨fun hc hw => ?unwritten, fun hc w hw he => ?written, fun hc => ?stopped, fun i hi => ?events⟩
  case unwritten =>
    rw [hclock, CycleView.ticks_unwritten (hcounts.mpr hc) (State.cycleView_unwritten hw)]; rfl
  case written =>
    rw [hclock, CycleView.ticks_written (hcounts.mpr hc) (State.cycleView_written hw he)]
    exact CounterWrite.value_eq _
  case stopped =>
    have hstop : s.cycleCounts = false := Bool.eq_false_iff.mpr fun h => hc (hcounts.mp h)
    rw [hclock, CycleView.ticks_stopped hstop]; rfl
  case events =>
    have hother : s.sync.wrote.map (·.event) ≠ some (some i) := fun h => by
      obtain ⟨w, hw, he⟩ := Option.map_eq_some_iff.mp h
      exact hi w hw he
    intro e
    rw [State.tickCounters_get hother]
    by_cases hc : s.countingCycles = true
    · obtain ⟨hcycles, hmgpmc⟩ := s.countingCycles_iff.mp hc
      rw [if_pos hc]
      by_cases he : s.ClockEvent e
      · rw [State.hpmOne_of_clockEvent he, if_pos ⟨hcounts.mp hcycles, hmgpmc, he⟩]
      · rw [State.hpmOne_of_not_clockEvent he, if_neg fun h => he h.2.2, BitVec.add_zero]
    · rw [if_neg hc, if_neg fun h => hc (s.countingCycles_iff.mpr ⟨hcounts.mpr h.1, h.2.1⟩), BitVec.add_zero]

end Sys2Proof.Machine
end

section
/-! PROOFS. Interrupts and non-maskable interrupts: which is taken, and what its entry does (60_exceptions.md R445, R446, R452,
R454, R460). -/

namespace Sys2Proof.Machine

/-! ### Which interrupt is taken (R452, R454) -/

/-- With mie = 0 no interrupt is taken (R452). -/
theorem State.interruptNow_masked {s : State} (h : s.mieOn = false) : s.interruptNow = none := by
  simp [State.interruptNow, h]

/-- A single step with stepie = 0 holds interrupts off (R454). -/
theorem State.interruptNow_heldOff {s : State} (hstep : s.hart.stepping = true) (hie : s.stepie = false) :
    s.interruptNow = none := by
  simp [State.interruptNow, hstep, hie]

/-- Enabled, not held off and not deferred, the interrupt of highest rank is taken (R452). -/
theorem State.interruptNow_open {s : State} (hmie : s.mieOn = true) (hie : s.hart.stepping = true → s.stepie = true)
    (hdefer : s.env.deferInt = false) : s.interruptNow = pickInterrupt s.pend := by
  have hopen : (!s.hart.stepping || s.stepie) = true := by
    cases hstep : s.hart.stepping with
    | false => rfl
    | true => exact hie hstep
  simp [State.interruptNow, hmie, hopen, hdefer]

/-- The held requests of the internal timers stand at their bits of mip (R544). -/
theorem State.pend_eq (s : State) :
    s.pend = (s.mip ||| (if s.hart.mitHold0 then 0x20000000#32 else 0#32) |||
      (if s.hart.mitHold1 then 0x10000000#32 else 0#32)) &&& s.csr.mie := by
  have h0 (b : Bool) : bitWord b <<< 29 = if b then 0x20000000#32 else 0#32 := by cases b <;> rfl
  have h1 (b : Bool) : bitWord b <<< 28 = if b then 0x10000000#32 else 0#32 := by cases b <;> rfl
  rw [State.pend, h0, h1]

/-- Settles O38: the gates of the selection one by one, then the order of ranks. -/
theorem interruptSelection : Obligations.InterruptSelection := fun s =>
  ⟨State.interruptNow_masked, State.interruptNow_heldOff, State.interruptNow_open, s.pend_eq⟩

/-- When nothing of higher priority is asked for, the interrupt to take is what the hart does (R452, R475). -/
theorem State.Ready.hartStep_interrupt {s : State} (h : s.Ready) {i : Interrupt} (hi : s.interruptNow = some i) :
    s.hartStep = (true, .next (s.takeInterrupt i)) := by
  simp [State.hartStep, h.running, State.runningStep, h.halt, h.pmu, h.nmi, hi]

/-- Settles O37: the step is the hart's, and the hart takes the interrupt. -/
theorem stepTakesInterrupt : Obligations.StepTakesInterrupt := by
  intro s i he hr hi
  rw [step_of_ready he hr, hr.hartStep_interrupt hi]
  rfl

/-! ### What interrupt and NMI entry have in common (R445) -/

/-- The trap entry of an interrupt or NMI from `s`, at whose pc the next instruction waits. -/
structure AsyncEntry (cause target : Word) (s t : State) : Prop where
  mepc : t.csr.mepc = s.pc
  mcause : t.csr.mcause = cause
  mtval : t.csr.mtval = 0#32
  mpie : t.csr.mstatus.getLsbD 7 = s.csr.mstatus.getLsbD 3
  mie : t.csr.mstatus.getLsbD 3 = false
  pc : t.pc = target
  reg : ∀ r, t.getReg r = s.getReg r
  minstret : t.csr.minstret = s.csr.minstret
  memory : SameMemory s t

/-- Trap entry with mtval 0 is one, whatever else is done to the event counters. -/
theorem AsyncEntry.of_csr {cause target : Word} {s t : State}
    (hcsr : t.csr = { (s.enterTrap cause 0#32 target).csr with mhpm := t.csr.mhpm })
    (hpc : t.pc = target) (hx : t.x = s.x) (hmem : SameMemory s t) : AsyncEntry cause target s t where
  mepc := by rw [hcsr]; rfl
  mcause := by rw [hcsr]; rfl
  mtval := by rw [hcsr]; rfl
  mpie := by rw [hcsr]; exact mstatusEnter_mpie _
  mie := by rw [hcsr]; exact mstatusEnter_mie _
  pc := hpc
  reg := State.getReg_congr hx
  minstret := by rw [hcsr]; rfl
  memory := hmem

/-! ### Interrupt entry (R452) -/

/-- The interrupt code of Table 13-1. -/
def Interrupt.code : Interrupt → Nat
  | .external => 11
  | .correctable => 30
  | .timer => 7
  | .internal0 => 29
  | .internal1 => 28

/-- mcause of an interrupt is its code with bit 31 set (R430). -/
theorem Interrupt.cause_eq (i : Interrupt) : i.cause = 0x80000000#32 ||| BitVec.ofNat 32 i.code := by
  cases i <;> rfl

/-- An interrupt goes to the mtvec base or, in vectored mode, to the entry of its code (R446). -/
theorem trapTarget_interrupt (m : Word) (code : Nat) :
    trapTarget m (0x80000000#32 ||| BitVec.ofNat 32 code) =
      (m &&& 0xFFFFFFFC#32) + (if m.getLsbD 0 then BitVec.ofNat 32 (4 * code) else 0#32) := by
  have hbit : (0x80000000#32 ||| BitVec.ofNat 32 code).getLsbD 31 = true := by
    rw [BitVec.getLsbD_or]; exact Bool.true_or _
  have hshift : (0x80000000#32 ||| BitVec.ofNat 32 code) <<< 2 = BitVec.ofNat 32 (4 * code) := by
    rw [BitVec.shiftLeft_or_distrib, show (0x80000000#32 <<< 2 : Word) = 0#32 from rfl, BitVec.zero_or,
      BitVec.shiftLeft_eq_mul_twoPow, Nat.mul_comm, BitVec.ofNat_mul]
    rfl
  rw [trapTarget, hbit, Bool.and_true, hshift]
  split
  · rfl
  · exact (BitVec.add_zero _).symm

/-- Interrupt entry (R445, R452). -/
theorem State.takeInterrupt_entry (s : State) (i : Interrupt) :
    AsyncEntry i.cause (trapTarget s.csr.mtvec i.cause) s (s.takeInterrupt i) := by
  refine .of_csr (State.countEvents_csr _ i.events) ?_ ?_ (sameMemory_of ?_ ?_ ?_ ?_ ?_)
  all_goals simp [State.takeInterrupt]

/-- PAUSE ends (R565), and a held internal-timer request is consumed (R544). -/
theorem State.takeInterrupt_hart (s : State) (i : Interrupt) :
    (s.takeInterrupt i).hart = { i.release s.hart with pause := 0 } := by
  simp [State.takeInterrupt]

/-- Settles O39: interrupt entry is a trap entry with mtval 0, to the target of the interrupt's code. -/
theorem interruptEntry : Obligations.InterruptEntry := by
  intro s i t code
  have hcode : code = i.code := by cases i <;> rfl
  have hentry := s.takeInterrupt_entry i
  have hhart := s.takeInterrupt_hart i
  rw [Interrupt.cause_eq, trapTarget_interrupt] at hentry
  rw [hcode]
  refine ⟨hentry.mepc, hentry.mcause, hentry.mtval, hentry.mpie, hentry.mie, hentry.pc, ?pause, ?hold0, ?hold1, hentry.reg,
    hentry.minstret, hentry.memory⟩
  case pause => exact congrArg Hart.pause hhart
  case hold0 => rintro rfl; exact congrArg Hart.mitHold0 hhart
  case hold1 => rintro rfl; exact congrArg Hart.mitHold1 hhart

/-! ### NMI entry (R460) -/

/-- NMI entry with `cause`, after which the hart's record of requests is that of `h`. -/
def State.enterNmi (cause : Word) (h : Hart) (s : State) : State :=
  { (s.enterTrap cause 0#32 (vecAddr s.pins.nmiVec)).traceInterrupt cause with hart := { h with pause := 0 } }

/-- NMI entry goes to nmi_vec, and saves and clears what an interrupt does; a free value taken before makes no difference. -/
theorem State.enterNmi_entry (s : State) (cause : Word) (h : Hart) :
    AsyncEntry cause (vecAddr s.pins.nmiVec) s (s.enterNmi cause h) ∧
      AsyncEntry cause (vecAddr s.pins.nmiVec) s (s.draw.enterNmi cause h) :=
  ⟨.of_csr rfl rfl rfl (sameMemory_of rfl rfl rfl rfl rfl), .of_csr rfl rfl rfl (sameMemory_of rfl rfl rfl rfl rfl)⟩

section
variable {s : State}

/-- The pin's request alone is taken (R460). -/
theorem State.takeNmi_pin (hp : s.hart.nmiPin = true) (hb : s.hart.nmiBus = none) :
    s.takeNmi = s.enterNmi 0#32 { s.hart with nmiPin := false } := by
  simp only [State.takeNmi, hp, hb]; rfl

/-- A bus error's request alone is taken, with the cause recorded for it (R460). -/
theorem State.takeNmi_bus {c : Word} (hp : s.hart.nmiPin = false) (hb : s.hart.nmiBus = some c) :
    s.takeNmi = s.enterNmi c { s.hart with nmiBus := none } := by
  simp only [State.takeNmi, hp, hb]; rfl

/-- Of both requests one is taken (U14; log 22). -/
theorem State.takeNmi_both {c : Word} (hp : s.hart.nmiPin = true) (hb : s.hart.nmiBus = some c) :
    s.takeNmi = s.draw.enterNmi 0#32 { s.hart with nmiPin := false } ∨
      s.takeNmi = s.draw.enterNmi c { s.hart with nmiBus := none } := by
  simp only [State.takeNmi, hp, hb]
  split
  · exact .inl rfl
  · exact .inr rfl

/-- Whichever request is taken, it is an NMI entry. -/
theorem State.takeNmi_entry (h : s.nmiPending = true) : ∃ c, AsyncEntry c (vecAddr s.pins.nmiVec) s s.takeNmi := by
  have hentry := s.enterNmi_entry
  cases hp : s.hart.nmiPin with
  | false =>
    have hbus : s.hart.nmiBus.isSome = true := by simpa [State.nmiPending, hp] using h
    obtain ⟨c, hb⟩ := Option.isSome_iff_exists.mp hbus
    exact ⟨c, State.takeNmi_bus hp hb ▸ (hentry _ _).1⟩
  | true =>
    cases hb : s.hart.nmiBus with
    | none => exact ⟨0#32, State.takeNmi_pin hp hb ▸ (hentry _ _).1⟩
    | some c =>
      rcases State.takeNmi_both hp hb with he | he
      · exact ⟨0#32, he ▸ (hentry _ _).2⟩
      · exact ⟨c, he ▸ (hentry _ _).2⟩

end

/-- Settles O40: one of the requests is taken by an NMI entry, which clears that request alone. -/
theorem nmiEntry : Obligations.NmiEntry := by
  intro s t
  refine ⟨fun h => ?entry, fun hp hb => ?pin, fun c hp hb => ?bus, fun c hp hb => ?both⟩
  case entry =>
    obtain ⟨c, hentry⟩ := State.takeNmi_entry h
    exact ⟨hentry.pc, hentry.mepc, hentry.mtval, hentry.mpie, hentry.mie, hentry.reg, hentry.memory⟩
  case pin =>
    have ht : t = s.enterNmi 0#32 { s.hart with nmiPin := false } := State.takeNmi_pin hp hb
    rw [ht]
    exact ⟨rfl, by simp [State.nmiPending, State.enterNmi, hb]⟩
  case bus =>
    have ht : t = s.enterNmi c { s.hart with nmiBus := none } := State.takeNmi_bus hp hb
    rw [ht]
    exact ⟨rfl, by simp [State.nmiPending, State.enterNmi, hp]⟩
  case both =>
    have ht : t = s.draw.enterNmi 0#32 { s.hart with nmiPin := false } ∨ t = s.draw.enterNmi c { s.hart with nmiBus := none } :=
      State.takeNmi_both hp hb
    rcases ht with ht | ht
    · rw [ht]; exact .inl ⟨rfl, rfl, hb⟩
    · rw [ht]; exact .inr ⟨rfl, rfl, hp⟩

end Sys2Proof.Machine
end

section
/-! PROOFS. The end of a single step, and an execute trigger (70_debug.md R448, R615, R622-R625). -/

namespace Sys2Proof.Machine

/-! ### What the clock changes (R540) -/

/-- Only the counters and internal timers, PAUSE, the gateways, free values and the record of this step's writes differ. -/
def ClockFrame (s t : State) : Prop :=
  t = { s with
    draws := t.draws
    csr := { s.csr with
      mcycle := t.csr.mcycle, mhpm := t.csr.mhpm, mitcnt0 := t.csr.mitcnt0, mitcnt1 := t.csr.mitcnt1 }
    pic := t.pic
    hart := { s.hart with mitHold0 := t.hart.mitHold0, mitHold1 := t.hart.mitHold1, pause := t.hart.pause }
    sync := t.sync }

theorem ClockFrame.refl (s : State) : ClockFrame s s := rfl

theorem ClockFrame.trans {s u t : State} (h1 : ClockFrame s u) (h2 : ClockFrame u t) : ClockFrame s t := by
  unfold ClockFrame at *
  calc t = _ := h2
    _ = _ := by rw [h1]

theorem State.addHpm_frame (s : State) (k : Nat → Nat) : ClockFrame s (s.addHpm k) := by
  unfold State.addHpm
  dsimp only
  split <;> rfl

theorem State.addCycle_frame (s : State) : ClockFrame s s.addCycle := by
  obtain ⟨c, y, _, he⟩ := s.addCycle_eq
  rw [he]; rfl

theorem State.tickCounters_frame (s : State) : ClockFrame s s.tickCounters := by
  have hcycle : ClockFrame s (if s.cycleCounts then s.addCycle else s) := by
    split
    · exact s.addCycle_frame
    · exact .refl s
  unfold State.tickCounters
  dsimp only
  split
  · exact hcycle.trans (State.addHpm_frame _ _)
  · exact hcycle

theorem State.tickTimers_frame (s : State) (commit : Bool) : ClockFrame s (s.tickTimers commit) := rfl

theorem State.tickPause_frame (s : State) : ClockFrame s s.tickPause := by
  unfold State.tickPause
  split <;> rfl

theorem State.gwTick_frame (s : State) : ClockFrame s s.gwTick := rfl

theorem State.tick_frame (s : State) (commit : Bool) : ClockFrame s (s.tick commit) :=
  s.tickCounters_frame.trans <| (State.tickTimers_frame _ _).trans <| (State.tickPause_frame _).trans (State.gwTick_frame _)

theorem State.ticks_frame (n k : Nat) (s : State) : ClockFrame s (State.ticks n k s) := by
  induction n generalizing k s with
  | zero => exact .refl s
  | succ n ih => exact (s.tick_frame _).trans (ih _ _)

theorem State.microCount_frame (s : State) : ClockFrame s s.microCount := by
  unfold State.microCount
  split
  · exact (s.addHpm_frame _).trans rfl
  · exact .refl s

/-- The cycles of a step change no more than that. -/
theorem State.clock_frame (s : State) : ClockFrame s s.clock := s.microCount_frame.trans (State.ticks_frame _ _ _)

/-! ### The end of a single step (R448, R615) -/

/-- A single step that asks for no firmware halt ends by entering Debug Mode with cause 4 after its cycles (R615). -/
theorem State.endStep_single {s : State} (hstep : s.hart.stepping = true) (hfw : s.hart.fwHalt = false) :
    s.endStep true = (s.clock.enterDebug 4#3 true).handshakes := by
  have hstep' : s.clock.hart.stepping = true := by rw [s.clock_frame]; exact hstep
  have hfw' : s.clock.hart.fwHalt = false := by rw [s.clock_frame]; exact hfw
  simp [State.endStep, State.finishFwHalt, hfw', hstep']

/-- Settles O49: the clock has left dpc's source, dcsr and the registers as they were when Debug Mode is entered. -/
theorem singleStepEnds : Obligations.SingleStepEnds := by
  intro s hstep hfw t
  have ht : t = (s.clock.enterDebug 4#3 true).handshakes := State.endStep_single hstep hfw
  have hcsr : t.csr = (s.clock.enterDebug 4#3 true).csr := by rw [ht]; rfl
  have hpc : s.clock.pc = s.pc := by rw [s.clock_frame]
  have hdcsr : s.clock.csr.dcsr = s.csr.dcsr := by rw [s.clock_frame]
  have hx : s.clock.x = s.x := by rw [s.clock_frame]
  rw [State.enterDebug_csr, hpc, hdcsr] at hcsr
  refine ⟨by rw [ht]; rfl, by rw [ht]; rfl, ?dbgHalt, by rw [hcsr], by rw [hcsr]; rfl, State.getReg_congr ?x⟩
  case dbgHalt => rw [ht]; exact s.clock.enterDebug_dbgHalt 4#3
  case x => rw [ht]; exact (s.clock.enterDebug_x 4#3 true).trans hx

/-! ### An execute trigger (R622, R623, R625) -/

/-- An exact execute trigger on the address of the next instruction matches it, whatever its data access (R622). -/
theorem triggerMatch_execute {t1 t2 pc : Word} (hon : t1.getLsbD 6 = true) (hexe : t1.getLsbD 2 = true)
    (hexact : t1.getLsbD 7 = false) (hpc : t2 &&& 0xFFFFFFFE#32 = pc) (m : MemOp) : triggerMatch t1 t2 pc m = true := by
  rw [triggerMatch_iff]
  refine ⟨hon, .inl ⟨hexe, ?_⟩⟩
  rw [hexact]
  exact hpc.symm

/-- Trigger 0 unchained, with no other on, acts by itself; the chain bit of trigger 1 plays no part (R624). -/
theorem State.triggers_first {s : State} (m : MemOp) (hchain : s.csr.tdata1[0].getLsbD 11 = false)
    (h1 : s.csr.tdata1[1].getLsbD 6 = false) (h2 : s.csr.tdata1[2].getLsbD 6 = false)
    (h3 : s.csr.tdata1[3].getLsbD 6 = false) :
    s.triggers m =
      if triggerMatch s.csr.tdata1[0] s.csr.tdata2[0] s.pc m && (triggerDebug s.csr.tdata1[0] || s.mieOn) then
        s.fired (triggerDebug s.csr.tdata1[0]) (s.csr.tdata1.set 0 (hitSet s.csr.tdata1[0]))
      else .no := by
  refine (State.triggers_together (which := fun i => i == 0) rfl
    ⟨pairFires_first _ hchain (triggerMatch_off h1 _ _ _),
      pairFires_off _ (triggerMatch_off h2 _ _ _) (triggerMatch_off h3 _ _ _)⟩).trans ?_
  rw [hitWords_single]
  rfl

/-- Settles O50: trigger 0 matches and is alone, so it acts by its action. -/
theorem executeTrigger : Obligations.ExecuteTrigger := by
  intro s m w hon hexe hexact hchain haction hpc h1 h2 h3
  have hmatch : triggerMatch s.csr.tdata1[0] s.csr.tdata2[0] s.pc m = true := triggerMatch_execute hon hexe hexact hpc m
  have hfire := State.triggers_first m hchain h1 h2 h3
  rw [hmatch, Bool.true_and] at hfire
  obtain ⟨-, hbreak, hmasked⟩ := State.acts_of_fired hfire
  refine ⟨fun hmie => ?_, hmasked haction⟩
  obtain ⟨t, ht, hhits, hcause, hmepc, hmtval, htarget, hregs, hinstret⟩ := hbreak haction hmie
  exact ⟨t, ht, hcause, hmepc, hmtval, by rw [hhits]; exact Vector.getElem_set_self (by decide), htarget, hregs, hinstret⟩

end Sys2Proof.Machine
end

section
/-! PROOFS. The programmable interrupt controller: registers, gateways, evaluation, capture (61_pic.md R492-R510). -/

namespace Sys2Proof.Machine

/-! ### The sources that exist (R497, R532) -/

/-- A legal build has at most 255 sources (R7). -/
theorem Build.totalInt_le {c : Build} (hc : c.valid = true) : c.totalInt ≤ 255 := by
  obtain ⟨_, _, _, _, hargs⟩ := Build.valid_iff.mp hc
  simp only [Build.argsValid, Bool.and_eq_true, decide_eq_true_eq] at hargs
  obtain ⟨⟨⟨⟨⟨⟨_, hmax⟩, _⟩, _⟩, _⟩, _⟩, _⟩ := hargs
  exact hmax

theorem Build.source?_iff {c : Build} {n : Nat} : Build.source? c n = true ↔ 1 ≤ n ∧ n ≤ c.totalInt := by
  simp [Build.source?]

/-- The mask of sources has the bits of the source numbers: not bit 0, and none above the last source. -/
theorem Build.sources_getLsbD {c : Build} (hmax : c.totalInt ≤ 255) (n : Nat) :
    (Build.sources c).getLsbD n = Build.source? c n := by
  have hlast : 255 - c.totalInt + n < 256 ↔ n ≤ c.totalInt := by omega
  simp only [Build.sources, Build.source?, BitVec.getLsbD_and, BitVec.getLsbD_ushiftRight, BitVec.getLsbD_allOnes,
    BitVec.getLsbD_not, BitVec.getLsbD_one, hlast]
  by_cases hn : n ≤ c.totalInt
  · have hw : n < 256 := by omega
    cases n <;> simp [hn, hw]
  · simp [hn]

/-- Source 0 does not exist, in any build (R495). -/
@[simp] theorem Build.sources_getLsbD_zero (c : Build) : (Build.sources c).getLsbD 0 = false := by
  simp [Build.sources]

/-- An existing source has a configurable gateway if the build gives it one (R497). -/
theorem State.cfgGateways_getLsbD {s : State} {n : Nat} (hmax : s.cfg.totalInt ≤ 255) (hn : Build.source? s.cfg n = true) :
    s.cfgGateways.getLsbD n = s.cfg.cfgGateway.getLsbD n := by
  rw [State.cfgGateways, BitVec.getLsbD_and, Build.sources_getLsbD hmax, hn, Bool.and_true]

/-! ### Gateways (R500, R501) -/

/-- A gateway requests while its request is active, and an edge-triggered one while its request is pending (R500, R501). -/
theorem State.gwReq_getLsbD (s : State) (p : Pic) (n : Nat) :
    (s.gwReq p).getLsbD n = true ↔ (s.gwActive p).getLsbD n = true ∨
      (p.gwType.getLsbD n = true ∧ p.gwIp.getLsbD n = true ∧ s.cfgGateways.getLsbD n = true) := by
  simp only [State.gwReq, BitVec.getLsbD_or, BitVec.getLsbD_and, Bool.or_eq_true, Bool.and_eq_true, and_assoc]

/-- Source 0 never requests (R495). -/
@[simp] theorem State.gwReq_getLsbD_zero (s : State) (p : Pic) : (s.gwReq p).getLsbD 0 = false := by
  simp only [State.gwReq, State.gwActive, State.cfgGateways, BitVec.getLsbD_or, BitVec.getLsbD_and,
    Build.sources_getLsbD_zero, Bool.and_false, Bool.or_false]

/-- A clock of the gateways adds the active requests to the pending ones, except where a store has just cleared (R501). -/
theorem State.gwTick_gwIp (s : State) :
    s.gwTick.pic.gwIp = s.pic.gwIp ||| (s.gwActive s.pic &&& s.cfgGateways &&& ~~~s.sync.gwCleared) := rfl

/-- Settles O44: the pending bits of R501's equation, bit by bit. -/
theorem gatewayClock : Obligations.GatewayClock := by
  intro s n hn
  refine ⟨?pending, s.gwReq_getLsbD s.pic n⟩
  case pending =>
    rw [State.gwTick_gwIp]
    simp only [BitVec.getLsbD_or, BitVec.getLsbD_and, BitVec.getLsbD_not, Bool.or_eq_true, Bool.and_eq_true,
      decide_eq_true hn, Bool.true_and, Bool.not_eq_true', and_assoc]

/-! ### Evaluation (R503, R505) -/

/-- What the comparison of sources 1 to `n` has found: no candidate among them is above the priority, and a claim is the lowest
candidate at it; without a claim the priority is 0 (R503). -/
structure IsBest (p : Pic) (cand : BitVec 256) (n : Nat) (pri : BitVec 4) (id : Nat) : Prop where
  above : ∀ k, 1 ≤ k → k ≤ n → cand.getLsbD k = true → p.level k ≤ pri
  idle : id = 0 → pri = 0#4
  claim : id ≠ 0 → id ≤ n ∧ cand.getLsbD id = true ∧ p.level id = pri ∧ pri ≠ 0#4
  lowest : ∀ k, 1 ≤ k → k < id → cand.getLsbD k = true → p.level k < pri

/-- Before any source is compared there is no claim. -/
theorem IsBest.start (p : Pic) (cand : BitVec 256) : IsBest p cand 0 0#4 0 where
  above k hk hk0 := by omega
  idle _ := rfl
  claim h := absurd rfl h
  lowest k _ hk := by omega

section
variable {p : Pic} {cand : BitVec 256} {n : Nat} {pri : BitVec 4} {id : Nat}

/-- A candidate with a higher priority than all before it is the new claim. -/
theorem IsBest.win (h : IsBest p cand n pri id) (hcand : cand.getLsbD (n + 1) = true) (hpri : pri < p.level (n + 1)) :
    IsBest p cand (n + 1) (p.level (n + 1)) (n + 1) where
  above k hk hkn hc := by
    rcases Nat.le_succ_iff.mp hkn with hle | rfl
    · exact BitVec.le_of_lt (Std.lt_of_le_of_lt (h.above k hk hle hc) hpri)
    · exact BitVec.le_refl _
  idle h0 := absurd h0 n.succ_ne_zero
  claim _ := ⟨le_refl _, hcand, rfl, fun h0 => BitVec.not_lt_zero (h0 ▸ hpri)⟩
  lowest k hk hkn hc := Std.lt_of_le_of_lt (h.above k hk (Nat.le_of_lt_succ hkn) hc) hpri

/-- A source that is no candidate, or has no higher priority, changes nothing. -/
theorem IsBest.keep (h : IsBest p cand n pri id) (hkeep : cand.getLsbD (n + 1) = true → ¬ pri < p.level (n + 1)) :
    IsBest p cand (n + 1) pri id where
  above k hk hkn hc := by
    rcases Nat.le_succ_iff.mp hkn with hle | rfl
    · exact h.above k hk hle hc
    · exact BitVec.not_lt.mp (hkeep hc)
  idle := h.idle
  claim h0 := by
    obtain ⟨hid, hclaim⟩ := h.claim h0
    exact ⟨Nat.le_succ_of_le hid, hclaim⟩
  lowest := h.lowest

end

/-- One comparison of the evaluation, with the priority as the comparison sees it (R503, R505). -/
theorem picBest_succ (p : Pic) (cand : BitVec 256) (n : Nat) :
    picBest p cand (n + 1) =
      if cand.getLsbD (n + 1) = true ∧ (picBest p cand n).1 < p.level (n + 1) then
        (p.level (n + 1), BitVec.ofNat 8 (n + 1))
      else picBest p cand n := by
  simp only [picBest, Bool.and_eq_true, decide_eq_true_eq]
  rfl

/-- The evaluation finds the highest priority and the lowest source that has it; a source number fits in the claim's 8 bits. -/
theorem picBest_isBest (p : Pic) (cand : BitVec 256) (n : Nat) (hn : n ≤ 255) :
    IsBest p cand n (picBest p cand n).1 (picBest p cand n).2.toNat := by
  induction n with
  | zero => exact IsBest.start p cand
  | succ n ih =>
    have hbest := ih (by omega)
    rw [picBest_succ]
    split
    next hwin =>
      have hid : (BitVec.ofNat 8 (n + 1)).toNat = n + 1 := Nat.mod_eq_of_lt (by omega : n + 1 < 2 ^ 8)
      rw [hid]
      exact hbest.win hwin.1 hwin.2
    next hkeep => exact hbest.keep fun hc hlt => hkeep ⟨hc, hlt⟩

/-- Settles O41, by induction on the number of sources compared. -/
theorem picEvaluation : Obligations.PicEvaluation := by
  intro s hvalid p cand m id
  have hbest : IsBest p cand s.cfg.totalInt m id := picBest_isBest p cand _ (Build.totalInt_le hvalid)
  refine ⟨hbest.above, hbest.idle, fun hid => ?_⟩
  obtain ⟨hle, hcand, hlevel, hpri⟩ := hbest.claim hid
  exact ⟨Nat.one_le_iff_ne_zero.mpr hid, hle, hcand, hlevel, hpri, hbest.lowest⟩

/-! ### Request and capture (R503, R505, R510) -/

/-- The external interrupt is requested above both thresholds (R503). -/
theorem State.mexintirq_iff (s : State) :
    s.mexintirq = true ↔
      inv s.picSeen.priord s.csr.meipt < s.picEval.1 ∧ inv s.picSeen.priord s.csr.meicurpl < s.picEval.1 := by
  simp [State.mexintirq]

/-- A write to meicpct captures, whatever the value (R510). -/
theorem State.csrWrite_meicpct (s : State) (dbg : Bool) (v : Word) : s.csrWrite dbg .meicpct v = s.capture := rfl

/-- After a capture meihap points at the claimed source's entry of the table at meivt (R85). -/
theorem State.csrRead_capture_meihap (s : State) : s.capture.csrRead .meihap = s.csr.meivt ++ s.picEval.2 ++ 0#2 := rfl

/-- Settles O42: the request and the capture see one evaluation. -/
theorem picRequestAndCapture : Obligations.PicRequestAndCapture := by
  intro s v po flip
  rw [State.csrWrite_meicpct, State.capture_csr]
  exact ⟨s.mexintirq_iff, rfl, rfl, s.csrRead_capture_meihap⟩

/-! ### The register map (R492) -/

/-- Word `i` of a 4 KB row of the map has the index `i`. -/
theorem picRow_index {row i : Nat} (hi : i < 1024) : (0x1000 * row + 4 * i) % 0x1000 / 4 = i := by omega

section
variable (s : State) {i : Nat}

theorem State.picReg_meipl (hi : i < 1024) :
    s.picReg (4 * i) = if Build.source? s.cfg i then some (.meipl i) else none := by
  have hidx : 4 * i % 0x1000 / 4 = i := by omega
  have hrow : 4 * i < 0x1000 := by omega
  simp only [State.picReg, hidx, hrow, if_true]

theorem State.picReg_meip (hi : i < 1024) :
    s.picReg (0x1000 + 4 * i) = if i ≤ s.cfg.totalInt / 32 then some (.meip i) else none := by
  have hidx : (0x1000 + 4 * i) % 0x1000 / 4 = i := picRow_index (row := 1) hi
  rw [State.picReg, hidx, if_neg (by omega), if_pos (by omega)]

theorem State.picReg_meie (hi : i < 1024) :
    s.picReg (0x2000 + 4 * i) = if Build.source? s.cfg i then some (.meie i) else none := by
  have hidx : (0x2000 + 4 * i) % 0x1000 / 4 = i := picRow_index (row := 2) hi
  rw [State.picReg, hidx, if_neg (by omega), if_neg (by omega), if_pos (by omega)]

theorem State.picReg_mpiccfg : s.picReg 0x3000 = some .mpiccfg := rfl

theorem State.picReg_meigwctrl (hi : i < 1024) :
    s.picReg (0x4000 + 4 * i) = if s.cfgGateways.getLsbD i then some (.meigwctrl i) else none := by
  have hidx : (0x4000 + 4 * i) % 0x1000 / 4 = i := picRow_index (row := 4) hi
  rw [State.picReg, hidx, if_neg (by omega), if_neg (by omega), if_neg (by omega), if_neg (by omega), if_pos (by omega)]

theorem State.picReg_meigwclr (hi : i < 1024) :
    s.picReg (0x5000 + 4 * i) = if s.cfgGateways.getLsbD i then some (.meigwclr i) else none := by
  have hidx : (0x5000 + 4 * i) % 0x1000 / 4 = i := picRow_index (row := 5) hi
  rw [State.picReg, hidx, if_neg (by omega), if_neg (by omega), if_neg (by omega), if_neg (by omega), if_neg (by omega),
    if_pos (by omega)]

end

/-! ### Bits of the registers -/

/-- Setting a bit changes that bit only. -/
theorem setBit_getLsbD (m : BitVec 256) {i : Nat} (hi : i < 256) (b : Bool) (k : Nat) :
    (setBit m i b).getLsbD k = if k = i then b else m.getLsbD k := by
  cases b with
  | true =>
    rw [setBit, if_pos rfl, ← BitVec.twoPow_eq, BitVec.getLsbD_or, BitVec.getLsbD_twoPow, decide_eq_true hi, Bool.true_and]
    by_cases hk : k = i
    · simp [hk]
    · simp [hk, Ne.symm hk]
  | false =>
    rw [setBit, if_neg Bool.false_ne_true, ← BitVec.twoPow_eq, BitVec.getLsbD_and, BitVec.getLsbD_not,
      BitVec.getLsbD_twoPow, decide_eq_true hi, Bool.true_and]
    by_cases hk : k = i
    · simp [hk]
    · have hwidth : m.getLsbD k = true → k < 256 := BitVec.lt_of_getLsbD
      simpa [hk, Ne.symm hk] using hwidth

/-- Bit `i` of a word, as a word, at its place. -/
theorem bitWord_shiftLeft (v : Word) (i : Nat) : bitWord (v.getLsbD i) <<< i = v &&& BitVec.twoPow 32 i := by
  rw [BitVec.and_twoPow, bitWord]
  split
  · exact (BitVec.twoPow_eq 32 i).symm
  · simp

/-- Bit 0 of a word as a word (R493, R496). -/
theorem bitWord_getLsbD_zero (v : Word) : bitWord (v.getLsbD 0) = v &&& 1#32 :=
  (BitVec.shiftLeft_zero _).symm.trans (bitWord_shiftLeft v 0)

/-- The bits 0 and 1 of a word make its low 2 bits (R497). -/
theorem bitWord_pair (v : Word) : bitWord (v.getLsbD 0) ||| (bitWord (v.getLsbD 1) <<< 1) = v &&& 3#32 := by
  rw [bitWord_getLsbD_zero, bitWord_shiftLeft, ← BitVec.and_or_distrib_left]
  rfl

/-! ### What a register reads after a write (R493-R499) -/

section
variable (s : State) (v : Word) {n : Nat}

theorem State.picRead_picWrite_meipl (hn : n < 256) : (s.picWrite (.meipl n) v).picRead (.meipl n) = v &&& 0xF#32 := by
  have hlevel : (s.pic.meipl.setIfInBounds n (v.setWidth 4))[n]? = some (v.setWidth 4) := by
    rw [Vector.getElem?_setIfInBounds_self_of_lt hn]
  simp only [State.picRead, State.picWrite_pic, Pic.write, hlevel, Option.getD_some]
  exact (and_lowMask v 4).symm

/-- A write of an enable register is to the enable of its source (R496). -/
theorem State.picWrite_meie_getLsbD (hn : n < 256) (k : Nat) :
    (s.picWrite (.meie n) v).pic.meie.getLsbD k = if k = n then v.getLsbD 0 else s.pic.meie.getLsbD k := by
  rw [State.picWrite_pic, Pic.write, setBit_getLsbD _ hn]

theorem State.picRead_picWrite_meie (hn : n < 256) : (s.picWrite (.meie n) v).picRead (.meie n) = v &&& 1#32 := by
  rw [State.picRead, State.picWrite_meie_getLsbD _ _ hn, if_pos rfl, bitWord_getLsbD_zero]

theorem State.picRead_picWrite_mpiccfg : (s.picWrite .mpiccfg v).picRead .mpiccfg = v &&& 1#32 :=
  bitWord_getLsbD_zero v

theorem State.picRead_picWrite_meigwctrl (hn : n < 256) :
    (s.picWrite (.meigwctrl n) v).picRead (.meigwctrl n) = v &&& 3#32 := by
  simp only [State.picRead, State.picWrite_pic, Pic.write, setBit_getLsbD _ hn, if_true]
  exact bitWord_pair v

/-- A write of any value to the clear register of a gateway clears its pending bit (R499). -/
theorem State.picWrite_meigwclr_getLsbD (hn : n < 256) : (s.picWrite (.meigwclr n) v).pic.gwIp.getLsbD n = false := by
  rw [State.picWrite_pic, Pic.write, setBit_getLsbD _ hn, if_pos rfl]

end

/-- Bit `y` of meipX shows the request of gateway 32 X + y (R495). -/
theorem State.picRead_meip_getLsbD (s : State) (x : Nat) {y : Nat} (hy : y < 32) :
    (s.picRead (.meip x)).getLsbD y = (s.gwReq s.pic).getLsbD (32 * x + y) := by
  simp [State.picRead, hy]

/-- Settles O43: the rows of the map, then what each register reads. -/
theorem picRegisters : Obligations.PicRegisters := by
  intro s n v hvalid h1 hlast
  have hmax := Build.totalInt_le hvalid
  have hn : n < 256 := by omega
  have hsrc : Build.source? s.cfg n = true := Build.source?_iff.mpr ⟨h1, hlast⟩
  have hgw : s.cfgGateways.getLsbD n = s.cfg.cfgGateway.getLsbD n := State.cfgGateways_getLsbD hmax hsrc
  have hctrl := s.picReg_meigwctrl (i := n) (by omega)
  have hclr := s.picReg_meigwclr (i := n) (by omega)
  rw [hgw] at hctrl hclr
  refine ⟨⟨?meipl, ?meie, s.picReg_mpiccfg, rfl, s.picRead_picWrite_meipl v hn, s.picRead_picWrite_meie v hn,
    s.picRead_picWrite_mpiccfg v, ?others⟩, ⟨?meip, ?shows, ?source0, rfl⟩, fun hcfg => ?gateway, fun hcfg => ?simple⟩
  case meipl => rw [s.picReg_meipl (by omega), hsrc, if_pos rfl]
  case meie => rw [s.picReg_meie (by omega), hsrc, if_pos rfl]
  case others => exact fun k hk => by rw [s.picWrite_meie_getLsbD v hn, if_neg hk]
  case meip => rw [s.picReg_meip (by omega), if_pos (Nat.div_le_div_right hlast)]
  case shows => rw [s.picRead_meip_getLsbD _ (Nat.mod_lt n (by decide)), Nat.div_add_mod]
  case source0 => rw [s.picRead_meip_getLsbD 0 (by decide)]; exact s.gwReq_getLsbD_zero s.pic
  case gateway =>
    rw [hcfg, if_pos rfl] at hctrl hclr
    exact ⟨hctrl, hclr, s.picRead_picWrite_meigwctrl v hn, s.picWrite_meigwclr_getLsbD v hn⟩
  case simple =>
    rw [hcfg] at hctrl hclr
    exact ⟨hctrl, hclr⟩

end Sys2Proof.Machine
end

section
/-! PROOFS. What fetching and entering Debug Mode leave unchanged, and halting and resuming the hart (63_debug_cache_control.md R552,
R553, R606-R615). -/

namespace Sys2Proof.Machine

/-! ### What a fetch changes (R171, R194, R198) -/

/-- Only what the oracles have left, the outputs, free values, the error counters, the closely-coupled memories, which the DMA port
may write, the I-cache and the DMA port differ. -/
def FetchFrame (s t : State) : Prop :=
  t = { s with
    env := t.env
    outs := t.outs
    draws := t.draws
    csr := { s.csr with micect := t.csr.micect, miccmect := t.csr.miccmect, mdccmect := t.csr.mdccmect }
    iccm := t.iccm
    dccm := t.dccm
    icache := t.icache
    dma := t.dma }

theorem FetchFrame.refl (s : State) : FetchFrame s s := rfl

theorem FetchFrame.trans {s u t : State} (h1 : FetchFrame s u) (h2 : FetchFrame u t) : FetchFrame s t := by
  unfold FetchFrame at *
  calc t = _ := h2
    _ = _ := by rw [h1]

theorem State.traceInsn_frame (s : State) (bits : Word) : FetchFrame s (s.traceInsn bits) := rfl

theorem State.takeReply_fetchFrame (s : State) : FetchFrame s s.takeReply.2 := by
  unfold State.takeReply; split <;> rfl

/-! The closely-coupled memories. -/

theorem State.checkWord_frame (s : State) : FetchFrame s s.checkWord.2 := by
  show FetchFrame s s.takeEcc.2
  unfold State.takeEcc; split <;> rfl

theorem State.checkWords_frame (ws : List Word) (s : State) : FetchFrame s (State.checkWords ws s).2 := by
  induction ws generalizing s with
  | nil => exact .refl s
  | cons w ws ih => exact s.checkWord_frame.trans (ih _)

theorem State.countCcmError_frame (s : State) (k : Ccm) : FetchFrame s (s.countCcmError k) := by cases k <;> rfl

theorem State.countChecks_frame (k : Ccm) (cs : List (Word × Check)) (s : State) : FetchFrame s (s.countChecks k cs) := by
  induction cs generalizing s with
  | nil => exact .refl s
  | cons c cs ih =>
    have hone : FetchFrame s (if c.2 == .corrected then s.countCcmError k else s) := by
      split
      · exact s.countCcmError_frame k
      · exact .refl s
    exact hone.trans (ih _)

theorem State.ccmValue_frame (k : Ccm) (cs : List (Word × Check)) (a : Word) (n : Nat) (s : State) :
    FetchFrame s (State.ccmValue k cs a n s).2 := by
  unfold State.ccmValue State.ccmBytes
  dsimp only
  split <;> rfl

theorem State.setCcm_frame (s : State) (k : Ccm) (m : Memory) : FetchFrame s (s.setCcm k m) := by cases k <;> rfl

/-! The DMA port. -/

theorem State.dmaWord_frame (s : State) (k : Ccm) (write : Bool) (a : Word) (n : Nat) (v : BitVec 32) :
    FetchFrame s (s.dmaWord k write a n v).2 := by
  unfold State.dmaWord
  split
  · exact s.setCcm_frame k _
  · have hchecked := State.checkWords_frame (wordsOf a n) s
    dsimp only
    split
    · exact hchecked
    · exact hchecked.trans ((State.countChecks_frame _ _ _).trans (State.ccmValue_frame _ _ _ _ _))

theorem State.dmaAnswer_frame (s : State) (resp : DmaResp) : FetchFrame s (s.dmaAnswer resp) := rfl

theorem State.dmaServe_frame (s : State) : FetchFrame s s.dmaServe := by
  unfold State.dmaServe
  split
  · exact .refl s
  next r rest hfifo =>
    split
    · exact s.dmaAnswer_frame _
    · split
      · exact s.dmaAnswer_frame _
      next k _ _ =>
        have hword := s.dmaWord_frame k r.write r.addr (min r.bytes 4) (r.data.extractLsb' 0 32)
        split
        next u hu => rw [hu] at hword; exact hword.trans (u.dmaAnswer_frame _)
        next lo u hu =>
          rw [hu] at hword
          split
          · exact hword.trans rfl
          · exact hword.trans (u.dmaAnswer_frame _)
      next k lo _ _ =>
        have hword := s.dmaWord_frame k r.write (r.addr + 4#32) 4 (r.data.extractLsb' 32 32)
        split
        next u hu => rw [hu] at hword; exact hword.trans (u.dmaAnswer_frame _)
        next hi u hu => rw [hu] at hword; exact hword.trans (u.dmaAnswer_frame _)

theorem State.dmaServeN_frame (n : Nat) (s : State) : FetchFrame s (State.dmaServeN n s) := by
  induction n generalizing s with
  | zero => exact .refl s
  | succ n ih => exact s.dmaServe_frame.trans (ih _)

theorem State.dmaPoint_frame (s : State) : FetchFrame s s.dmaPoint := by
  unfold State.dmaPoint
  split
  · exact .refl s
  · exact FetchFrame.trans (by rfl) (State.dmaServeN_frame _ _)

/-! The parcels. -/

/-- The state a fetch goes on with, whatever it comes to. -/
def Fetched.state {α : Type} : Fetched α → State
  | .ok _ s => s
  | .fault _ s => s
  | .again s => s

theorem State.fetchIccm_frame (s : State) (p : Word) : FetchFrame s (s.fetchIccm p).state := by
  have hchecked := s.checkWord_frame
  unfold State.fetchIccm
  dsimp only
  split
  · exact hchecked
  · exact hchecked.trans (State.countCcmError_frame _ .iccm)
  all_goals exact hchecked.trans (State.ccmValue_frame _ _ _ _ _)

theorem State.fetchBus_frame (s : State) (p : Word) : FetchFrame s (s.fetchBus p).state := by
  have hreply := s.takeReply_fetchFrame
  unfold State.fetchBus
  dsimp only
  split <;> exact hreply

theorem State.icRecover_frame (s : State) (a : Word) : FetchFrame s (s.icRecover a) := rfl

theorem State.icFill_frame (s : State) (a : Word) (way : BitVec 2) (lru : BitVec 3) (r : Reply) :
    FetchFrame s (s.icFill a way lru r) := by
  simp only [FetchFrame, State.icFill]

theorem State.fetchCached_frame (s : State) (p : Word) : FetchFrame s (s.fetchCached p).state := by
  have hreply := s.takeReply_fetchFrame
  unfold State.fetchCached
  dsimp only
  split
  case h_1 =>
    split
    · exact s.icRecover_frame p
    · exact .refl s
  case h_2 =>
    split
    · exact s.icRecover_frame p
    · split
      · exact hreply
      · exact hreply.trans (State.icFill_frame _ _ _ _ _)

theorem State.fetchParcel_frame (s : State) (p : Word) : FetchFrame s (s.fetchParcel p).state := by
  unfold State.fetchParcel
  split
  · split
    · exact s.fetchIccm_frame p
    · exact .refl s
  · split
    · exact .refl s
    · split
      · exact s.fetchCached_frame p
      · exact s.fetchBus_frame p

/-- Fetching an instruction changes no more than that. -/
theorem State.fetch_frame (s : State) : FetchFrame s s.fetch.state := by
  have hfirst := s.fetchParcel_frame s.pc
  unfold State.fetch
  split
  next e u hu => rw [hu] at hfirst; exact hfirst
  next u hu => rw [hu] at hfirst; exact hfirst
  next p0 u hu =>
    rw [hu] at hfirst
    have hmid : FetchFrame s u.dmaPoint := hfirst.trans u.dmaPoint_frame
    have hsecond := hmid.trans (u.dmaPoint.fetchParcel_frame (s.pc + 2#32))
    split
    · split
      next e v hv => rw [hv] at hsecond; exact hsecond
      next v hv => rw [hv] at hsecond; exact hsecond
      next p1 v hv => rw [hv] at hsecond; exact hsecond.trans v.dmaPoint_frame
    · exact hmid

/-! ### Entering Debug Mode (R613) -/

/-- `t` is `s` gone into db-halt with this dcsr.cause before the instruction at its pc: dpc names that instruction, the LSU buffers
are empty, and no register or trap CSR has changed (R550, R613). -/
structure EntersDebug (cause : BitVec 3) (s t : State) : Prop where
  activity : t.hart.activity = .dbHalt
  dpc : t.csr.dpc = s.pc
  dcsr : t.csr.dcsr = (s.csr.dcsr &&& ~~~0x1C0#32) ||| (cause.setWidth 32 <<< 6)
  lsu : t.lsu = { wbuf := [], busOut := [] }
  x : t.x = s.x
  mepc : t.csr.mepc = s.csr.mepc
  mcause : t.csr.mcause = s.csr.mcause
  mstatus : t.csr.mstatus = s.csr.mstatus

theorem State.enterDebug_enters (s : State) (c : BitVec 3) (core : Bool) : EntersDebug c s (s.enterDebug c core) where
  activity := rfl
  dpc := by rw [State.enterDebug_csr]
  dcsr := by rw [State.enterDebug_csr]
  lsu := s.enterDebug_lsu c core
  x := s.enterDebug_x c core
  mepc := by rw [State.enterDebug_csr]
  mcause := by rw [State.enterDebug_csr]
  mstatus := by rw [State.enterDebug_csr]

section
variable {cause : BitVec 3} {s t u : State}

/-- Fetching the instruction first makes no difference. -/
theorem EntersDebug.of_fetch (hf : FetchFrame s u) (h : EntersDebug cause u t) : EntersDebug cause s t where
  activity := h.activity
  dpc := h.dpc.trans (by rw [hf])
  dcsr := h.dcsr.trans (by rw [hf])
  lsu := h.lsu
  x := h.x.trans (by rw [hf])
  mepc := h.mepc.trans (by rw [hf])
  mcause := h.mcause.trans (by rw [hf])
  mstatus := h.mstatus.trans (by rw [hf])

/-- Noting a requester besides makes no difference. -/
theorem EntersDebug.withMpcHalt (h : EntersDebug cause s t) (b : Bool) :
    EntersDebug cause s { t with hart := { t.hart with mpcHalt := b } } := { h with }

theorem EntersDebug.getReg (h : EntersDebug cause s t) (r : Reg) : t.getReg r = s.getReg r := State.getReg_congr h.x r

end

/-! ### Debug Mode entered by the next instruction itself (R611) -/

/-- `t` is `s` halted by its next instruction itself: cause 2 for a trigger, 1 for an `ebreak`, a core debug halt action either way
(R611, R613). -/
def HaltsItself (s t : State) : Prop :=
  (EntersDebug 2#3 s t ∨ EntersDebug 1#3 s t) ∧ t.hart.dbgHalt = true

section
variable {s t u : State}

theorem HaltsItself.of_fetch (hf : FetchFrame s u) (h : HaltsItself u t) : HaltsItself s t :=
  ⟨h.1.imp (.of_fetch hf) (.of_fetch hf), h.2⟩

/-- The cause as dcsr shows it (R103). -/
theorem HaltsItself.dcsr (h : HaltsItself s t) :
    t.csr.dcsr = (s.csr.dcsr &&& ~~~0x1C0#32) ||| 0x80#32 ∨ t.csr.dcsr = (s.csr.dcsr &&& ~~~0x1C0#32) ||| 0x40#32 :=
  h.1.imp (fun h2 => h2.dcsr.trans (congrArg _ (by decide))) fun h1 => h1.dcsr.trans (congrArg _ (by decide))

/-- Whichever its cause, it has entered Debug Mode. -/
theorem HaltsItself.enters (h : HaltsItself s t) : ∃ cause, EntersDebug cause s t :=
  h.1.elim (fun h2 => ⟨_, h2⟩) fun h1 => ⟨_, h1⟩

/-- A trigger with action 1 halts the hart at the instruction it watches, showing only its hit besides (R622, R625). -/
theorem State.haltsItself_of_triggers {m : MemOp} (h : s.triggers m = .debug t) : HaltsItself s t := by
  unfold State.triggers at h
  dsimp only at h
  split at h
  · split at h
    · cases h
      exact ⟨.inl { State.enterDebug_enters _ 2#3 true with }, State.enterDebug_dbgHalt _ _⟩
    · cases h
  · cases h

theorem State.haltsItself_of_triggerHalt {m : MemOp} (h : s.triggerHalt m = some t) : HaltsItself s t := by
  unfold State.triggerHalt at h
  split at h
  next hfired => cases h; exact State.haltsItself_of_triggers hfired
  · cases h
  · cases h

/-- `ebreak` with dcsr.ebreakm = 1 halts the hart at its own address, having counted at most (R410, R612). -/
theorem State.haltsItself_ebreakOp (h : s.ebreakm = true) : HaltsItself s s.ebreakOp := by
  obtain ⟨counters, hop⟩ := State.ebreakOp_debug h
  rw [hop]
  exact ⟨.inr { State.enterDebug_enters _ 1#3 true with }, State.enterDebug_dbgHalt _ _⟩

/-- The instruction is fetched, and a trigger or the instruction itself then halts the hart. -/
theorem State.haltsItself_of_instrHalt (h : s.instrHalt = some t) : HaltsItself s t := by
  have hfetch := s.fetch_frame
  unfold State.instrHalt at h
  split at h
  · cases h
  next e v hv => rw [hv] at hfetch; exact (State.haltsItself_of_triggerHalt h).of_fetch hfetch
  next enc v hv =>
    rw [hv] at hfetch
    refine HaltsItself.of_fetch (hfetch.trans (v.traceInsn_frame enc.bits)) ?_
    dsimp only at h
    split at h
    · exact State.haltsItself_of_triggerHalt h
    · split at h
      next hfired => cases h; exact State.haltsItself_of_triggers hfired
      · cases h
      · split at h
        next hbreak => cases h; exact State.haltsItself_ebreakOp hbreak.2
        · cases h

theorem State.haltsItself_of_ownHalt (h : s.ownHalt = some t) : HaltsItself s t := by
  unfold State.ownHalt at h
  split at h
  · cases h
  · exact State.haltsItself_of_instrHalt h

end

/-! ### A debug halt request (R552, R613) -/

/-- A request enters Debug Mode with cause 3. -/
theorem State.haltOnRequest_enters (s : State) : EntersDebug 3#3 s s.haltOnRequest :=
  (s.enterDebug_enters 3#3 s.dm.haltreq).withMpcHalt _

/-- Its requester, the debugger or the MPC, is on record. -/
theorem State.haltOnRequest_recorded (s : State) :
    (s.haltOnRequest.hart.dbgHalt || s.haltOnRequest.hart.mpcHalt) = true := by
  simp only [State.haltOnRequest, State.enterDebug]
  cases s.dm.haltreq <;> simp

/-- Settles O47: the instruction's own halt, if it has one, or the request's. -/
theorem debugHaltRequest : Obligations.DebugHaltRequest := by
  intro s hreq own t
  have hstep : s.runningStep = (false, .next t) := if_pos hreq
  cases hown : s.ownHalt with
  | none =>
    have ht : t = s.haltOnRequest := by show s.haltNow = _; rw [State.haltNow, hown]
    have henters : EntersDebug 3#3 s t := ht ▸ s.haltOnRequest_enters
    exact ⟨hstep, henters.activity, ht ▸ s.haltOnRequest_recorded, henters.dpc, henters.lsu, henters.getReg, henters.mepc,
      henters.mcause, henters.mstatus, fun _ => henters.dcsr, fun hne => absurd hown hne⟩
  | some u =>
    have hhalts : HaltsItself s u := State.haltsItself_of_ownHalt hown
    have ht : t = { u with hart := { u.hart with mpcHalt := u.hart.mpcHalt || s.pins.mpcHaltReq } } := by
      show s.haltNow = _; rw [State.haltNow, hown]
    have hrecorded : (t.hart.dbgHalt || t.hart.mpcHalt) = true := by rw [ht]; simp [hhalts.2]
    have hdcsr : t.csr.dcsr = u.csr.dcsr := by rw [ht]
    obtain ⟨cause, hu⟩ := hhalts.enters
    have henters : EntersDebug cause s t := ht ▸ hu.withMpcHalt _
    exact ⟨hstep, henters.activity, hrecorded, henters.dpc, henters.lsu, henters.getReg, henters.mepc, henters.mcause,
      henters.mstatus, fun hnone => absurd (hown.symm.trans hnone) (Option.some_ne_none u),
      fun _ => hdcsr ▸ hhalts.dcsr⟩

/-! ### Resuming (R553, R614, R615) -/

/-- Without a request db-halt notes nothing. -/
theorem State.noteRequests_quiet {s : State} (hreq : s.debugHaltReq = false) (hrun : s.pins.mpcRunReq = false) :
    s.noteRequests = s := by
  obtain ⟨hdm, hmpc⟩ := Bool.or_eq_false_iff.mp hreq
  simp [State.noteRequests, hdm, hmpc, hrun]

/-- The hart leaves db-halt when a requester is on record and each on record has asked it to run (R553). -/
theorem Hart.leaves_iff (h : Hart) :
    h.leaves = true ↔ (h.dbgHalt = true ∨ h.mpcHalt = true) ∧ (h.dbgHalt = true → h.dbgResume = true) ∧
      (h.mpcHalt = true → h.mpcRun = true) := by
  simp only [Hart.leaves, Bool.and_eq_true, Bool.or_eq_true, Bool.not_eq_true', ← Bool.not_eq_true, imp_iff_not_or, and_assoc]

/-- Settles O48: with nothing new to note, a step in db-halt is leaving it or nothing. -/
theorem debugResume : Obligations.DebugResume := by
  intro s hhalt hreq hrun
  have hstep : s.dbHaltStep = if s.hart.leaves then s.leaveDebug else s := by
    rw [State.dbHaltStep, State.noteRequests_quiet hreq hrun]
  refine ⟨fun hstay => ?stays, fun hleave => ?leaves, s.hart.leaves_iff⟩
  case stays =>
    rw [hstep, hstay]
    exact ⟨rfl, rfl, rfl, hhalt⟩
  case leaves =>
    rw [hstep, if_pos hleave]
    exact ⟨rfl, rfl, rfl, rfl, rfl, rfl, rfl⟩

/-! ### Access Register (R606, R607) -/

/-- The register number a command for integer register `r` names. -/
def gprNo (r : Reg) : BitVec 16 := 0x1000#16 ||| r.setWidth 16

/-- The numbers of the integer registers are 0x1000 to 0x101F (R607). -/
theorem gprNo_spec : ∀ r : Reg, (0x1000#16 ≤ gprNo r ∧ gprNo r ≤ 0x101F#16) ∧ (gprNo r).setWidth 5 = r := by decide

/-- The debugger reads integer register `r`. -/
theorem State.debugReadReg_gpr (s : State) (r : Reg) : s.debugReadReg (gprNo r) = some (s.getReg r, s) := by
  obtain ⟨hrange, hreg⟩ := gprNo_spec r
  rw [State.debugReadReg, if_pos hrange, hreg]

/-- The debugger writes integer register `r`. -/
theorem State.debugWriteReg_gpr (s : State) (r : Reg) (v : Word) : s.debugWriteReg (gprNo r) v = some (s.setReg r v) := by
  obtain ⟨hrange, hreg⟩ := gprNo_spec r
  rw [State.debugWriteReg, if_pos hrange, hreg]

/-- A supported Access Register command that transfers register `r`, without postincrement: a write or a read. -/
structure GprCommand (write : Bool) (r : Reg) (cmd : Word) : Prop where
  type : cmd.extractLsb' 24 8 = 0#8
  supported : unsupported cmd = false
  transfer : cmd.getLsbD 17 = true
  write : cmd.getLsbD 16 = write
  postincrement : cmd.getLsbD 19 = false
  regno : cmd.extractLsb' 0 16 = gprNo r

theorem gprCommand_read (r : Reg) : GprCommand false r (0x00221000#32 ||| r.setWidth 32) := by
  constructor <;> revert r <;> decide

theorem gprCommand_write (r : Reg) : GprCommand true r (0x00231000#32 ||| r.setWidth 32) := by
  constructor <;> revert r <;> decide

section
variable {s : State} {r : Reg} {cmd : Word}

theorem State.accessRegister_read (h : GprCommand false r cmd) :
    s.accessRegister cmd = .ok (s.withDm { s.dm with data0 := s.getReg r }) := by
  simp only [State.accessRegister, h.transfer, h.write, h.regno, h.postincrement, State.debugReadReg_gpr, Bool.not_true,
    Bool.false_eq_true, if_false]

theorem State.accessRegister_write (h : GprCommand true r cmd) :
    s.accessRegister cmd = .ok (s.setReg r s.dm.data0) := by
  simp only [State.accessRegister, h.transfer, h.write, h.regno, h.postincrement, State.debugWriteReg_gpr, Bool.not_true,
    Bool.false_eq_true, if_false, if_true]

/-- Of a halted hart the command is carried out (R606). -/
theorem State.startCommand_halted {write : Bool} {u : State} (h : GprCommand write r cmd) (herr : s.dm.cmderr = 0#3)
    (hhalt : s.dmHalted = true)
    (hok : (s.withDm { s.dm with command := cmd }).accessRegister cmd = .ok u) : s.startCommand cmd = u := by
  have hhalt' : (s.withDm { s.dm with command := cmd }).dmHalted = true := hhalt
  rw [State.startCommand, if_neg (not_not.mpr herr)]
  simp only [h.supported, hhalt', h.type, hok, Bool.not_true, Bool.false_eq_true, if_false, if_true]

/-- Of a running hart it fails with cmderr 4 (R606). -/
theorem State.startCommand_running {write : Bool} (h : GprCommand write r cmd) (herr : s.dm.cmderr = 0#3)
    (hrun : s.dmHalted = false) : s.startCommand cmd = (s.withDm { s.dm with command := cmd }).failCommand 4#3 := by
  have hrun' : (s.withDm { s.dm with command := cmd }).dmHalted = false := hrun
  rw [State.startCommand, if_neg (not_not.mpr herr)]
  simp only [h.supported, hrun', Bool.not_false, Bool.false_eq_true, if_false, if_true]

end

/-- A failed command reports its code and changes registers of the debug module only. -/
theorem State.failCommand_spec (s : State) (d : Dm) (code : BitVec 3) :
    let t := (s.withDm d).failCommand code
    t.dm.cmderr = code ∧ t.x = s.x ∧ t.csr = s.csr ∧ SameMemory s t :=
  ⟨rfl, rfl, rfl, sameMemory_of rfl rfl rfl rfl rfl⟩

/-- Settles O51: the two commands, carried out or refused. -/
theorem abstractRegisterAccess : Obligations.AbstractRegisterAccess := by
  intro s r herr read write
  have hread : GprCommand false r read := gprCommand_read r
  have hwrite : GprCommand true r write := gprCommand_write r
  refine ⟨fun hhalt => ?halted, fun hrun => ?running⟩
  case halted =>
    rw [State.startCommand_halted hread herr hhalt (State.accessRegister_read hread),
      State.startCommand_halted hwrite herr hhalt (State.accessRegister_write hwrite)]
    exact ⟨rfl, herr, rfl, fun i => State.getReg_setReg _ r s.dm.data0 i, by rw [State.setReg_dm]; exact herr⟩
  case running =>
    rw [State.startCommand_running hread herr hrun, State.startCommand_running hwrite herr hrun]
    obtain ⟨hcode, hx, hcsr, hmem⟩ := s.failCommand_spec { s.dm with command := read } 4#3
    obtain ⟨hcode', hx', hcsr', hmem'⟩ := s.failCommand_spec { s.dm with command := write } 4#3
    exact ⟨hcode, hcode', hx, hx', hcsr, hcsr', hmem, hmem'⟩

end Sys2Proof.Machine
end

section
/-! PROOFS. The internal timers and pmu/fw-halt (62_timers_power_perf.md R541-R544, R552-R560). -/

namespace Sys2Proof.Machine

/-! ### The internal timers (R541-R544) -/

/-- A timer counts if it is enabled and neither db-halt, pmu/fw-halt nor PAUSE holds it (R541). -/
theorem State.incOk_iff (s : State) (ctl : BitVec 3) :
    s.incOk ctl = true ↔ ctl.getLsbD 0 = true ∧ s.hart.activity ≠ .dbHalt ∧
      (s.hart.activity = .pmuHalt → ctl.getLsbD 1 = true) ∧ (0 < s.hart.pause → ctl.getLsbD 2 = true) := by
  simp only [State.incOk, State.paused, Bool.and_eq_true, Bool.or_eq_true, bne_iff_ne, Bool.not_eq_true',
    decide_eq_false_iff_not, imp_iff_not_or, ne_eq]
  tauto

section
variable {bound cnt : Word} {commit inc : Bool} {write : Option Word}

/-- A timer at or above its bound clears (R543). -/
theorem nextTimer_hit (h : bound ≤ cnt) : nextTimer (decide (bound ≤ cnt)) write inc cnt = 0#32 := by
  rw [decide_eq_true h]; rfl

/-- Else a committing write replaces it (R543). -/
theorem nextTimer_write (h : ¬ bound ≤ cnt) {v : Word} (hc : commit = true) (hw : write = some v) :
    nextTimer (decide (bound ≤ cnt)) (if commit then write else none) inc cnt = v := by
  rw [decide_eq_false h, hc, hw]; rfl

/-- Else it counts, or stands still (R543). -/
theorem nextTimer_idle (h : ¬ bound ≤ cnt) (hw : commit = false ∨ write = none) :
    nextTimer (decide (bound ≤ cnt)) (if commit then write else none) inc cnt = if inc then cnt + 1#32 else cnt := by
  have hnone : (if commit then write else none) = none := by
    rcases hw with rfl | rfl
    · rfl
    · exact ite_self _
  rw [decide_eq_false h, hnone]; rfl

end

/-- A request is set by a hit and lasts, while the timer's interrupt is enabled (R544). -/
theorem nextHold_iff (hit enabled hold : Bool) :
    nextHold hit enabled hold = true ↔ enabled = true ∧ (hit = true ∨ hold = true) := by
  rw [nextHold, Bool.and_eq_true, Bool.or_eq_true]

/-- Settles O45: each timer by the rules of `nextTimer`, its request by `nextHold`. -/
theorem timerCycle : Obligations.TimerCycle := by
  intro s commit t b0 b1 clock
  have hclock (ctl : BitVec 3) (bound count : Word) (write : Option Word) :
      clock ctl bound count write
        (nextTimer (decide (bound ≤ count)) (if commit then write else none) (s.incOk ctl) count) := by
    refine ⟨nextTimer_hit, fun v h hc hw => nextTimer_write h hc hw, fun h hw hcounts => ?counts, fun h hw hcounts => ?stops⟩
    case counts => rw [nextTimer_idle h hw, if_pos ((s.incOk_iff ctl).mpr hcounts)]
    case stops => rw [nextTimer_idle h hw, if_neg fun hinc => hcounts ((s.incOk_iff ctl).mp hinc)]
  have hhold (bit : Nat) (bound count : Word) (hold : Bool) :
      nextHold (decide (bound ≤ count)) (s.timerEnabled bit) hold = true ↔
        s.csr.mie.getLsbD bit = true ∧ s.csr.mstatus.getLsbD 3 = true ∧ (bound ≤ count ∨ hold = true) := by
    rw [nextHold_iff, State.timerEnabled, State.mieOn, Bool.and_eq_true, decide_eq_true_iff, and_assoc]
  exact ⟨hclock _ _ _ _, hclock _ _ _ _, hhold _ _ _ _, hhold _ _ _ _,
    fun hc => ⟨if_pos hc, if_pos hc, if_pos hc, if_pos hc⟩⟩

/-! ### Into pmu/fw-halt (R555-R557) -/

/-- Outside Debug Mode a write of 1 to mpmc.halt asks for a firmware halt, setting mie with haltie = 1 (R556). -/
theorem State.csrWrite_mpmc_halt {s : State} {v : Word} (hv : v.getLsbD 0 = true) (hd : s.inDebugMode = false) :
    (s.csrWrite false .mpmc v).hart.fwHalt = true ∧
      (s.csrWrite false .mpmc v).csr.mstatus = if v.getLsbD 1 then s.csr.mstatus ||| 8#32 else s.csr.mstatus := by
  have hhalt : (v.getLsbD 0 && !(false || s.inDebugMode)) = true := by rw [hv, hd]; rfl
  have hwrite : s.csrWrite false .mpmc v = s.writeMpmc false v := rfl
  rw [hwrite, State.writeMpmc, if_pos hhalt]
  refine ⟨rfl, ?mstatus⟩
  case mstatus =>
    show (if v.getLsbD 1 then _ else _ : Csrs).mstatus = _
    split <;> rfl

/-- A step that ends with a firmware halt asked for ends in pmu/fw-halt with the LSU empty (R550, R556). -/
theorem State.endStep_fwHalt {s : State} (hfw : s.hart.fwHalt = true) (hstep : s.hart.stepping = false) (stepped : Bool) :
    (s.endStep stepped).hart.activity = .pmuHalt ∧ (s.endStep stepped).hart.fwHalt = false ∧
      (s.endStep stepped).lsu = { wbuf := [], busOut := [] } := by
  have hfw' : s.clock.hart.fwHalt = true := by rw [s.clock_frame]; exact hfw
  have hstep' : s.clock.finishFwHalt.hart.stepping = false := by
    rw [State.finishFwHalt, if_pos hfw']
    show s.clock.quiesce.hart.stepping = false
    rw [s.clock.quiesce_hart.2, s.clock_frame]
    exact hstep
  have hend : s.endStep stepped = s.clock.finishFwHalt.handshakes := by
    rw [State.endStep, hstep', Bool.and_false, if_neg Bool.false_ne_true]
  rw [hend, State.finishFwHalt, if_pos hfw']
  exact ⟨rfl, rfl, s.clock.quiesce_lsu⟩

/-- The PMU's halt request honoured: pmu/fw-halt, acknowledged, the LSU empty and the instruction still to come (R557). -/
theorem State.pmuHaltNow_spec (s : State) :
    s.pmuHaltNow.hart.activity = .pmuHalt ∧ s.pmuHaltNow.cpuHaltStatus = true ∧ s.pmuHaltNow.outs.cpuHaltAck = true ∧
      s.pmuHaltNow.lsu = { wbuf := [], busOut := [] } ∧ s.pmuHaltNow.pc = s.pc ∧ s.pmuHaltNow.x = s.x :=
  ⟨rfl, rfl, rfl, s.quiesce_lsu, s.quiesce_frame.pc, s.quiesce_frame.x⟩

/-- A running hart that is not single-stepping answers the PMU's request, unless a debug halt request comes first (R552). -/
theorem State.hartStep_pmuHalt {s : State} (hrun : s.hart.activity = .running) (hreq : s.debugHaltReq = false)
    (hpmu : s.pins.cpuHaltReq = true) (hstep : s.hart.stepping = false) :
    s.hartStep = (false, .next s.pmuHaltOrDebug) := by
  simp [State.hartStep, hrun, State.runningStep, hreq, hpmu, hstep]

/-! ### Out of pmu/fw-halt (R557, R560) -/

section
variable {s : State}

theorem State.pmuHaltStep_waits (hreq : s.debugHaltReq = false) (hrun : s.pins.cpuRunReq = false)
    (hwake : s.wakes = false) : s.pmuHaltStep = s := by
  simp [State.pmuHaltStep, hreq, hrun, hwake]

/-- The PMU's run request or a wake-up event makes the hart run on where it stood. -/
theorem State.pmuHaltStep_runs (hreq : s.debugHaltReq = false) (h : s.pins.cpuRunReq = true ∨ s.wakes = true) :
    s.pmuHaltStep.hart.activity = .running ∧ s.pmuHaltStep.pc = s.pc ∧ s.pmuHaltStep.x = s.x := by
  rw [State.pmuHaltStep, if_neg (Bool.eq_false_iff.mp hreq)]
  split
  · exact ⟨rfl, rfl, rfl⟩
  next hrun =>
    rw [if_pos (h.resolve_left hrun)]
    exact ⟨rfl, rfl, rfl⟩

/-- The wake-up events of R560. -/
theorem State.wakes_iff :
    s.wakes = true ↔ s.hart.nmiPin = true ∨ s.hart.nmiBus ≠ none ∨
      (s.csr.mstatus.getLsbD 3 = true ∧
        ((s.picEval.1 = 15#4 ∧ s.csr.mie.getLsbD 11 = true) ∨ (s.pins.timerInt = true ∧ s.csr.mie.getLsbD 7 = true) ∨
          ((s.hit0 = true ∨ s.hart.mitHold0 = true) ∧ s.csr.mitctl0.getLsbD 1 = true ∧ s.csr.mie.getLsbD 29 = true) ∨
          ((s.hit1 = true ∨ s.hart.mitHold1 = true) ∧ s.csr.mitctl1.getLsbD 1 = true ∧ s.csr.mie.getLsbD 28 = true))) := by
  simp only [State.wakes, State.nmiPending, State.mieOn, State.mhwakeup, Bool.or_eq_true, Bool.and_eq_true, beq_iff_eq,
    Option.isSome_iff_ne_none, or_assoc, and_assoc]

end

/-- Settles O53: each transition by its lemma; on the PMU's request, the halt asked for or the instruction's own. -/
theorem powerStates : Obligations.PowerStates := by
  intro s v
  refine ⟨State.csrWrite_mpmc_halt, fun hfw hstep => State.endStep_fwHalt hfw hstep true,
    fun hrun hreq hpmu hstep => ⟨_, State.hartStep_pmuHalt hrun hreq hpmu hstep, ?_⟩, State.pmuHaltStep_waits,
    State.pmuHaltStep_runs, State.wakes_iff⟩
  cases hown : s.ownHalt with
  | none =>
    have ht : s.pmuHaltOrDebug = s.pmuHaltNow := by rw [State.pmuHaltOrDebug, hown]; rfl
    obtain ⟨hact, hstatus, hack, hlsu, hpc, hx⟩ := s.pmuHaltNow_spec
    rw [ht]
    exact ⟨hlsu, State.getReg_congr hx, fun _ => ⟨hact, hstatus, hack, hpc, hx⟩, fun hne => absurd rfl hne⟩
  | some u =>
    have ht : s.pmuHaltOrDebug = u := by rw [State.pmuHaltOrDebug, hown]; rfl
    have hhalts : HaltsItself s u := State.haltsItself_of_ownHalt hown
    obtain ⟨cause, hu⟩ := hhalts.enters
    rw [ht]
    exact ⟨hu.lsu, hu.getReg, fun hnone => absurd hnone (Option.some_ne_none u),
      fun _ => ⟨hu.activity, hhalts.2, hu.dpc, hhalts.dcsr⟩⟩

end Sys2Proof.Machine
end

section
/-! PROOFS. Reset, and where a step stops (70_reset_and_hazards.md R650-R657, R690; R554, R558). -/

namespace Sys2Proof.Machine

/-! ### The core complex in reset (R650, R652, R656) -/

theorem Build.mfdcReset_eq (c : Build) :
    Build.mfdcReset c = if c.lsuBus = .axi4 then 0x00070040#32 else 0x00070000#32 := by
  unfold Build.mfdcReset
  cases c.lsuBus <;> rfl

/-- In reset every integer register is 0 (R652). -/
theorem State.getReg_resetHart (s : State) (r : Reg) : s.resetHart.getReg r = 0#32 := by
  unfold State.getReg
  split
  · rfl
  · exact Vector.getElem_replicate _

/-- Settles O55: registers, mfdc and the I-cache by their lemmas, every other field as `resetHart` sets or leaves it. -/
theorem resetOfTheCore : Obligations.ResetOfTheCore := by
  intro s t
  refine ⟨s.getReg_resetHart, rfl, ?general, ?counters, ⟨rfl, rfl, rfl, rfl, rfl, Build.mfdcReset_eq s.cfg, rfl⟩, ?debug,
    rfl, rfl, rfl, rfl, rfl, rfl, fun key => ?icache, rfl, rfl, rfl, rfl, rfl⟩
  case general => exact ⟨rfl, rfl, rfl, rfl, rfl, rfl, rfl, rfl, rfl, rfl, rfl, rfl⟩
  case counters => exact ⟨rfl, rfl, rfl, rfl, rfl, rfl, rfl, rfl, rfl, rfl, rfl⟩
  case debug => exact ⟨rfl, rfl, rfl, rfl, rfl, rfl, rfl, rfl⟩
  case icache => exact s.icache.tagAt_invalidate key

/-- Settles O57: the CSRs by `Csrs.reset_legal`, the other clauses on the reset state itself, whose memories and buffers are empty. -/
theorem resetInvariant : Obligations.ResetInvariant where
  cfg := by decide
  pc := by decide
  csr := Csrs.reset_legal (by decide)
  dicad1 := by decide
  hart := ⟨by decide, by decide, by decide⟩
  iccm := rfl
  dccm := rfl
  soc := rfl
  icData := rfl
  icTags := rfl
  icLru := rfl
  bus := Nat.zero_le _
  stores := fun _ hp => absurd hp List.not_mem_nil

/-! ### No instruction stops the machine -/

/-- Every arm of `exec` answers with a next state. -/
theorem exec_next (i : Instr) (s : State) : ∃ t, exec i s = .next t := by
  cases i <;> exact ⟨_, rfl⟩

theorem State.runDecoded_next (s : State) (i : Instr) : ∃ t, s.runDecoded i = .next t := by
  unfold State.runDecoded
  split
  · exact exec_next i s
  · exact ⟨_, rfl⟩
  · exact ⟨_, rfl⟩

theorem State.runInstr_next (s : State) : ∃ t, s.runInstr.2 = .next t := by
  unfold State.runInstr
  split
  · exact ⟨_, rfl⟩
  · exact ⟨_, rfl⟩
  · dsimp only
    split
    · exact ⟨_, rfl⟩
    · exact State.runDecoded_next _ _

theorem State.runningStep_next (s : State) : ∃ t, s.runningStep.2 = .next t := by
  unfold State.runningStep
  split
  · exact ⟨_, rfl⟩
  · split
    · exact ⟨_, rfl⟩
    · split
      · exact ⟨_, rfl⟩
      · split
        · exact ⟨_, rfl⟩
        · split
          · exact ⟨_, rfl⟩
          · exact s.runInstr_next

theorem State.hartStep_next (s : State) : ∃ t, s.hartStep.2 = .next t := by
  unfold State.hartStep
  split
  · exact ⟨_, rfl⟩
  · exact ⟨_, rfl⟩
  · exact s.runningStep_next

/-! ### Where a step stops (R690, U16) -/

/-- After the events a step stops in a test mode, and else goes on (R690). -/
theorem State.afterEvents_next {s : State} (h : (s.pins.scanMode || s.pins.mbistMode) = false) :
    ∃ t, s.afterEvents = .next t := by
  rw [State.afterEvents, if_neg (Bool.eq_false_iff.mp h)]
  split
  · exact ⟨_, rfl⟩
  · obtain ⟨t, ht⟩ := s.hartStep_next
    exact ⟨_, by rw [finishStep, ht]⟩

theorem State.afterEvents_testMode {s : State} (h : (s.pins.scanMode || s.pins.mbistMode) = true) :
    s.afterEvents = .fault .testMode := if_pos h

/-- A step is refused without an outcome of its events. -/
theorem step_of_violation {s : State} (h : s.beginStep.applyEvents s.beginStep.env.events = none) :
    step s = .refused .protocolViolation := by
  simp only [step, State.stepOnce, h]

theorem step_of_events {s u : State} (h : s.beginStep.applyEvents s.beginStep.env.events = some u) :
    step s = u.afterEvents := by
  simp only [step, State.stepOnce, h]

/-- A step stops with a fault exactly in a test mode (R690). -/
theorem step_fault_iff (s : State) :
    (∃ f, step s = .fault f) ↔ ∃ u, s.beginStep.applyEvents s.beginStep.env.events = some u ∧
      (u.pins.scanMode || u.pins.mbistMode) = true := by
  cases he : s.beginStep.applyEvents s.beginStep.env.events with
  | none => simp [step_of_violation he]
  | some u =>
    rw [step_of_events he]
    cases htest : u.pins.scanMode || u.pins.mbistMode with
    | true => exact ⟨fun _ => ⟨u, rfl, htest⟩, fun _ => ⟨_, State.afterEvents_testMode htest⟩⟩
    | false =>
      obtain ⟨t, ht⟩ := State.afterEvents_next htest
      simpa [ht] using htest

/-- A step is refused exactly on a protocol violation among its events (U16). -/
theorem step_refused_iff (s : State) :
    (∃ r, step s = .refused r) ↔ s.beginStep.applyEvents s.beginStep.env.events = none := by
  cases he : s.beginStep.applyEvents s.beginStep.env.events with
  | none => exact ⟨fun _ => rfl, fun _ => ⟨_, step_of_violation he⟩⟩
  | some u =>
    rw [step_of_events he]
    cases htest : u.pins.scanMode || u.pins.mbistMode with
    | true => simp [State.afterEvents_testMode htest]
    | false =>
      obtain ⟨t, ht⟩ := State.afterEvents_next htest
      simp [ht]

/-- Of the events only new pin levels can be a violation (R554, R557, R558). -/
theorem State.applyEvent_eq_none_iff (s : State) (e : Event) :
    s.applyEvent e = none ↔ ∃ p, e = .pins p ∧ s.violates p = true := by
  cases e with
  | pins p => simp [State.applyEvent]
  | _ => simp [State.applyEvent]

/-- The resets are a violation when the MPC asks a hart that it starts in db-halt to run (R558, R655). -/
theorem State.settleResets_eq_none_iff (s : State) :
    s.settleResets = none ↔ (s.applyResets.inReset = true ∨ s.applyResets.hart.held = true) ∧
      s.pins.mpcResetRunReq = false ∧ s.pins.mpcRunReq = true := by
  have hviolates : s.settleResets = none ↔ s.applyResets.resetViolates = true := by
    rcases s.settleResets_cases with ⟨hnone, hv⟩ | ⟨hv, ⟨_, hsome⟩ | ⟨_, hsome⟩⟩
    · simp [hnone, hv]
    · simp [hsome, hv]
    · simp [hsome, hv]
  rw [hviolates, State.resetViolates, s.applyResets_pins, Bool.and_eq_true, Bool.and_eq_true, Bool.or_eq_true,
    Bool.not_eq_true', and_assoc]

/-- Settles O36: no instruction stops, and a step stops in a test mode or on a violation only. -/
theorem noInstructionStops : Obligations.NoInstructionStops :=
  ⟨exec_next, step_fault_iff, step_refused_iff, State.applyEvent_eq_none_iff, State.settleResets_eq_none_iff⟩

end Sys2Proof.Machine
end
